-- ==== Sys2Proof/Word.lean ====
section
/-! DEFINITION. Widths, sparse maps and the small closed types every other file uses. -/

namespace Sys2Proof

/-- One byte of storage (R3). -/
abbrev Byte := BitVec 8

/-- A 64-bit scalar register (R36, R164). -/
abbrev Word := BitVec 64

/-- A 32-bit instruction word, step word, record or status word (R142, R124, R350). -/
abbrev W32 := BitVec 32

/-- Sparse data by key: a list of pairs with strictly rising keys. -/
abbrev Map (α : Type) := List (Nat × α)

/-- The six rings of a ply (R32), also the six agents of a ply in the agent order of R41. -/
inductive Ring where
  | sq | vl | va | vs | mx | tr
  deriving DecidableEq, Repr, Inhabited

/-- Agent codes of R99 and R353. -/
def Ring.code : Ring → Nat
  | .sq => 0 | .vl => 1 | .va => 2 | .vs => 3 | .mx => 4 | .tr => 5

/-- All rings in the agent order of R41. -/
def Ring.all : List Ring := [.sq, .vl, .va, .vs, .mx, .tr]

/-- Management and BAR registers that have no row of their own in the table of steps
(`REGISTER_WRITE`, R4). -/
inductive Reg where
  | dage | cstore | pwdog | ferr | ccfg | ethcfg | ethkey | presetReplay | fwstatSel | pwrTrip
  | cmdBase | cmdSize | cplBase | cplSize | coCount | coCycles | intEn | trapqBase | trapqSize
  | rxhead | wpaceNeed | lwinMode | updWindow | prectl
  deriving DecidableEq, Repr, Inhabited

end Sys2Proof
end

