-- ==== Sys2Proof/Syntax.lean ====
section
/-! DEFINITION. The instruction set: one constructor per row of the table of operations and events. -/


namespace Sys2Proof

/-- One constructor for each row of spec/opcode_table.json, in the table's order: the SQ words (R155, R156), the
vector words (R158), the matrix step words (R159), the transfer step words (R160), and the events that have no
word of their own. An event carries what the outside world supplies (a register value, a payload, elapsed
cycles); a word carries its fields. -/
inductive Instr where
  /-- ADD, R166. Adds two 64-bit sources modulo 2^64 and writes the result. -/
  | add (nw : Bool) (dst : BitVec 6) (a b : BitVec 7)
  /-- SUB, R166. Subtracts the second source from the first modulo 2^64. -/
  | sub (nw : Bool) (dst : BitVec 6) (a b : BitVec 7)
  /-- AND, R166. Bitwise AND of two sources. -/
  | and (nw : Bool) (dst : BitVec 6) (a b : BitVec 7)
  /-- OR, R166. Bitwise OR of two sources. -/
  | or (nw : Bool) (dst : BitVec 6) (a b : BitVec 7)
  /-- XOR, R166. Bitwise XOR of two sources. -/
  | xor (nw : Bool) (dst : BitVec 6) (a b : BitVec 7)
  /-- ANDN, R166. A AND NOT B. -/
  | andn (nw : Bool) (dst : BitVec 6) (a b : BitVec 7)
  /-- SHL, R166. Shifts A left by B mod 64. -/
  | shl (nw : Bool) (dst : BitVec 6) (a b : BitVec 7)
  /-- SHR, R166. Logical right shift of A by B mod 64. -/
  | shr (nw : Bool) (dst : BitVec 6) (a b : BitVec 7)
  /-- SAR, R166. Arithmetic right shift of A by B mod 64. -/
  | sar (nw : Bool) (dst : BitVec 6) (a b : BitVec 7)
  /-- ROL, R166. Rotates A left by B mod 64. -/
  | rol (nw : Bool) (dst : BitVec 6) (a b : BitVec 7)
  /-- MUL, R166. Low 64 bits of the product. -/
  | mul (nw : Bool) (dst : BitVec 6) (a b : BitVec 7)
  /-- MULH, R166. High 64 bits of the signed product. -/
  | mulh (nw : Bool) (dst : BitVec 6) (a b : BitVec 7)
  /-- MULHU, R166. High 64 bits of the unsigned product. -/
  | mulhu (nw : Bool) (dst : BitVec 6) (a b : BitVec 7)
  /-- DIV, R167. Signed division truncated towards zero, never trapping. -/
  | div (nw : Bool) (dst : BitVec 6) (a b : BitVec 7)
  /-- DIVU, R167. Unsigned division, never trapping. -/
  | divu (nw : Bool) (dst : BitVec 6) (a b : BitVec 7)
  /-- REM, R167. Signed remainder with the sign of the dividend. -/
  | rem (nw : Bool) (dst : BitVec 6) (a b : BitVec 7)
  /-- REMU, R167. Unsigned remainder. -/
  | remu (nw : Bool) (dst : BitVec 6) (a b : BitVec 7)
  /-- MIN, R166. Signed minimum. -/
  | min (nw : Bool) (dst : BitVec 6) (a b : BitVec 7)
  /-- MAX, R166. Signed maximum. -/
  | max (nw : Bool) (dst : BitVec 6) (a b : BitVec 7)
  /-- MINU, R166. Unsigned minimum. -/
  | minu (nw : Bool) (dst : BitVec 6) (a b : BitVec 7)
  /-- MAXU, R166. Unsigned maximum. -/
  | maxu (nw : Bool) (dst : BitVec 6) (a b : BitVec 7)
  /-- CLZ, R166. Counts leading zero bits of A. -/
  | clz (nw : Bool) (dst : BitVec 6) (a : BitVec 7)
  /-- CTZ, R166. Counts trailing zero bits of A. -/
  | ctz (nw : Bool) (dst : BitVec 6) (a : BitVec 7)
  /-- POPC, R166. Counts one bits of A. -/
  | popc (nw : Bool) (dst : BitVec 6) (a : BitVec 7)
  /-- ADDS, R166. Saturating signed add, setting clamp on saturation. -/
  | adds (nw : Bool) (dst : BitVec 6) (a b : BitVec 7)
  /-- SUBS, R166. Saturating signed subtract, setting clamp on saturation. -/
  | subs (nw : Bool) (dst : BitVec 6) (a b : BitVec 7)
  /-- SEQ, R169. Writes 1 if A equals B, else 0. -/
  | seq (nw : Bool) (dst : BitVec 6) (a b : BitVec 7)
  /-- SNE, R169. Writes 1 if A differs from B. -/
  | sne (nw : Bool) (dst : BitVec 6) (a b : BitVec 7)
  /-- SLT, R169. Writes 1 if A is less than B, signed. -/
  | slt (nw : Bool) (dst : BitVec 6) (a b : BitVec 7)
  /-- SLTU, R169. Writes 1 if A is less than B, unsigned. -/
  | sltu (nw : Bool) (dst : BitVec 6) (a b : BitVec 7)
  /-- SGE, R169. Writes 1 if A is at least B, signed. -/
  | sge (nw : Bool) (dst : BitVec 6) (a b : BitVec 7)
  /-- SGEU, R169. Writes 1 if A is at least B, unsigned. -/
  | sgeu (nw : Bool) (dst : BitVec 6) (a b : BitVec 7)
  /-- SLI, R168. Shifts A left 12 and ORs in the immediate. -/
  | sli (nw : Bool) (dst : BitVec 6) (a : BitVec 7) (imm : BitVec 12)
  /-- ADDI, R168. Adds a sign-extended immediate. -/
  | addi (nw : Bool) (dst : BitVec 6) (a : BitVec 7) (imm : BitVec 12)
  /-- ANDI, R168. ANDs a zero-extended immediate. -/
  | andi (nw : Bool) (dst : BitVec 6) (a : BitVec 7) (imm : BitVec 12)
  /-- ORI, R168. ORs a zero-extended immediate. -/
  | ori (nw : Bool) (dst : BitVec 6) (a : BitVec 7) (imm : BitVec 12)
  /-- XORI, R168. XORs a zero-extended immediate. -/
  | xori (nw : Bool) (dst : BitVec 6) (a : BitVec 7) (imm : BitVec 12)
  /-- SHLI, R168. Shifts left by an immediate amount. -/
  | shli (nw : Bool) (dst : BitVec 6) (a : BitVec 7) (sh : BitVec 6)
  /-- SHRI, R168. Logical right shift by an immediate amount. -/
  | shri (nw : Bool) (dst : BitVec 6) (a : BitVec 7) (sh : BitVec 6)
  /-- SARI, R168. Arithmetic right shift by an immediate amount. -/
  | sari (nw : Bool) (dst : BitVec 6) (a : BitVec 7) (sh : BitVec 6)
  /-- SLTI, R168. Signed compare with a sign-extended immediate. -/
  | slti (nw : Bool) (dst : BitVec 6) (a : BitVec 7) (imm : BitVec 12)
  /-- SLTIU, R168. Unsigned compare with a sign-extended immediate. -/
  | sltiu (nw : Bool) (dst : BitVec 6) (a : BitVec 7) (imm : BitVec 12)
  /-- BEQZ, R171. Branches if A is zero. -/
  | beqz (a : BitVec 7) (imm : BitVec 12)
  /-- BNEZ, R171. Branches if A is non-zero. -/
  | bnez (a : BitVec 7) (imm : BitVec 12)
  /-- BLTZ, R171. Branches if A is negative. -/
  | bltz (a : BitVec 7) (imm : BitVec 12)
  /-- BGEZ, R171. Branches if A is at least zero. -/
  | bgez (a : BitVec 7) (imm : BitVec 12)
  /-- BGTZ, R171. Branches if A is positive. -/
  | bgtz (a : BitVec 7) (imm : BitVec 12)
  /-- BLEZ, R171. Branches if A is at most zero. -/
  | blez (a : BitVec 7) (imm : BitVec 12)
  /-- BRA, R171. Branches unconditionally. -/
  | bra (imm : BitVec 12)
  /-- JAL, R172. Jumps by a 19-bit word offset and writes the link. -/
  | jal (nw : Bool) (dst : BitVec 6) (off : BitVec 19)
  /-- JALR, R172. Jumps to A plus a word offset and writes the link. -/
  | jalr (nw : Bool) (dst : BitVec 6) (a : BitVec 7) (imm : BitVec 12)
  /-- LDB, R175. Loads one byte, zero-extended. -/
  | ldb (nw : Bool) (dst : BitVec 6) (a : BitVec 7) (imm : BitVec 12)
  /-- LDH, R175. Loads two bytes, zero-extended. -/
  | ldh (nw : Bool) (dst : BitVec 6) (a : BitVec 7) (imm : BitVec 12)
  /-- LDW, R175. Loads four bytes, zero-extended. -/
  | ldw (nw : Bool) (dst : BitVec 6) (a : BitVec 7) (imm : BitVec 12)
  /-- LDD, R175. Loads eight bytes. -/
  | ldd (nw : Bool) (dst : BitVec 6) (a : BitVec 7) (imm : BitVec 12)
  /-- LDBS, R175. Loads one byte, sign-extended. -/
  | ldbs (nw : Bool) (dst : BitVec 6) (a : BitVec 7) (imm : BitVec 12)
  /-- LDHS, R175. Loads two bytes, sign-extended. -/
  | ldhs (nw : Bool) (dst : BitVec 6) (a : BitVec 7) (imm : BitVec 12)
  /-- LDWS, R175. Loads four bytes, sign-extended. -/
  | ldws (nw : Bool) (dst : BitVec 6) (a : BitVec 7) (imm : BitVec 12)
  /-- SB, R176. Stores the low byte of the data register. -/
  | sb (dst : BitVec 6) (a : BitVec 7) (imm : BitVec 12)
  /-- SH, R176. Stores the low two bytes. -/
  | sh (dst : BitVec 6) (a : BitVec 7) (imm : BitVec 12)
  /-- SW, R176. Stores the low four bytes. -/
  | sw (dst : BitVec 6) (a : BitVec 7) (imm : BitVec 12)
  /-- SD, R176. Stores eight bytes. -/
  | sd (dst : BitVec 6) (a : BitVec 7) (imm : BitVec 12)
  /-- LDO, R177. Ordered 8-byte load with acquire, release and scope. -/
  | ldo (nw : Bool) (dst : BitVec 6) (a : BitVec 7) (acq rel : Bool) (scope : BitVec 3)
  /-- LDOW, R177. Ordered 4-byte load, zero-extended. -/
  | ldow (nw : Bool) (dst : BitVec 6) (a : BitVec 7) (acq rel : Bool) (scope : BitVec 3)
  /-- STO, R177. Ordered 8-byte store of B. -/
  | sto (a b : BitVec 7) (acq rel : Bool) (scope : BitVec 3)
  /-- STOW, R177. Ordered 4-byte store of B. -/
  | stow (a b : BitVec 7) (acq rel : Bool) (scope : BitVec 3)
  /-- AADD, R181. Atomic add, returning the old value. -/
  | aadd (nw : Bool) (dst : BitVec 6) (a b : BitVec 7) (acq rel : Bool) (scope : BitVec 3)
  /-- AAND, R181. Atomic AND. -/
  | aand (nw : Bool) (dst : BitVec 6) (a b : BitVec 7) (acq rel : Bool) (scope : BitVec 3)
  /-- AOR, R181. Atomic OR. -/
  | aor (nw : Bool) (dst : BitVec 6) (a b : BitVec 7) (acq rel : Bool) (scope : BitVec 3)
  /-- AXOR, R181. Atomic XOR. -/
  | axor (nw : Bool) (dst : BitVec 6) (a b : BitVec 7) (acq rel : Bool) (scope : BitVec 3)
  /-- AMIN, R181. Atomic signed minimum. -/
  | amin (nw : Bool) (dst : BitVec 6) (a b : BitVec 7) (acq rel : Bool) (scope : BitVec 3)
  /-- AMAX, R181. Atomic signed maximum. -/
  | amax (nw : Bool) (dst : BitVec 6) (a b : BitVec 7) (acq rel : Bool) (scope : BitVec 3)
  /-- ASWAP, R181. Atomic swap. -/
  | aswap (nw : Bool) (dst : BitVec 6) (a b : BitVec 7) (acq rel : Bool) (scope : BitVec 3)
  /-- ACAS, R181. Atomic compare-and-swap against the expected value in dst. -/
  | acas (nw : Bool) (dst : BitVec 6) (a b : BitVec 7) (acq rel : Bool) (scope : BitVec 3)
  /-- SRD, R183. Reads a system register. -/
  | srd (nw : Bool) (dst : BitVec 6) (imm : BitVec 12)
  /-- SWR, R183. Writes a system register under its access codes. -/
  | swr (a : BitVec 7) (imm : BitVec 12)
  /-- TRAP, R187. Takes the software trap with an immediate code. -/
  | trap (imm : BitVec 12)
  /-- NOP, R187. Does nothing. -/
  | nop
  /-- FENCE, R111. Orders accesses at a scope, optionally draining engine rings. -/
  | fence (drain : Bool) (scope : BitVec 3)
  /-- YIELD, R189. Moves the ply from Running to Ready. -/
  | yield
  /-- END, R190. Ends the ply, dropping holds and pins and marking an unfilled future reclaimed. -/
  | endUnit
  /-- FRAISE, R197. Raises a flag by an immediate amount. -/
  | fraise (flag : BitVec 6) (imm : BitVec 12)
  /-- FWAIT, R194. Waits until a flag reaches a threshold, optionally subtracting it. -/
  | fwait (flag : BitVec 6) (a : BitVec 7) (sub : Bool) (imm : BitVec 11)
  /-- TOK_PUSH, R197. Pushes 1 to 16 tokens from SQ to a ring. -/
  | tokPush (cnt : BitVec 4) (ring : BitVec 3)
  /-- TOK_POP, R197. Pops one token from a ring to SQ. -/
  | tokPop (ring : BitVec 3)
  /-- BARR, R197. Arrives at a numbered barrier. -/
  | barr (bar : BitVec 8)
  /-- BWAIT, R195. Waits until a barrier's phase reaches a target. -/
  | bwait (a : BitVec 7) (bar : BitVec 8)
  /-- MWAIT, R196. Monitors a line and waits until an 8-byte compare holds. -/
  | mwait (a b : BitVec 7) (cond : BitVec 2)
  /-- STAGE, R206. Advances the stage counter and releases schedule entries. -/
  | stage (a : BitVec 7) (imm : BitVec 12)
  /-- SPAWN, R199. Creates one unit from a launch record and returns its future handle. -/
  | spawn (nw : Bool) (dst : BitVec 6) (a b : BitVec 7)
  /-- REF, R198. Takes a reference on a future. -/
  | ref (a : BitVec 7)
  /-- DROP, R53. Drops a reference, dooming the future at reach zero. -/
  | drop (a : BitVec 7)
  /-- GET, R198. Reads a future, waiting on its deferred-read list if empty. -/
  | get (nw : Bool) (dst : BitVec 5) (a : BitVec 7)
  /-- GETC, R198. Reads a future and then drops the reference. -/
  | getc (nw : Bool) (dst : BitVec 5) (a : BitVec 7)
  /-- PUT, R200. Fills the caller's own future with a 128-bit value. -/
  | put (a b : BitVec 7)
  /-- PUTI, R200. Fills the caller's own future indirectly with an address and length. -/
  | puti (a b : BitVec 7)
  /-- PIN, R57. Pins the caller's own unit against reclamation. -/
  | pin
  /-- UNPIN, R57. Unpins the unit; a reclamation point. -/
  | unpin
  /-- RCP, R198. A reclamation point and nothing else. -/
  | rcp
  /-- FINS, R198. Returns bits 63:0 of a future-table entry. -/
  | fins (nw : Bool) (dst : BitVec 6) (a : BitVec 7)
  /-- CANCEL, R201. Cancels a level record of the caller's job and returns the outcome. -/
  | cancel (nw : Bool) (dst : BitVec 6) (a : BitVec 7)
  /-- HAWAIT, R203. Waits for a matching retained hank copy and takes a hold on it. -/
  | hawait (a b : BitVec 7)
  /-- HAREL, R203. Ends one hold on the oldest matching copy. -/
  | harel (a b : BitVec 7)
  /-- ENQ, R204. Appends entries from die store to an engine ring. -/
  | enq (a b : BitVec 7) (ring : BitVec 3)
  /-- QDEP, R205. Sets the vector slip depth. -/
  | qdep (imm : BitVec 9)
  /-- LBEG, R208. Starts a loop of the loop unit. -/
  | lbeg (a b : BitVec 7)
  /-- LNEXT, R208. Counts an iteration and loops or leaves for the epilogue. -/
  | lnext
  /-- LCNT, R208. Returns the completed iteration count. -/
  | lcnt (nw : Bool) (dst : BitVec 6)
  /-- FLIP, R210. Publishes a buffer-map entry and returns its status. -/
  | flip (nw : Bool) (dst : BitVec 6) (entry : BitVec 10)
  /-- VAD, R231. Writes a VL address descriptor from three literal words. -/
  | vad (ad : BitVec 4) (lit1 lit2 lit3 : BitVec 32) (push pop : Bool)
  /-- VLD, R234. Loads a tile from memory into a register, dense or strided. -/
  | vld (d : BitVec 8) (mode : BitVec 3) (inc : Bool) (ad : BitVec 4) (push pop : Bool)
  /-- VLDG, R234. Gathers tile rows at offsets from a register. -/
  | vldg (d : BitVec 8) (ad : BitVec 4) (b : BitVec 8) (push pop : Bool)
  /-- VLDB, R234. Loads one row and broadcasts it to every row. -/
  | vldb (d : BitVec 8) (mode : BitVec 3) (inc : Bool) (ad : BitVec 4) (push pop : Bool)
  /-- VADD, R218. Element-wise wrapping integer add. -/
  | vadd (d a b : BitVec 8) (push pop : Bool)
  /-- VSUB, R218. Element-wise wrapping integer subtract. -/
  | vsub (d a b : BitVec 8) (push pop : Bool)
  /-- VMUL, R218. Element-wise low product. -/
  | vmul (d a b : BitVec 8) (push pop : Bool)
  /-- VMULH, R218. Element-wise high signed product. -/
  | vmulh (d a b : BitVec 8) (push pop : Bool)
  /-- VAND, R218. Element-wise AND. -/
  | vand (d a b : BitVec 8) (push pop : Bool)
  /-- VOR, R218. Element-wise OR. -/
  | vor (d a b : BitVec 8) (push pop : Bool)
  /-- VXOR, R218. Element-wise XOR. -/
  | vxor (d a b : BitVec 8) (push pop : Bool)
  /-- VSHL, R218. Element-wise left shift. -/
  | vshl (d a b : BitVec 8) (push pop : Bool)
  /-- VSHR, R218. Element-wise logical right shift. -/
  | vshr (d a b : BitVec 8) (push pop : Bool)
  /-- VSAR, R218. Element-wise arithmetic right shift. -/
  | vsar (d a b : BitVec 8) (push pop : Bool)
  /-- VMIN, R218. Element-wise signed minimum. -/
  | vmin (d a b : BitVec 8) (push pop : Bool)
  /-- VMAX, R218. Element-wise signed maximum. -/
  | vmax (d a b : BitVec 8) (push pop : Bool)
  /-- VMINU, R218. Element-wise unsigned minimum. -/
  | vminu (d a b : BitVec 8) (push pop : Bool)
  /-- VMAXU, R218. Element-wise unsigned maximum. -/
  | vmaxu (d a b : BitVec 8) (push pop : Bool)
  /-- VADDS, R218. Element-wise saturating add. -/
  | vadds (d a b : BitVec 8) (push pop : Bool)
  /-- VSUBS, R218. Element-wise saturating subtract. -/
  | vsubs (d a b : BitVec 8) (push pop : Bool)
  /-- VFADD, R219. Element-wise floating add rounded to df. -/
  | vfadd (d a b : BitVec 8) (push pop : Bool)
  /-- VFSUB, R219. Element-wise floating subtract. -/
  | vfsub (d a b : BitVec 8) (push pop : Bool)
  /-- VFMUL, R219. Element-wise floating multiply. -/
  | vfmul (d a b : BitVec 8) (push pop : Bool)
  /-- VFMA, R219. Element-wise fused multiply-add with addend from d. -/
  | vfma (d a b : BitVec 8) (push pop : Bool)
  /-- VFMIN, R219. Element-wise floating minimum. -/
  | vfmin (d a b : BitVec 8) (push pop : Bool)
  /-- VFMAX, R219. Element-wise floating maximum. -/
  | vfmax (d a b : BitVec 8) (push pop : Bool)
  /-- VFNEG, R221. Element-wise negation. -/
  | vfneg (d a : BitVec 8) (push pop : Bool)
  /-- VFABS, R221. Element-wise absolute value. -/
  | vfabs (d a : BitVec 8) (push pop : Bool)
  /-- VEXP2, R221. Element-wise 2^x in FP32. -/
  | vexp2 (d a : BitVec 8) (push pop : Bool)
  /-- VRCP, R221. Element-wise reciprocal in FP32. -/
  | vrcp (d a : BitVec 8) (push pop : Bool)
  /-- VRSQRT, R221. Element-wise reciprocal square root in FP32. -/
  | vrsqrt (d a : BitVec 8) (push pop : Bool)
  /-- VCVT, R222. Converts elements from sf to df. -/
  | vcvt (d a : BitVec 8) (push pop : Bool)
  /-- VCMPEQ, R223. Integer equal compare to a mask. -/
  | vcmpeq (d a b : BitVec 8) (push pop : Bool)
  /-- VCMPLT, R223. Integer less-than compare to a mask. -/
  | vcmplt (d a b : BitVec 8) (push pop : Bool)
  /-- VCMPLE, R223. Integer less-or-equal compare to a mask. -/
  | vcmple (d a b : BitVec 8) (push pop : Bool)
  /-- VFCMPEQ, R223. Floating equal compare to a mask. -/
  | vfcmpeq (d a b : BitVec 8) (push pop : Bool)
  /-- VFCMPLT, R223. Floating less-than compare to a mask. -/
  | vfcmplt (d a b : BitVec 8) (push pop : Bool)
  /-- VFCMPLE, R223. Floating less-or-equal compare to a mask. -/
  | vfcmple (d a b : BitVec 8) (push pop : Bool)
  /-- VSEL, R224. Selects a or b per element by the mask in d. -/
  | vsel (d a b : BitVec 8) (push pop : Bool)
  /-- VRSUM, R225. Wrapping integer sum along rows or columns. -/
  | vrsum (col : Bool) (d a : BitVec 8) (push pop : Bool)
  /-- VRMAX, R225. Signed integer maximum along rows or columns. -/
  | vrmax (col : Bool) (d a : BitVec 8) (push pop : Bool)
  /-- VRFSUM, R225. Exact floating sum rounded once, along rows or columns. -/
  | vrfsum (col : Bool) (d a : BitVec 8) (push pop : Bool)
  /-- VRFMAX, R225. Floating maximum along rows or columns. -/
  | vrfmax (col : Bool) (d a : BitVec 8) (push pop : Bool)
  /-- VIXSET, R226. Sets an index register to an immediate. -/
  | vixset (ix : BitVec 2) (a : BitVec 8) (push pop : Bool)
  /-- VIXADD, R226. Adds an immediate to an index register modulo 256. -/
  | vixadd (ix : BitVec 2) (a : BitVec 8) (push pop : Bool)
  /-- VIXGET, R226. Sets an index register from element 0 of a register. -/
  | vixget (ix : BitVec 2) (a : BitVec 8) (push pop : Bool)
  /-- VSH, R213. Sets the tile shape at append and checks it at issue. -/
  | vsh (esz : BitVec 2) (rowsM1 : BitVec 6) (colsM1 : BitVec 13) (push pop : Bool)
  /-- VFMT, R214. Copies two format-table entries into the format pair at append. -/
  | vfmt (df sf : BitVec 4) (push pop : Bool)
  /-- VPERM, R241. Permutes the 64 lanes through the Benes network. -/
  | vperm (d a : BitVec 8) (pc : BitVec 4) (push pop : Bool)
  /-- VPSET, R240. Loads a permute control word from a register. -/
  | vpset (p : BitVec 4) (a : BitVec 8) (push pop : Bool)
  /-- VQUANT, R242. Quantises blocks of 32 into codes and E8M0 scales. -/
  | vquant (d a b : BitVec 8) (push pop : Bool)
  /-- VCHAIN, R243. Streams up to eight element-wise operations memory to memory. -/
  | vchain (lit1 lit2 : BitVec 32) (ops : List (BitVec 32)) (push pop : Bool)
  /-- VMOV, R227. Copies a tile. -/
  | vmov (d a : BitVec 8) (push pop : Bool)
  /-- VSAD, R231. Writes a VS address descriptor from three literal words. -/
  | vsad (ad : BitVec 4) (lit1 lit2 lit3 : BitVec 32) (push pop : Bool)
  /-- VST, R234. Stores a tile to memory, dense or strided. -/
  | vst (mode : BitVec 3) (inc : Bool) (ad : BitVec 4) (b : BitVec 8) (push pop : Bool)
  /-- VSTS, R234. Scatters tile rows to offsets from a register. -/
  | vsts (d : BitVec 8) (ad : BitVec 4) (b : BitVec 8) (push pop : Bool)
  /-- VNOP, R228. Performs only its token pop and push. -/
  | vnop (push pop : Bool)
  /-- VFWAIT, R228. Blocks its ring until a flag reaches a threshold. -/
  | vfwait (sub : Bool) (flag : BitVec 6) (thr : BitVec 8) (push pop : Bool)
  /-- VFRAISE, R228. Raises a flag after earlier entries of its ring complete. -/
  | vfraise (flag : BitVec 6) (push pop : Bool)
  /-- MCLAIM, R258. Claims an operand-memory slot, waiting if another ply holds it. -/
  | mclaim (slot : BitVec 5)
  /-- MREL, R258. Releases a slot after earlier users finish. -/
  | mrel (slot : BitVec 5)
  /-- MFILL, R259. Fills slot rows from die store. -/
  | mfill (rowsM1 : BitVec 7) (slot : BitVec 5)
  /-- MAH, R255. Writes bits 55:31 of an MX address register. -/
  | mah (tgt : BitVec 2) (bits : BitVec 25)
  /-- MAL, R255. Writes bits 30:6 of an MX address register. -/
  | mal (tgt : BitVec 2) (bits : BitVec 25)
  /-- MLATCH, R256. Sets the weight source, format and plane, binding a slack copy if chosen. -/
  | mlatch (plane : Bool) (fmt : BitVec 4) (slack : Bool) (slot : BitVec 5)
  /-- MAFMT, R256. Sets the A-stream format record. -/
  | mafmt (fmt : BitVec 4)
  /-- MLOOP, R257. Writes one item of a level of the shadow loop table. -/
  | mloop (lvl : BitVec 3) (item : BitVec 2) (val : BitVec 22)
  /-- MOP, R260. Runs the loop nest of K passes into an accumulator. -/
  | mop (gang : BitVec 2) (accOff negB negA : Bool) (acc : BitVec 2)
  /-- MZERO, R265. Zeroes an accumulator and marks it valid. -/
  | mzero (acc : BitVec 1)
  /-- MDRAIN, R266. Converts and writes accumulator rows to die store. -/
  | mdrain (rowsM1 : BitVec 8) (fmt : BitVec 4) (acc : BitVec 1)
  /-- MFENCE, R267. Makes the command wait for every earlier MX command. -/
  | mfence
  /-- MWIN, R270. Sets the lathe's issue-window mode. -/
  | mwin (mode : BitVec 2)
  /-- GO_MX, R254. Ends and starts an MX command: pop, wait, checks, state, operation. -/
  | goMx (wf : BitVec 6) (thr : BitVec 7) (sub re : Bool) (rf : BitVec 6) (pop push : BitVec 3)
  /-- TAH, R277. Writes bits 55:31 of a TR address register. -/
  | tah (tgt : BitVec 2) (bits : BitVec 25)
  /-- TAL, R277. Writes bits 30:6 of a TR address register and clears 5:0. -/
  | tal (tgt : BitVec 2) (bits : BitVec 25)
  /-- TLB, R277. Writes bits 5:0 of a TR address register. -/
  | tlb (tgt : BitVec 2) (bits : BitVec 6)
  /-- TSHAPE, R278. Sets bytes per row and row count. -/
  | tshape (rowsM1 : BitVec 13) (rowbytes : BitVec 14)
  /-- TSTRIDE, R278. Sets the source or destination row stride. -/
  | tstride (side : Bool) (stride : BitVec 26)
  /-- TCOPY, R279. Copies rows in 4 KiB chunks to a local, remote, peer or host destination. -/
  | tcopy (stamp count host remote : Bool) (die : BitVec 6)
  /-- TENQ, R283. Places a launch record on a die and enqueues it. -/
  | tenq (notify : Bool) (die : BitVec 6) (queue : BitVec 8)
  /-- TSEND, R284. Hands a message to an Ethernet port's engine. -/
  | tsend (port : BitVec 3)
  /-- TCOLL, R289. Starts the member's part of a collective from its descriptor. -/
  | tcoll (group : BitVec 16)
  /-- TFLIP, R285. Publishes a buffer after earlier TR commands and writes a report. -/
  | tflip (entry : BitVec 10)
  /-- TSINV, R286. Drops one or all schedule-cache entries. -/
  | tsinv (all : Bool)
  /-- GO_TR, R276. Ends and starts a TR command: pop, wait, checks, state, operation. -/
  | goTr (wf : BitVec 6) (thr : BitVec 7) (sub re : Bool) (rf : BitVec 6) (pop push : BitVec 3)
  /-- MX_COMMAND_COMPLETE, R254. An MX command finishes; AFLAGS are set and GO raises its flag and pushes. -/
  | mxCommandComplete (die core slot : Nat)
  /-- TR_COMMAND_COMPLETE, R287. A TR operation completes; GO raises its flag and pushes. -/
  | trCommandComplete (die core slot : Nat)
  /-- VECTOR_ENTRY_RETIRE, R40. A vector entry retires and pushes its token. -/
  | vectorEntryRetire (die core slot : Nat) (ring : Ring)
  /-- DISTRIBUTOR_CHOICE, R45. The distributor chooses one unit from the eligible launch queues and ages the others. -/
  | distributorChoice (die : Nat)
  /-- UNIT_BIND, R47. A chosen unit binds to a core, ply slot and register window, and its program is copied. -/
  | unitBind (die : Nat)
  /-- HANK_START, R75. A die starts the hank at the head of its transit queue. -/
  | hankStart (die waited stalls : Nat)
  /-- DWELL_TICK, R83. The interval passes with no start: holds are applied and copies age. -/
  | dwellTick (die : Nat)
  /-- BEAT_ARRIVAL, R74. A beat arrives on the in-port and moves into the transit queue as space frees. -/
  | beatArrival (die : Nat)
  /-- LINK_CREDIT, R74. A credit for a free elastic-buffer beat returns to the upstream out-port. -/
  | linkCredit (die : Nat)
  /-- DIE_FAILURE, R86. A member die fails and the switch layer splices it out of the route. -/
  | dieFailure (die : Nat)
  /-- WHORL_DRAINED, R88. Every beat rests in a transit queue and the drain's completion entry is written. -/
  | whorlDrained (whorl : Nat)
  /-- REMOTE_FRAME_APPLY, R114. A target applies a causal frame, counts its bytes and merges clocks. -/
  | remoteFrameApply (src dst : Nat)
  /-- REMOTE_REPLY, R115. A reply returns with data or acknowledgement and the home clock is merged. -/
  | remoteReply (src dst fseq : Nat)
  /-- FLUSHING_READ, R117. A peer answers a zero-length read after applying earlier writes on the link. -/
  | flushingRead (link : Nat)
  /-- PACKET_HOP, R377. A hop checks a packet and drops it if stale or malformed. -/
  | packetHop (pkt : Nat) (malformed : Bool)
  /-- CONGESTION_ECHO, R373. An echo arrives and the carder updates its per-target rate. -/
  | congestionEcho (src dst : Nat) (echo : Bool)
  /-- TENQ_PLACE, R283. The target checks, places the row and enqueues the launch in one step. -/
  | tenqPlace (die : Nat)
  /-- COLL_FORWARD, R292. A node passes a chunk on unchanged, with copies where set. -/
  | collForward (chunk : Nat)
  /-- COLL_MERGE, R292. A merge node waits for fan inputs and forms one chunk. -/
  | collMerge (node group seq chunk : Nat)
  /-- COLL_SUM, R292. A sum node waits for fan inputs and forms one dense chunk. -/
  | collSum (node group seq chunk : Nat)
  /-- COLL_DELIVER, R292. The receiving carder writes delivered chunks from the output address. -/
  | collDeliver (node group seq : Nat)
  /-- COLL_PUBLISH, R292. The node delivers and then publishes the named buffer. -/
  | collPublish (node group seq : Nat)
  /-- COLL_DEFERRED_REDUCE, R380. The receiving carder rebuilds and performs deferred merges once all inputs arrive. -/
  | collDeferredReduce (die group seq chunk : Nat)
  /-- COLL_ORDER_NOTICE, R379. A collective-order or authentication notice completes the member's tcoll with nothing delivered. -/
  | collOrderNotice (die group seq : Nat)
  /-- TCOLL_COMPLETE, R296. A member's tcoll completes on delivery or hand-off of its chunks. -/
  | tcollComplete (die group seq : Nat)
  /-- TRAP_RECORD_WRITE, R352. When every agent of a held ply is quiescent, the trap record and completion entry are written. -/
  | trapRecordWrite (die core slot : Nat)
  /-- TRESP_RESUME, R356. Resumes a trapped ply, reissuing halted entries. -/
  | trespResume (vf : Nat) (resp : BitVec 128)
  /-- TRESP_SKIP, R356. Skips the halted entries and readies the ply. -/
  | trespSkip (vf : Nat) (resp : BitVec 128)
  /-- TRESP_ABANDON, R356. Abandons the trapped unit, ending it faulted. -/
  | trespAbandon (vf : Nat) (resp : BitVec 128)
  /-- TRESP_REFUSED, R355. A response with action 3 is refused and changes nothing. -/
  | trespRefused (vf : Nat) (resp : BitVec 128)
  /-- TRAPQ_HEAD_WRITE, R354. The host advances the trap ring head and held records are written. -/
  | trapqHeadWrite (vf head : Nat)
  /-- INVALIDATION, R360. INVCTL go raises TGEN and drops cached translations. -/
  | invalidation (value : BitVec 192)
  /-- INVALIDATION_DONE, R360. No access with an old TGEN remains and done is set. -/
  | invalidationDone
  /-- PREEMPT_REQUEST, R361. Requests the sequencer of a ply without eviction. -/
  | preemptRequest (die core slot : Nat)
  /-- PREEMPT_EVICT, R361. Requests eviction and save of a ply. -/
  | preemptEvict (die core slot : Nat)
  /-- PREEMPT_WITHDRAW, R361. Withdraws a request whose sequencer has not been taken. -/
  | preemptWithdraw (die core : Nat)
  /-- PREEMPT_COLLECT_DONE, R361. Agents have acknowledged; the ply is readied or saved and freed. -/
  | preemptCollectDone (die core : Nat)
  /-- PARTITION_RESET, R364. Stops every ply of a partition, drops in-flight traffic and resets state. -/
  | partitionReset (part : Nat)
  /-- WATCHDOG_EXPIRY, R366. A collecting, held or invalidating state outlasts the limit and resets the partition. -/
  | watchdogExpiry (part elapsed : Nat)
  /-- UNCORRECTABLE_SOFT_ERROR, R402. An uncorrectable error resets the partition and may lose a hank. -/
  | uncorrectableSoftError (block : Nat) (addr : Option Nat)
  /-- CARDER_OR_LINK_LOSS, R364. Loss of a carder or link used by a partition resets it. -/
  | carderOrLinkLoss (part block : Nat)
  /-- HOST_MEM_WRITE, R334. A host CXL.mem write to die store, applied physically at its home die. -/
  | hostMemWrite (port die addr : Nat) (bytes : List Byte)
  /-- HOST_MEM_READ, R334. A host CXL.mem read of die store. -/
  | hostMemRead (port die addr len : Nat)
  /-- CMD_DOORBELL, R338. The host writes cmd_tail and the device begins consuming commands. -/
  | cmdDoorbell (vf tail : Nat)
  /-- CMD_NOP, R340. Does nothing beyond its completion entry. -/
  | cmdNop (vf : Nat) (cmd : BitVec 256)
  /-- CMD_OPEN, R340. Creates a job, phase or graph with an extra count. -/
  | cmdOpen (vf : Nat) (cmd : BitVec 256)
  /-- CMD_LAUNCH, R340. Reads a launch record, creates a launch and appends it to a queue. -/
  | cmdLaunch (vf : Nat) (cmd : BitVec 256)
  /-- CMD_SEAL, R340. Removes the extra count of an open level. -/
  | cmdSeal (vf : Nat) (cmd : BitVec 256)
  /-- CMD_CANCEL, R340. Cancels a level as R30 and R31 state. -/
  | cmdCancel (vf : Nat) (cmd : BitVec 256)
  /-- WHORL_LOAD, R345. Checks a whorl record, writes routes and takes regions. -/
  | whorlLoad (vf : Nat) (cmd : BitVec 256)
  /-- WHORL_START, R345. Permits the first hank start of a loaded whorl. -/
  | whorlStart (vf : Nat) (cmd : BitVec 256)
  /-- WHORL_DRAIN, R88. Asks a whorl's dies to finish current hanks and start no other. -/
  | whorlDrain (vf : Nat) (cmd : BitVec 256)
  /-- WHORL_FREE, R345. Releases a drained whorl's regions. -/
  | whorlFree (vf : Nat) (cmd : BitVec 256)
  /-- WHORL_RECONFIGURE, R89. Reconfigures a drained whorl in place and restarts it. -/
  | whorlReconfigure (vf : Nat) (cmd : BitVec 256)
  /-- CPL_HEAD_WRITE, R343. The host advances cpl_head and held completion entries are written. -/
  | cplHeadWrite (vf head : Nat)
  /-- INTERRUPT_WINDOW_EXPIRY, R344. The coalescing window expires and an interrupt is sent. -/
  | interruptWindowExpiry (vf : Nat)
  /-- LQC_WRITE, R46. A launch queue control write; a changed priority or weight resets ageing and credit. -/
  | lqcWrite (die queue : Nat) (value : BitVec 32)
  /-- BUFFER_MAP_WRITE, R100. A 32-byte buffer-map write is checked and registers the buffer. -/
  | bufferMapWrite (die entry : Nat) (value : BitVec 256)
  /-- BARRIER_PARTICIPANTS_WRITE, R42. A write to a barrier's participants may advance its phase. A `bar` of 256 + n is the
  loader's write of barrier n, which sets its phase and its arrivals to 0 as well (R311). -/
  | barrierParticipantsWrite (die bar : Nat) (value : BitVec 64)
  /-- DIEPART_WRITE, R336. Moves a die between partitions, refused unless quiescent. -/
  | diepartWrite (die : Nat) (value : BitVec 64)
  /-- VFBIND_WRITE, R336. Binds a virtual function to a partition with a queue mask. -/
  | vfbindWrite (vf : Nat) (value : BitVec 128)
  /-- CTXWIN_WRITE, R336. Sets a function's window and translation root. -/
  | ctxwinWrite (vf : Nat) (value : BitVec 256)
  /-- JBASE_WRITE, R349. Sets the partition's journal ring and journal die. -/
  | jbaseWrite (part : Nat) (value : BitVec 64)
  /-- GROUP_TABLE_WRITE, R378. Configures a collective group and resets its sequence numbers. -/
  | groupTableWrite (part group : Nat) (value : BitVec 128)
  /-- EGRESS_LINK_ENABLE, R375. Writing en trains and holds an egress link. -/
  | egressLinkEnable (link : Nat) (en : Bool)
  /-- EGRESS_LINK_UP, R375. Training completes and the peer incarnation is learnt. -/
  | egressLinkUp (link : Nat) (peerInc : BitVec 16) (peerId : BitVec 32)
  /-- EGRESS_LINK_DOWN, R375. A link goes down, dropping its packets and resetting affected partitions. -/
  | egressLinkDown (link : Nat)
  /-- ETH_SEND_ACKED, R383. The last byte of a message is acknowledged and its counter is added to. -/
  | ethSendAcked (port : Nat)
  /-- ETH_SEND_GIVEN_UP, R383. The transport gives a message up; the counter gains 2^63 plus length and FERR is written. -/
  | ethSendGivenUp (port : Nat)
  /-- ETH_RECEIVE_SEND, R384. An arriving send is placed in a receive slot and counted. -/
  | ethReceiveSend (port : Nat) (payload : List Byte)
  /-- ETH_RECEIVE_WRITE, R385. An arriving write is placed in the window of its key. -/
  | ethReceiveWrite (port rkey raddr : Nat) (payload : List Byte)
  /-- POWER_ON, R386. The panel boots, verifies firmware, releases and tests blocks. -/
  | powerOn (failed : List Nat)
  /-- FIRMWARE_UPDATE, R389. upd_go starts checking the image in the update window. -/
  | firmwareUpdate
  /-- FIRMWARE_UPDATE_DONE, R389. The image is written to the other bank or refused. -/
  | firmwareUpdateDone
  /-- SVN_COMMIT, R389. Raises the fused minimum security version. -/
  | svnCommit
  /-- GET_VERSION, R392. SPDM request for versions. -/
  | getVersion
  /-- GET_CAPABILITIES, R392. SPDM request for capabilities. -/
  | getCapabilities
  /-- NEGOTIATE_ALGORITHMS, R392. SPDM algorithm negotiation. -/
  | negotiateAlgorithms (algs : List Nat)
  /-- GET_DIGESTS, R392. SPDM request for certificate digests. -/
  | getDigests
  /-- GET_CERTIFICATE, R392. SPDM request for the certificate chain. -/
  | getCertificate (slot : Nat)
  /-- CHALLENGE, R392. SPDM challenge signed by the alias key. -/
  | challenge (slot : Nat) (nonce : BitVec 256)
  /-- GET_MEASUREMENTS, R392. Returns the panel's measurements taken at one instant. -/
  | getMeasurements (index : Nat) (nonce : BitVec 256)
  /-- KEY_EXCHANGE, R392. Sets up an SPDM secured session. -/
  | keyExchange (data : BitVec 256)
  /-- FINISH, R392. Completes the SPDM session handshake. -/
  | finish (mac : BitVec 512)
  /-- KEYSET, R393. Writes or clears an AES key slot within a secured session. -/
  | keyset (slot : Nat) (key : Option (BitVec 256))
  /-- POWER_CONTROL_PERIOD, R394. At the end of a control period a block adjusts its withheld fraction. -/
  | powerControlPeriod (block draw temp : Nat)
  /-- PWRCTL_CAP_WRITE, R395. Writes a block's power cap, clamped to its bounds. -/
  | pwrctlCapWrite (block cap : Nat)
  /-- THERMAL_TRIP, R396. A block reaching its trip temperature removes its own power. -/
  | thermalTrip (block : Nat)
  /-- BHEALTH_CLEAR, R398. Zeroes a block's ce, ue and transient counters. -/
  | bhealthClear (block : Nat)
  /-- PHEALTH_LIMIT_WRITE, R405. Writes a replacement limit, setting why at once if already reached. -/
  | phealthLimitWrite (retLimit ceLimit : Nat)
  /-- REGISTER_WRITE, R4. A write to a register with no row of its own, under its access codes. -/
  | registerWrite (reg : Reg) (index value : Nat)
  /-- ENGINE_STOP_ACK, R37. An engine of a Stopping ply reaches its stopping unit and acknowledges the stop; when every engine has acknowledged, the ply becomes Free. -/
  | engineStopAck (die core slot : Nat) (ring : Ring)
  /-- CORRECTED_SOFT_ERROR, R398. A soft error is corrected in a block; its BHEALTH ce rises and PHEALTH why bit 4 may be set when ce reaches ce_limit. -/
  | correctedSoftError (block : Nat)
  /-- POWER_LOSS, R389. The panel loses power, for example during a firmware bank write, leaving that bank failing verification. -/
  | powerLoss
  /-- CXL_CACHE_COMPLETION, R179. A device load, atomic or posted write on host memory completes under CXL.cache or CXL.io at the host port, so the load retires or a system-scope fence may proceed. -/
  | cxlCacheCompletion (die core slot : Nat) (data : BitVec 64)
  /-- EGRESS_PACKET_ARRIVAL, R117. An access or its reply arrives from a peer panel on an egress link and is applied in sending order, outside the vector clocks. `addr` stands for
  the packet's header: the address in bits [55:0], the panel incarnation that the packet carries in [71:56], and from bit 72 up
  what a packet must hold at 0 (R369, R377). -/
  | egressPacketArrival (link : Nat) (die addr : Nat) (bytes : List Byte) (reply : Option (BitVec 64))
  deriving DecidableEq, Repr, Inhabited

end Sys2Proof
end

