-- ==== Sys2Proof/WellFormed.lean ====
section
/-! DEFINITION. Which instructions a word can stand for: the field values the maps allow (R145, R149, R156 to R160). -/

namespace Sys2Proof

/-- A 7-bit source field names g0 to g63 or y0 to y3 (R145). -/
def srcOk (a : BitVec 7) : Bool := decide (a.toNat ≤ 67)

/-- A scope code (R107). -/
def scopeOk (s : BitVec 3) : Bool := decide (s.toNat ≤ 4)

/-- A destination field of a VA word (R149). -/
def vdstOk (d : BitVec 8) : Bool := decide (d.toNat ≤ 248) || decide (252 ≤ d.toNat)

/-- A register field of a VL or VS word (R149). -/
def vmemOk (d : BitVec 8) : Bool := decide (d.toNat ≤ 247) || decide (252 ≤ d.toNat)

/-- The operand fields of an operation word (R244). -/
def chainOpOk (w : W32) : Bool :=
  let fop := w.toNat / 2 ^ 28
  let x := w.toNat / 2 ^ 21 % 16
  let y := w.toNat / 2 ^ 17 % 16
  let z := w.toNat / 2 ^ 13 % 16
  let usesY := decide (fop ≤ 5) || fop == 11 || fop == 12
  let usesZ := fop == 3 || fop == 12
  decide (fop ≤ 12) && x != 15 && y != 15 && z != 15 && (usesY || y == 0) && (usesZ || z == 0) && w.toNat % 2 ^ 13 == 0

/-- The system registers srd reads and swr writes (R183). -/
def sysReadOk (n : Nat) : Bool :=
  decide (n ≤ 4) || (decide (0x10 ≤ n) && decide (n ≤ 0x21)) || (decide (0x40 ≤ n) && decide (n ≤ 0x7F)) ||
    (decide (0x100 ≤ n) && decide (n ≤ 0x1FF))
def sysWriteOk (n : Nat) : Bool :=
  decide (n = 1) || decide (n = 2) || decide (n = 4) || (decide (0x10 ≤ n) && decide (n ≤ 0x20)) ||
    (decide (0x100 ≤ n) && decide (n ≤ 0x1FF))

/-- A GO word in the ring with code `own` (R154). -/
def goOk (own : Nat) (thr : BitVec 7) (sub re : Bool) (rf : BitVec 6) (pop push : BitVec 3) : Bool :=
  pop.toNat != 7 && pop.toNat != own && push.toNat != 7 && push.toNat != own && (!sub || thr.toNat != 0) &&
    (re || rf.toNat == 0)

/-- The values the maps allow in an instruction's fields. Events are well-formed. -/
def WellFormed (i : Instr) : Bool :=
  match i with
  | .add _ _ a b => srcOk a && srcOk b
  | .sub _ _ a b => srcOk a && srcOk b
  | .and _ _ a b => srcOk a && srcOk b
  | .or _ _ a b => srcOk a && srcOk b
  | .xor _ _ a b => srcOk a && srcOk b
  | .andn _ _ a b => srcOk a && srcOk b
  | .shl _ _ a b => srcOk a && srcOk b
  | .shr _ _ a b => srcOk a && srcOk b
  | .sar _ _ a b => srcOk a && srcOk b
  | .rol _ _ a b => srcOk a && srcOk b
  | .mul _ _ a b => srcOk a && srcOk b
  | .mulh _ _ a b => srcOk a && srcOk b
  | .mulhu _ _ a b => srcOk a && srcOk b
  | .div _ _ a b => srcOk a && srcOk b
  | .divu _ _ a b => srcOk a && srcOk b
  | .rem _ _ a b => srcOk a && srcOk b
  | .remu _ _ a b => srcOk a && srcOk b
  | .min _ _ a b => srcOk a && srcOk b
  | .max _ _ a b => srcOk a && srcOk b
  | .minu _ _ a b => srcOk a && srcOk b
  | .maxu _ _ a b => srcOk a && srcOk b
  | .adds _ _ a b => srcOk a && srcOk b
  | .subs _ _ a b => srcOk a && srcOk b
  | .seq _ _ a b => srcOk a && srcOk b
  | .sne _ _ a b => srcOk a && srcOk b
  | .slt _ _ a b => srcOk a && srcOk b
  | .sltu _ _ a b => srcOk a && srcOk b
  | .sge _ _ a b => srcOk a && srcOk b
  | .sgeu _ _ a b => srcOk a && srcOk b
  | .spawn _ _ a b => srcOk a && srcOk b
  | .clz _ _ a => srcOk a
  | .ctz _ _ a => srcOk a
  | .popc _ _ a => srcOk a
  | .fins _ _ a => srcOk a
  | .cancel _ _ a => srcOk a
  | .sli _ _ a _ => srcOk a
  | .addi _ _ a _ => srcOk a
  | .andi _ _ a _ => srcOk a
  | .ori _ _ a _ => srcOk a
  | .xori _ _ a _ => srcOk a
  | .slti _ _ a _ => srcOk a
  | .sltiu _ _ a _ => srcOk a
  | .jalr _ _ a _ => srcOk a
  | .ldb _ _ a _ => srcOk a
  | .ldh _ _ a _ => srcOk a
  | .ldw _ _ a _ => srcOk a
  | .ldd _ _ a _ => srcOk a
  | .ldbs _ _ a _ => srcOk a
  | .ldhs _ _ a _ => srcOk a
  | .ldws _ _ a _ => srcOk a
  | .shli _ _ a _ => srcOk a
  | .shri _ _ a _ => srcOk a
  | .sari _ _ a _ => srcOk a
  | .beqz a _ => srcOk a
  | .bnez a _ => srcOk a
  | .bltz a _ => srcOk a
  | .bgez a _ => srcOk a
  | .bgtz a _ => srcOk a
  | .blez a _ => srcOk a
  | .stage a _ => srcOk a
  | .swr a imm => srcOk a && sysWriteOk imm.toNat
  | .srd _ _ imm => sysReadOk imm.toNat
  | .sb _ a _ => srcOk a
  | .sh _ a _ => srcOk a
  | .sw _ a _ => srcOk a
  | .sd _ a _ => srcOk a
  | .ldo _ _ a _ _ scope => srcOk a && scopeOk scope
  | .ldow _ _ a _ _ scope => srcOk a && scopeOk scope
  | .sto a b _ _ scope => srcOk a && srcOk b && scopeOk scope
  | .stow a b _ _ scope => srcOk a && srcOk b && scopeOk scope
  | .aadd _ _ a b _ _ scope => srcOk a && srcOk b && scopeOk scope
  | .aand _ _ a b _ _ scope => srcOk a && srcOk b && scopeOk scope
  | .aor _ _ a b _ _ scope => srcOk a && srcOk b && scopeOk scope
  | .axor _ _ a b _ _ scope => srcOk a && srcOk b && scopeOk scope
  | .amin _ _ a b _ _ scope => srcOk a && srcOk b && scopeOk scope
  | .amax _ _ a b _ _ scope => srcOk a && srcOk b && scopeOk scope
  | .aswap _ _ a b _ _ scope => srcOk a && srcOk b && scopeOk scope
  | .acas _ _ a b _ _ scope => srcOk a && srcOk b && scopeOk scope
  | .fence _ scope => scopeOk scope
  | .fraise _ imm => imm.toNat != 0
  | .fwait _ a _ _ => srcOk a
  | .tokPush _ ring => decide (2 ≤ ring.toNat) && decide (ring.toNat ≤ 6)
  | .tokPop ring => decide (2 ≤ ring.toNat) && decide (ring.toNat ≤ 6)
  | .bwait a _ => srcOk a
  | .mwait a b _ => srcOk a && srcOk b
  | .ref a => srcOk a
  | .drop a => srcOk a
  | .get _ _ a => srcOk a
  | .getc _ _ a => srcOk a
  | .put a b => srcOk a && srcOk b
  | .puti a b => srcOk a && srcOk b
  | .hawait a b => srcOk a && srcOk b
  | .harel a b => srcOk a && srcOk b
  | .enq a b ring => srcOk a && srcOk b && decide (2 ≤ ring.toNat) && decide (ring.toNat ≤ 6)
  | .qdep imm => imm.toNat != 0 && decide (imm.toNat ≤ 256)
  | .lbeg a b => srcOk a && srcOk b
  | .vad _ _ l2 _ _ _ => decide (l2.toNat < 2 ^ 24)
  | .vsad _ _ l2 _ _ _ => decide (l2.toNat < 2 ^ 24)
  | .vld d mode _ _ _ _ => vmemOk d && decide (mode.toNat ≤ 1)
  | .vldb d mode _ _ _ _ => vmemOk d && decide (mode.toNat ≤ 1)
  | .vldg d _ b _ _ => vmemOk d && vmemOk b
  | .vst mode _ _ b _ _ => vmemOk b && decide (mode.toNat ≤ 1)
  | .vsts d _ b _ _ => vmemOk d && vmemOk b
  | .vadd d _ _ _ _ => vdstOk d
  | .vsub d _ _ _ _ => vdstOk d
  | .vmul d _ _ _ _ => vdstOk d
  | .vmulh d _ _ _ _ => vdstOk d
  | .vand d _ _ _ _ => vdstOk d
  | .vor d _ _ _ _ => vdstOk d
  | .vxor d _ _ _ _ => vdstOk d
  | .vshl d _ _ _ _ => vdstOk d
  | .vshr d _ _ _ _ => vdstOk d
  | .vsar d _ _ _ _ => vdstOk d
  | .vmin d _ _ _ _ => vdstOk d
  | .vmax d _ _ _ _ => vdstOk d
  | .vminu d _ _ _ _ => vdstOk d
  | .vmaxu d _ _ _ _ => vdstOk d
  | .vadds d _ _ _ _ => vdstOk d
  | .vsubs d _ _ _ _ => vdstOk d
  | .vfadd d _ _ _ _ => vdstOk d
  | .vfsub d _ _ _ _ => vdstOk d
  | .vfmul d _ _ _ _ => vdstOk d
  | .vfma d _ _ _ _ => vdstOk d
  | .vfmin d _ _ _ _ => vdstOk d
  | .vfmax d _ _ _ _ => vdstOk d
  | .vcmpeq d _ _ _ _ => vdstOk d
  | .vcmplt d _ _ _ _ => vdstOk d
  | .vcmple d _ _ _ _ => vdstOk d
  | .vfcmpeq d _ _ _ _ => vdstOk d
  | .vfcmplt d _ _ _ _ => vdstOk d
  | .vfcmple d _ _ _ _ => vdstOk d
  | .vsel d _ _ _ _ => vdstOk d
  | .vfneg d _ _ _ => vdstOk d
  | .vfabs d _ _ _ => vdstOk d
  | .vexp2 d _ _ _ => vdstOk d
  | .vrcp d _ _ _ => vdstOk d
  | .vrsqrt d _ _ _ => vdstOk d
  | .vcvt d _ _ _ => vdstOk d
  | .vmov d _ _ _ => vdstOk d
  | .vrsum _ d _ _ _ => vdstOk d
  | .vrmax _ d _ _ _ => vdstOk d
  | .vrfsum _ d _ _ _ => vdstOk d
  | .vrfmax _ d _ _ _ => vdstOk d
  | .vperm d _ _ _ _ => vdstOk d
  | .vquant d _ b _ _ => vdstOk d && vmemOk b
  | .vchain _ l2 ops _ _ => decide (l2.toNat < 2 ^ 24) && decide (1 ≤ ops.length) && decide (ops.length ≤ 8) && ops.all chainOpOk
  | .mlatch _ _ slack slot => !slack || slot.toNat == 0
  | .mloop lvl _ _ => decide (lvl.toNat ≤ 5)
  | .mop gang _ _ _ acc => decide (gang.toNat ≤ 1) && decide (acc.toNat ≤ 1)
  | .mdrain rowsM1 _ _ => decide (rowsM1.toNat ≤ 191)
  | .mwin mode => decide (mode.toNat ≤ 1)
  | .goMx _ thr sub re rf pop push => goOk 5 thr sub re rf pop push
  | .tshape _ rowbytes => rowbytes.toNat != 0
  | .tcopy _ count host remote die => !(remote && host) && (remote || die.toNat == 0) && !(count && host)
  | .tenq _ _ queue => decide (queue.toNat ≤ 63)
  | .goTr _ thr sub re rf pop push => goOk 6 thr sub re rf pop push
  | .bra _ => true
  | .jal _ _ _ => true
  | .trap _ => true
  | .nop => true
  | .yield => true
  | .endUnit => true
  | .barr _ => true
  | .pin => true
  | .unpin => true
  | .rcp => true
  | .lnext => true
  | .lcnt _ _ => true
  | .flip _ _ _ => true
  | .vixset _ _ _ _ => true
  | .vixadd _ _ _ _ => true
  | .vixget _ _ _ _ => true
  | .vsh _ _ _ _ _ => true
  | .vfmt _ _ _ _ => true
  | .vpset _ _ _ _ => true
  | .vnop _ _ => true
  | .vfwait _ _ _ _ _ => true
  | .vfraise _ _ _ => true
  | .mclaim _ => true
  | .mrel _ => true
  | .mfill _ _ => true
  | .mah _ _ => true
  | .mal _ _ => true
  | .mafmt _ => true
  | .mzero _ => true
  | .mfence => true
  | .tah _ _ => true
  | .tal _ _ => true
  | .tlb _ _ => true
  | .tstride _ _ => true
  | .tsend _ => true
  | .tcoll _ => true
  | .tflip _ => true
  | .tsinv _ => true
  | .mxCommandComplete _ _ _ => true
  | .trCommandComplete _ _ _ => true
  | .vectorEntryRetire _ _ _ _ => true
  | .distributorChoice _ => true
  | .unitBind _ => true
  | .hankStart _ _ _ => true
  | .dwellTick _ => true
  | .beatArrival _ => true
  | .linkCredit _ => true
  | .dieFailure _ => true
  | .whorlDrained _ => true
  | .remoteFrameApply _ _ => true
  | .remoteReply _ _ _ => true
  | .flushingRead _ => true
  | .packetHop _ _ => true
  | .congestionEcho _ _ _ => true
  | .tenqPlace _ => true
  | .collForward _ => true
  | .collMerge _ _ _ _ => true
  | .collSum _ _ _ _ => true
  | .collDeliver _ _ _ => true
  | .collPublish _ _ _ => true
  | .collDeferredReduce _ _ _ _ => true
  | .collOrderNotice _ _ _ => true
  | .tcollComplete _ _ _ => true
  | .trapRecordWrite _ _ _ => true
  | .trespResume _ _ => true
  | .trespSkip _ _ => true
  | .trespAbandon _ _ => true
  | .trespRefused _ _ => true
  | .trapqHeadWrite _ _ => true
  | .invalidation _ => true
  | .invalidationDone => true
  | .preemptRequest _ _ _ => true
  | .preemptEvict _ _ _ => true
  | .preemptWithdraw _ _ => true
  | .preemptCollectDone _ _ => true
  | .partitionReset _ => true
  | .watchdogExpiry _ _ => true
  | .uncorrectableSoftError _ _ => true
  | .carderOrLinkLoss _ _ => true
  | .hostMemWrite _ _ _ _ => true
  | .hostMemRead _ _ _ _ => true
  | .cmdDoorbell _ _ => true
  | .cmdNop _ _ => true
  | .cmdOpen _ _ => true
  | .cmdLaunch _ _ => true
  | .cmdSeal _ _ => true
  | .cmdCancel _ _ => true
  | .whorlLoad _ _ => true
  | .whorlStart _ _ => true
  | .whorlDrain _ _ => true
  | .whorlFree _ _ => true
  | .whorlReconfigure _ _ => true
  | .cplHeadWrite _ _ => true
  | .interruptWindowExpiry _ => true
  | .lqcWrite _ _ _ => true
  | .bufferMapWrite _ _ _ => true
  | .barrierParticipantsWrite _ _ _ => true
  | .diepartWrite _ _ => true
  | .vfbindWrite _ _ => true
  | .ctxwinWrite _ _ => true
  | .jbaseWrite _ _ => true
  | .groupTableWrite _ _ _ => true
  | .egressLinkEnable _ _ => true
  | .egressLinkUp _ _ _ => true
  | .egressLinkDown _ => true
  | .ethSendAcked _ => true
  | .ethSendGivenUp _ => true
  | .ethReceiveSend _ _ => true
  | .ethReceiveWrite _ _ _ _ => true
  | .powerOn _ => true
  | .firmwareUpdate => true
  | .firmwareUpdateDone => true
  | .svnCommit => true
  | .getVersion => true
  | .getCapabilities => true
  | .negotiateAlgorithms _ => true
  | .getDigests => true
  | .getCertificate _ => true
  | .challenge _ _ => true
  | .getMeasurements _ _ => true
  | .keyExchange _ => true
  | .finish _ => true
  | .keyset _ _ => true
  | .powerControlPeriod _ _ _ => true
  | .pwrctlCapWrite _ _ => true
  | .thermalTrip _ => true
  | .bhealthClear _ => true
  | .phealthLimitWrite _ _ => true
  | .registerWrite _ _ _ => true
  | .engineStopAck _ _ _ _ => true
  | .correctedSoftError _ => true
  | .powerLoss => true
  | .cxlCacheCompletion _ _ _ _ => true
  | .egressPacketArrival _ _ _ _ _ => true

end Sys2Proof
end

