-- ==== Sys2Proof/Decode.lean ====
section
/-! DEFINITION. The decoder of the four word maps (R144 to R161), rejecting by class, reason and field, and the encoder
of the same maps. -/

namespace Sys2Proof

/-- Why a word is not an instruction: the reason and the field code of R161, class 0x11. -/
structure Illegal where
  reason : Nat
  field : Nat
  deriving DecidableEq, Repr

/-- `n` bits of `w` from bit `lo` up. -/
def fld (w lo n : Nat) : BitVec n := BitVec.ofNat n (w / 2 ^ lo)

/-- Bit `k` of `w`. -/
def bitAt (w k : Nat) : Bool := decide (w / 2 ^ k % 2 = 1)

/-- The value of bits [lo + n - 1 : lo] of `w`. -/
def part (w lo n : Nat) : Nat := w / 2 ^ lo % 2 ^ n

/-- The first failing check decides (R161); with none, the word is the instruction `i`. -/
def guardW (checks : List (Bool × Nat × Nat)) (i : Instr) : Except Illegal Instr :=
  match checks with
  | [] => .ok i
  | (bad, reason, field) :: rest => if bad then .error ⟨reason, field⟩ else guardW rest i

/-- Checks of the R-form (R144, R145, R146): `res` a result instruction, `uD`, `uA`, `uB`, `uF` the fields used;
`pre` are the word's own checks of reason 2. -/
def sqR (w : Nat) (res uD uA uB uF : Bool) (pre : List (Bool × Nat × Nat)) (i : Instr) : Except Illegal Instr :=
  guardW (pre ++ [(!uD && part w 19 6 != 0, 3, 2), (!uA && part w 12 7 != 0, 3, 3), (!uB && part w 5 7 != 0, 3, 4),
    (!uF && part w 0 5 != 0, 3, 5), (!res && bitAt w 25, 4, 1), (uA && decide (67 < part w 12 7), 4, 3),
    (uB && decide (67 < part w 5 7), 4, 4)]) i

/-- Checks of the I-form (R144, R145, R146); `zero` are the bits of `imm` that must be zero, as a lower bound bit. -/
def sqI (w : Nat) (res uD uA : Bool) (zero : Nat) (pre : List (Bool × Nat × Nat)) (i : Instr) : Except Illegal Instr :=
  guardW (pre ++ [(!uD && part w 19 6 != 0, 3, 2), (!uA && part w 12 7 != 0, 3, 3),
    (decide (2 ^ zero ≤ part w 0 12), 3, 5), (!res && bitAt w 25, 4, 1), (uA && decide (67 < part w 12 7), 4, 3)]) i

/-- A word whose bits [25:0] are all reserved (R187, R189, R190). -/
def sqNone (w : Nat) (i : Instr) : Except Illegal Instr :=
  guardW [(bitAt w 25, 3, 1), (part w 19 6 != 0, 3, 2), (part w 12 7 != 0, 3, 3), (part w 0 12 != 0, 3, 5)] i

/-- The system registers srd reads (R183). -/
def srdOk (n : Nat) : Bool :=
  decide (n ≤ 4) || (decide (0x10 ≤ n) && decide (n ≤ 0x21)) || (decide (0x40 ≤ n) && decide (n ≤ 0x7F)) ||
    (decide (0x100 ≤ n) && decide (n ≤ 0x1FF))

/-- The system registers swr writes (R183). -/
def swrOk (n : Nat) : Bool :=
  decide (n = 1) || decide (n = 2) || decide (n = 4) || (decide (0x10 ≤ n) && decide (n ≤ 0x20)) ||
    (decide (0x100 ≤ n) && decide (n ≤ 0x1FF))

/-- A ring code that tok and enq may name, 2 to 6 (R157). -/
def ringOk (r : Nat) : Bool := decide (2 ≤ r) && decide (r ≤ 6)

/-- A word with an unused opcode, or the all-zero word (R142, R161). -/
def noOp : Except Illegal Instr := .error ⟨1, 0⟩

/-- An unused sub-operation value in field `f` (R156, R161). -/
def noSub (f : Nat) : Except Illegal Instr := .error ⟨2, f⟩


/-- The alu group by `fn` (R156). -/
def decodeAlu (w : Nat) : Except Illegal Instr :=
  match part w 0 5 with
  | 0 => sqR w true true true true true [] (.add (bitAt w 25) (fld w 19 6) (fld w 12 7) (fld w 5 7))
  | 1 => sqR w true true true true true [] (.sub (bitAt w 25) (fld w 19 6) (fld w 12 7) (fld w 5 7))
  | 2 => sqR w true true true true true [] (.and (bitAt w 25) (fld w 19 6) (fld w 12 7) (fld w 5 7))
  | 3 => sqR w true true true true true [] (.or (bitAt w 25) (fld w 19 6) (fld w 12 7) (fld w 5 7))
  | 4 => sqR w true true true true true [] (.xor (bitAt w 25) (fld w 19 6) (fld w 12 7) (fld w 5 7))
  | 5 => sqR w true true true true true [] (.andn (bitAt w 25) (fld w 19 6) (fld w 12 7) (fld w 5 7))
  | 6 => sqR w true true true true true [] (.shl (bitAt w 25) (fld w 19 6) (fld w 12 7) (fld w 5 7))
  | 7 => sqR w true true true true true [] (.shr (bitAt w 25) (fld w 19 6) (fld w 12 7) (fld w 5 7))
  | 8 => sqR w true true true true true [] (.sar (bitAt w 25) (fld w 19 6) (fld w 12 7) (fld w 5 7))
  | 9 => sqR w true true true true true [] (.rol (bitAt w 25) (fld w 19 6) (fld w 12 7) (fld w 5 7))
  | 10 => sqR w true true true true true [] (.mul (bitAt w 25) (fld w 19 6) (fld w 12 7) (fld w 5 7))
  | 11 => sqR w true true true true true [] (.mulh (bitAt w 25) (fld w 19 6) (fld w 12 7) (fld w 5 7))
  | 12 => sqR w true true true true true [] (.mulhu (bitAt w 25) (fld w 19 6) (fld w 12 7) (fld w 5 7))
  | 13 => sqR w true true true true true [] (.div (bitAt w 25) (fld w 19 6) (fld w 12 7) (fld w 5 7))
  | 14 => sqR w true true true true true [] (.divu (bitAt w 25) (fld w 19 6) (fld w 12 7) (fld w 5 7))
  | 15 => sqR w true true true true true [] (.rem (bitAt w 25) (fld w 19 6) (fld w 12 7) (fld w 5 7))
  | 16 => sqR w true true true true true [] (.remu (bitAt w 25) (fld w 19 6) (fld w 12 7) (fld w 5 7))
  | 17 => sqR w true true true true true [] (.min (bitAt w 25) (fld w 19 6) (fld w 12 7) (fld w 5 7))
  | 18 => sqR w true true true true true [] (.max (bitAt w 25) (fld w 19 6) (fld w 12 7) (fld w 5 7))
  | 19 => sqR w true true true true true [] (.minu (bitAt w 25) (fld w 19 6) (fld w 12 7) (fld w 5 7))
  | 20 => sqR w true true true true true [] (.maxu (bitAt w 25) (fld w 19 6) (fld w 12 7) (fld w 5 7))
  | 21 => sqR w true true true false true [] (.clz (bitAt w 25) (fld w 19 6) (fld w 12 7))
  | 22 => sqR w true true true false true [] (.ctz (bitAt w 25) (fld w 19 6) (fld w 12 7))
  | 23 => sqR w true true true false true [] (.popc (bitAt w 25) (fld w 19 6) (fld w 12 7))
  | 24 => sqR w true true true true true [] (.adds (bitAt w 25) (fld w 19 6) (fld w 12 7) (fld w 5 7))
  | 25 => sqR w true true true true true [] (.subs (bitAt w 25) (fld w 19 6) (fld w 12 7) (fld w 5 7))
  | _ => noSub 5

/-- The cmp group by `fn` (R156). -/
def decodeCmp (w : Nat) : Except Illegal Instr :=
  match part w 0 5 with
  | 0 => sqR w true true true true true [] (.seq (bitAt w 25) (fld w 19 6) (fld w 12 7) (fld w 5 7))
  | 1 => sqR w true true true true true [] (.sne (bitAt w 25) (fld w 19 6) (fld w 12 7) (fld w 5 7))
  | 2 => sqR w true true true true true [] (.slt (bitAt w 25) (fld w 19 6) (fld w 12 7) (fld w 5 7))
  | 3 => sqR w true true true true true [] (.sltu (bitAt w 25) (fld w 19 6) (fld w 12 7) (fld w 5 7))
  | 4 => sqR w true true true true true [] (.sge (bitAt w 25) (fld w 19 6) (fld w 12 7) (fld w 5 7))
  | 5 => sqR w true true true true true [] (.sgeu (bitAt w 25) (fld w 19 6) (fld w 12 7) (fld w 5 7))
  | _ => noSub 5

/-- The br group by `dst` (R156). -/
def decodeBr (w : Nat) : Except Illegal Instr :=
  match part w 19 6 with
  | 0 => sqI w false true true 12 [] (.beqz (fld w 12 7) (fld w 0 12))
  | 1 => sqI w false true true 12 [] (.bnez (fld w 12 7) (fld w 0 12))
  | 2 => sqI w false true true 12 [] (.bltz (fld w 12 7) (fld w 0 12))
  | 3 => sqI w false true true 12 [] (.bgez (fld w 12 7) (fld w 0 12))
  | 4 => sqI w false true true 12 [] (.bgtz (fld w 12 7) (fld w 0 12))
  | 5 => sqI w false true true 12 [] (.blez (fld w 12 7) (fld w 0 12))
  | 6 => sqI w false true false 12 [] (.bra (fld w 0 12))
  | _ => noSub 2

/-- The fut group by `fn` (R156, R198). -/
def decodeFut (w : Nat) : Except Illegal Instr :=
  match part w 0 5 with
  | 0 => sqR w false false true false true [] (.ref (fld w 12 7))
  | 1 => sqR w false false true false true [] (.drop (fld w 12 7))
  | 2 => sqR w true true true false true [(bitAt w 19, 2, 2)] (.get (bitAt w 25) (fld w 20 5) (fld w 12 7))
  | 3 => sqR w true true true false true [(bitAt w 19, 2, 2)] (.getc (bitAt w 25) (fld w 20 5) (fld w 12 7))
  | 4 => sqR w false false true true true [] (.put (fld w 12 7) (fld w 5 7))
  | 5 => sqR w false false true true true [] (.puti (fld w 12 7) (fld w 5 7))
  | 6 => sqR w false false false false true [] .pin
  | 7 => sqR w false false false false true [] .unpin
  | 8 => sqR w false false false false true [] .rcp
  | 9 => sqR w true true true false true [] (.fins (bitAt w 25) (fld w 19 6) (fld w 12 7))
  | 10 => sqR w true true true false true [] (.cancel (bitAt w 25) (fld w 19 6) (fld w 12 7))
  | _ => noSub 5

/-- The loop group by `fn` (R156, R208). -/
def decodeLoop (w : Nat) : Except Illegal Instr :=
  match part w 0 5 with
  | 0 => sqR w false false true true true [] (.lbeg (fld w 12 7) (fld w 5 7))
  | 1 => sqR w false false false false true [] .lnext
  | 2 => sqR w true true false false true [] (.lcnt (bitAt w 25) (fld w 19 6))
  | _ => noSub 5

/-- The tok opcode: pushes and pops (R157, R197). -/
def decodeTok (w : Nat) : Except Illegal Instr :=
  if bitAt w 3 then
    sqI w false false false 12 [(!ringOk (part w 0 3) || part w 4 8 != 0, 2, 5)] (.tokPop (fld w 0 3))
  else
    sqI w false false false 8 [(!ringOk (part w 0 3), 2, 5)] (.tokPush (fld w 4 4) (fld w 0 3))


/-- The sequencer map (R155). -/
def decodeSq (w : Nat) : Except Illegal Instr :=
  match w / 2 ^ 26 % 64 with
  | 0x01 => decodeAlu w
  | 0x02 => decodeCmp w
  | 0x03 => sqI w true true true 12 [] (.sli (bitAt w 25) (fld w 19 6) (fld w 12 7) (fld w 0 12))
  | 0x04 => sqI w true true true 12 [] (.addi (bitAt w 25) (fld w 19 6) (fld w 12 7) (fld w 0 12))
  | 0x05 => sqI w true true true 12 [] (.andi (bitAt w 25) (fld w 19 6) (fld w 12 7) (fld w 0 12))
  | 0x06 => sqI w true true true 12 [] (.ori (bitAt w 25) (fld w 19 6) (fld w 12 7) (fld w 0 12))
  | 0x07 => sqI w true true true 12 [] (.xori (bitAt w 25) (fld w 19 6) (fld w 12 7) (fld w 0 12))
  | 0x08 => sqI w true true true 6 [] (.shli (bitAt w 25) (fld w 19 6) (fld w 12 7) (fld w 0 6))
  | 0x09 => sqI w true true true 6 [] (.shri (bitAt w 25) (fld w 19 6) (fld w 12 7) (fld w 0 6))
  | 0x0A => sqI w true true true 6 [] (.sari (bitAt w 25) (fld w 19 6) (fld w 12 7) (fld w 0 6))
  | 0x0B => sqI w true true true 12 [] (.slti (bitAt w 25) (fld w 19 6) (fld w 12 7) (fld w 0 12))
  | 0x0C => sqI w true true true 12 [] (.sltiu (bitAt w 25) (fld w 19 6) (fld w 12 7) (fld w 0 12))
  | 0x0D => decodeBr w
  | 0x0E => .ok (.jal (bitAt w 25) (fld w 19 6) (fld w 0 19))
  | 0x0F => sqI w true true true 12 [] (.jalr (bitAt w 25) (fld w 19 6) (fld w 12 7) (fld w 0 12))
  | 0x10 => sqI w true true true 12 [] (.ldb (bitAt w 25) (fld w 19 6) (fld w 12 7) (fld w 0 12))
  | 0x11 => sqI w true true true 12 [] (.ldh (bitAt w 25) (fld w 19 6) (fld w 12 7) (fld w 0 12))
  | 0x12 => sqI w true true true 12 [] (.ldw (bitAt w 25) (fld w 19 6) (fld w 12 7) (fld w 0 12))
  | 0x13 => sqI w true true true 12 [] (.ldd (bitAt w 25) (fld w 19 6) (fld w 12 7) (fld w 0 12))
  | 0x14 => sqI w true true true 12 [] (.ldbs (bitAt w 25) (fld w 19 6) (fld w 12 7) (fld w 0 12))
  | 0x15 => sqI w true true true 12 [] (.ldhs (bitAt w 25) (fld w 19 6) (fld w 12 7) (fld w 0 12))
  | 0x16 => sqI w true true true 12 [] (.ldws (bitAt w 25) (fld w 19 6) (fld w 12 7) (fld w 0 12))
  | 0x18 => sqI w false true true 12 [] (.sb (fld w 19 6) (fld w 12 7) (fld w 0 12))
  | 0x19 => sqI w false true true 12 [] (.sh (fld w 19 6) (fld w 12 7) (fld w 0 12))
  | 0x1A => sqI w false true true 12 [] (.sw (fld w 19 6) (fld w 12 7) (fld w 0 12))
  | 0x1B => sqI w false true true 12 [] (.sd (fld w 19 6) (fld w 12 7) (fld w 0 12))
  | 0x1C => sqR w true true true false true [(decide (4 < part w 0 3), 2, 5)] (.ldo (bitAt w 25) (fld w 19 6) (fld w 12 7) (bitAt w 4) (bitAt w 3) (fld w 0 3))
  | 0x1D => sqR w true true true false true [(decide (4 < part w 0 3), 2, 5)] (.ldow (bitAt w 25) (fld w 19 6) (fld w 12 7) (bitAt w 4) (bitAt w 3) (fld w 0 3))
  | 0x1E => sqR w false false true true true [(decide (4 < part w 0 3), 2, 5)] (.sto (fld w 12 7) (fld w 5 7) (bitAt w 4) (bitAt w 3) (fld w 0 3))
  | 0x1F => sqR w false false true true true [(decide (4 < part w 0 3), 2, 5)] (.stow (fld w 12 7) (fld w 5 7) (bitAt w 4) (bitAt w 3) (fld w 0 3))
  | 0x20 => sqR w true true true true true [(decide (4 < part w 0 3), 2, 5)] (.aadd (bitAt w 25) (fld w 19 6) (fld w 12 7) (fld w 5 7) (bitAt w 4) (bitAt w 3) (fld w 0 3))
  | 0x21 => sqR w true true true true true [(decide (4 < part w 0 3), 2, 5)] (.aand (bitAt w 25) (fld w 19 6) (fld w 12 7) (fld w 5 7) (bitAt w 4) (bitAt w 3) (fld w 0 3))
  | 0x22 => sqR w true true true true true [(decide (4 < part w 0 3), 2, 5)] (.aor (bitAt w 25) (fld w 19 6) (fld w 12 7) (fld w 5 7) (bitAt w 4) (bitAt w 3) (fld w 0 3))
  | 0x23 => sqR w true true true true true [(decide (4 < part w 0 3), 2, 5)] (.axor (bitAt w 25) (fld w 19 6) (fld w 12 7) (fld w 5 7) (bitAt w 4) (bitAt w 3) (fld w 0 3))
  | 0x24 => sqR w true true true true true [(decide (4 < part w 0 3), 2, 5)] (.amin (bitAt w 25) (fld w 19 6) (fld w 12 7) (fld w 5 7) (bitAt w 4) (bitAt w 3) (fld w 0 3))
  | 0x25 => sqR w true true true true true [(decide (4 < part w 0 3), 2, 5)] (.amax (bitAt w 25) (fld w 19 6) (fld w 12 7) (fld w 5 7) (bitAt w 4) (bitAt w 3) (fld w 0 3))
  | 0x26 => sqR w true true true true true [(decide (4 < part w 0 3), 2, 5)] (.aswap (bitAt w 25) (fld w 19 6) (fld w 12 7) (fld w 5 7) (bitAt w 4) (bitAt w 3) (fld w 0 3))
  | 0x27 => sqR w true true true true true [(decide (4 < part w 0 3), 2, 5)] (.acas (bitAt w 25) (fld w 19 6) (fld w 12 7) (fld w 5 7) (bitAt w 4) (bitAt w 3) (fld w 0 3))
  | 0x28 => sqI w true true false 12 [(!srdOk (part w 0 12), 2, 5)] (.srd (bitAt w 25) (fld w 19 6) (fld w 0 12))
  | 0x29 => sqI w false false true 12 [(!swrOk (part w 0 12), 2, 5)] (.swr (fld w 12 7) (fld w 0 12))
  | 0x2A => sqI w false false false 12 [] (.trap (fld w 0 12))
  | 0x2B => sqNone w .nop
  | 0x2C => sqR w false false false false true [(decide (4 < part w 0 3), 2, 5), (part w 19 6 != 0, 3, 2),
      (part w 12 7 != 0, 3, 3), (part w 5 7 != 0, 3, 4), (bitAt w 4, 3, 5)] (.fence (bitAt w 3) (fld w 0 3))
  | 0x2D => sqNone w .yield
  | 0x2E => sqNone w .endUnit
  | 0x30 => sqI w false true false 12 [(part w 0 12 == 0, 2, 5)] (.fraise (fld w 19 6) (fld w 0 12))
  | 0x31 => sqI w false true true 12 [] (.fwait (fld w 19 6) (fld w 12 7) (bitAt w 11) (fld w 0 11))
  | 0x32 => decodeTok w
  | 0x33 => sqI w false false false 8 [] (.barr (fld w 0 8))
  | 0x34 => sqI w false false true 8 [] (.bwait (fld w 12 7) (fld w 0 8))
  | 0x35 => sqR w false false true true true [(decide (3 < part w 0 5), 2, 5)] (.mwait (fld w 12 7) (fld w 5 7) (fld w 0 2))
  | 0x36 => sqI w false false true 12 [] (.stage (fld w 12 7) (fld w 0 12))
  | 0x38 => sqR w true true true true false [] (.spawn (bitAt w 25) (fld w 19 6) (fld w 12 7) (fld w 5 7))
  | 0x39 => decodeFut w
  | 0x3A => sqR w false false true true false [] (.hawait (fld w 12 7) (fld w 5 7))
  | 0x3B => sqR w false false true true false [] (.harel (fld w 12 7) (fld w 5 7))
  | 0x3C => sqR w false false true true true [(!ringOk (part w 0 3), 2, 5), (part w 19 6 != 0, 3, 2), (part w 3 2 != 0, 3, 5)]
      (.enq (fld w 12 7) (fld w 5 7) (fld w 0 3))
  | 0x3D => sqI w false false false 12 [(part w 0 12 == 0 || decide (256 < part w 0 12), 2, 5)] (.qdep (fld w 0 9))
  | 0x3E => decodeLoop w
  | 0x3F => sqI w true true false 10 [] (.flip (bitAt w 25) (fld w 19 6) (fld w 0 10))
  | _ => noOp


/-- A register field of a VL or VS word: 248 to 251 are illegal there (R149). -/
def noLatch (v : Nat) : Bool := decide (248 ≤ v) && decide (v ≤ 251)

/-- A destination field of a VA word: 249 to 251 are illegal (R149). -/
def badDst (v : Nat) : Bool := decide (249 ≤ v) && decide (v ≤ 251)

/-- The ring a vector opcode belongs to: `none` for an unused opcode, `some none` for any ring (R158). -/
def vecRing (op : Nat) : Option (Option Ring) :=
  if decide (1 ≤ op) && decide (op ≤ 4) then some (some .vl)
  else if decide (8 ≤ op) && decide (op ≤ 0x2F) && op != 0x1F then some (some .va)
  else if decide (0x30 ≤ op) && decide (op ≤ 0x32) then some (some .vs)
  else if decide (0x3C ≤ op) && decide (op ≤ 0x3E) then some none
  else none

/-- `d`, `a`, `b` all registers (R148). -/
def va3 (w : Nat) (i : BitVec 8 → BitVec 8 → BitVec 8 → Bool → Bool → Instr) : Except Illegal Instr :=
  guardW [(badDst (part w 18 8), 4, 2)] (i (fld w 18 8) (fld w 10 8) (fld w 2 8) (bitAt w 1) (bitAt w 0))

/-- `d` and `a` registers, `b` fixed by the mnemonic. -/
def va2 (w : Nat) (i : BitVec 8 → BitVec 8 → Bool → Bool → Instr) : Except Illegal Instr :=
  guardW [(badDst (part w 18 8), 4, 2)] (i (fld w 18 8) (fld w 10 8) (bitAt w 1) (bitAt w 0))

/-- The operand fields an operation word's `fop` uses: x always, then y and z (R244). -/
def fopUses (fop : Nat) : Bool × Bool :=
  match fop with
  | 3 => (true, true) | 12 => (true, true)
  | 6 => (false, false) | 7 => (false, false) | 8 => (false, false) | 9 => (false, false) | 10 => (false, false)
  | _ => (true, false)

/-- Reason 2 of an operation word: an illegal `fop` or the operand code 15 (R244). -/
def opBad (w : W32) : Bool :=
  decide (13 ≤ part w.toNat 28 4) || part w.toNat 21 4 == 15 || part w.toNat 17 4 == 15 || part w.toNat 13 4 == 15

/-- Reason 3 of an operation word: a non-zero unused field (R244). -/
def opRsvd (w : W32) : Bool :=
  let u := fopUses (part w.toNat 28 4)
  (!u.1 && part w.toNat 17 4 != 0) || (!u.2 && part w.toNat 13 4 != 0) || part w.toNat 0 13 != 0

/-- The literal word `k` of an entry. -/
def lit (lits : List Nat) (k : Nat) : W32 := BitVec.ofNat 32 (lits.getD k 0)

/-- vad and vsad (R231). -/
def decodeVad (w : Nat) (lits : List Nat) (i : BitVec 4 → W32 → W32 → W32 → Bool → Bool → Instr) : Except Illegal Instr :=
  guardW [(part w 22 4 != 0, 3, 2), (part w 10 8 != 0, 3, 3), (part w 2 8 != 0, 3, 4),
      (part (lit lits 1).toNat 24 8 != 0, 3, 5)]
    (i (fld w 18 4) (lit lits 0) (lit lits 1) (lit lits 2) (bitAt w 1) (bitAt w 0))

/-- vchain (R243, R244). -/
def decodeChain (w : Nat) (lits : List Nat) : Except Illegal Instr :=
  let ops := ((lits.drop 2).take (part w 18 3 + 1)).map (BitVec.ofNat 32)
  guardW [(ops.any opBad, 2, 5), (part w 21 5 != 0, 3, 2), (part w 10 8 != 0, 3, 3), (part w 2 8 != 0, 3, 4),
      (part (lit lits 1).toNat 24 8 != 0 || ops.any opRsvd, 3, 5)]
    (.vchain (lit lits 0) (lit lits 1) ops (bitAt w 1) (bitAt w 0))

/-- The single-operand group by `b` (R158). -/
def decodeVfun (w : Nat) : Except Illegal Instr :=
  match part w 2 8 with
  | 0 => va2 w .vfneg | 1 => va2 w .vfabs | 2 => va2 w .vexp2 | 3 => va2 w .vrcp | 4 => va2 w .vrsqrt | 5 => va2 w .vcvt
  | _ => noSub 4

/-- The reductions by `b` (R158, R225). -/
def decodeVred (w : Nat) : Except Illegal Instr :=
  if part w 5 5 != 0 then noSub 4
  else match part w 2 2 with
    | 0 => va2 w (.vrsum (bitAt w 4)) | 1 => va2 w (.vrmax (bitAt w 4))
    | 2 => va2 w (.vrfsum (bitAt w 4)) | _ => va2 w (.vrfmax (bitAt w 4))

/-- The index group by `b` (R158, R226). -/
def decodeVidx (w : Nat) : Except Illegal Instr :=
  let c := [(part w 20 6 != 0, 3, 2)]
  match part w 2 8 with
  | 0 => guardW c (.vixset (fld w 18 2) (fld w 10 8) (bitAt w 1) (bitAt w 0))
  | 1 => guardW c (.vixadd (fld w 18 2) (fld w 10 8) (bitAt w 1) (bitAt w 0))
  | 2 => guardW c (.vixget (fld w 18 2) (fld w 10 8) (bitAt w 1) (bitAt w 0))
  | _ => noSub 4

/-- The effect part of the vector map, once the opcode is known to belong to the ring (R158). -/
def decodeVecOp (w : Nat) (lits : List Nat) : Except Illegal Instr :=
  match w / 2 ^ 26 % 64 with
  | 0x01 => decodeVad w lits .vad
  | 0x02 => guardW [(decide (2 ≤ part w 15 3), 2, 3), (part w 2 8 != 0, 3, 4), (noLatch (part w 18 8), 4, 2)]
      (.vld (fld w 18 8) (fld w 15 3) (bitAt w 14) (fld w 10 4) (bitAt w 1) (bitAt w 0))
  | 0x03 => guardW [(part w 14 4 != 0, 2, 3), (noLatch (part w 18 8), 4, 2), (noLatch (part w 2 8), 4, 4)]
      (.vldg (fld w 18 8) (fld w 10 4) (fld w 2 8) (bitAt w 1) (bitAt w 0))
  | 0x04 => guardW [(decide (2 ≤ part w 15 3), 2, 3), (part w 2 8 != 0, 3, 4), (noLatch (part w 18 8), 4, 2)]
      (.vldb (fld w 18 8) (fld w 15 3) (bitAt w 14) (fld w 10 4) (bitAt w 1) (bitAt w 0))
  | 0x08 => va3 w .vadd
  | 0x09 => va3 w .vsub
  | 0x0A => va3 w .vmul
  | 0x0B => va3 w .vmulh
  | 0x0C => va3 w .vand
  | 0x0D => va3 w .vor
  | 0x0E => va3 w .vxor
  | 0x0F => va3 w .vshl
  | 0x10 => va3 w .vshr
  | 0x11 => va3 w .vsar
  | 0x12 => va3 w .vmin
  | 0x13 => va3 w .vmax
  | 0x14 => va3 w .vminu
  | 0x15 => va3 w .vmaxu
  | 0x16 => va3 w .vadds
  | 0x17 => va3 w .vsubs
  | 0x18 => va3 w .vfadd
  | 0x19 => va3 w .vfsub
  | 0x1A => va3 w .vfmul
  | 0x1B => va3 w .vfma
  | 0x1C => va3 w .vfmin
  | 0x1D => va3 w .vfmax
  | 0x1E => decodeVfun w
  | 0x20 => va3 w .vcmpeq
  | 0x21 => va3 w .vcmplt
  | 0x22 => va3 w .vcmple
  | 0x23 => va3 w .vfcmpeq
  | 0x24 => va3 w .vfcmplt
  | 0x25 => va3 w .vfcmple
  | 0x26 => va3 w .vsel
  | 0x27 => decodeVred w
  | 0x28 => decodeVidx w
  | 0x29 => guardW [(part w 7 3 != 0, 2, 4)]
      (.vsh (fld w 24 2) (fld w 18 6) (BitVec.ofNat 13 (part w 2 5 * 256 + part w 10 8)) (bitAt w 1) (bitAt w 0))
  | 0x2A => guardW [(part w 10 8 != 0, 3, 3), (part w 2 8 != 0, 3, 4)]
      (.vfmt (fld w 22 4) (fld w 18 4) (bitAt w 1) (bitAt w 0))
  | 0x2B => guardW [(part w 6 4 != 0, 3, 4), (badDst (part w 18 8), 4, 2)]
      (.vperm (fld w 18 8) (fld w 10 8) (fld w 2 4) (bitAt w 1) (bitAt w 0))
  | 0x2C => guardW [(part w 22 4 != 0, 3, 2), (part w 2 8 != 0, 3, 4)]
      (.vpset (fld w 18 4) (fld w 10 8) (bitAt w 1) (bitAt w 0))
  | 0x2D => guardW [(badDst (part w 18 8), 4, 2), (noLatch (part w 2 8), 4, 4)]
      (.vquant (fld w 18 8) (fld w 10 8) (fld w 2 8) (bitAt w 1) (bitAt w 0))
  | 0x2E => decodeChain w lits
  | 0x2F => guardW [(part w 2 8 != 0, 3, 4), (badDst (part w 18 8), 4, 2)]
      (.vmov (fld w 18 8) (fld w 10 8) (bitAt w 1) (bitAt w 0))
  | 0x30 => decodeVad w lits .vsad
  | 0x31 => guardW [(decide (2 ≤ part w 15 3), 2, 3), (part w 18 8 != 0, 3, 2), (noLatch (part w 2 8), 4, 4)]
      (.vst (fld w 15 3) (bitAt w 14) (fld w 10 4) (fld w 2 8) (bitAt w 1) (bitAt w 0))
  | 0x32 => guardW [(part w 14 4 != 0, 2, 3), (noLatch (part w 18 8), 4, 2), (noLatch (part w 2 8), 4, 4)]
      (.vsts (fld w 18 8) (fld w 10 4) (fld w 2 8) (bitAt w 1) (bitAt w 0))
  | 0x3C => guardW [(part w 18 8 != 0, 3, 2), (part w 10 8 != 0, 3, 3), (part w 2 8 != 0, 3, 4)]
      (.vnop (bitAt w 1) (bitAt w 0))
  | 0x3D => guardW [(bitAt w 25, 3, 2), (part w 2 8 != 0, 3, 4)]
      (.vfwait (bitAt w 24) (fld w 18 6) (fld w 10 8) (bitAt w 1) (bitAt w 0))
  | 0x3E => guardW [(part w 24 2 != 0, 3, 2), (part w 10 8 != 0, 3, 3), (part w 2 8 != 0, 3, 4)]
      (.vfraise (fld w 18 6) (bitAt w 1) (bitAt w 0))
  | _ => noOp

/-- The vector map as the ring `r` reads it: reason 1, then the wrong ring (reason 5), then the rest (R161). -/
def decodeVec (r : Ring) (w : Nat) (lits : List Nat) : Except Illegal Instr :=
  match vecRing (w / 2 ^ 26 % 64) with
  | none => noOp
  | some (some q) => if q = r then decodeVecOp w lits else .error ⟨5, 0⟩
  | some none => decodeVecOp w lits

/-- How many literal words follow a vector entry's leading word, from its `op` and `d` alone (R151, R204). -/
def vecLits (w : Nat) : Nat :=
  match w / 2 ^ 26 % 64 with
  | 0x01 => 3
  | 0x30 => 3
  | 0x2E => 3 + part w 18 3
  | _ => 0

/-- Checks of a GO word in the ring with code `own` (R154, R161). -/
def decodeGo (own w : Nat)
    (i : BitVec 6 → BitVec 7 → Bool → Bool → BitVec 6 → BitVec 3 → BitVec 3 → Instr) : Except Illegal Instr :=
  guardW [(part w 3 3 == 7 || part w 3 3 == own || part w 0 3 == 7 || part w 0 3 == own ||
      (bitAt w 13 && part w 14 7 == 0) || (!bitAt w 12 && part w 6 6 != 0), 2, 5)]
    (i (fld w 21 6) (fld w 14 7) (bitAt w 13) (bitAt w 12) (fld w 6 6) (fld w 3 3) (fld w 0 3))

/-- A step word whose payload bits from `lo` up are reserved, after its checks of reason 2. -/
def stepW (w lo : Nat) (bad : Bool) (i : Instr) : Except Illegal Instr :=
  guardW [(bad, 2, 5), (part w lo (27 - lo) != 0, 3, 5)] i

/-- The matrix map (R159). -/
def decodeMx (w : Nat) : Except Illegal Instr :=
  match w / 2 ^ 27 % 32 with
  | 0x01 => stepW w 5 false (.mclaim (fld w 0 5))
  | 0x02 => stepW w 5 false (.mrel (fld w 0 5))
  | 0x03 => stepW w 12 false (.mfill (fld w 5 7) (fld w 0 5))
  | 0x04 => .ok (.mah (fld w 25 2) (fld w 0 25))
  | 0x05 => .ok (.mal (fld w 25 2) (fld w 0 25))
  | 0x06 => stepW w 11 (bitAt w 5 && part w 0 5 != 0) (.mlatch (bitAt w 10) (fld w 6 4) (bitAt w 5) (fld w 0 5))
  | 0x07 => stepW w 4 false (.mafmt (fld w 0 4))
  | 0x08 => stepW w 27 (decide (5 < part w 24 3)) (.mloop (fld w 24 3) (fld w 22 2) (fld w 0 22))
  | 0x09 => stepW w 7 (decide (1 < part w 0 2) || decide (1 < part w 5 2))
      (.mop (fld w 5 2) (bitAt w 4) (bitAt w 3) (bitAt w 2) (fld w 0 2))
  | 0x0A => stepW w 1 false (.mzero (fld w 0 1))
  | 0x0B => stepW w 13 (decide (191 < part w 5 8)) (.mdrain (fld w 5 8) (fld w 1 4) (fld w 0 1))
  | 0x0C => stepW w 0 false .mfence
  | 0x0D => stepW w 2 (decide (1 < part w 0 2)) (.mwin (fld w 0 2))
  | 0x1F => decodeGo 5 w .goMx
  | _ => noOp

/-- The transfer map (R160). -/
def decodeTr (w : Nat) : Except Illegal Instr :=
  match w / 2 ^ 27 % 32 with
  | 0x01 => .ok (.tah (fld w 25 2) (fld w 0 25))
  | 0x02 => .ok (.tal (fld w 25 2) (fld w 0 25))
  | 0x03 => guardW [(part w 6 19 != 0, 3, 5)] (.tlb (fld w 25 2) (fld w 0 6))
  | 0x04 => stepW w 27 (part w 0 14 == 0) (.tshape (fld w 14 13) (fld w 0 14))
  | 0x05 => .ok (.tstride (bitAt w 26) (fld w 0 26))
  | 0x06 => stepW w 10 ((bitAt w 6 && bitAt w 7) || (!bitAt w 6 && part w 0 6 != 0) || (bitAt w 8 && bitAt w 7))
      (.tcopy (bitAt w 9) (bitAt w 8) (bitAt w 7) (bitAt w 6) (fld w 0 6))
  | 0x07 => stepW w 15 (decide (63 < part w 0 8)) (.tenq (bitAt w 14) (fld w 8 6) (fld w 0 8))
  | 0x08 => stepW w 3 false (.tsend (fld w 0 3))
  | 0x09 => stepW w 16 false (.tcoll (fld w 0 16))
  | 0x0A => stepW w 10 false (.tflip (fld w 0 10))
  | 0x0B => stepW w 1 false (.tsinv (bitAt w 0))
  | 0x1F => decodeGo 6 w .goTr
  | _ => noOp

/-- The word or entry that starts with `w` and goes on with `lits`, as the agent of ring `r` reads it (R143). -/
def decode (r : Ring) (w : Nat) (lits : List Nat) : Except Illegal Instr :=
  match r with
  | .sq => decodeSq w
  | .mx => decodeMx w
  | .tr => decodeTr w
  | _ => decodeVec r w lits

/-- Which ring's map reads a table word: the four maps share the word space and the table does not say which map a row
belongs to, so the sequencer map comes first, then the vector map, then the matrix and transfer maps (log 12). -/
def tableRing (w : Nat) : Ring :=
  match decodeSq w with
  | .ok _ => .sq
  | .error _ =>
    match vecRing (w / 2 ^ 26 % 64) with
    | some q =>
      let r := q.getD .va
      match decodeVec r w (List.replicate (vecLits w) 0) with
      | .ok _ => r
      | .error _ => match decodeMx w with | .ok _ => .mx | .error _ => .tr
    | none => match decodeMx w with | .ok _ => .mx | .error _ => .tr

/-- The instruction the decoder reads from a table word; words beyond the table's bits are zero. -/
def decodeTableWord (nbits w : Nat) : Option Instr :=
  let w := w % 2 ^ min nbits 32
  match decode (tableRing w) w (List.replicate (vecLits w) 0) with
  | .ok i => some i
  | .error _ => none


/-- A Boolean field. -/
def bit (b : Bool) : Nat := if b then 1 else 0

/-- The first word of an R-form instruction. -/
def encR (op fn : Nat) (nw : Bool) (dst : Nat) (a b : Nat) : Nat :=
  op * 2 ^ 26 + bit nw * 2 ^ 25 + dst * 2 ^ 19 + a * 2 ^ 12 + b * 2 ^ 5 + fn

/-- The word of an I-form instruction. -/
def encI (op : Nat) (nw : Bool) (dst a imm : Nat) : Nat :=
  op * 2 ^ 26 + bit nw * 2 ^ 25 + dst * 2 ^ 19 + a * 2 ^ 12 + imm

/-- The ordering field (R155). -/
def encOrd (acq rel : Bool) (scope : Nat) : Nat := bit acq * 2 ^ 4 + bit rel * 2 ^ 3 + scope

/-- The leading word of a vector entry. -/
def encV (op d a b : Nat) (push pop : Bool) : Nat :=
  op * 2 ^ 26 + d * 2 ^ 18 + a * 2 ^ 10 + b * 2 ^ 2 + bit push * 2 + bit pop

/-- The `a` field of a load or store (R158). -/
def encLs (mode : Nat) (inc : Bool) (ad : Nat) : Nat := mode * 2 ^ 5 + bit inc * 2 ^ 4 + ad

/-- A GO word (R154). -/
def encGo (wf thr : Nat) (sub re : Bool) (rf pop push : Nat) : Nat :=
  0x1F * 2 ^ 27 + wf * 2 ^ 21 + thr * 2 ^ 14 + bit sub * 2 ^ 13 + bit re * 2 ^ 12 + rf * 2 ^ 6 + pop * 2 ^ 3 + push

/-- The words of an instruction; an event has none. -/
def encode (i : Instr) : List Nat :=
  match i with
  | .add nw dst a b => [encR 1 0 nw dst.toNat a.toNat b.toNat]
  | .sub nw dst a b => [encR 1 1 nw dst.toNat a.toNat b.toNat]
  | .and nw dst a b => [encR 1 2 nw dst.toNat a.toNat b.toNat]
  | .or nw dst a b => [encR 1 3 nw dst.toNat a.toNat b.toNat]
  | .xor nw dst a b => [encR 1 4 nw dst.toNat a.toNat b.toNat]
  | .andn nw dst a b => [encR 1 5 nw dst.toNat a.toNat b.toNat]
  | .shl nw dst a b => [encR 1 6 nw dst.toNat a.toNat b.toNat]
  | .shr nw dst a b => [encR 1 7 nw dst.toNat a.toNat b.toNat]
  | .sar nw dst a b => [encR 1 8 nw dst.toNat a.toNat b.toNat]
  | .rol nw dst a b => [encR 1 9 nw dst.toNat a.toNat b.toNat]
  | .mul nw dst a b => [encR 1 10 nw dst.toNat a.toNat b.toNat]
  | .mulh nw dst a b => [encR 1 11 nw dst.toNat a.toNat b.toNat]
  | .mulhu nw dst a b => [encR 1 12 nw dst.toNat a.toNat b.toNat]
  | .div nw dst a b => [encR 1 13 nw dst.toNat a.toNat b.toNat]
  | .divu nw dst a b => [encR 1 14 nw dst.toNat a.toNat b.toNat]
  | .rem nw dst a b => [encR 1 15 nw dst.toNat a.toNat b.toNat]
  | .remu nw dst a b => [encR 1 16 nw dst.toNat a.toNat b.toNat]
  | .min nw dst a b => [encR 1 17 nw dst.toNat a.toNat b.toNat]
  | .max nw dst a b => [encR 1 18 nw dst.toNat a.toNat b.toNat]
  | .minu nw dst a b => [encR 1 19 nw dst.toNat a.toNat b.toNat]
  | .maxu nw dst a b => [encR 1 20 nw dst.toNat a.toNat b.toNat]
  | .adds nw dst a b => [encR 1 24 nw dst.toNat a.toNat b.toNat]
  | .subs nw dst a b => [encR 1 25 nw dst.toNat a.toNat b.toNat]
  | .clz nw dst a => [encR 1 21 nw dst.toNat a.toNat 0]
  | .ctz nw dst a => [encR 1 22 nw dst.toNat a.toNat 0]
  | .popc nw dst a => [encR 1 23 nw dst.toNat a.toNat 0]
  | .seq nw dst a b => [encR 2 0 nw dst.toNat a.toNat b.toNat]
  | .sne nw dst a b => [encR 2 1 nw dst.toNat a.toNat b.toNat]
  | .slt nw dst a b => [encR 2 2 nw dst.toNat a.toNat b.toNat]
  | .sltu nw dst a b => [encR 2 3 nw dst.toNat a.toNat b.toNat]
  | .sge nw dst a b => [encR 2 4 nw dst.toNat a.toNat b.toNat]
  | .sgeu nw dst a b => [encR 2 5 nw dst.toNat a.toNat b.toNat]
  | .sli nw dst a imm => [encI 3 nw dst.toNat a.toNat imm.toNat]
  | .addi nw dst a imm => [encI 4 nw dst.toNat a.toNat imm.toNat]
  | .andi nw dst a imm => [encI 5 nw dst.toNat a.toNat imm.toNat]
  | .ori nw dst a imm => [encI 6 nw dst.toNat a.toNat imm.toNat]
  | .xori nw dst a imm => [encI 7 nw dst.toNat a.toNat imm.toNat]
  | .slti nw dst a imm => [encI 11 nw dst.toNat a.toNat imm.toNat]
  | .sltiu nw dst a imm => [encI 12 nw dst.toNat a.toNat imm.toNat]
  | .jalr nw dst a imm => [encI 15 nw dst.toNat a.toNat imm.toNat]
  | .ldb nw dst a imm => [encI 16 nw dst.toNat a.toNat imm.toNat]
  | .ldh nw dst a imm => [encI 17 nw dst.toNat a.toNat imm.toNat]
  | .ldw nw dst a imm => [encI 18 nw dst.toNat a.toNat imm.toNat]
  | .ldd nw dst a imm => [encI 19 nw dst.toNat a.toNat imm.toNat]
  | .ldbs nw dst a imm => [encI 20 nw dst.toNat a.toNat imm.toNat]
  | .ldhs nw dst a imm => [encI 21 nw dst.toNat a.toNat imm.toNat]
  | .ldws nw dst a imm => [encI 22 nw dst.toNat a.toNat imm.toNat]
  | .shli nw dst a sh => [encI 8 nw dst.toNat a.toNat sh.toNat]
  | .shri nw dst a sh => [encI 9 nw dst.toNat a.toNat sh.toNat]
  | .sari nw dst a sh => [encI 10 nw dst.toNat a.toNat sh.toNat]
  | .beqz a imm => [encI 13 false 0 a.toNat imm.toNat]
  | .bnez a imm => [encI 13 false 1 a.toNat imm.toNat]
  | .bltz a imm => [encI 13 false 2 a.toNat imm.toNat]
  | .bgez a imm => [encI 13 false 3 a.toNat imm.toNat]
  | .bgtz a imm => [encI 13 false 4 a.toNat imm.toNat]
  | .blez a imm => [encI 13 false 5 a.toNat imm.toNat]
  | .bra imm => [encI 13 false 6 0 imm.toNat]
  | .jal nw dst off => [encI 14 nw dst.toNat 0 off.toNat]
  | .sb dst a imm => [encI 24 false dst.toNat a.toNat imm.toNat]
  | .sh dst a imm => [encI 25 false dst.toNat a.toNat imm.toNat]
  | .sw dst a imm => [encI 26 false dst.toNat a.toNat imm.toNat]
  | .sd dst a imm => [encI 27 false dst.toNat a.toNat imm.toNat]
  | .ldo nw dst a acq rel scope => [encR 28 (encOrd acq rel scope.toNat) nw dst.toNat a.toNat 0]
  | .ldow nw dst a acq rel scope => [encR 29 (encOrd acq rel scope.toNat) nw dst.toNat a.toNat 0]
  | .sto a b acq rel scope => [encR 30 (encOrd acq rel scope.toNat) false 0 a.toNat b.toNat]
  | .stow a b acq rel scope => [encR 31 (encOrd acq rel scope.toNat) false 0 a.toNat b.toNat]
  | .aadd nw dst a b acq rel scope => [encR 32 (encOrd acq rel scope.toNat) nw dst.toNat a.toNat b.toNat]
  | .aand nw dst a b acq rel scope => [encR 33 (encOrd acq rel scope.toNat) nw dst.toNat a.toNat b.toNat]
  | .aor nw dst a b acq rel scope => [encR 34 (encOrd acq rel scope.toNat) nw dst.toNat a.toNat b.toNat]
  | .axor nw dst a b acq rel scope => [encR 35 (encOrd acq rel scope.toNat) nw dst.toNat a.toNat b.toNat]
  | .amin nw dst a b acq rel scope => [encR 36 (encOrd acq rel scope.toNat) nw dst.toNat a.toNat b.toNat]
  | .amax nw dst a b acq rel scope => [encR 37 (encOrd acq rel scope.toNat) nw dst.toNat a.toNat b.toNat]
  | .aswap nw dst a b acq rel scope => [encR 38 (encOrd acq rel scope.toNat) nw dst.toNat a.toNat b.toNat]
  | .acas nw dst a b acq rel scope => [encR 39 (encOrd acq rel scope.toNat) nw dst.toNat a.toNat b.toNat]
  | .srd nw dst imm => [encI 0x28 nw dst.toNat 0 imm.toNat]
  | .swr a imm => [encI 0x29 false 0 a.toNat imm.toNat]
  | .trap imm => [encI 0x2A false 0 0 imm.toNat]
  | .nop => [encI 0x2B false 0 0 0]
  | .fence drain scope => [encR 0x2C (encOrd false drain scope.toNat) false 0 0 0]
  | .yield => [encI 0x2D false 0 0 0]
  | .endUnit => [encI 0x2E false 0 0 0]
  | .fraise flag imm => [encI 0x30 false flag.toNat 0 imm.toNat]
  | .fwait flag a sub imm => [encI 0x31 false flag.toNat a.toNat (bit sub * 2 ^ 11 + imm.toNat)]
  | .tokPush cnt ring => [encI 0x32 false 0 0 (cnt.toNat * 2 ^ 4 + ring.toNat)]
  | .tokPop ring => [encI 0x32 false 0 0 (8 + ring.toNat)]
  | .barr bar => [encI 0x33 false 0 0 bar.toNat]
  | .bwait a bar => [encI 0x34 false 0 a.toNat bar.toNat]
  | .mwait a b cond => [encR 0x35 cond.toNat false 0 a.toNat b.toNat]
  | .stage a imm => [encI 0x36 false 0 a.toNat imm.toNat]
  | .spawn nw dst a b => [encR 0x38 0 nw dst.toNat a.toNat b.toNat]
  | .ref a => [encR 0x39 0 false 0 a.toNat 0]
  | .drop a => [encR 0x39 1 false 0 a.toNat 0]
  | .get nw dst a => [encR 0x39 2 nw (dst.toNat * 2) a.toNat 0]
  | .getc nw dst a => [encR 0x39 3 nw (dst.toNat * 2) a.toNat 0]
  | .put a b => [encR 0x39 4 false 0 a.toNat b.toNat]
  | .puti a b => [encR 0x39 5 false 0 a.toNat b.toNat]
  | .pin => [encR 0x39 6 false 0 0 0]
  | .unpin => [encR 0x39 7 false 0 0 0]
  | .rcp => [encR 0x39 8 false 0 0 0]
  | .fins nw dst a => [encR 0x39 9 nw dst.toNat a.toNat 0]
  | .cancel nw dst a => [encR 0x39 10 nw dst.toNat a.toNat 0]
  | .hawait a b => [encR 0x3A 0 false 0 a.toNat b.toNat]
  | .harel a b => [encR 0x3B 0 false 0 a.toNat b.toNat]
  | .enq a b ring => [encR 0x3C ring.toNat false 0 a.toNat b.toNat]
  | .qdep imm => [encI 0x3D false 0 0 imm.toNat]
  | .lbeg a b => [encR 0x3E 0 false 0 a.toNat b.toNat]
  | .lnext => [encR 0x3E 1 false 0 0 0]
  | .lcnt nw dst => [encR 0x3E 2 nw dst.toNat 0 0]
  | .flip nw dst entry => [encI 0x3F nw dst.toNat 0 entry.toNat]
  | .vad ad l1 l2 l3 push pop => [encV 0x01 ad.toNat 0 0 push pop, l1.toNat, l2.toNat, l3.toNat]
  | .vld d mode inc ad push pop => [encV 0x02 d.toNat (encLs mode.toNat inc ad.toNat) 0 push pop]
  | .vldg d ad b push pop => [encV 0x03 d.toNat ad.toNat b.toNat push pop]
  | .vldb d mode inc ad push pop => [encV 0x04 d.toNat (encLs mode.toNat inc ad.toNat) 0 push pop]
  | .vadd d a b push pop => [encV 8 d.toNat a.toNat b.toNat push pop]
  | .vsub d a b push pop => [encV 9 d.toNat a.toNat b.toNat push pop]
  | .vmul d a b push pop => [encV 10 d.toNat a.toNat b.toNat push pop]
  | .vmulh d a b push pop => [encV 11 d.toNat a.toNat b.toNat push pop]
  | .vand d a b push pop => [encV 12 d.toNat a.toNat b.toNat push pop]
  | .vor d a b push pop => [encV 13 d.toNat a.toNat b.toNat push pop]
  | .vxor d a b push pop => [encV 14 d.toNat a.toNat b.toNat push pop]
  | .vshl d a b push pop => [encV 15 d.toNat a.toNat b.toNat push pop]
  | .vshr d a b push pop => [encV 16 d.toNat a.toNat b.toNat push pop]
  | .vsar d a b push pop => [encV 17 d.toNat a.toNat b.toNat push pop]
  | .vmin d a b push pop => [encV 18 d.toNat a.toNat b.toNat push pop]
  | .vmax d a b push pop => [encV 19 d.toNat a.toNat b.toNat push pop]
  | .vminu d a b push pop => [encV 20 d.toNat a.toNat b.toNat push pop]
  | .vmaxu d a b push pop => [encV 21 d.toNat a.toNat b.toNat push pop]
  | .vadds d a b push pop => [encV 22 d.toNat a.toNat b.toNat push pop]
  | .vsubs d a b push pop => [encV 23 d.toNat a.toNat b.toNat push pop]
  | .vfadd d a b push pop => [encV 24 d.toNat a.toNat b.toNat push pop]
  | .vfsub d a b push pop => [encV 25 d.toNat a.toNat b.toNat push pop]
  | .vfmul d a b push pop => [encV 26 d.toNat a.toNat b.toNat push pop]
  | .vfma d a b push pop => [encV 27 d.toNat a.toNat b.toNat push pop]
  | .vfmin d a b push pop => [encV 28 d.toNat a.toNat b.toNat push pop]
  | .vfmax d a b push pop => [encV 29 d.toNat a.toNat b.toNat push pop]
  | .vfneg d a push pop => [encV 0x1E d.toNat a.toNat 0 push pop]
  | .vfabs d a push pop => [encV 0x1E d.toNat a.toNat 1 push pop]
  | .vexp2 d a push pop => [encV 0x1E d.toNat a.toNat 2 push pop]
  | .vrcp d a push pop => [encV 0x1E d.toNat a.toNat 3 push pop]
  | .vrsqrt d a push pop => [encV 0x1E d.toNat a.toNat 4 push pop]
  | .vcvt d a push pop => [encV 0x1E d.toNat a.toNat 5 push pop]
  | .vcmpeq d a b push pop => [encV 32 d.toNat a.toNat b.toNat push pop]
  | .vcmplt d a b push pop => [encV 33 d.toNat a.toNat b.toNat push pop]
  | .vcmple d a b push pop => [encV 34 d.toNat a.toNat b.toNat push pop]
  | .vfcmpeq d a b push pop => [encV 35 d.toNat a.toNat b.toNat push pop]
  | .vfcmplt d a b push pop => [encV 36 d.toNat a.toNat b.toNat push pop]
  | .vfcmple d a b push pop => [encV 37 d.toNat a.toNat b.toNat push pop]
  | .vsel d a b push pop => [encV 38 d.toNat a.toNat b.toNat push pop]
  | .vrsum col d a push pop => [encV 0x27 d.toNat a.toNat (bit col * 4 + 0) push pop]
  | .vrmax col d a push pop => [encV 0x27 d.toNat a.toNat (bit col * 4 + 1) push pop]
  | .vrfsum col d a push pop => [encV 0x27 d.toNat a.toNat (bit col * 4 + 2) push pop]
  | .vrfmax col d a push pop => [encV 0x27 d.toNat a.toNat (bit col * 4 + 3) push pop]
  | .vixset ix a push pop => [encV 0x28 ix.toNat a.toNat 0 push pop]
  | .vixadd ix a push pop => [encV 0x28 ix.toNat a.toNat 1 push pop]
  | .vixget ix a push pop => [encV 0x28 ix.toNat a.toNat 2 push pop]
  | .vsh esz rowsM1 colsM1 push pop =>
    [encV 0x29 (esz.toNat * 64 + rowsM1.toNat) (colsM1.toNat % 256) (colsM1.toNat / 256) push pop]
  | .vfmt df sf push pop => [encV 0x2A (df.toNat * 16 + sf.toNat) 0 0 push pop]
  | .vperm d a pc push pop => [encV 0x2B d.toNat a.toNat pc.toNat push pop]
  | .vpset p a push pop => [encV 0x2C p.toNat a.toNat 0 push pop]
  | .vquant d a b push pop => [encV 0x2D d.toNat a.toNat b.toNat push pop]
  | .vchain l1 l2 ops push pop =>
    [encV 0x2E (ops.length - 1) 0 0 push pop, l1.toNat, l2.toNat] ++ ops.map BitVec.toNat
  | .vmov d a push pop => [encV 0x2F d.toNat a.toNat 0 push pop]
  | .vsad ad l1 l2 l3 push pop => [encV 0x30 ad.toNat 0 0 push pop, l1.toNat, l2.toNat, l3.toNat]
  | .vst mode inc ad b push pop => [encV 0x31 0 (encLs mode.toNat inc ad.toNat) b.toNat push pop]
  | .vsts d ad b push pop => [encV 0x32 d.toNat ad.toNat b.toNat push pop]
  | .vnop push pop => [encV 0x3C 0 0 0 push pop]
  | .vfwait sub flag thr push pop => [encV 0x3D (bit sub * 64 + flag.toNat) thr.toNat 0 push pop]
  | .vfraise flag push pop => [encV 0x3E flag.toNat 0 0 push pop]
  | .mclaim slot => [0x01 * 2 ^ 27 + slot.toNat]
  | .mrel slot => [0x02 * 2 ^ 27 + slot.toNat]
  | .mfill rowsM1 slot => [0x03 * 2 ^ 27 + rowsM1.toNat * 2 ^ 5 + slot.toNat]
  | .mah tgt bits => [0x04 * 2 ^ 27 + tgt.toNat * 2 ^ 25 + bits.toNat]
  | .mal tgt bits => [0x05 * 2 ^ 27 + tgt.toNat * 2 ^ 25 + bits.toNat]
  | .mlatch plane fmt slack slot =>
    [0x06 * 2 ^ 27 + bit plane * 2 ^ 10 + fmt.toNat * 2 ^ 6 + bit slack * 2 ^ 5 + slot.toNat]
  | .mafmt fmt => [0x07 * 2 ^ 27 + fmt.toNat]
  | .mloop lvl item val => [0x08 * 2 ^ 27 + lvl.toNat * 2 ^ 24 + item.toNat * 2 ^ 22 + val.toNat]
  | .mop gang accOff negB negA acc =>
    [0x09 * 2 ^ 27 + gang.toNat * 2 ^ 5 + bit accOff * 2 ^ 4 + bit negB * 2 ^ 3 + bit negA * 2 ^ 2 + acc.toNat]
  | .mzero acc => [0x0A * 2 ^ 27 + acc.toNat]
  | .mdrain rowsM1 fmt acc => [0x0B * 2 ^ 27 + rowsM1.toNat * 2 ^ 5 + fmt.toNat * 2 + acc.toNat]
  | .mfence => [0x0C * 2 ^ 27]
  | .mwin mode => [0x0D * 2 ^ 27 + mode.toNat]
  | .goMx wf thr sub re rf pop push => [encGo wf.toNat thr.toNat sub re rf.toNat pop.toNat push.toNat]
  | .tah tgt bits => [0x01 * 2 ^ 27 + tgt.toNat * 2 ^ 25 + bits.toNat]
  | .tal tgt bits => [0x02 * 2 ^ 27 + tgt.toNat * 2 ^ 25 + bits.toNat]
  | .tlb tgt bits => [0x03 * 2 ^ 27 + tgt.toNat * 2 ^ 25 + bits.toNat]
  | .tshape rowsM1 rowbytes => [0x04 * 2 ^ 27 + rowsM1.toNat * 2 ^ 14 + rowbytes.toNat]
  | .tstride side stride => [0x05 * 2 ^ 27 + bit side * 2 ^ 26 + stride.toNat]
  | .tcopy stamp count host remote die =>
    [0x06 * 2 ^ 27 + bit stamp * 2 ^ 9 + bit count * 2 ^ 8 + bit host * 2 ^ 7 + bit remote * 2 ^ 6 + die.toNat]
  | .tenq notify die queue => [0x07 * 2 ^ 27 + bit notify * 2 ^ 14 + die.toNat * 2 ^ 8 + queue.toNat]
  | .tsend port => [0x08 * 2 ^ 27 + port.toNat]
  | .tcoll group => [0x09 * 2 ^ 27 + group.toNat]
  | .tflip entry => [0x0A * 2 ^ 27 + entry.toNat]
  | .tsinv all => [0x0B * 2 ^ 27 + bit all]
  | .goTr wf thr sub re rf pop push => [encGo wf.toNat thr.toNat sub re rf.toNat pop.toNat push.toNat]
  | .mxCommandComplete _ _ _ => []
  | .trCommandComplete _ _ _ => []
  | .vectorEntryRetire _ _ _ _ => []
  | .distributorChoice _ => []
  | .unitBind _ => []
  | .hankStart _ _ _ => []
  | .dwellTick _ => []
  | .beatArrival _ => []
  | .linkCredit _ => []
  | .dieFailure _ => []
  | .whorlDrained _ => []
  | .remoteFrameApply _ _ => []
  | .remoteReply _ _ _ => []
  | .flushingRead _ => []
  | .packetHop _ _ => []
  | .congestionEcho _ _ _ => []
  | .tenqPlace _ => []
  | .collForward _ => []
  | .collMerge _ _ _ _ => []
  | .collSum _ _ _ _ => []
  | .collDeliver _ _ _ => []
  | .collPublish _ _ _ => []
  | .collDeferredReduce _ _ _ _ => []
  | .collOrderNotice _ _ _ => []
  | .tcollComplete _ _ _ => []
  | .trapRecordWrite _ _ _ => []
  | .trespResume _ _ => []
  | .trespSkip _ _ => []
  | .trespAbandon _ _ => []
  | .trespRefused _ _ => []
  | .trapqHeadWrite _ _ => []
  | .invalidation _ => []
  | .invalidationDone => []
  | .preemptRequest _ _ _ => []
  | .preemptEvict _ _ _ => []
  | .preemptWithdraw _ _ => []
  | .preemptCollectDone _ _ => []
  | .partitionReset _ => []
  | .watchdogExpiry _ _ => []
  | .uncorrectableSoftError _ _ => []
  | .carderOrLinkLoss _ _ => []
  | .hostMemWrite _ _ _ _ => []
  | .hostMemRead _ _ _ _ => []
  | .cmdDoorbell _ _ => []
  | .cmdNop _ _ => []
  | .cmdOpen _ _ => []
  | .cmdLaunch _ _ => []
  | .cmdSeal _ _ => []
  | .cmdCancel _ _ => []
  | .whorlLoad _ _ => []
  | .whorlStart _ _ => []
  | .whorlDrain _ _ => []
  | .whorlFree _ _ => []
  | .whorlReconfigure _ _ => []
  | .cplHeadWrite _ _ => []
  | .interruptWindowExpiry _ => []
  | .lqcWrite _ _ _ => []
  | .bufferMapWrite _ _ _ => []
  | .barrierParticipantsWrite _ _ _ => []
  | .diepartWrite _ _ => []
  | .vfbindWrite _ _ => []
  | .ctxwinWrite _ _ => []
  | .jbaseWrite _ _ => []
  | .groupTableWrite _ _ _ => []
  | .egressLinkEnable _ _ => []
  | .egressLinkUp _ _ _ => []
  | .egressLinkDown _ => []
  | .ethSendAcked _ => []
  | .ethSendGivenUp _ => []
  | .ethReceiveSend _ _ => []
  | .ethReceiveWrite _ _ _ _ => []
  | .powerOn _ => []
  | .firmwareUpdate => []
  | .firmwareUpdateDone => []
  | .svnCommit => []
  | .getVersion => []
  | .getCapabilities => []
  | .negotiateAlgorithms _ => []
  | .getDigests => []
  | .getCertificate _ => []
  | .challenge _ _ => []
  | .getMeasurements _ _ => []
  | .keyExchange _ => []
  | .finish _ => []
  | .keyset _ _ => []
  | .powerControlPeriod _ _ _ => []
  | .pwrctlCapWrite _ _ => []
  | .thermalTrip _ => []
  | .bhealthClear _ => []
  | .phealthLimitWrite _ _ => []
  | .registerWrite _ _ _ => []
  | .engineStopAck _ _ _ _ => []
  | .correctedSoftError _ => []
  | .powerLoss => []
  | .cxlCacheCompletion _ _ _ _ => []
  | .egressPacketArrival _ _ _ _ _ => []


end Sys2Proof
end

