-- ==== Sys2Proof/Config.lean ====
section
/-! DEFINITION. What an implementation fixes, and the free values: constants with no body, so that nothing can
evaluate them and a statement about them holds whatever they are. -/

namespace Sys2Proof

/-- Which agent acts in the next step: a core's sequencer, one ring of one ply, an event of the device or of the
outside world, or nothing. With `piece` the ring does one 8-byte unit of its work instead of all that it could do
(R108, R235 to R237, log 1). MX can hold several commands in flight: `aside` lets the next one start, `turnTo` goes on with
another one, and `early` performs one unit of a command out of its order (R268, log 81). -/
inductive Turn where
  | idle
  | sq (die core : Nat)
  | ring (die core slot : Nat) (r : Ring)
  | piece (die core slot : Nat) (r : Ring)
  | aside (die core slot : Nat)
  | turnTo (die core slot j : Nat)
  | early (die core slot u : Nat)
  | event (i : Instr)
  deriving DecidableEq, Repr, Inhabited

namespace Config

/-- Compute dies of the panel (R11). -/
def dies : Nat := 64
/-- Cores of a die (R20). -/
def cores : Nat := 32
/-- Ply slots of a core (R36). -/
def slots : Nat := 8
/-- Bytes of one die's store (R13, R96). -/
def storeBytes : Nat := 0x80000000
/-- First byte of the future table in die store (R21). -/
def futBase : Nat := 0x7FE00000
/-- Level records of a die (R340). -/
def levelCount : Nat := 16384
/-- Future entries of a die (R49). -/
def futCount : Nat := 65536
/-- Trap slots of a die (R354). -/
def trapCount : Nat := 4096

/-- Free value: the agent of step `n`, DESIGN CHOICE, log 1. The manual gives no order between agents. -/
opaque schedule : Nat → Turn

/-- Free value: the choice number `n` among candidates the manual does not order (log 8). -/
opaque choice : Nat → Nat

/-- Free value: the byte at an offset of storage whose contents the manual calls undefined, under serial `n` (log 7). -/
opaque freeByte : Nat → Nat → Byte

/-- Free value: the bytes, by offset, that the save number `n` writes in the context store. The manual says what an image
holds and gives no layout of it (R362, log 72). -/
opaque imageBytes : Nat → List (Nat × Byte)

/-- Free value: what host or peer memory returns for a byte address at step `n` (log 10). -/
opaque outsideByte : Nat → Nat → Byte

/-- Free value: whether the read of step `n` finds 8-byte unit `u` of a register as it was before a write that nothing
orders before the read (R216, log 69). -/
opaque seesOld : Nat → Nat → Bool

/-- Free value: whether the save number `n` finds line `k` of 64 bytes of an image's header unit dirty, when the state that the
header holds has changed at all: the manual gives the header no layout (R362, log 72). -/
opaque lineDirty : Nat → Nat → Bool

/-- Free value: whether slot `k` of a journal ring meets an uncorrectable error when move `n` reads it (R349, log 8). -/
opaque slotLost : Nat → Nat → Bool

/-- Free value: the FP32 operand from which on exp2 gives a result code or a higher one, where R139 leaves it open (log 6). -/
opaque exp2 : W32 → W32
/-- Free value: reciprocal and reciprocal square root on FP32, used only inside the bounds of R140 (log 6). -/
opaque rcp : W32 → W32
opaque rsqrt : W32 → W32

/-- Free value: the exponent R138 takes from a narrow format's largest finite value, for the formats whose largest
finite value is 0, which has no logarithm (log 15). -/
opaque emaxOfZero : W32 → Int

/-- Uninterpreted: SHA-512 (R388, R392), log 9. -/
opaque sha512 : List Byte → BitVec 512
/-- Uninterpreted: an RSASSA-PSS verification under the fused key, of header bytes 0 to 511 with `sig` (R388), log 9. -/
opaque sigOk : List Byte → List Byte → Bool
/-- Uninterpreted: a signature over an SPDM transcript by the alias key, which the seed gives together with measurement 1 (R391,
R392), log 9. -/
opaque aliasSign : BitVec 512 → List Byte → BitVec 4096
/-- Uninterpreted: the response data of KEY_EXCHANGE and the check of FINISH (R392), log 9. -/
opaque keyExchange : BitVec 256 → Nat → BitVec 256
opaque finishOk : BitVec 512 → BitVec 256 → Bool
/-- Free value: whether the authentication of an encrypted collective fails (R380), log 9. -/
opaque authFails : Nat → Bool
/-- The certificate chain of slot 0: the identity certificate held in flash, and the certificate of the alias key that the ROM
makes at every boot from measurement 1 (R391, R392), log 9. -/
opaque certChain : BitVec 512 → List Byte
/-- The boot ROM's measurement and the fused firmware key digest (R388, R392), log 9. -/
opaque romDigest : BitVec 512
opaque fwKeyDigest : BitVec 512

end Config
end Sys2Proof
end

