-- ==== Sys2Proof/Machine/State.lean ====
section
/-! DEFINITION. The state of the panel as plain data, the outcomes' reason types, and the state after reset. -/

namespace Sys2Proof.Machine

open Sys2Proof

/-! ## Registers of a ply -/

/-- A value of a vector register or latch: its non-zero bytes by offset (R92). -/
abbrev VReg := Map Byte

/-- A w latch that has been written: its value and the switch-point tag of its writer (R150). -/
structure WLatch where
  val : VReg
  tag : Nat
  deriving DecidableEq, Repr, Inhabited

/-- VSH (R211). -/
structure Shape where
  rowsM1 : BitVec 6
  esz : BitVec 2
  colsM1 : BitVec 13
  deriving DecidableEq, Repr, Inhabited

/-- VFMT (R211). -/
structure VFmt where
  src : W32
  dst : W32
  srcIx : BitVec 4
  dstIx : BitVec 4
  deriving DecidableEq, Repr, Inhabited

/-- An address descriptor ad0 to ad15 (R230). -/
structure AddrDesc where
  base : BitVec 56
  stride : BitVec 32
  deriving DecidableEq, Repr, Inhabited

/-- The index registers as some agent sees them: how many of VA's writes to them it has seen, and their values (R93). -/
structure IxView where
  ver : Nat
  ix : Map Byte
  deriving DecidableEq, Repr, Inhabited

/-- What an entry captured when it was appended: its length in words, slip number (R35), switch-point tag (R150),
shape and formats (R212), the format table (R129) and, for a matrix command, the slack copy bound (R262). `bad`: a
schedule entry released as an ill-formed command (R310). `view`: the index registers as SQ sees them (R93). -/
structure Entry where
  words : Nat
  seq : Nat
  tag : Nat
  shape : Shape
  fmt : VFmt
  ft : Map W32
  bind : Option Nat
  bad : Bool
  view : IxView
  deriving DecidableEq, Repr, Inhabited

/-- A ring descriptor (R33) with the captured entries between `rd` and `wr`. An offset is bits [19:0] of `rd` or `wr`
and the wrap bit is bit 20. `popped`: the entry at `rd` has made its pop; `done`: it has been performed and awaits
its retirement, with whether it pushes and the flag it raises; `await`: its flag wait (flag, threshold, subtract) failed
at issue and stands; `granted`: that wait has succeeded since (R41). `checked`: the entry of a vector ring has passed its checks and stands at its
pop; `issued`: the words of one that has issued, which is not read or checked again (R93, R229, R237). `lead` counts the bytes of the
entries that have left `entries` and that `rd` has not passed, as an earlier command is still in flight (R33, R268). -/
structure RingQ where
  base : BitVec 56
  sizeCode : BitVec 4
  rd : BitVec 21
  wr : BitVec 21
  entries : List Entry
  popped : Bool
  done : Option (Bool × Option Nat)
  await : Option (Nat × Nat × Bool)
  granted : Bool
  checked : Bool
  issued : List Nat
  lead : Nat
  deriving DecidableEq, Repr, Inhabited

/-- LSTATE (R207). -/
structure LoopUnit where
  trip : W32
  done : W32
  body : BitVec 20
  epi : BitVec 20
  active : Bool
  stop : Bool
  deriving DecidableEq, Repr, Inhabited

/-- DSREC (R99). -/
structure Dsrec where
  addr : BitVec 56
  agent : BitVec 3
  write : Bool
  cause : BitVec 2
  more : Bool
  valid : Bool
  count : W32
  deriving DecidableEq, Repr, Inhabited

/-- One level of a loop table (R252). -/
structure LoopLevel where
  count : BitVec 22
  astr : BitVec 22
  sstr : BitVec 22
  rstr : BitVec 22
  deriving DecidableEq, Repr, Inhabited

/-- A weight plane as latched: its bytes and the scales of its columns (R251, R263). -/
structure Plane where
  data : Map Byte
  scales : Map Byte
  deriving DecidableEq, Repr, Inhabited

/-- A translated byte: the leaf's kind, home die or egress link, the byte's address there, and the page's attributes. -/
structure Page where
  kind : Nat
  home : Nat
  pa : Nat
  write : Bool
  ht : Bool
  level : Nat
  deriving DecidableEq, Repr, Inhabited

/-- A buffer-map entry (R100); the chunk table lies in die store. `writers`: units that have written the shadow half
since the last publish (R59). -/
structure Buf where
  base : BitVec 56
  chunks : BitVec 20
  epoch : W32
  valid : Bool
  discarded : Bool
  written : Bool
  half0 : BitVec 19
  half1 : BitVec 19
  bits : BitVec 19
  writers : List Nat
  deriving DecidableEq, Repr, Inhabited

/-- A sampled mapping: each valid buffer-map entry of the die with the bytes of its chunk table (R102). -/
abbrev Sample := Map (Buf × Map Byte)

/-- What translation finds for a byte: it lies outside the context's window, it has a page, or its walk faults with a
reason and level (R97, R359). -/
inductive Xlat where
  | out
  | page (p : Page)
  | fault (reason level : Nat)
  deriving DecidableEq, Repr, Inhabited

/-- A command in progress: the words still to perform, its GO's raise and push, its captured entry, the mapping it
sampled (R102; `none` when it is to sample afresh), a collective descriptor as read at its check (R289), and the AFLAGS
bits it has gathered (R132). `iter` counts the rows or iterations its operation word has performed and `block` the
iterations of one unit of its stop level (R272); `prev` is the coordinate latched last, `plane` the plane in use and
`seen` the accumulator rows a mop has passed into (R260); `held` the planes it has latched, by lathe, which no other command can
change (R260), and `latching` whether a latch has issued that waits for a beat (R84); `pages` what translation found at its step-3
checks, by 128 KiB, and `tgen` the generation they carry (R359, R360); `early` the units that a matrix command has performed out
of their order, and `rows` the A rows that a mop has read for the iterations they belong to (R260, R268); `next` the planes of the
latch that follows, made early (R260); `group` the lathes an mzero or mdrain works on, as it found them when it issued (R264);
`pre` the bytes of HT pages that a matrix command has read at its issue (R119); `stale`: it has been restored, and its accesses are to
be translated afresh (R360, R362). -/
structure CmdRun where
  todo : List W32
  re : Bool
  rf : BitVec 6
  push : BitVec 3
  entry : Entry
  snap : Option Sample
  desc : BitVec 512
  flags : W32
  iter : Nat
  block : Nat
  prev : Option Int
  plane : Bool
  seen : List Nat
  held : Map Plane
  latching : Bool
  pages : Map Xlat
  tgen : BitVec 16
  early : List Nat
  rows : Map (List Byte)
  next : Option (Map Plane)
  group : List Nat
  pre : Map Byte
  stale : Bool
  deriving DecidableEq, Repr, Inhabited

/-- The MX state of R252 with both loop tables, and the binding of R262 (`bound` is the serial of the bound copy). `late`: the
state is what an earlier command in flight sees, and a later command has had its turn since (R254, R268); `ahead`: how many bytes
behind the read pointer the entry of that command stands (R33). -/
structure MxState where
  aAddr : BitVec 56
  fillAddr : BitVec 56
  drainAddr : BitVec 56
  scaleAddr : BitVec 56
  aRec : W32
  wRec : W32
  wSlot : BitVec 5
  wSlack : Bool
  wPlane : Bool
  aIx : BitVec 4
  wIx : BitVec 4
  shadow : Map LoopLevel
  active : Map LoopLevel
  bound : Option Nat
  cmd : Option CmdRun
  late : Bool
  ahead : Nat
  deriving DecidableEq, Repr, Inhabited

/-- The TR state of R275. -/
structure TrState where
  saddr : BitVec 56
  daddr : BitVec 56
  stampAddr : BitVec 56
  ctrAddr : BitVec 56
  rowbytes : BitVec 14
  rowsM1 : BitVec 13
  sstr : BitVec 26
  dstr : BitVec 26
  tseq : Word
  doneChunks : Nat
  cmd : Option CmdRun
  deriving DecidableEq, Repr, Inhabited

/-- A vchain in progress: its descriptor as first read, the blocks completed, the mapping it sampled, `none` when it is
to sample afresh, and the AFLAGS bits it has gathered (R102, R247). -/
structure ChainRun where
  desc : BitVec 512
  blocks : Nat
  snap : Option Sample
  flags : W32
  deriving DecidableEq, Repr, Inhabited



/-- What a VL or VS entry that has issued and not ended keeps: base, stride and offsets register of its issue (R237), the
number of its register, read at its issue (R93), the register as a load has filled it or as a store has read it so far (`val`,
R216), the mapping a load sampled (R102), and, of a row in progress, the
translated bytes, how many of them have been performed, and the translation generation they carry (R360). -/
structure VIssue where
  base : BitVec 56
  stride : BitVec 32
  offs : VReg
  reg : Nat
  val : VReg
  snap : Option Sample
  row : List (Nat × Xlat)
  part : Nat
  tgen : BitVec 16
  deriving DecidableEq, Repr, Inhabited

/-- The object a Waiting ply waits on (R193). -/
inductive Wait where
  | flag (f : Nat) (thr : Nat) (sub : Bool)
  | barrier (b : Nat) (target : BitVec 16)
  | mem (addr : Nat) (cond : BitVec 2) (val : Word)
  | fut (handle : Word) (dst : BitVec 5) (nw consume : Bool)
  | hank (key mask : Word)
  deriving DecidableEq, Repr, Inhabited

/-- A halted agent of a held ply: status word, ring offset or PCO, faulting address, failing record copy (R353).
`kind` 0: the entry failed; 1: a trap instruction (R187); 2: a collective trap, no entry has failed (R295). -/
structure Halt where
  status : W32
  off : Nat
  addr : BitVec 56
  cap : W32
  capIx : BitVec 4
  kind : Nat
  deriving DecidableEq, Repr, Inhabited

/-- A part of an SQ access on its way (R179): where it went (a die 0 to 63, 64 the host, 65 + l egress link l), the
index of its first byte in the access, its length. -/
structure SqPart where
  dest : Nat
  at_ : Nat
  len : Nat
  deriving DecidableEq, Repr, Inhabited

/-- An atomic on host memory: its operation in the order of R181, B, the expected value, and the address (R182). -/
structure Rmw where
  op : Nat
  b : Word
  expect : Word
  addr : Nat
  deriving DecidableEq, Repr, Inhabited

/-- An SQ instruction that has begun and not retired (R118, R179, R180): bytes gathered so far, parts outstanding, and
how its result is delivered, whether its acquire closes a frame when it has been performed; with `gate`, a system-scope
ordering whose closings and flushing reads have been made; `tgen` the translation generation of its parts (R360); `rmw` what an
atomic on host memory does at the host port (R182). -/
structure SqBusy where
  dst : BitVec 6
  nw : Bool
  width : Nat
  signed : Bool
  got : Map Byte
  parts : List SqPart
  close : Bool
  gate : Bool
  tgen : BitVec 16
  rmw : Option Rmw
  deriving DecidableEq, Repr, Inhabited

/-- States of a ply slot (R37). -/
inductive PlyPhase where
  | free | ready | running | waiting | ended | stopping
  deriving DecidableEq, Repr, Inhabited

/-- The scalar and vector register state of a ply (R36, R94, R131, R185, R207, R211, R230, R239). -/
structure PlyRegs where
  g : Map Word
  y0 : Option Word
  y1 : Option Word
  y2 : Option Word
  y3 : Option Word
  w0 : Option WLatch
  w1 : Option WLatch
  w2 : Option WLatch
  w3 : Option WLatch
  ix : Map Byte
  p : Map (BitVec 352)
  aflags : W32
  flagOvf : Bool
  slip : BitVec 9
  stage : BitVec 16
  enqDone : BitVec 16
  loop : LoopUnit
  vsh : Shape
  vfmt : VFmt
  adl : Map AddrDesc
  ads : Map AddrDesc
  deriving DecidableEq, Repr, Inhabited

/-- A bound ply (R36). `unit` is the serial of its unit; `stopped` holds the engines that have acknowledged a stop
(R37); `firstHalt` is the agent of the first halt since the ply was held (R353); `pend` the AFLAGS bits set by engine
entries and not yet released to SQ: the agent that can release them, a serial, the bits (R132); `tokDone` the tokens an
unfinished tok has pushed (R197); `vlIss`, `vlRow`, `vsIss` and `rowAt` what a VL or VS entry in progress keeps and the row
it has reached (R237); `vlOld` and `vaOld` the registers that the VL or VA entry not yet retired has written, as they were
before, and `vlOldVa` those of `vlOld` as VA finds them, which sees its own earlier writes (R34, R215, R216); `knows` what each
agent, each flag and each token carries of VA's writes to the index registers (R93); `sqEnd`: its `end` has retired (R25, R37). -/
structure Ply where
  phase : PlyPhase
  unit : Nat
  vf : Nat
  vbase : Nat
  vcount : Nat
  regs : PlyRegs
  flags : Map Nat
  toks : Map Nat
  sq : RingQ
  vl : RingQ
  va : RingQ
  vs : RingQ
  mxq : RingQ
  trq : RingQ
  ft : Map W32
  dsrec : Dsrec
  mx : MxState
  mxBehind : List MxState
  tr : TrState
  chain : Option ChainRun
  vlIss : Option VIssue
  vlRow : Nat
  vlOld : Map VReg
  vlOldVa : Map VReg
  vaOld : Map VReg
  knows : Map IxView
  vsIss : Option VIssue
  rowAt : Nat
  holdset : Map Word
  pend : List (Nat × Nat × W32)
  tokDone : Nat
  nextSeq : Nat
  swpts : Nat
  sqEnd : Bool
  wait : Option Wait
  waitDone : Bool
  halts : Map Halt
  firstHalt : Nat
  trapSlot : Option Nat
  preempt : Bool
  evict : Bool
  sqBusy : Option SqBusy
  schedAt : Nat
  schedPtr : Nat
  stopWhy : Nat
  stopped : List Ring
  deriving DecidableEq, Repr, Inhabited

/-! ## Work -/

/-- A launch record as read once (R306, R307). -/
structure LaunchRec where
  addr : Nat
  units : Nat
  vregs : Nat
  slip : Nat
  mxStop : Nat
  futResv : Nat
  coreMask : W32
  code : Nat
  codeLen : Nat
  sizes : List Nat
  ringBase : Nat
  ustride : Word
  args : List Word
  ft : List W32
  ftDecl : BitVec 16
  hankKey : Word
  hankMask : Word
  batchClass : Nat
  rows : Nat
  keyed : Bool
  onMiss : Bool
  maxDefer : Nat
  batchTable : Nat
  sched : Nat
  schedN : Nat
  deriving DecidableEq, Repr, Inhabited

/-- A level record (R29), with the device's own knowledge of the level: its function, whether the extra count of R340
stands, whether an end writes a completion entry, whether a member has faulted, the order of creation, and the journal number
of the command that created it (R365; 0 when no command did); `ends`: the numbers of the seals and cancels accepted for it, with
their kinds. -/
structure Level where
  outstanding : Nat
  unitsDone : W32
  level : BitVec 3
  status : BitVec 3
  parent : BitVec 16
  ident : W32
  used : Bool
  vf : Nat
  sealed : Bool
  notify : Bool
  faulted : Bool
  serial : Nat
  cmdKind : Nat
  jseq : Word
  ends : List (Word × Nat)
  deriving DecidableEq, Repr, Inhabited

/-- A launch known to a distributor. `members` are the other members of its batch and `leader` the leader it follows
(R80); `met` holds the serials of the retained copies that meet its key (R79); `next` the next unit to be chosen; `defers` the
deferrals of its units not yet chosen (R84); `job` the serial of its job. -/
structure Launch where
  lr : LaunchRec
  vf : Nat
  queue : Nat
  level : Nat
  deps : List Nat
  ident : W32
  resv : Nat
  next : Nat
  met : List Nat
  leader : Option Nat
  members : List Nat
  defers : Nat
  job : Nat
  deriving DecidableEq, Repr, Inhabited

/-- States of a unit: queued, chosen, bound, done. -/
inductive UnitPhase where
  | queued | chosen | bound | done
  deriving DecidableEq, Repr, Inhabited

/-- The image of an evicted unit (R362): the ply with its vector registers, its operand-memory slots and its tiles. -/
structure Saved where
  ply : Ply
  vregs : Map VReg
  slots : Map (Map Byte)
  tiles : Map (Map W32 × Bool)
  ganged : List Nat
  deriving DecidableEq, Repr, Inhabited

/-- A unit: its launch, number k (its ring area), level record and future, hold set before binding, passed references
(R199), deferral count (R85), core and slot when bound, image when evicted, the 64 KiB units its image has in the context
store and the image they hold (R362); `job` the serial of its job and `jobRef` whether that job still holds a reference on
its future (R51); `cancelled`: an accepted cancel has reached it (R65); `filled`: it has made its fill (R61, R200); `missed`: it
has been deferred and waits for a matching start (R84, R85). -/
structure WUnit where
  launch : Nat
  lr : LaunchRec
  k : Nat
  level : Nat
  fut : Nat
  gen : BitVec 16
  phase : UnitPhase
  spawned : Bool
  passed : List Word
  holdset : Map Word
  job : Nat
  jobRef : Bool
  defers : Nat
  core : Nat
  slot : Nat
  saved : Option Saved
  imageUnits : List Nat
  image : Option Saved
  cancelled : Bool
  filled : Bool
  missed : Bool
  deriving DecidableEq, Repr, Inhabited

/-- An item of a launch queue: the remaining units of a launch, or one unit that joined by itself. -/
inductive QItem where
  | launch (l : Nat)
  | unit (u : Nat)
  deriving DecidableEq, Repr, Inhabited

/-- LQC n (R44) with its credit and its queue, head first (R45). -/
structure Lqc where
  prio : BitVec 3
  weight : BitVec 8
  enable : Bool
  effPrio : BitVec 3
  age : BitVec 16
  credit : Nat
  fresh : Bool
  items : List QItem
  deriving DecidableEq, Repr, Inhabited

/-- A future-table entry (R49). -/
structure Future where
  state : BitVec 2
  cause : BitVec 2
  pinned : Bool
  indirect : Bool
  doomed : Bool
  reach : BitVec 24
  owner : BitVec 16
  gen : BitVec 16
  dhead : BitVec 9
  result : BitVec 128
  ounit : Nat
  deriving DecidableEq, Repr, Inhabited

/-- A barrier register (R42). -/
structure Barrier where
  phase : BitVec 16
  participants : BitVec 16
  arrived : BitVec 16
  deriving DecidableEq, Repr, Inhabited

/-! ## Cores, lathes, traps -/

/-- PRECTL (R361), fields other than the write-only ones. `slot` and `evict` read as last written; `cur` and `curEvict` are
those of the request being collected. -/
structure Prectl where
  slot : BitVec 3
  evict : Bool
  cur : BitVec 3
  curEvict : Bool
  state : BitVec 2
  acks : BitVec 6
  why : BitVec 2
  deriving DecidableEq, Repr, Inhabited

/-- A core: its Running slot, the slot that last left Running, the slot each engine serves, by agent code (R38), physical
vector registers, DLINK registers (R60) and PRECTL. -/
structure Core where
  running : Option Nat
  last : Nat
  serving : Map Nat
  vregs : Map VReg
  dlink : Map (BitVec 9)
  prectl : Prectl
  deriving DecidableEq, Repr, Inhabited

/-- A claimed operand-memory slot (R95): the ply that holds it (core, ply slot), the serial of the claim, and the bytes
filled since; a byte not listed is undefined. -/
structure OpSlot where
  core : Nat
  slot : Nat
  serial : Nat
  data : Map Byte
  deriving DecidableEq, Repr, Inhabited

/-- A bound accumulator tile (R265): its ply, its valid bit, whether its group is ganged, its elements. -/
structure Tile where
  core : Nat
  slot : Nat
  valid : Bool
  ganged : Bool
  acc : Map W32
  deriving DecidableEq, Repr, Inhabited


/-- A lathe (R251, R270). Tile 2 * side + name; plane 2 * side + name. -/
structure Lathe where
  slots : Map OpSlot
  tiles : Map Tile
  planes : Map Plane
  winMode : Bool
  winLast : Bool
  deriving DecidableEq, Repr, Inhabited

/-- A trap slot of a die (R354). -/
structure TrapSlot where
  used : Bool
  tgen : BitVec 16
  unit : Nat
  vf : Nat
  dropped : Bool
  deriving DecidableEq, Repr, Inhabited

/-! ## Whorl -/

/-- A whorl configuration record (R72). -/
structure WhorlRec where
  id : Nat
  n : Nat
  hankCode : Nat
  parityOn : Bool
  egress : Bool
  slackDepth : Nat
  spare : Nat
  hanks : Nat
  model : BitVec 8
  dwell : Nat
  needInit : Nat
  origin : Bool
  base : Nat
  route : List Nat
  egressOut : Nat
  egressIn : Nat
  deriving DecidableEq, Repr, Inhabited

/-- A pace record (R77): the writing die, the value. -/
structure Pace where
  die : Nat
  need : Nat
  deriving DecidableEq, Repr, Inhabited

/-- A hank in a transit queue (R69, R74): position, tag, beats arrived and beats sent, the hank slot of the region that holds
its beats, and the pace records that travel with it. `counted`: the origin that failed has counted this rotation already
(R86 item 4). -/
structure Hank where
  pos : Nat
  tag : Word
  arrived : Nat
  sent : Nat
  slot : Nat
  paces : List Pace
  counted : Bool
  deriving DecidableEq, Repr, Inhabited

/-- A beat in an elastic buffer (R74): the hank it belongs to when it is the first beat, and its non-zero bytes. -/
structure Beat where
  first : Option Hank
  data : Map Byte
  deriving DecidableEq, Repr, Inhabited

/-- A retained copy in the slack loop (R82, R83). -/
structure Copy where
  serial : Nat
  pos : Nat
  tag : Word
  slot : Nat
  age : Nat
  beats : Nat
  deriving DecidableEq, Repr, Inhabited

/-- A hank hold (R81): the unit that has it, the copy, its serial, and whether it has ended but is not yet applied at a
dwell tick (R83). -/
structure Hold where
  unit : Nat
  copy : Nat
  serial : Nat
  ended : Bool
  deriving DecidableEq, Repr, Inhabited

/-- A member die's part of a whorl (R74 to R83). `leaving`: copies that have left the slack loop while a latch that has issued
still reads them (R84). -/
structure WhorlDie where
  id : Nat
  pos : Nat
  interval : Nat
  needDecl : BitVec 16
  floor : Nat
  stretches : W32
  stretchCycles : W32
  needs : Map Nat
  paceOut : List Pace
  queue : List Hank
  elastic : List Beat
  credits : Nat
  freed : Nat
  sending : Bool
  run : Bool
  slack : List Copy
  leaving : List Copy
  deriving DecidableEq, Repr, Inhabited

/-- A whorl of the panel (R72, R345, R403). `state` 0 none, 1 loading, 2 running, 3 draining, 4 drained; a whorl is lost when
`hstate` is 3 (R87). `lostPos`: a lost position, the group members still to pass (with 2^32 added while one passes), and the
bytes gathered (R86). `spliceLost`: the positions of the last splice not yet rebuilt (R87). `paceAway`: pace records that have
gone out over the egress link (R77). `route` holds the dies still in the ring. -/
structure Whorl where
  cfg : WhorlRec
  route : List Nat
  state : Nat
  vf : Nat
  cmd : BitVec 256
  hstate : BitVec 2
  hdie : BitVec 6
  owed : BitVec 24
  rebuilt : W32
  spliced : Bool
  lostPos : List (Nat × List Nat × Map Byte)
  spliceLost : List Nat
  paceAway : List Pace
  tags : Map W32
  deriving DecidableEq, Repr, Inhabited

/-! ## Fabric -/

/-- An access record of a causal frame (R370) with what the issuing side knows: the requesting die, ply and agent, the first
byte's index in the request, the virtual address and the translation generation (R360). `kind` 0 store, 1 load, 2 atomic with
operation `op`, 3 a flushing read on an egress link (R117). -/
structure AccRec where
  kind : Nat
  op : Nat
  va : Nat
  pa : Nat
  len : Nat
  data : List Byte
  expect : Word
  die : Nat
  core : Nat
  slot : Nat
  agent : Nat
  at_ : Nat
  unit : Nat
  vf : Nat
  stamp : Bool
  tgen : BitVec 16
  deriving DecidableEq, Repr, Inhabited

/-- A causal frame in flight (R114, R369). `own` is the sender's clock entry at its closing; `hop` the switch dies it has crossed
(R367), as in the packets below. -/
structure Frame where
  src : Nat
  dst : Nat
  srcInc : BitVec 16
  dstInc : BitVec 16
  fseq : W32
  own : W32
  clk : Map W32
  recs : List AccRec
  ctr : Nat
  tgen : BitVec 16
  vf : Nat
  mark : Bool
  hop : Nat
  deriving DecidableEq, Repr, Inhabited

/-- A reply or acknowledgement in flight (R115, R370): data bytes per record, and the home die's clock for a load or
atomic. -/
structure Reply where
  src : Nat
  dst : Nat
  srcInc : BitVec 16
  dstInc : BitVec 16
  fseq : W32
  clk : Option (Map W32)
  recs : List (AccRec × List Byte)
  offences : List (AccRec × Nat × Nat)
  echo : Bool
  vf : Nat
  tgen : BitVec 16
  mark : Bool
  hop : Nat
  deriving DecidableEq, Repr, Inhabited

/-- A carder's state towards one target (R114, R371, R373): open frame, its counter, clock last sent, frame number, the rate
limiter (`rate` is r, `echoes` n, `quiet` u), and the echoes that have arrived and not yet acted on it. -/
structure Link where
  open_ : List AccRec
  ctr : Nat
  vf : Nat
  tgen : BitVec 16
  sentClk : Map W32
  txSeq : W32
  rate : Nat
  echoes : Nat
  quiet : Nat
  owed : List Bool
  deriving DecidableEq, Repr, Inhabited

/-- A collective chunk in flight (R291, R292): its partition, group, sequence number and descriptor hash, what it carries of
its descriptor and header, its body of (index, value) pairs, its lowest rank, its remaining hop entries, the deferred list
of R380, and the carder that receives it once it has been delivered; the source and the incarnations of its header (R369, R377).
The node it stands at, or is on its way to, is that of its first entry; `left` is the node it comes from and `hop` counts the switch
dies it has crossed since (R367). -/
structure Chunk where
  part : Nat
  group : Nat
  seq : W32
  hash : W32
  j : Nat
  span : Nat
  vtype : Nat
  denseOff : Bool
  dthresh : Nat
  dense : Bool
  ovf : Bool
  disorder : Bool
  deferred : Bool
  body : List (Nat × W32)
  rank : Nat
  route : List W32
  deferList : List (W32 × Nat)
  deliver : Option Nat
  nchunks : Nat
  src : Nat
  srcInc : BitVec 16
  dstInc : BitVec 16
  mark : Bool
  left : Nat
  hop : Nat
  deriving DecidableEq, Repr, Inhabited

/-- A tcoll of a member (R287, R296): its partition, group, sequence number and unit; GO's raise and push; its output
address, the bytes and chunks written there, and its publish entry; whether it receives a delivery, whether that is
complete, whether it has been completed towards its ply; the chunk of a disorder or of a faulting delivery byte; and the
reason of a notice (R379, R380). `mixed`: the units of 8 bytes, by address, that other commands of its unit have written since it
began (R288). -/
structure Tcoll where
  part : Nat
  group : Nat
  seq : W32
  unit : Nat
  vf : Nat
  re : Bool
  rf : BitVec 6
  push : BitVec 3
  output : Nat
  outAt : Nat
  written : Nat
  nchunks : Nat
  pubEntry : Nat
  delivers : Bool
  complete : Bool
  retired : Bool
  disorderAt : Option Nat
  faultAt : Option Nat
  notice : Nat
  mixed : List Nat
  deriving DecidableEq, Repr, Inhabited

/-- A tenq on its way to its target (R283). -/
structure Tenq where
  src : Nat
  core : Nat
  slot : Nat
  unit : Nat
  vf : Nat
  ident : W32
  queue : Nat
  notify : Bool
  daddr : Nat
  bytes : List Byte
  srcInc : BitVec 16
  dstInc : BitVec 16
  mark : Bool
  hop : Nat
  deriving DecidableEq, Repr, Inhabited

/-! ## Dies, functions, partitions -/

/-- One compute die with its carder. -/
structure Die where
  mem : Map Byte
  part : BitVec 5
  member : Bool
  retired : Bool
  moveUntil : Nat
  inc : BitVec 16
  vclk : Map W32
  futs : Map Future
  levels : Map Level
  launches : Map Launch
  units : Map WUnit
  areas : List (Nat × Nat)
  bars : Map Barrier
  lqs : Map Lqc
  dage : BitVec 16
  lastq : Map Nat
  chosen : List Nat
  bufs : Map Buf
  sched : List (Nat × List W32)
  cores : Map Core
  plies : Map Ply
  lathes : Map Lathe
  traps : Map TrapSlot
  cstoreBase : BitVec 56
  cstoreUnits : BitVec 24
  whorl : Option WhorlDie
  holds : List Hold
  links : Map Link
  collSeq : Map W32
  tcolls : List Tcoll
  deadSeqs : List (Nat × Nat × Nat)
  tenqs : List Tenq
  deriving DecidableEq, Repr, Inhabited

/-- A virtual function: VFBIND, CTXWIN, the ring block, TRAPQ and TRSTAT (R335, R338, R354, R355). `fence` is the partition of the
last write to its VFBIND, whose journal RFENCE reads; a reset keeps it (R5, R365).
`cplRing` and `trapRing` are the entries the device has written to those rings in host memory, by slot; `held` and
`trapHeld` those it holds; `created` the levels its commands created, newest first: die, index and serial (R340). -/
structure VFn where
  qmask : Word
  part : BitVec 5
  fence : BitVec 5
  en : Bool
  winBase : BitVec 56
  winLimit : BitVec 56
  ptRoot : BitVec 56
  tgen : BitVec 16
  cmdBase : BitVec 56
  cmdSize : BitVec 4
  cmdTail : BitVec 16
  cmdHead : BitVec 16
  cplBase : BitVec 56
  cplSize : BitVec 4
  cplTail : BitVec 16
  cplHead : BitVec 16
  coCount : BitVec 16
  coCycles : W32
  intEn : Bool
  stalled : Bool
  held : List (BitVec 128)
  pendCount : Nat
  pendWindow : Bool
  cplRing : Map (BitVec 128)
  trapRing : Map (BitVec 1024)
  trapBase : BitVec 56
  trapSize : BitVec 4
  trapTail : BitVec 16
  trapHead : BitVec 16
  trapHeld : List (BitVec 1024 × BitVec 128)
  trstat : BitVec 2
  created : List (Nat × Nat × Nat)
  deriving DecidableEq, Repr, Inhabited

/-- A collective group (R378) with the serial of its last write, which tells its sequence numbers from those of earlier ones. -/
structure Group where
  members : Word
  valid : Bool
  enc : Bool
  swKeys : Bool
  keySlot : BitVec 16
  serial : Nat
  deriving DecidableEq, Repr, Inhabited

/-- FERR (R381). -/
structure Ferr where
  code : BitVec 8
  die : BitVec 6
  group : BitVec 16
  seq : W32
  count : W32
  valid : Bool
  deriving DecidableEq, Repr, Inhabited

/-- A partition's registers (R347, R349, R364, R366, R378, R381). `jset`: JBASE has been written. -/
structure Part where
  jbase : BitVec 56
  jsize : BitVec 4
  jset : Bool
  jseq : Word
  jdie : BitVec 6
  jstopped : Bool
  busy : Bool
  replay : Bool
  cause : BitVec 3
  wdog : W32
  groups : Map Group
  ferr : Ferr
  deriving DecidableEq, Repr, Inhabited

/-- An egress link (R375) with the accesses and flushing reads sent on it in order and not yet answered, or for a write not
yet known to be applied (R117), and the partitions that use it. -/
structure Egress where
  state : BitVec 2
  use : BitVec 2
  en : Bool
  peerInc : BitVec 16
  peerId : W32
  stale : W32
  malformed : W32
  queue : List AccRec
  parts : List Nat
  deriving DecidableEq, Repr, Inhabited

/-- A key-table entry of an Ethernet port (R385). -/
structure EthKey where
  rkey : W32
  valid : Bool
  die : BitVec 6
  wbase : BitVec 31
  wpages : BitVec 20
  rsvd : Bool
  deriving DecidableEq, Repr, Inhabited

/-- An accepted Ethernet message (R383): issuing die, context and partition, local counter, payload length, header, payload. -/
structure EthMsg where
  die : Nat
  vf : Nat
  part : Nat
  ctr : Nat
  header : BitVec 512
  payload : List Byte
  deriving DecidableEq, Repr, Inhabited

/-- An Ethernet port (R382, R385). -/
structure EthPort where
  part : BitVec 5
  en : Bool
  mac : BitVec 48
  ip : BitVec 128
  rxdie : BitVec 6
  rxslots : BitVec 4
  rxbase : BitVec 56
  rxctr : BitVec 56
  rxhead : W32
  rxcount : W32
  keys : Map EthKey
  sending : List EthMsg
  msgs : Nat
  deriving DecidableEq, Repr, Inhabited

/-- A switch die: CCFG with its counters (R373, R375). -/
structure Switch where
  kmin : BitVec 16
  rmin : BitVec 8
  marked : W32
  stale : W32
  malformed : W32
  deriving DecidableEq, Repr, Inhabited

/-- A block: PWRCTL (R395) and BHEALTH (R398); `pendPart` is the partition of the reset that made its fault pending (R400). -/
structure Block where
  cap : BitVec 12
  capNext : BitVec 12
  draw : BitVec 12
  temp : BitVec 8
  trip : BitVec 8
  tripNext : BitVec 8
  wfrac : BitVec 4
  off : Bool
  ce : W32
  ue : BitVec 16
  transient : BitVec 16
  lasting : BitVec 8
  pending : Bool
  retired : Bool
  pendPart : Nat
  deriving DecidableEq, Repr, Inhabited

/-- FWSTAT, the banks and the update window (R386 to R390). A bank that fails verification is `none`. -/
structure Firmware where
  run : Bool
  sel : Bool
  ready : Bool
  recovery : Bool
  svn : BitVec 8
  svnMin : BitVec 8
  bad : W32
  status : BitVec 2
  bank0 : Option (BitVec 8 × BitVec 512)
  bank1 : Option (BitVec 8 × BitVec 512)
  window : Map Byte
  meas1 : BitVec 512
  deriving DecidableEq, Repr, Inhabited

/-- The SPDM responder of host port 0 (R392, R393): steps taken, algorithms agreed, session, transcript, last response. -/
structure Spdm where
  version : Bool
  caps : Bool
  algs : Bool
  keyed : Option (BitVec 256)
  secured : Bool
  response : List Byte
  deriving DecidableEq, Repr, Inhabited

/-- PHEALTH (R405). -/
structure Phealth where
  why : BitVec 4
  retired : BitVec 8
  retLimit : BitVec 8
  ceLimit : W32
  deriving DecidableEq, Repr, Inhabited

/-- INVCTL (R360). `vf` reads as last written; `cur` is the context of the invalidation in progress. -/
structure Invctl where
  vf : BitVec 8
  cur : BitVec 8
  all : Bool
  done : Bool
  base : BitVec 56
  len : W32
  deriving DecidableEq, Repr, Inhabited

/-- A write posted to host memory, not yet completed (R118): the issuing ply's unit and context, the translation generation
it carries (R360), its address and bytes. -/
structure Posted where
  die : Nat
  unit : Nat
  vf : Nat
  tgen : BitVec 16
  addr : Nat
  bytes : List Byte
  deriving DecidableEq, Repr, Inhabited

/-- The panel. -/
structure State where
  tick : Nat
  turn : Turn
  fresh : Nat
  workBase : Nat
  dies : Map Die
  vfs : Map VFn
  parts : Map Part
  whorls : Map Whorl
  links : Map Egress
  ports : Map EthPort
  sws : Map Switch
  blocks : Map Block
  frames : List Frame
  replies : List Reply
  chunks : List Chunk
  posted : List Posted
  hostReads : List Byte
  msix : List Nat
  invctl : Invctl
  fw : Firmware
  spdm : Spdm
  keys : Map (BitVec 256)
  phealth : Phealth
  powered : Bool
  panelInc : BitVec 16
  devGen : BitVec 8
  devStep : BitVec 8
  devDies : BitVec 8
  deriving DecidableEq, Repr

/-! ## Reset values -/

/-- A ring with nothing in it (R33, R36). -/
def RingQ.reset : RingQ := ⟨0, 0, 0, 0, [], false, none, none, false, false, [], 0⟩
/-- The ply-start shape, a 64 by 16 tile of 4-byte elements (R211). -/
def Shape.reset : Shape := ⟨63, 3, 15⟩
/-- Both formats FP32 (R211). -/
def VFmt.reset : VFmt := ⟨3, 3, 0, 0⟩
/-- LSTATE at reset (R207). -/
def LoopUnit.reset : LoopUnit := ⟨0, 0, 0, 0, false, false⟩
/-- DSREC at reset (R99). -/
def Dsrec.reset : Dsrec := ⟨0, 0, false, 0, false, false, 0⟩
/-- A loop level at reset (R252). -/
def LoopLevel.reset : LoopLevel := ⟨1, 0, 0, 0⟩
/-- The MX state at ply start (R252). -/
def MxState.reset : MxState := ⟨0, 0, 0, 0, 3, 3, 0, false, false, 0, 0, [], [], none, none, false, 0⟩
/-- The TR state at ply start (R275). -/
def TrState.reset : TrState := ⟨0, 0, 0, 0, 1, 0, 0, 0, 0, 0, none⟩
/-- An address descriptor at reset (R230). -/
def AddrDesc.reset : AddrDesc := ⟨0, 0⟩
/-- The registers of a ply before any bind (R36, R185, R211). -/
def PlyRegs.reset : PlyRegs :=
  ⟨[], none, none, none, none, none, none, none, none, [], [], 0, false, 0, 0, 0, .reset, .reset, .reset, [], []⟩
/-- A free ply slot (R37). -/
def Ply.reset : Ply :=
  { phase := .free, unit := 0, vf := 0, vbase := 0, vcount := 0, regs := .reset, flags := [], toks := [],
    sq := .reset, vl := .reset, va := .reset, vs := .reset, mxq := .reset, trq := .reset, ft := [],
    dsrec := .reset, mx := .reset, mxBehind := [], tr := .reset, chain := none, vlIss := none, vlRow := 0,
    vlOld := [], vlOldVa := [], vaOld := [], knows := [], vsIss := none, rowAt := 0, holdset := [], pend := [], tokDone := 0, nextSeq := 0,
    swpts := 0, sqEnd := false, wait := none, waitDone := false, halts := [], firstHalt := 0, trapSlot := none, preempt := false, evict := false,
    sqBusy := none, schedAt := 0, schedPtr := 0, stopWhy := 0, stopped := [] }
/-- LQC n at reset (R44). -/
def Lqc.reset : Lqc := ⟨0, 1, false, 0, 0, 0, false, []⟩
/-- A free future entry (R49). -/
def Future.reset : Future := ⟨3, 0, false, false, false, 0, 0, 0, 0, 0, 0⟩
/-- A work-table record not in use (R29). -/
def Level.reset : Level := ⟨0, 0, 0, 0, 0, 0, false, 0, false, false, false, 0, 0, 0, []⟩
/-- An unconfigured barrier (R42). -/
def Barrier.reset : Barrier := ⟨0, 0, 0⟩
/-- A buffer-map entry that registers nothing (R100). -/
def Buf.reset : Buf := ⟨0, 0, 0, false, false, false, 0, 0, 0, []⟩
/-- PRECTL at reset (R361). -/
def Prectl.reset : Prectl := ⟨0, false, 0, false, 0, 0, 0⟩
/-- A core with no Running ply (R38). The search of R38 starts at slot 0, log 4. -/
def Core.reset : Core := ⟨none, 7, [], [], [], .reset⟩
/-- A lathe with every slot free and no tile bound (R251, R265, R270). -/
def Lathe.reset : Lathe := ⟨[], [], [], false, false⟩
/-- A free trap slot (R354). -/
def TrapSlot.reset : TrapSlot := ⟨false, 0, 0, 0, false⟩
/-- A carder's state towards one target at power-on (R373). -/
def Link.reset : Link := ⟨[], 0, 0, 0, [], 0, 256, 16, 0, []⟩
/-- A die after power-on: zero store, no partition (R386 step 5). -/
def Die.reset : Die :=
  { mem := [], part := 0, member := false, retired := false, moveUntil := 0, inc := 0, vclk := [], futs := [], levels := [],
    launches := [], units := [], areas := [], bars := [], lqs := [], dage := 64, lastq := [], chosen := [],
    bufs := [], sched := [], cores := [], plies := [], lathes := [], traps := [], cstoreBase := 0,
    cstoreUnits := 0, whorl := none, holds := [], links := [], collSeq := [], tcolls := [], deadSeqs := [],
    tenqs := [] }
/-- A virtual function after power-on (R335, R338, R354). -/
def VFn.reset : VFn :=
  { qmask := 0, part := 0, fence := 0, en := false, winBase := 0, winLimit := 0, ptRoot := 0, tgen := 0, cmdBase := 0,
    cmdSize := 0, cmdTail := 0, cmdHead := 0, cplBase := 0, cplSize := 0, cplTail := 0, cplHead := 0, coCount := 1,
    coCycles := 0, intEn := false, stalled := false, held := [], pendCount := 0, pendWindow := false, cplRing := [], trapRing := [], trapBase := 0,
    trapSize := 0, trapTail := 0, trapHead := 0, trapHeld := [], trstat := 0, created := [] }
/-- A group-table entry at reset (R378). -/
def Group.reset : Group := ⟨0, false, false, false, 0, 0⟩
/-- FERR at reset (R381). -/
def Ferr.reset : Ferr := ⟨0, 0, 0, 0, 0, false⟩
/-- A partition after power-on (R347: sequence numbers start at 1). -/
def Part.reset : Part := ⟨0, 0, false, 1, 0, false, false, false, 0, 0, [], .reset⟩
/-- An egress link after power-on (R375). -/
def Egress.reset : Egress := ⟨0, 0, false, 0, 0, 0, 0, [], []⟩
/-- An Ethernet port after power-on (R382). -/
def EthPort.reset : EthPort := ⟨0, false, 0, 0, 0, 0, 0, 0, 0, 0, [], [], 0⟩
/-- A switch die after power-on (R373). -/
def Switch.reset : Switch := ⟨512, 8, 0, 0, 0⟩
/-- No whorl is loaded (R345). -/
def Whorl.reset : Whorl :=
  ⟨⟨0, 0, 0, false, false, 0, 0, 0, 0, 0, 0, false, 0, [], 0, 0⟩, [], 0, 0, 0, 0, 0, 0, 0, false, [], [], [], []⟩
/-- The allotment of a block in watts (R22, R395). -/
def Block.allot (b : Nat) : Nat := if b < 64 then 550 else if b < 128 then 60 else if b < 144 then 150 else 140
/-- A block after power-on (R395, R398). -/
def Block.reset (b : Nat) : Block :=
  ⟨BitVec.ofNat 12 (Block.allot b), BitVec.ofNat 12 (Block.allot b), 0, 0, 105, 105, 0, false, 0, 0, 0, 0, false, false, 0⟩
/-- The firmware state once step 8 of R386 is reached. Both banks hold a verified image with `svn` 0 (log 11). -/
def Firmware.reset : Firmware :=
  ⟨false, false, true, false, 0, 0, 0, 0, some (0, 0), some (0, 0), [], 0⟩
/-- The SPDM responder before any request (R392). -/
def Spdm.reset : Spdm := ⟨false, false, false, none, false, []⟩
/-- PHEALTH at power-on (R405). -/
def Phealth.reset : Phealth := ⟨0, 0, 4, 65536⟩
/-- INVCTL at reset (R360). -/
def Invctl.reset : Invctl := ⟨0, 0, false, true, 0, 0⟩

/-- The panel right after power-on, when step 8 of R386 has been reached: every register at its Reset value, die store
zero, nothing configured. Every map is empty, and an index not listed holds its reset value. -/
def State.reset : State :=
  { tick := 0, turn := .idle, fresh := 0, workBase := 0x7FDC0000, dies := [], vfs := [], parts := [], whorls := [],
    links := [], ports := [], sws := [], blocks := [], frames := [], replies := [], chunks := [], posted := [],
    hostReads := [], msix := [], invctl := .reset, fw := .reset, spdm := .reset, keys := [], phealth := .reset,
    powered := true, panelInc := 0, devGen := 1, devStep := 0, devDies := 64 }

/-- Why the machine stops. The spec gives every instruction and event an effect, so no step of the machine faults. -/
inductive Fault where
  /-- Raised by the meaning of an SQ word or of an engine word applied in a state whose turn names no ply that could
  run it. No step raises it: a step applies a word's meaning only when its turn names such a ply. Safe. -/
  | noAgent
  deriving DecidableEq, Repr

/-- Why an instruction has no meaning. -/
inductive Refusal where
  /-- Raised by an arm of exec whose instruction is not modelled yet, named by its mnemonic. Safe. -/
  | notModelled (mnemonic : String)
  deriving DecidableEq, Repr

/-- The outcome of a step of this machine. -/
abbrev Out := Host.Outcome State Fault Refusal

end Sys2Proof.Machine
end

