-- ==== Sys2Proof/Machine/Maps.lean ====
section
/-! DEFINITION. Sparse maps, bytes and byte order: the plain operations that memory and registers are built from. -/

namespace Sys2Proof.Machine

open Sys2Proof

/-- The entry listed for a key, if any. -/
def mfind {α : Type} (m : Map α) (k : Nat) : Option α :=
  match m with
  | [] => none
  | (j, x) :: t => if j = k then some x else mfind t k

/-- The value at a key; an unlisted key holds `d`. -/
def mget {α : Type} (d : α) (m : Map α) (k : Nat) : α := (mfind m k).getD d

/-- Writes the entry of a key, keeping the keys rising. -/
def mput {α : Type} (m : Map α) (k : Nat) (v : α) : Map α :=
  match m with
  | [] => [(k, v)]
  | (j, x) :: t => if k < j then (k, v) :: (j, x) :: t else if k = j then (k, v) :: t else (j, x) :: mput t k v

/-- Removes the entry of a key. -/
def mdel {α : Type} (m : Map α) (k : Nat) : Map α :=
  match m with
  | [] => []
  | (j, x) :: t => if j = k then mdel t k else (j, x) :: mdel t k

/-- Writes a value where an unlisted key reads as `d`: the canonical form lists no entry equal to `d`. -/
def mset {α : Type} [DecidableEq α] (d : α) (m : Map α) (k : Nat) (v : α) : Map α :=
  if v = d then mdel m k else mput m k v

/-- Every listed key is above `lo`, keys rise strictly, and no entry equals `d`. -/
def mwfFrom {α : Type} [DecidableEq α] (d : α) (lo : Option Nat) (m : Map α) : Bool :=
  match m with
  | [] => true
  | (k, v) :: t => (match lo with | none => true | some l => decide (l < k)) && decide (v ≠ d) && mwfFrom d (some k) t

/-- The canonical form of a memory: addresses strictly rising, no zero byte listed. -/
def Memory.wf (m : Map Byte) : Bool := mwfFrom 0 none m

/-- The keys of a map. -/
def mkeys {α : Type} (m : Map α) : List Nat := m.map Prod.fst

/-- The lowest of `n` keys from `k` up that is not listed. -/
def mfree {α : Type} (m : Map α) (k : Nat) (n : Nat) : Option Nat :=
  match n with
  | 0 => none
  | n + 1 => if (mfind m k).isNone then some k else mfree m (k + 1) n

/-- One byte of a memory. -/
def getByte (m : Map Byte) (a : Nat) : Byte := mget 0 m a

/-- Writes one byte of a memory. -/
def putByte (m : Map Byte) (a : Nat) (b : Byte) : Map Byte := mset 0 m a b

/-- The `n` bytes from `a` up. -/
def getBytes (m : Map Byte) (a : Nat) (n : Nat) : List Byte :=
  match n with
  | 0 => []
  | n + 1 => getByte m a :: getBytes m (a + 1) n

/-- Writes bytes from `a` up. -/
def putBytes (m : Map Byte) (a : Nat) (bs : List Byte) : Map Byte :=
  match bs with
  | [] => m
  | b :: t => putBytes (putByte m a b) (a + 1) t

/-- The value of bytes, least significant first (R3). -/
def leNat (bs : List Byte) : Nat :=
  match bs with
  | [] => 0
  | b :: t => b.toNat + 256 * leNat t

/-- The low `n` bytes of a value, least significant first (R3). -/
def leBytes (n v : Nat) : List Byte :=
  match n with
  | 0 => []
  | n + 1 => BitVec.ofNat 8 v :: leBytes n (v / 256)

/-- Reads `n` bytes as a little-endian value. -/
def getLE (m : Map Byte) (a n : Nat) : Nat := leNat (getBytes m a n)

/-- Writes the low `n` bytes of `v`, little-endian. -/
def putLE (m : Map Byte) (a n v : Nat) : Map Byte := putBytes m a (leBytes n v)

/-- The listed bytes of `[lo, lo + n)`, rebased to 0. -/
def takeRange (m : Map Byte) (lo n : Nat) : Map Byte :=
  match m with
  | [] => []
  | (a, b) :: t =>
    if a < lo then takeRange t lo n else if a < lo + n then (a - lo, b) :: takeRange t lo n else []

/-- A memory with `[lo, lo + n)` zero. -/
def clearRange (m : Map Byte) (lo n : Nat) : Map Byte := m.filter (fun e => decide (e.1 < lo) || decide (lo + n ≤ e.1))

/-- Writes the listed bytes of `x` at `lo` up. -/
def pasteRange (m : Map Byte) (lo : Nat) (x : Map Byte) : Map Byte :=
  x.foldl (fun acc e => putByte acc (lo + e.1) e.2) m

/-- Copies `n` bytes of one memory over `[dst, dst + n)` of another. -/
def copyRange (src : Map Byte) (from_ : Nat) (m : Map Byte) (dst n : Nat) : Map Byte :=
  pasteRange (clearRange m dst n) dst (takeRange src from_ n)

/-- Bits `[lo + n - 1 : lo]` of a value. -/
def bits (v lo n : Nat) : Nat := v / 2 ^ lo % 2 ^ n

/-- Bit `k` of a value. -/
def bitB (v k : Nat) : Bool := decide (v / 2 ^ k % 2 = 1)

/-- The two's-complement value of the low `n` bits. -/
def sInt (v n : Nat) : Int := if v % 2 ^ n < 2 ^ (n - 1) then ((v % 2 ^ n : Nat) : Int) else ((v % 2 ^ n : Nat) : Int) - (2 ^ n : Nat)

/-- The low `n` bits of an integer. -/
def uNat (x : Int) (n : Nat) : Nat := (x % ((2 ^ n : Nat) : Int)).toNat

/-- A Boolean as a number. -/
def b2n (b : Bool) : Nat := if b then 1 else 0

/-- Rounds up to a multiple. -/
def roundUp (x m : Nat) : Nat := if m = 0 then x else (x + m - 1) / m * m

/-- The first element of a list that a test accepts, searching from index `i`, with its index. -/
def findIdxFrom {α : Type} (p : α → Bool) (i : Nat) (l : List α) : Option Nat :=
  match l with
  | [] => none
  | x :: t => if p x then some i else findIdxFrom p (i + 1) t

/-- The first number of `n` numbers from `k` up that a test accepts. -/
def firstFrom (p : Nat → Bool) (k n : Nat) : Option Nat :=
  match n with
  | 0 => none
  | n + 1 => if p k then some k else firstFrom p (k + 1) n

/-- Applies `f` to the numbers `k`, `k + 1`, … , `n` of them, in order. -/
def iterFrom {β : Type} (f : Nat → β → β) (k n : Nat) (x : β) : β :=
  match n with
  | 0 => x
  | n + 1 => iterFrom f (k + 1) n (f k x)

/-- Whether the modulo-2^16 counter `phase` has reached `target` (R42). -/
def barrierReached (phase target : BitVec 16) : Bool := decide ((phase - target).toNat < 32768)

/-- The comparison of vector clock entries, the test of R42 widened to 32 bits (R114). -/
def clockReached (a b : W32) : Bool := decide ((a - b).toNat < 2147483648)

/-- The later of two clock entries (R114). -/
def clockMax (a b : W32) : W32 := if clockReached a b then a else b

/-- Adds with a bound. -/
def satAdd (x n bound : Nat) : Nat := if x + n < bound then x + n else bound

end Sys2Proof.Machine
end

