-- ==== Sys2Proof/Machine/Access.lean ====
section
/-! DEFINITION. Where each piece of state stands: the accessors through which every meaning reads and writes it. -/

namespace Sys2Proof.Machine

open Sys2Proof

/-- A ply slot of the panel: die, core, slot. -/
structure Here where
  d : Nat
  c : Nat
  k : Nat
  deriving DecidableEq, Repr, Inhabited

def State.die (s : State) (d : Nat) : Die := mget .reset s.dies d
def State.setDie (s : State) (d : Nat) (x : Die) : State := { s with dies := mput s.dies d x }
def State.mapDie (s : State) (d : Nat) (f : Die → Die) : State := s.setDie d (f (s.die d))
def State.vf (s : State) (v : Nat) : VFn := mget .reset s.vfs v
def State.setVf (s : State) (v : Nat) (x : VFn) : State := { s with vfs := mput s.vfs v x }
def State.mapVf (s : State) (v : Nat) (f : VFn → VFn) : State := s.setVf v (f (s.vf v))
def State.part (s : State) (p : Nat) : Part := mget .reset s.parts p
def State.setPart (s : State) (p : Nat) (x : Part) : State := { s with parts := mput s.parts p x }
def State.mapPart (s : State) (p : Nat) (f : Part → Part) : State := s.setPart p (f (s.part p))
def State.whorl (s : State) (w : Nat) : Whorl := mget .reset s.whorls w
def State.setWhorl (s : State) (w : Nat) (x : Whorl) : State := { s with whorls := mput s.whorls w x }
def State.mapWhorl (s : State) (w : Nat) (f : Whorl → Whorl) : State := s.setWhorl w (f (s.whorl w))
def State.egress (s : State) (l : Nat) : Egress := mget .reset s.links l
def State.setEgress (s : State) (l : Nat) (x : Egress) : State := { s with links := mput s.links l x }
def State.mapEgress (s : State) (l : Nat) (f : Egress → Egress) : State := s.setEgress l (f (s.egress l))
def State.port (s : State) (p : Nat) : EthPort := mget .reset s.ports p
def State.setPort (s : State) (p : Nat) (x : EthPort) : State := { s with ports := mput s.ports p x }
def State.mapPort (s : State) (p : Nat) (f : EthPort → EthPort) : State := s.setPort p (f (s.port p))
def State.switch (s : State) (k : Nat) : Switch := mget .reset s.sws k
def State.setSwitch (s : State) (k : Nat) (x : Switch) : State := { s with sws := mput s.sws k x }
def State.block (s : State) (b : Nat) : Block := mget (.reset b) s.blocks b
def State.setBlock (s : State) (b : Nat) (x : Block) : State := { s with blocks := mput s.blocks b x }
def State.mapBlock (s : State) (b : Nat) (f : Block → Block) : State := s.setBlock b (f (s.block b))

def Die.core (x : Die) (c : Nat) : Core := mget .reset x.cores c
def Die.setCore (x : Die) (c : Nat) (y : Core) : Die := { x with cores := mput x.cores c y }
def Die.mapCore (x : Die) (c : Nat) (f : Core → Core) : Die := x.setCore c (f (x.core c))
def Die.ply (x : Die) (c k : Nat) : Ply := mget .reset x.plies (c * 8 + k)
def Die.setPly (x : Die) (c k : Nat) (y : Ply) : Die := { x with plies := mput x.plies (c * 8 + k) y }
def Die.mapPly (x : Die) (c k : Nat) (f : Ply → Ply) : Die := x.setPly c k (f (x.ply c k))
def Die.fut (x : Die) (f : Nat) : Future := mget .reset x.futs f
def Die.setFut (x : Die) (f : Nat) (y : Future) : Die := { x with futs := mput x.futs f y }
def Die.mapFut (x : Die) (f : Nat) (g : Future → Future) : Die := x.setFut f (g (x.fut f))
def Die.level (x : Die) (i : Nat) : Level := mget .reset x.levels i
def Die.setLevel (x : Die) (i : Nat) (y : Level) : Die := { x with levels := mput x.levels i y }
def Die.mapLevel (x : Die) (i : Nat) (f : Level → Level) : Die := x.setLevel i (f (x.level i))
def Die.bar (x : Die) (b : Nat) : Barrier := mget .reset x.bars b
def Die.setBar (x : Die) (b : Nat) (y : Barrier) : Die := { x with bars := mput x.bars b y }
def Die.buf (x : Die) (b : Nat) : Buf := mget .reset x.bufs b
def Die.setBuf (x : Die) (b : Nat) (y : Buf) : Die := { x with bufs := mput x.bufs b y }
def Die.mapBuf (x : Die) (b : Nat) (f : Buf → Buf) : Die := x.setBuf b (f (x.buf b))
def Die.lqc (x : Die) (q : Nat) : Lqc := mget .reset x.lqs q
def Die.setLqc (x : Die) (q : Nat) (y : Lqc) : Die := { x with lqs := mput x.lqs q y }
def Die.lathe (x : Die) (n : Nat) : Lathe := mget .reset x.lathes n
def Die.setLathe (x : Die) (n : Nat) (y : Lathe) : Die := { x with lathes := mput x.lathes n y }
def Die.mapLathe (x : Die) (n : Nat) (f : Lathe → Lathe) : Die := x.setLathe n (f (x.lathe n))
def Die.link (x : Die) (t : Nat) : Link := mget .reset x.links t
def Die.setLink (x : Die) (t : Nat) (y : Link) : Die := { x with links := mput x.links t y }
def Die.mapLink (x : Die) (t : Nat) (f : Link → Link) : Die := x.setLink t (f (x.link t))
def Die.trap (x : Die) (t : Nat) : TrapSlot := mget .reset x.traps t
def Die.setTrap (x : Die) (t : Nat) (y : TrapSlot) : Die := { x with traps := mput x.traps t y }
def Die.unit? (x : Die) (u : Nat) : Option WUnit := mfind x.units u
def Die.setUnit (x : Die) (u : Nat) (y : WUnit) : Die := { x with units := mput x.units u y }
def Die.mapUnit (x : Die) (u : Nat) (f : WUnit → WUnit) : Die :=
  match x.unit? u with
  | none => x
  | some y => x.setUnit u (f y)
def Die.launch? (x : Die) (l : Nat) : Option Launch := mfind x.launches l
def Die.setLaunch (x : Die) (l : Nat) (y : Launch) : Die := { x with launches := mput x.launches l y }
def Die.mapLaunch (x : Die) (l : Nat) (f : Launch → Launch) : Die :=
  match x.launch? l with
  | none => x
  | some y => x.setLaunch l (f y)

def State.ply (s : State) (h : Here) : Ply := (s.die h.d).ply h.c h.k
def State.setPly (s : State) (h : Here) (p : Ply) : State := s.mapDie h.d (fun x => x.setPly h.c h.k p)
def State.mapPly (s : State) (h : Here) (f : Ply → Ply) : State := s.setPly h (f (s.ply h))
def State.regs (s : State) (h : Here) : PlyRegs := (s.ply h).regs
def State.mapRegs (s : State) (h : Here) (f : PlyRegs → PlyRegs) : State :=
  s.mapPly h (fun p => { p with regs := f p.regs })
def State.core (s : State) (h : Here) : Core := (s.die h.d).core h.c
def State.mapCore (s : State) (h : Here) (f : Core → Core) : State := s.mapDie h.d (fun x => x.mapCore h.c f)

/-- The ring descriptor of a ply for a ring. -/
def Ply.ring (p : Ply) (r : Ring) : RingQ :=
  match r with
  | .sq => p.sq | .vl => p.vl | .va => p.va | .vs => p.vs | .mx => p.mxq | .tr => p.trq

def Ply.setRing (p : Ply) (r : Ring) (q : RingQ) : Ply :=
  match r with
  | .sq => { p with sq := q } | .vl => { p with vl := q } | .va => { p with va := q } | .vs => { p with vs := q }
  | .mx => { p with mxq := q } | .tr => { p with trq := q }

def Ply.mapRing (p : Ply) (r : Ring) (f : RingQ → RingQ) : Ply := p.setRing r (f (p.ring r))

/-- Whether an engine ring of a ply has an entry, or MX a command in flight that is not at its read pointer (R25, R268). -/
def Ply.ringBusy (p : Ply) (r : Ring) : Bool := !(p.ring r).entries.isEmpty || (r == .mx && !p.mxBehind.isEmpty)

/-- The next serial number, and the state that has used it (log 2). -/
def State.serial (s : State) : Nat := s.fresh
def State.tickFresh (s : State) : State := { s with fresh := s.fresh + 1 }

/-- The lathe of a core (R20). -/
def Here.lathe (h : Here) : Nat := h.c / 2

/-- The Running ply of the sequencer named by the turn, if it has one (R38). -/
def State.sqHere (s : State) : Option Here :=
  match s.turn with
  | .sq d c =>
    match ((s.die d).core c).running with
    | some k => some ⟨d, c, k⟩
    | none => none
  | _ => none

/-- The ring the turn names, with its ply (R32, R38). -/
def Turn.ring? (t : Turn) : Option (Here × Ring) :=
  match t with
  | .ring d c k r => some (⟨d, c, k⟩, r)
  | .piece d c k r => some (⟨d, c, k⟩, r)
  | _ => none

/-- Whether the ring of the turn does one 8-byte unit of its work (R108). -/
def State.inPieces (s : State) : Bool :=
  match s.turn with
  | .piece _ _ _ _ => true
  | _ => false

/-- The ring named by the turn, with its ply, when that ring has an entry (R32, R38). -/
def State.ringHere (s : State) (r : Ring) : Option Here :=
  match Turn.ring? s.turn with
  | some (h, q) => if q = r && (s.ply h).ringBusy r then some h else none
  | none => none

/-- The ring of the turn among the three vector rings, for a word that any of them may run (R158). -/
def State.vecHere (s : State) : Option (Here × Ring) :=
  match Turn.ring? s.turn with
  | some (h, q) =>
    if (q = .vl || q = .va || q = .vs) && !((s.ply h).ring q).entries.isEmpty then some (h, q) else none
  | none => none

/-- Runs a meaning at the sequencer of the turn. -/
def onSq (s : State) (f : Here → State) : Out :=
  match s.sqHere with
  | none => .fault .noAgent
  | some h => .next (f h)

/-- Runs a meaning at a ring of the turn. -/
def onRing (r : Ring) (s : State) (f : Here → State) : Out :=
  match s.ringHere r with
  | none => .fault .noAgent
  | some h => .next (f h)

/-- Runs a meaning at whichever vector ring the turn names. -/
def onVec (s : State) (f : Here → Ring → State) : Out :=
  match s.vecHere with
  | none => .fault .noAgent
  | some (h, r) => .next (f h r)

/-- Whether a number is a die of the panel. -/
def isDie (d : Nat) : Bool := decide (d < 64)

/-- Whether a die and its carder have their power (R396). -/
def State.dieOn (s : State) (d : Nat) : Bool := !(s.block d).off && !(s.block (64 + d)).off && !(s.die d).retired

/-- Whether edge chiplet `j` has its power, and with it its host port, Ethernet ports and egress links (R12, R396). -/
def State.edgeOn (s : State) (j : Nat) : Bool := !(s.block (144 + j)).off

/-- Whether a host port works: its edge chiplet has its power (R12, R396). Function v is on port v / 48 (R333). -/
def State.hostOn (s : State) (port : Nat) : Bool := decide (port < 4) && s.edgeOn port

/-- Whether an Ethernet port works: its edge chiplet has its power (R12, R396). -/
def State.portOn (s : State) (port : Nat) : Bool := decide (port < 8) && s.edgeOn (port / 2)

/-- The members of a partition, ascending (R16). -/
def State.members (s : State) (p : Nat) : List Nat :=
  (List.range Config.dies).filter (fun d => (s.die d).member && decide ((s.die d).part.toNat = p))

/-- Whether a packet is stale (R377). -/
def State.stalePkt (s : State) (src dst : Nat) (srcInc dstInc : BitVec 16) : Bool :=
  decide (srcInc ≠ (s.die src).inc) || decide (dstInc ≠ (s.die dst).inc)

/-- The partition a die belongs to; 32, which names none, for a die of no partition. -/
def Die.partNo (x : Die) : Nat := if x.member then x.part.toNat else 32

end Sys2Proof.Machine
end

