-- ==== Sys2Proof/Machine/Storage.lean ====
section
/-! DEFINITION. Storage as programs see it: translation, range, registered buffers, publish, the first-offender record,
and byte accesses of each agent (R96 to R102, R174, R358, R359). -/

namespace Sys2Proof.Machine

open Sys2Proof

/-! ## Translation -/

/-- The 8-byte entry `i` of a translation table (R358). -/
def pte (m : Map Byte) (table i : Nat) : Nat := getLE m (table + 8 * i) 8

/-- A leaf entry found at a level: malformed, or the page of the byte at `va` (R358). `lo` is the page size's exponent. -/
def leafAt (e va lo level : Nat) : Xlat :=
  let kind := bits e 4 2
  let wh := bits e 6 6
  if kind = 3 ∨ bits e 12 5 ≠ 0 ∨ bits e 56 8 ≠ 0 ∨ bits e 17 (lo - 17) ≠ 0 ∨ (kind = 1 ∧ wh ≠ 0) ∨
      (kind = 2 ∧ 16 ≤ wh) then .fault 3 level
  else .page ⟨kind, wh, bits e 17 39 * 2 ^ 17 + bits va 0 lo, bitB e 2, bitB e 3, level⟩

/-- The four-level walk on bits [54:0] of an address (R358, R359). -/
def walk (m : Map Byte) (root va : Nat) : Xlat :=
  let e0 := pte m root (bits va 39 16)
  if !bitB e0 0 then .fault 1 0
  else if bitB e0 1 ∨ bits e0 12 5 ≠ 0 ∨ bits e0 56 8 ≠ 0 then .fault 3 0
  else
    let e1 := pte m (bits e0 17 39 * 2 ^ 17) (bits va 30 9)
    if !bitB e1 0 then .fault 1 1
    else if bitB e1 1 then leafAt e1 va 30 1
    else if bits e1 12 5 ≠ 0 ∨ bits e1 56 8 ≠ 0 then .fault 3 1
    else
      let e2 := pte m (bits e1 17 39 * 2 ^ 17) (bits va 21 9)
      if !bitB e2 0 then .fault 1 2
      else if bitB e2 1 then leafAt e2 va 21 2
      else if bits e2 56 8 ≠ 0 then .fault 3 2
      else
        let e3 := pte m (bits e2 7 49 * 2 ^ 7) (bits va 17 4)
        if !bitB e3 0 then .fault 1 3
        else if !bitB e3 1 then .fault 3 3
        else leafAt e3 va 17 3

/-- A translation made at die `d` in the context of function `v` (R358, R359). The tables lie in the store of the die
that translates, at the physical address `pt_root` (DEDUCED, log 13). -/
def State.translate (s : State) (d v va : Nat) (write : Bool) : Xlat :=
  match walk (s.die d).mem (s.vf v).ptRoot.toNat va with
  | .fault r l => .fault r l
  | .out => .out
  | .page p =>
    if write && !p.write then .fault 2 p.level
    else if p.kind = 0 ∧ ¬((s.die p.home).member ∧ (s.die p.home).part = (s.vf v).part) then .fault 4 p.level
    else .page p

/-! ## Registered buffers -/

/-- How an access takes its frame (R101). -/
inductive Mode where
  | load | store | engine | stamp | atomic
  deriving DecidableEq, Repr

/-- Whether an access needs a writable page (R359). -/
def Mode.writes (m : Mode) : Bool := m != .load

/-- The valid buffer-map entry that covers a plain address (R100). -/
def findBuf (bs : Map Buf) (plain : Nat) : Option (Nat × Buf) :=
  match bs with
  | [] => none
  | (i, b) :: t =>
    if b.valid ∧ b.base.toNat ≤ plain ∧ plain < b.base.toNat + b.chunks.toNat * 4096 then some (i, b) else findBuf t plain

/-- The byte of a chunk table that holds chunk `c` (R100). -/
def Buf.bitAddr (b : Buf) (c : Nat) : Nat := b.bits.toNat * 4096 + c / 4

/-- The live bit of a chunk, from a chunk table in a memory (R100). -/
def Buf.live (b : Buf) (m : Map Byte) (c : Nat) : Bool := bitB (getByte m (b.bitAddr c)).toNat (2 * (c % 4))

/-- The dirty bit of a chunk (R100). -/
def Buf.dirty (b : Buf) (m : Map Byte) (c : Nat) : Bool := bitB (getByte m (b.bitAddr c)).toNat (2 * (c % 4) + 1)

/-- Writes the live and dirty bits of a chunk (R100). -/
def Buf.mark (b : Buf) (m : Map Byte) (c : Nat) (live dirty : Bool) : Map Byte :=
  let v := (getByte m (b.bitAddr c)).toNat
  let k := 2 * (c % 4)
  putByte m (b.bitAddr c) (BitVec.ofNat 8 (v / 2 ^ (k + 2) * 2 ^ (k + 2) + b2n dirty * 2 ^ (k + 1) + b2n live * 2 ^ k + v % 2 ^ k))

/-- The physical address of chunk `c` in the half that `h` names (R100). -/
def Buf.frame (b : Buf) (h : Bool) (c : Nat) : Nat := ((if h then b.half1 else b.half0).toNat + c) * 4096

/-- The mapping of a load entry, sampled when it issues (R102). `none`: the mapping as it stands. -/
abbrev Snap := Option Sample

/-- The mapping of every valid buffer of a die as it stands (R102). -/
def Die.sample (x : Die) : Sample :=
  x.bufs.filterMap (fun (i, b) =>
    if b.valid then some (i, b, takeRange x.mem (b.bits.toNat * 4096) ((b.chunks.toNat + 3) / 4)) else none)

/-- The valid buffer that covers a plain address, under a sampled mapping or as the map stands (R100, R102). -/
def Die.bufAt (x : Die) (snap : Snap) (plain : Nat) : Option (Nat × Buf) :=
  match snap with
  | none => findBuf x.bufs plain
  | some t => findBuf (t.map (fun e => (e.1, e.2.1))) plain

/-- The live bit of chunk `c` of buffer `i` under a sampled mapping. -/
def Die.liveBit (x : Die) (snap : Snap) (i : Nat) (b : Buf) (c : Nat) : Bool :=
  match snap.bind (fun t => mfind t i) with
  | none => b.live x.mem c
  | some (_, tab) => bitB (getByte tab (c / 4)).toNat (2 * (c % 4))

/-! ## Where a byte is performed -/

/-- Where a byte of an access lands at its home die: a frame byte, the shadow half of a buffer (entry, offset), a byte
of the work table, or out of range with a cause (R97, R98, R101). -/
inductive Place where
  | mem (pa : Nat)
  | shadow (b off : Nat)
  | level (off : Nat)
  | bad (cause : Nat)
  deriving DecidableEq, Repr

/-- The 4 KiB frame in which the ring block at a plain address lies, when it lies in this die's store: rings are aligned to
4 KiB and more, so a block never straddles two pages or chunks (R33, R100). -/
def Die.ringFrame (x : Die) (d root plain : Nat) : Option Nat :=
  match walk x.mem root plain with
  | .page p =>
    if p.kind = 0 ∧ p.home = d then
      match findBuf x.bufs plain with
      | some (_, b) =>
        let c := (plain - b.base.toNat) / 4096
        some (b.frame (b.live x.mem c) c / 4096)
      | none => some (p.pa / 4096)
    else none
  | _ => none

/-- Whether a byte of die store at home on die `d` lies in a ring of a ply other than the one with key `own` (R32, R97). -/
def State.ringAt (s : State) (d : Nat) (own : Option Nat) (pa : Nat) : Bool :=
  (s.die d).plies.any (fun (k, p) => p.phase != .free && decide (own ≠ some k) && Ring.all.any (fun r =>
    let q := p.ring r
    (List.range (2 ^ q.sizeCode.toNat)).any (fun j =>
      decide ((s.die d).ringFrame d (s.vf p.vf).ptRoot.toNat ((q.base.toNat + 4096 * j) % 2 ^ 55) = some (pa / 4096)))))

/-- The judgement of a byte of die store by its physical address: past the store, in the future table, in a level record,
or in a ring of another ply, as `rings` says (R21, R29, R97). -/
def guardPa (wb : Nat) (rings : Nat → Bool) (m : Mode) (pa : Nat) : Place :=
  if Config.storeBytes ≤ pa then .bad 0
  else if Config.futBase ≤ pa then .bad 2
  else if wb ≤ pa ∧ pa < wb + 16 * Config.levelCount then
    if m = .load then .level (pa - wb) else .bad 2
  else if rings pa then .bad 2
  else .mem pa

/-- The place of a byte that goes to the shadow half of a buffer. -/
def Die.shadowPlace (x : Die) (wb : Nat) (rings : Nat → Bool) (i : Nat) (b : Buf) (off : Nat) : Place :=
  let c := off / 4096
  match guardPa wb rings .store (b.frame (!b.live x.mem c) c + off % 4096) with
  | .mem _ => .shadow i off
  | p => p

/-- The judgement of a byte at its home die (R97, R98, R101, R115). `rings` says which bytes lie in a ring of another ply. A
shadow-view address that names no registered buffer has cause 3 whatever the access (log 69). A write meets the map as it
stands (R102). -/
def Die.place (x : Die) (wb : Nat) (rings : Nat → Bool) (m : Mode) (snap : Snap) (va pa : Nat) : Place :=
  let plain := va % 2 ^ 55
  let snap := if m = .load then snap else none
  match x.bufAt snap plain with
  | none => if bitB va 55 then .bad 3 else guardPa wb rings m pa
  | some (i, b) =>
    let off := plain - b.base.toNat
    if bitB va 55 && m != .store && m != .engine then .bad 1
    else if bitB va 55 || m == .engine then x.shadowPlace wb rings i b off
    else guardPa wb rings m (b.frame (x.liveBit snap i b (off / 4096)) (off / 4096) + off % 4096)

/-- Where a byte of an access is performed, as its issuing die finds it (R97, R174, R179). -/
inductive Loc where
  | here (p : Place)
  | remote (d pa : Nat)
  | host (pa : Nat)
  | peer (l pa : Nat)
  | fault (reason level : Nat)
  deriving DecidableEq, Repr

/-- What translation finds for the byte at `va` in the context of function `v` on die `d` (R97, R358). -/
def State.xlate (s : State) (d v : Nat) (m : Mode) (va : Nat) : Xlat :=
  let plain := va % 2 ^ 55
  if 2 ^ 56 ≤ va ∨ plain < (s.vf v).winBase.toNat ∨ (s.vf v).winLimit.toNat ≤ plain then .out
  else s.translate d v plain m.writes

/-- Where a translated byte is performed; `own` is the key of the ply that accesses it when it runs on die `d`. A byte whose plain
address lies outside the window has cause 0 in either view, a load through the shadow view too (R97, R99; log 69). -/
def State.placed (s : State) (d : Nat) (own : Option Nat) (m : Mode) (snap : Snap) (va : Nat) (x : Xlat) : Loc :=
  match x with
  | .out => .here (.bad 0)
  | .fault r l => .fault r l
  | .page p =>
    if p.kind = 0 then
      if p.home = d then .here ((s.die d).place s.workBase (s.ringAt d own) m snap va p.pa) else .remote p.home p.pa
    else if p.kind = 1 then .host p.pa
    else .peer p.home p.pa

/-- Whether a translated byte lies on an HT page (R119). -/
def Xlat.ht (x : Xlat) : Bool := match x with | .page p => p.ht | _ => false

/-- A shadow-view address whose page is host memory or a peer panel names no registered buffer (R97; log 69). -/
def Loc.far (va : Nat) (l : Loc) : Loc :=
  match l with
  | .host _ => if bitB va 55 then .here (.bad 3) else l
  | .peer _ _ => if bitB va 55 then .here (.bad 3) else l
  | l => l

/-- For an agent that reaches only the issuing die's store (VL, VS, MX, chains), a byte at any other home is out of range:
cause 0, but cause 1 for a read through the shadow view (R97, R233, R246). -/
def Loc.near (m : Mode) (va : Nat) (l : Loc) : Loc :=
  let c := if bitB va 55 && m == .load then 1 else 0
  match l with
  | .remote _ _ => .here (.bad c)
  | .host _ => .here (.bad c)
  | .peer _ _ => .here (.bad c)
  | l => l

/-- Locates the byte at `va` for an access of context `v` issued on die `d`, with its page's HT mark. Of a shadow-view address
at host memory or a peer panel the cause is 3 (`Loc.far`, log 69). -/
def State.locate (s : State) (d : Nat) (own : Option Nat) (v : Nat) (m : Mode) (snap : Snap) (va : Nat) : Loc × Bool :=
  let x := s.xlate d v m va
  ((s.placed d own m snap va x).far va, x.ht)

/-- The bytes of a level record (R29). -/
def Level.bytes (l : Level) : List Byte :=
  leBytes 16 (l.outstanding % 2 ^ 32 + l.unitsDone.toNat * 2 ^ 32 + l.level.toNat * 2 ^ 64 + l.status.toNat * 2 ^ 67 +
    l.parent.toNat * 2 ^ 80 + l.ident.toNat * 2 ^ 96)

/-- What the counter of a unit holds: 1 until its sequencer stream ends, and 1 for each engine ring of its ply that is not
empty or holds a command not completed (R25). -/
def Die.unitCount (x : Die) (w : WUnit) : Nat :=
  let ply := fun (p : Ply) => (if p.sqEnd then 0 else 1) +
    ([Ring.vl, .va, .vs, .mx, .tr].filter (fun r => p.ringBusy r ||
      (r = .tr && x.tcolls.any (fun t => decide (t.unit = p.unit) && !t.retired)))).length
  match w.phase, w.saved with
  | .done, _ => 0
  | _, some v => ply v.ply
  | .bound, none => ply (x.ply w.core w.slot)
  | _, none => 1

/-- The bytes of level record `i` (R25, R29). -/
def Die.levelBytes (x : Die) (i : Nat) : List Byte :=
  let l := x.level i
  match (if l.level = 0 ∧ l.used then x.units.find? (fun e => decide (e.2.level = i) && decide (e.2.phase ≠ .done)) else none) with
  | some (_, w) => ({ l with outstanding := x.unitCount w } : Level).bytes
  | none => l.bytes

/-- A byte read at its home die; an out-of-range byte is zero (R98). -/
def Die.readPlace (x : Die) (p : Place) : Byte :=
  match p with
  | .mem pa => getByte x.mem pa
  | .level off => (x.levelBytes (off / 16)).getD (off % 16) 0
  | .shadow _ _ => 0
  | .bad _ => 0

/-- The offence of a place, if it is one. -/
def Place.cause? (p : Place) : Option Nat :=
  match p with
  | .bad c => some c
  | _ => none

/-! ## Shadow halves and publish -/

/-- Clears the dirty bits of all chunks (R101, R102). -/
def Buf.clean (b : Buf) (m : Map Byte) : Map Byte :=
  iterFrom (fun c m => if b.dirty m c then b.mark m c (b.live m c) false else m) 0 b.chunks.toNat m

/-- Makes chunk `c` of a buffer ready for a shadow write by `unit`: clears a discard, copies the live frame on the first
write of the chunk, and marks it (R59, R101). -/
def Die.shadowReady (x : Die) (i c unit : Nat) : Die :=
  let b := x.buf i
  let x := if b.discarded then
      { x with mem := b.clean x.mem, bufs := mput x.bufs i { b with discarded := false, written := false, writers := [] } }
    else x
  let b := x.buf i
  let x := if b.dirty x.mem c then x else
    let live := b.live x.mem c
    { x with
      mem := b.mark (copyRange x.mem (b.frame live c) x.mem (b.frame (!live) c) 4096) c live true,
      bufs := mput x.bufs i { b with written := true } }
  x.mapBuf i (fun b => if b.writers.contains unit then b else { b with writers := unit :: b.writers })

/-- A byte written at its home die; an out-of-range byte is dropped (R98, R101). -/
def Die.writePlace (x : Die) (p : Place) (unit : Nat) (b : Byte) : Die :=
  match p with
  | .mem pa => { x with mem := putByte x.mem pa b }
  | .shadow i off =>
    let x := x.shadowReady i (off / 4096) unit
    let e := x.buf i
    { x with mem := putByte x.mem (e.frame (!e.live x.mem (off / 4096)) (off / 4096) + off % 4096) b }
  | .level _ => x
  | .bad _ => x

/-- Publish of buffer-map entry `i`, with its status (R102). -/
def Die.publish (x : Die) (i : Nat) : Die × Nat :=
  let b := x.buf i
  if !b.valid then (x, 3)
  else if b.discarded then (x, 2)
  else if !b.written then (x, 1)
  else
    let m := iterFrom (fun c m => if b.dirty m c then b.mark m c (!b.live m c) false else m) 0 b.chunks.toNat x.mem
    ({ x with mem := m, bufs := mput x.bufs i { b with written := false, epoch := b.epoch + 1, writers := [] } }, 0)

/-- Marks discarded the buffers of die `d` that `q` selects. Their shadow contents are undefined from here on: free values
under the serial `n` (R59, log 7). -/
def Die.discardIf (x : Die) (d n : Nat) (q : Buf → Bool) : Die :=
  x.bufs.foldl (fun x (i, b) =>
    if b.valid && q b then
      let m := iterFrom (fun c m =>
        if b.dirty m c then
          iterFrom (fun o m => putByte m (b.frame (!b.live x.mem c) c + o) (Config.freeByte n (d * 2 ^ 60 + i * 2 ^ 40 + c * 4096 + o))) 0 4096 m
        else m) 0 b.chunks.toNat x.mem
      { x with mem := m, bufs := mput x.bufs i { b with discarded := true } }
    else x) x

/-- Marks discarded every buffer whose shadow half a unit has written since that buffer's last publish, on every die (R59). -/
def State.discardUnit (s : State) (unit n : Nat) : State :=
  { s with dies := s.dies.map (fun (d, x) => (d, x.discardIf d n (fun b => b.writers.contains unit))) }

/-! ## The first-offender record -/

/-- One offending access: its lowest offending byte, agent, direction and cause (R99). -/
def Dsrec.note (r : Dsrec) (agent : Nat) (write : Bool) (addr cause : Nat) : Dsrec :=
  let n := if r.count.toNat < 2 ^ 32 - 1 then r.count + 1 else r.count
  if r.valid then { r with more := true, count := n }
  else ⟨BitVec.ofNat 56 addr, BitVec.ofNat 3 agent, write, BitVec.ofNat 2 cause, r.more, true, n⟩

/-- Records an offence of a ply's agent, if there is one (R99). -/
def State.offend (s : State) (h : Here) (agent : Nat) (write : Bool) (o : Option (Nat × Nat)) : State :=
  match o with
  | none => s
  | some (addr, cause) => s.mapPly h (fun p => { p with dsrec := p.dsrec.note agent write addr cause })

/-! ## Local engine accesses -/

/-- The key of a ply in its die. -/
def Here.key (h : Here) : Nat := h.c * 8 + h.k

/-- Locates a byte for an agent that reaches only the issuing die's store. -/
def State.locateNear (s : State) (h : Here) (m : Mode) (snap : Snap) (va : Nat) : Loc :=
  (s.placed h.d (some h.key) m snap va (s.xlate h.d (s.ply h).vf m va)).near m va

/-- Locates the `n` bytes from `va` up, the address taken modulo 2^64. -/
def State.locateAll (f : Nat → Loc) (va n : Nat) : List (Nat × Loc) :=
  match n with
  | 0 => []
  | n + 1 => (va, f va) :: State.locateAll f ((va + 1) % 2 ^ 64) n

/-- The first translation fault of located bytes: address, reason, level. -/
def firstFault (ls : List (Nat × Loc)) : Option (Nat × Nat × Nat) :=
  match ls with
  | [] => none
  | (va, .fault r l) :: _ => some (va, r, l)
  | _ :: t => firstFault t

/-- The first offence of located bytes: address, cause. -/
def firstBad (ls : List (Nat × Loc)) : Option (Nat × Nat) :=
  match ls with
  | [] => none
  | (va, .here (.bad c)) :: _ => some (va, c)
  | _ :: t => firstBad t

/-- The bytes of located places at the issuing die; a byte elsewhere or out of range is zero. -/
def Die.readLocs (x : Die) (ls : List (Nat × Loc)) : List Byte :=
  ls.map (fun l => match l.2 with | .here p => x.readPlace p | _ => 0)

/-- Writes bytes to located places at the issuing die. -/
def Die.writeLocs (x : Die) (ls : List (Nat × Loc)) (unit : Nat) (bs : List Byte) : Die :=
  match ls, bs with
  | (_, .here p) :: lt, b :: bt => Die.writeLocs (x.writePlace p unit b) lt unit bt
  | _ :: lt, _ :: bt => Die.writeLocs x lt unit bt
  | _, _ => x

/-- A read by a local agent: a translation fault (address, reason, level), or the bytes, with the offence recorded. -/
def State.nearRead (s : State) (h : Here) (agent : Nat) (snap : Snap) (va n : Nat) :
    Except (Nat × Nat × Nat) (List Byte × State) :=
  let ls := State.locateAll (s.locateNear h .load snap) va n
  match firstFault ls with
  | some f => .error f
  | none => .ok ((s.die h.d).readLocs ls, s.offend h agent false (firstBad ls))

/-- A write by a local agent. -/
def State.nearWrite (s : State) (h : Here) (agent : Nat) (m : Mode) (va : Nat) (bs : List Byte) :
    Except (Nat × Nat × Nat) State :=
  let ls := State.locateAll (s.locateNear h m none) va bs.length
  match firstFault ls with
  | some f => .error f
  | none => .ok ((s.mapDie h.d (fun x => x.writeLocs ls (s.ply h).unit bs)).offend h agent true (firstBad ls))

/-! ## Reads the device makes in a context, without an agent -/

/-- Bytes the device itself reads in the context of function `v` on die `d` (R308, R310): `none` if a byte is out of
range or faults. A byte at home on another die, in host memory or on a peer panel is out of range for it (log 91). -/
def State.ctxRead (s : State) (d v va n : Nat) : Option (List Byte) :=
  let ls := State.locateAll (fun a => (s.locate d none v .load none a).1) va n
  if ls.any (fun l => match l.2 with | .here (.bad _) => true | .here _ => false | _ => true) then none
  else some ((s.die d).readLocs ls)

/-- The writer of a shadow write that belongs to no unit (R296): no serial reaches it in a run of interest, and a discard
never names it. -/
def noUnit : Nat := 2 ^ 64

/-- Bytes the device itself writes in a context (R80, R308): `none`, and nothing written, if a byte cannot be. -/
def State.ctxWrite (s : State) (d v va : Nat) (bs : List Byte) : Option State :=
  let ls := State.locateAll (fun a => (s.locate d none v .store none a).1) va bs.length
  if ls.any (fun l => match l.2 with | .here (.bad _) => true | .here _ => false | _ => true) then none
  else some (s.mapDie d (fun x => x.writeLocs ls noUnit bs))

/-- Bytes the device itself writes into a ring of the ply with key `own` (R32, R308); a byte that cannot be written is
dropped. -/
def State.ringWrite (s : State) (d own v va : Nat) (bs : List Byte) : State :=
  s.mapDie d (fun x => x.writeLocs (State.locateAll (fun a => (s.locate d (some own) v .store none a).1) va bs.length) noUnit bs)

end Sys2Proof.Machine
end

