-- ==== Sys2Proof/Machine/Ops.lean ====
section
/-! DEFINITION. The named operations over a ply: registers and latches, the program counter, tokens and flags, the rings
and their entries, leaving the sequencer, and taking a trap. -/

namespace Sys2Proof.Machine

open Sys2Proof

/-! ## Scalar registers and latches (R145, R146, R147) -/

/-- Scalar register g`n`; g0 reads zero (R145). -/
def PlyRegs.rdG (r : PlyRegs) (n : Nat) : Word := if n = 0 then 0 else mget 0 r.g n

/-- Writes g`n`; a write to g0 is discarded (R145). -/
def PlyRegs.wrG (r : PlyRegs) (n : Nat) (x : Word) : PlyRegs := if n = 0 then r else { r with g := mset 0 r.g n x }

/-- Makes every y latch invalid (R147). -/
def PlyRegs.dropY (r : PlyRegs) : PlyRegs := { r with y0 := none, y1 := none, y2 := none, y3 := none }

/-- Shifts a result into the y latches (R146). -/
def PlyRegs.shiftY (r : PlyRegs) (x : Word) : PlyRegs := { r with y3 := r.y2, y2 := r.y1, y1 := r.y0, y0 := some x }

/-- Result(x) on the registers: shifts the latches and writes `dst` unless `nw` (R146, R164). -/
def PlyRegs.result (r : PlyRegs) (nw : Bool) (dst : Nat) (x : Word) : PlyRegs :=
  if nw then r.shiftY x else (r.shiftY x).wrG dst x

/-- Sets AFLAGS bits (R131): bit `k` of `m`. -/
def PlyRegs.setFlags (r : PlyRegs) (m : W32) : PlyRegs := { r with aflags := r.aflags ||| m }

/-! ## The program counter (R32, R170) -/

/-- PCO: the byte offset of the next SQ word (R164). -/
def Ply.pco (p : Ply) : Nat := p.sq.rd.toNat % 2 ^ 20

/-- L: the length of the program (R170); the wrap bit marks a program as long as its ring. -/
def Ply.codeLen (p : Ply) : Nat :=
  if p.sq.wr.toNat < 2 ^ 20 then p.sq.wr.toNat else 2 ^ (12 + p.sq.sizeCode.toNat)

/-- Sets PCO; the instruction there has not begun. -/
def Ply.setPco (p : Ply) (o : Nat) : Ply :=
  { p with sq := { p.sq with rd := BitVec.ofNat 21 (o % 2 ^ 20) }, sqBusy := none }

/-- Moves PCO to the next word (R170). -/
def Ply.advance (p : Ply) : Ply := p.setPco (p.pco + 4)

/-- Whether an integer is a valid code address (R170). -/
def Ply.validCode (p : Ply) (t : Int) : Bool := decide (0 ≤ t) && decide (t < p.codeLen) && decide (t % 4 = 0)

/-- Retires an SQ instruction that has no result. -/
def State.retire (s : State) (h : Here) : State := s.mapPly h Ply.advance

/-- Retires an SQ instruction with its result (R146). -/
def State.result (s : State) (h : Here) (nw : Bool) (dst : Nat) (x : Word) : State :=
  s.mapPly h (fun p => { p with regs := p.regs.result nw dst x }.advance)

/-- Retires a switch point: the y latches become invalid and the switch-point count rises (R147, R150). -/
def Ply.retireSwitch (p : Ply) : Ply := { p with regs := p.regs.dropY, swpts := p.swpts + 1 }.advance

/-! ## Leaving and joining the sequencer (R37, R38) -/

/-- Takes a ply off a future's deferred-read list, mending the list round it (R60). -/
def Die.unlink (x : Die) (c k : Nat) : Die :=
  match (x.ply c k).wait with
  | some (.fut hd _ _ _) =>
    let f := hd.toNat % 65536
    let me : BitVec 9 := BitVec.ofNat 9 (256 + c * 8 + k)
    let next := mget 0 (x.core c).dlink k
    let x' := x.mapCore c (fun y => { y with dlink := mdel y.dlink k })
    if (x.fut f).dhead = me then x'.mapFut f (fun e => { e with dhead := next })
    else
      let fix := fun (y : Core) => { y with dlink := y.dlink.map (fun (j, l) => (j, if l = me then next else l)) }
      { x' with cores := x'.cores.map (fun (j, y) => (j, fix y)) }
  | _ => x

/-- A ply leaves Running for `ph`: the sequencer is free and the y latches are lost (R37, R38, R39). -/
def Die.leave (x : Die) (c k : Nat) (ph : PlyPhase) : Die :=
  let x := if (x.core c).running = some k then x.mapCore c (fun y => { y with running := none, last := k }) else x
  x.mapPly c k (fun p => { p with phase := ph, regs := p.regs.dropY })

def State.leave (s : State) (h : Here) (ph : PlyPhase) : State := s.mapDie h.d (fun x => x.leave h.c h.k ph)

/-- Whether a ply is held by a trap (R352). -/
def Ply.held (p : Ply) : Bool := !p.halts.isEmpty

/-! ## Acknowledging a pre-emption (R209, R361) -/

/-- Whether a pre-emption request for a ply still wants its sequencer (R209, R361). -/
def Ply.wanted (p : Ply) : Bool := p.preempt && !p.stopped.contains .sq

/-- Records an acknowledgement of one agent in PRECTL (R361). -/
def Prectl.ack (q : Prectl) (a : Nat) : Prectl := { q with acks := q.acks ||| BitVec.ofNat 6 (2 ^ a) }

/-- SQ acknowledges a pre-emption: `stop` is cleared (R209, R361). -/
def State.ackSq (s : State) (h : Here) : State :=
  (s.mapPly h (fun p => { p with
    regs := { p.regs with loop := { p.regs.loop with stop := false } }
    stopped := .sq :: p.stopped })).mapCore h (fun c => { c with prectl := c.prectl.ack 0 })

/-! ## Taking a trap (R350, R352) -/

/-- The status word: detail in [31:16], class in [15:8], reason in [7:4], field in [3:0] (R350). -/
def statusWord (hi cls reason field : Nat) : W32 :=
  BitVec.ofNat 32 (hi % 65536 * 65536 + cls % 256 * 256 + reason % 16 * 16 + field % 16)

/-- A trap of one agent of a ply (R352): the agent halts with its status, the ply is held, and every y latch becomes
invalid (R147). When SQ halts, the ply leaves the sequencer and counts as Waiting. -/
def State.takeTrap (s : State) (h : Here) (agent : Nat) (x : Halt) : State :=
  let s := s.mapPly h (fun p => { p with
    firstHalt := if p.halts.isEmpty then agent else p.firstHalt
    halts := mput p.halts agent x
    sqBusy := if agent = 0 then none else p.sqBusy
    regs := p.regs.dropY })
  if agent = 0 then s.leave h .waiting else s

/-- A trap taken by SQ before the instruction at PCO (R161). -/
def State.trapSq (s : State) (h : Here) (cls reason field : Nat) : State :=
  s.takeTrap h 0 ⟨statusWord 0 cls reason field, (s.ply h).pco, 0, 0, 0, 0⟩

/-- A translation fault of SQ at its lowest faulting byte (R353, R359). -/
def State.faultSq (s : State) (h : Here) (f : Nat × Nat × Nat) : State :=
  s.takeTrap h 0 ⟨statusWord 0 0x14 f.2.1 f.2.2, (s.ply h).pco, BitVec.ofNat 56 f.1, 0, 0, 0⟩

/-- A trap of an engine ring, with the entry at its read pointer (R130, R161). -/
def State.trapRing (s : State) (h : Here) (r : Ring) (cls reason field : Nat) : State :=
  s.takeTrap h r.code ⟨statusWord 0 cls reason field, ((s.ply h).ring r).rd.toNat % 2 ^ 20, 0, 0, 0, 0⟩

/-- A translation fault of an engine ring (R353, R359). -/
def State.faultRing (s : State) (h : Here) (r : Ring) (f : Nat × Nat × Nat) : State :=
  s.takeTrap h r.code
    ⟨statusWord 0 0x14 f.2.1 f.2.2, ((s.ply h).ring r).rd.toNat % 2 ^ 20, BitVec.ofNat 56 f.1, 0, 0, 0⟩

/-- An ill-formed-record trap: reason, FT index and the copy that failed (R130, R353). -/
def State.recordTrap (s : State) (h : Here) (r : Ring) (reason ix : Nat) (cap : W32) : State :=
  s.takeTrap h r.code
    ⟨statusWord 0 0x21 reason ix, ((s.ply h).ring r).rd.toNat % 2 ^ 20, 0, cap, BitVec.ofNat 4 ix, 0⟩

/-! ## Tokens and flags (R40, R41) -/

/-- The FIFO from one ring to another, by agent code (R40). -/
def Ply.tok (p : Ply) (a b : Nat) : Nat := mget 0 p.toks (a * 6 + b)

def Ply.setTok (p : Ply) (a b n : Nat) : Ply := { p with toks := mset 0 p.toks (a * 6 + b) n }

/-- A flag's value (R41). -/
def Ply.flag (p : Ply) (f : Nat) : Nat := mget 0 p.flags f

def Ply.setFlag (p : Ply) (f v : Nat) : Ply := { p with flags := mset 0 p.flags f v }

/-- Raises a flag, holding it at its bound and setting the sticky overflow bit (R41). -/
def Ply.raise (p : Ply) (f n : Nat) : Ply :=
  if p.flag f + n < 2 ^ 32 then p.setFlag f (p.flag f + n)
  else { p.setFlag f (2 ^ 32 - 1) with regs := { p.regs with flagOvf := true } }

/-! ## Index registers as each agent sees them (R93) -/

/-- The later of two views. -/
def IxView.later (a b : IxView) : IxView := if a.ver < b.ver then b else a

/-- What an agent, a flag or a token knows of VA's writes to the index registers; VA itself knows all of them (log 84). -/
def Ply.know (p : Ply) (k : Nat) : IxView :=
  let v := mget default p.knows k
  if k = 2 then { v with ix := p.regs.ix } else v

/-- Something learns what a view knows. -/
def Ply.told (p : Ply) (k : Nat) (v : IxView) : Ply :=
  if k ≠ 2 ∧ (p.know k).ver < v.ver then { p with knows := mput p.knows k v } else p

/-- Under which key a flag carries its view. -/
def flagKey (f : Nat) : Nat := 8 + f

/-- Under which key token `i` of a FIFO carries its view. -/
def tokKey (a b i : Nat) : Nat := 128 + 16 * (6 * a + b) + i

/-- The views of the tokens behind the first one of a FIFO move up. -/
def shiftKnows (m : Map IxView) (k : Nat) : Map IxView :=
  m.filterMap (fun e => if e.1 = k then none else some (if k < e.1 ∧ e.1 < k + 16 then e.1 - 1 else e.1, e.2))

/-- Agent `a` pushes `n` tokens to agent `b` (R40). -/
def Ply.pushTok (p : Ply) (a b n : Nat) : Ply :=
  iterFrom (fun i q => q.told (tokKey a b i) (p.know a)) (p.tok a b) n (p.setTok a b (p.tok a b + n))

/-- Agent `b` pops a token that agent `a` has pushed, and learns what the token carries (R40). -/
def Ply.popTok (p : Ply) (a b : Nat) : Ply :=
  ({ p.setTok a b (p.tok a b - 1) with knows := shiftKnows p.knows (tokKey a b 0) }).told b (mget default p.knows (tokKey a b 0))

/-- Agent `a` raises a flag (R41). -/
def Ply.raiseBy (p : Ply) (a f n : Nat) : Ply := (p.raise f n).told (flagKey f) (p.know a)

/-- A wait of agent `a` on a flag is met (R41). -/
def Ply.metFlag (p : Ply) (a f thr : Nat) (sub : Bool) : Ply :=
  (if sub then p.setFlag f (p.flag f - thr) else p).told a (p.know (flagKey f))

/-- The fixed partner a vector ring pushes to and the one it pops from (R40). -/
def ringPushTo (r : Ring) : Nat := match r with | .vl => 2 | .va => 3 | .vs => 1 | _ => 0
def ringPopFrom (r : Ring) : Nat := match r with | .vl => 3 | .va => 1 | .vs => 2 | _ => 0

/-- The agent a ring code of R154 names, 1 to 6. -/
def ringOfCode (c : Nat) : Option Ring :=
  match c with
  | 1 => some .sq | 2 => some .vl | 3 => some .va | 4 => some .vs | 5 => some .mx | 6 => some .tr | _ => none

/-! ## AFLAGS of engine entries (R132) -/

/-- The bits an engine entry of agent `a` sets: they wait for a synchronising object that releases the entry. -/
def Ply.noteFlags (p : Ply) (a : Nat) (m : W32) : Ply :=
  if m = 0 then p else { p with pend := (a, p.pend.foldl (fun n e => max n (e.2.1 + 1)) 0, m) :: p.pend }

/-- A release from agent `a` to agent `b`, which can then release them further. -/
def Ply.passFlags (p : Ply) (a b : Nat) : Ply :=
  { p with pend := p.pend ++ ((p.pend.filter (fun e => e.1 == a && !p.pend.contains (b, e.2))).map (fun e => (b, e.2))) }

/-- A release from agent `a` to SQ: the bits it can release become visible in AFLAGS. -/
def Ply.showFlags (p : Ply) (a : Nat) : Ply :=
  let now := p.pend.filter (fun e => e.1 == a)
  { p with
    regs := now.foldl (fun r e => r.setFlags e.2.2) p.regs
    pend := p.pend.filter (fun e => !now.any (fun n => n.2.1 == e.2.1)) }

/-- A drain: every engine's bits become visible (R111). -/
def Ply.showAll (p : Ply) : Ply :=
  { p with regs := p.pend.foldl (fun r e => r.setFlags e.2.2) p.regs, pend := [] }

/-! ## Rings (R33) -/

/-- Bytes of a ring. -/
def RingQ.size (q : RingQ) : Nat := 2 ^ (12 + q.sizeCode.toNat)

/-- A read or write pointer moved on by `n` bytes, with its wrap bit (R33). -/
def RingQ.move (q : RingQ) (x : BitVec 21) (n : Nat) : BitVec 21 :=
  let o := x.toNat % 2 ^ 20 + n
  let wrap := x.toNat / 2 ^ 20
  if o < q.size then BitVec.ofNat 21 (wrap * 2 ^ 20 + o) else BitVec.ofNat 21 ((1 - wrap) * 2 ^ 20 + (o - q.size))

/-- Bytes in use (R33). -/
def RingQ.used (q : RingQ) : Nat :=
  let r := q.rd.toNat % 2 ^ 20
  let w := q.wr.toNat % 2 ^ 20
  if q.rd = q.wr then 0 else if r = w then q.size else if r < w then w - r else q.size - r + w

/-- Whether an entry of `n` words fits (R33). -/
def RingQ.room (q : RingQ) (n : Nat) : Bool := decide (q.used + 4 * n ≤ q.size)

/-- The device virtual address of byte `o` of the next entry to issue: it stands at the read pointer, or `lead` bytes after
it, behind entries that have issued and have not retired. -/
def RingQ.addr (q : RingQ) (o : Nat) : Nat := q.base.toNat + (q.rd.toNat % 2 ^ 20 + q.lead + o) % q.size

/-- The address of byte `o` from the write pointer. -/
def RingQ.wrAddr (q : RingQ) (o : Nat) : Nat := q.base.toNat + (q.wr.toNat % 2 ^ 20 + o) % q.size

/-- Whether a ring is one of the three that slip against one another (R35). -/
def ringIsVec (r : Ring) : Bool := match r with | .vl => true | .va => true | .vs => true | _ => false

/-- The shape a vsh word sets (R212). -/
def vshShape (w : Nat) : Shape :=
  ⟨BitVec.ofNat 6 (bits w 18 6), BitVec.ofNat 2 (bits w 24 2), BitVec.ofNat 13 (bits w 2 5 * 256 + bits w 10 8)⟩

/-- FT`k` of a ply (R129). -/
def Ply.ftRec (p : Ply) (k : Nat) : W32 := mget 0 p.ft k

/-- What appending a word to VA does to the append copies of VSH and VFMT (R212). -/
def Ply.captured (p : Ply) (r : Ring) (w : Nat) : Ply :=
  if r = .va ∧ w / 2 ^ 26 = 0x29 then { p with regs := { p.regs with vsh := vshShape w } }
  else if r = .va ∧ w / 2 ^ 26 = 0x2A then
    { p with regs := { p.regs with vfmt :=
      ⟨p.ftRec (bits w 18 4), p.ftRec (bits w 22 4), BitVec.ofNat 4 (bits w 18 4), BitVec.ofNat 4 (bits w 22 4)⟩ } }
  else p

/-- The retained copy of a ply's most recent live hold (R262): the serial of that copy. -/
def Die.lastHold (x : Die) (unit : Nat) : Option Nat :=
  ((x.holds.filter (fun o => decide (o.unit = unit) && !o.ended)).getLast?).map Hold.copy

/-- Whether a matrix command holds an mlatch with `.slack` (R262). -/
def bindsSlack (ws : List Nat) : Bool := ws.any (fun w => decide (w / 2 ^ 27 = 6) && bitB w 5)

/-- Appends one entry, already known to fit, whose words are `ws`, and captures its copies (R35, R129, R150, R212,
R262). The words are written to the ring's place in die store (R32). `bad`: it is released as ill-formed (R310). -/
def State.append (s : State) (h : Here) (r : Ring) (ws : List Nat) (bad : Bool) : State :=
  let p := s.ply h
  let q := p.ring r
  let p := p.captured r (ws.headD 0)
  let e : Entry := {
    words := ws.length, seq := p.nextSeq, tag := p.swpts, shape := p.regs.vsh, fmt := p.regs.vfmt, ft := p.ft,
    bind := if r = .mx ∧ bindsSlack ws then (s.die h.d).lastHold p.unit else none, bad := bad,
    view := p.know 0 }
  let s := iterFrom (fun i s => s.ringWrite h.d h.key p.vf (q.wrAddr (4 * i)) (leBytes 4 (ws.getD i 0))) 0 ws.length s
  s.setPly h ({ p with nextSeq := if ringIsVec r then p.nextSeq + 1 else p.nextSeq }.setRing r
    { q with wr := q.move q.wr (4 * ws.length), entries := q.entries ++ [e] })

/-- The entry at the read pointer of a vector ring has written its registers for good (R216). -/
def Ply.settleOld (p : Ply) (r : Ring) : Ply :=
  match r with
  | .vl => { p with vlOld := [], vlOldVa := [] }
  | .va => { p with vaOld := [] }
  | _ => p

/-- Retires the next entry of an engine ring: the pointer passes it whole, unless an entry before it has not retired (R33). -/
def Ply.popEntry (p : Ply) (r : Ring) : Ply :=
  let q := p.ring r
  let stays := r == .mx && !p.mxBehind.isEmpty
  match q.entries with
  | [] => p
  | e :: t => (p.settleOld r).setRing r { q with
      rd := if stays then q.rd else q.move q.rd (4 * e.words)
      lead := if stays then q.lead + 4 * e.words else q.lead
      entries := t, popped := false, done := none, await := none, granted := false, checked := false, issued := [] }

/-- The read pointer passes every entry that has issued, once all of them have retired (R33). -/
def Ply.catchUp (p : Ply) : Ply :=
  if p.mxBehind.isEmpty then { p with mxq := { p.mxq with rd := p.mxq.move p.mxq.rd p.mxq.lead, lead := 0 } } else p

/-- MX goes on with the state that its next command will see (R254). -/
def Ply.newest (p : Ply) : Ply :=
  match p.mxBehind.find? (fun m => !m.late) with
  | none => p
  | some m => { p with mx := m, mxBehind := p.mxBehind.erase m }

/-- The read pointer stands at the entry of the command that has its turn, every other one having left (R33). -/
def Ply.catchTo (p : Ply) : Ply :=
  { p with
    mxq := { p.mxq with rd := p.mxq.move p.mxq.rd p.mx.ahead, lead := p.mxq.lead - p.mx.ahead }
    mx := { p.mx with ahead := 0 } }

/-- Word `i` of the entry at the read pointer, as die store holds it; out-of-range bytes read zero (R98). -/
def State.entryWord (s : State) (h : Here) (r : Ring) (i : Nat) : Nat :=
  let p := s.ply h
  let q := p.ring r
  let ls := State.locateAll (s.locateNear h .load none) (q.addr (4 * i)) 4
  leNat ((s.die h.d).readLocs ls)

/-! ## Returning from a trap (R356, R357) -/

/-- The halt whose address or copy a trap record gives: the first one if it has one, else the lowest (R353). -/
def haltOf (m : Map Halt) (first : Nat) (p : Halt → Bool) : Option Halt :=
  match mfind m first with
  | some x => if p x then some x else (m.find? (fun e => p e.2)).map Prod.snd
  | none => (m.find? (fun e => p e.2)).map Prod.snd

/-- The halt whose format-record copy a trap record gives in `cap` and `cap_ix` (R353). -/
def capHalt (m : Map Halt) (first : Nat) : Option Halt :=
  haltOf m first (fun x => decide (x.cap ≠ 0) || decide (x.capIx ≠ 0) || decide (bits x.status.toNat 8 8 = 0x21))

/-- Replaces the copy of FT`ix` that an entry captured (R356). -/
def Entry.fixCap (e : Entry) (ix : BitVec 4) (c : W32) : Entry :=
  { e with
    ft := mput e.ft ix.toNat c
    fmt := { e.fmt with
      src := if e.fmt.srcIx = ix then c else e.fmt.src
      dst := if e.fmt.dstIx = ix then c else e.fmt.dst } }

/-- A VL entry that stops is performed again from row 0, under a mapping sampled afresh (R237). -/
def VIssue.replay (v : VIssue) : VIssue := { v with val := [], snap := none, row := [], part := 0 }

/-- The VL entry in progress, if any, starts again from row 0 (R237). -/
def Ply.replayVl (p : Ply) : Ply := { p with vlIss := p.vlIss.map VIssue.replay, vlRow := 0 }

/-- The halted entry of one engine ring: issued again, with the copy the trap record names replaced by `cap` if there is one,
or discarded; after a collective trap no entry has failed and TR goes on (R356, R357). A command issues again from step 1,
so its wait is made again, but not its pop (R273, R357). -/
def Ply.resumeRing (p : Ply) (r : Ring) (skip : Bool) (cap : Option (BitVec 4 × W32)) : Ply :=
  match mfind p.halts r.code with
  | none => p
  | some x =>
    if x.kind = 2 then p
    else if skip ∧ r = .mx ∧ p.mx.late then p.newest.catchUp
    else if skip then
      let p := p.popEntry r
      match r with
      | .vl => { p with vlIss := none, vlRow := 0 }
      | .va => { p with chain := none }
      | .vs => { p with vsIss := none, rowAt := 0 }
      | .mx => { p with mx := { p.mx with cmd := none } }
      | .tr => { p with tr := { p.tr with cmd := none, doneChunks := 0 } }
      | _ => p
    else
      let again := (r = .mx ∧ p.mx.cmd.isNone) ∨ (r = .tr ∧ p.tr.cmd.isNone)
      p.mapRing r (fun q => { q with
        granted := if again then false else q.granted
        await := if again then none else q.await
        entries := match q.entries, cap with
          | e :: t, some c => e.fixCap c.1 c.2 :: t
          | es, _ => es })

/-- The SQ of a resumed ply: the halted instruction again, or the next one after a trap instruction or a skip (R187,
R204, R356). -/
def Ply.resumeSq (p : Ply) (skip : Bool) : Ply :=
  match mfind p.halts 0 with
  | none => p
  | some x => if skip || x.kind = 1 then { p with regs := { p.regs with enqDone := 0 }, tokDone := 0 }.advance else p

/-- Every halted agent of a ply resumes or skips, and the ply is readied; a wait that stands unsatisfied issues afresh
(R356). A VL entry that stopped replays whole (R237). -/
def Ply.resumed (p : Ply) (skip : Bool) (cap : Option W32) : Ply :=
  let cap := cap.map (fun c => (((capHalt p.halts p.firstHalt).map Halt.capIx).getD 0, c))
  let q := ((((p.resumeRing .vl skip cap).resumeRing .va skip cap).resumeRing .vs skip cap).resumeRing .mx skip cap).resumeRing .tr skip cap
  let q := q.resumeSq skip
  { q.replayVl with
    halts := []
    trapSlot := none
    wait := if q.waitDone then q.wait else none
    phase := if q.phase = .waiting then .ready else q.phase }

/-- Frees a trap slot: its generation rises (R353). -/
def TrapSlot.freed (t : TrapSlot) (dropped : Bool) : TrapSlot := { t with used := false, tgen := t.tgen + 1, dropped := dropped }

/-- The return of a bound ply from a trap (R356): its trap slot is freed, it leaves any deferred-read list, and it resumes. -/
def State.resumeTrap (s : State) (h : Here) (skip : Bool) (cap : Option W32) : State :=
  let p := s.ply h
  let s := match p.trapSlot with
    | none => s
    | some t => s.mapDie h.d (fun x => x.setTrap t ((x.trap t).freed false))
  let s := if p.waitDone then s else s.mapDie h.d (fun x => x.unlink h.c h.k)
  s.mapPly h (fun p => p.resumed skip cap)

/-- The captured entry at a ring's read pointer. -/
def Ply.headE (p : Ply) (r : Ring) : Entry := (p.ring r).entries.headD default

/-- A mop that has stopped latches afresh, as for a first iteration (R272). -/
def CmdRun.relatch (c : CmdRun) : CmdRun := { c with prev := none, held := [], latching := false, next := none }

/-- A command in flight whose mop, if it has one, latches afresh (R272). -/
def MxState.relatch (m : MxState) : MxState := { m with cmd := m.cmd.map CmdRun.relatch }

/-- A restored command translates its accesses afresh (R360). -/
def MxState.outdate (m : MxState) : MxState := { m with cmd := m.cmd.map (fun c => { c with stale := true }) }

/-- Every mop of a ply in flight latches afresh. -/
def Ply.relatch (p : Ply) : Ply := { p with mx := p.mx.relatch, mxBehind := p.mxBehind.map MxState.relatch }

/-- Whether a command stands short of the unit at which MX stops: a mop inside an iteration of its stop level, or a mop, an
mzero or a row of an mdrain that has begun (R272). -/
def MxState.mid (m : MxState) : Bool :=
  match m.cmd with
  | none => false
  | some c =>
    let op := (c.todo.headD 0).toNat / 2 ^ 27
    (decide (op = 9) && decide (c.iter % c.block ≠ 0)) || (decide (op ≠ 3) && !c.early.isEmpty)

/-- Whether a command of MX has not reached the unit at which it stops (R272). -/
def Ply.mxMid (p : Ply) : Bool := p.mx.mid || p.mxBehind.any MxState.mid

/-- Whether TR waits for the answer of a tenq it has sent (R283). -/
def Ply.trMid (p : Ply) : Bool :=
  match p.tr.cmd with
  | none => false
  | some c => decide ((c.todo.headD 0).toNat / 2 ^ 27 = 7) && decide (c.iter ≠ 0)

/-- Whether a VL or VS entry stands inside a row (R237). -/
def midRow (i : Option VIssue) : Bool := i.any (fun v => decide (v.part ≠ 0))

/-- Whether an engine of a ply under eviction has not reached the unit at which it stops (R361): a running vchain, a VL or
VS entry inside a row, a mop inside an iteration of its stop level, or a tenq not yet answered, unless it has halted. -/
def Ply.runsOn (p : Ply) (r : Ring) : Bool :=
  (mfind p.halts r.code).isNone &&
    ((decide (r = .vl) && midRow p.vlIss) || (decide (r = .vs) && midRow p.vsIss) || (decide (r = .va) && p.chain.isSome) ||
      (decide (r = .mx) && p.mxMid) || (decide (r = .tr) && p.trMid))

/-- Whether a ring has not halted. After a collective trap, a TR command that had already begun runs to completion (R295). -/
def Ply.unhalted (p : Ply) (r : Ring) : Bool :=
  match mfind p.halts r.code with
  | none => true
  | some x => decide (x.kind = 2) && p.tr.cmd.isSome

/-- Whether the engines of a ply stop at their units: it is Stopping, or its sequencer has been taken for an eviction. Until then the
engines go on, since what SQ still appends may wait for them (R209, R325, R361, log 85). -/
def Ply.mustStop (p : Ply) : Bool := p.phase == .stopping || (p.evict && p.stopped.contains .sq)

/-- Whether the ring of a ply may act: bound, not halted, not frozen by a written trap record, with an entry, and, while its engine
is to stop, on its way to the unit at which it does (R30, R352, R361). -/
def Ply.ringGoes (p : Ply) (r : Ring) : Bool :=
  p.phase != .free && p.unhalted r && p.trapSlot.isNone &&
    (!p.mustStop || p.runsOn r) && p.ringBusy r

/-- S: the sequence number of the oldest vector entry that has not retired (R35). -/
def Ply.oldestSeq (p : Ply) : Nat :=
  let m := fun (q : RingQ) (n : Nat) => match q.entries with | [] => n | e :: _ => min e.seq n
  m p.vl (m p.va (m p.vs p.nextSeq))

/-- Whether the slip limit lets the entry at a vector ring's read pointer issue (R35). -/
def Ply.slipOk (p : Ply) (e : Entry) : Bool := decide (e.seq < p.oldestSeq + p.regs.slip.toNat)

/-! ## Token steps of an engine entry (R40) -/

/-- An entry that starts lets its ring see what SQ saw as it was appended (R93). -/
def Ply.entrySees (p : Ply) (r : Ring) : Ply := p.told r.code (p.headE r).view

/-- Makes the pop of the entry at a ring's read pointer from agent `a`, once: `none` if it must wait. -/
def Ply.entryPop (p : Ply) (r : Ring) (a : Option Nat) : Option Ply :=
  match a with
  | none => some (p.entrySees r)
  | some a =>
    if (p.ring r).popped then some (p.entrySees r)
    else if p.tok a r.code = 0 then none
    else some (((p.popTok a r.code).entrySees r).mapRing r (fun q => { q with popped := true }))

/-- Whether the entry at a vector ring's read pointer has issued and has more to do: it is not read or checked again (R93, R237,
R250). -/
def Ply.begun (p : Ply) (r : Ring) : Bool :=
  match r with
  | .vl => p.vlIss.isSome
  | .va => p.chain.isSome
  | .vs => p.vsIss.isSome
  | _ => false

/-- The index registers as the entry at a vector ring's read pointer finds them at issue, after its pop if it makes one (R93). -/
def Ply.viewOf (p : Ply) (r : Ring) (pop : Bool) : IxView :=
  if r = .va then p.know 2
  else
    let v := (p.know r.code).later (p.headE r).view
    if pop && !(p.ring r).popped then v.later (mget default p.knows (tokKey (ringPopFrom r) r.code 0)) else v

/-- A ply's registers as the entry at a vector ring's read pointer finds them (R93). -/
def Ply.regsAt (p : Ply) (r : Ring) (pop : Bool) : PlyRegs := { p.regs with ix := (p.viewOf r pop).ix }

/-- The flag wait of the entry at a ring's read pointer (R41). A wait that fails stands, and is evaluated again after
every later raise, in the agent order; `none`: it still waits. -/
def Ply.entryWait (p : Ply) (r : Ring) (f thr : Nat) (sub : Bool) : Option Ply :=
  let q := p.ring r
  if q.granted then some p
  else if q.await.isSome then none
  else if thr ≤ p.flag f then some (p.metFlag r.code f thr sub)
  else none

/-- Records that the flag wait of a ring's entry failed and stands (R41). -/
def Ply.standWait (p : Ply) (r : Ring) (f thr : Nat) (sub : Bool) : Ply :=
  p.mapRing r (fun q => { q with await := some (f, thr, sub) })

/-- Grants one ring's standing wait if its flag has reached the threshold (R41). -/
def Ply.grant (p : Ply) (r : Ring) : Ply :=
  let q := p.ring r
  match q.await with
  | some (f, thr, sub) =>
    if !q.granted ∧ thr ≤ p.flag f then
      (p.metFlag r.code f thr sub).mapRing r (fun q => { q with granted := true })
    else p
  | none => p

/-- Evaluates the standing waits of the five engine rings in the agent order (R41). -/
def Ply.grantAll (p : Ply) : Ply := ((((p.grant .vl).grant .va).grant .vs).grant .mx).grant .tr

end Sys2Proof.Machine
end

