-- ==== Sys2Proof/Machine/Links.lean ====
section
/-! DEFINITION. Accesses that leave the die: open frames, closings and clocks (R114, R369, R370), egress and host writes
(R117, R118), and the waits of a system-scope ordering (R118). -/

namespace Sys2Proof.Machine

open Sys2Proof

/-- Adds 1 to a counter that saturates (R369, R373, R375, R377). -/
def satInc (n : Nat) (v : BitVec n) : BitVec n := if v.toNat + 1 < 2 ^ n then v + 1 else v

/-! ## Frames (R114, R369, R370) -/

/-- A die's clock entry (R114). -/
def Die.clock (x : Die) (j : Nat) : W32 := mget 0 x.vclk j

/-- Adds 1 to a die's own clock entry. An entry that wraps to 0 stays listed: it has changed, and a frame carries it (R114). -/
def Die.tickClock (x : Die) (d : Nat) : Die := { x with vclk := mput x.vclk d (x.clock d + 1) }

/-- Merges carried entries into a die's clock (R114, R115). -/
def Die.mergeClock (x : Die) (m : Map W32) : Die :=
  m.foldl (fun x (j, v) => { x with vclk := mput x.vclk j (clockMax v (x.clock j)) }) x

/-- Forms the frame of die `d`'s open records for target `t`: the sender's own entry and the entries changed since its
last frame there (R114, R369). -/
def State.ship (s : State) (d t : Nat) : State :=
  let x := s.die d
  let l := x.link t
  if l.open_.isEmpty then s
  else
    let clk := x.vclk.filter (fun (j, v) => decide (j = d) || decide (mfind l.sentClk j ≠ some v))
    let f : Frame := {
      src := d, dst := t, srcInc := x.inc, dstInc := (s.die t).inc, fseq := l.txSeq, own := x.clock d, clk := clk,
      recs := l.open_, ctr := l.ctr, tgen := l.tgen, vf := l.vf, mark := false, hop := 0 }
    let s := s.setDie d (x.setLink t { l with open_ := [], ctr := 0, sentClk := x.vclk, txSeq := l.txSeq + 1 })
    { s with frames := s.frames ++ [f] }

/-- Closes the open frames of a die: adds exactly 1 to its own clock entry and ships every target's frame (R114). -/
def State.closeFrames (s : State) (d : Nat) : State :=
  let s := s.mapDie d (fun x => x.tickClock d)
  (mkeys (s.die d).links).foldl (fun s t => s.ship d t) s

/-- Bytes of data in open records, stamps apart: a stamp travels in its payload's frame (R105, R370). -/
def recBytes (rs : List AccRec) : Nat := ((rs.filter (fun r => !r.stamp)).map AccRec.len).foldl (· + ·) 0

/-- Adds an access record to the open frame of a target. A record that does not fit the frame (4 KiB of data, one
counter, one context) closes it first (R370; the closing counts like any other, log 14). -/
def State.addRec (s : State) (d t ctr : Nat) (r : AccRec) : State :=
  let l := (s.die d).link t
  let tg := (s.vf r.vf).tgen
  let fits := l.open_.isEmpty || (decide (l.ctr = ctr) && decide (l.vf = r.vf) && decide (l.tgen = tg) &&
    (r.stamp || decide (recBytes l.open_ + r.len ≤ 4096)))
  let s := if fits then s else s.closeFrames d
  s.mapDie d (fun x => x.mapLink t (fun l => { l with open_ := l.open_ ++ [r], ctr := ctr, vf := r.vf, tgen := tg }))

/-- What other dies hold open for a die, and what it holds open for them, is dropped: it has left them (R16, R377). -/
def State.cutLinks (s : State) (d : Nat) : State :=
  { s with dies := s.dies.map (fun (e, x) => (e, { x with links := x.links.map (fun (t, l) =>
      (t, if t = d ∨ e = d then { l with open_ := [], ctr := 0 } else l)) })) }

/-- Raises a die's incarnation in every table, and starts the rate limiters towards it again (R373, R376). -/
def State.raiseInc (s : State) (d : Nat) : State :=
  let s := s.mapDie d (fun x => { x with inc := x.inc + 1 })
  { s with dies := s.dies.map (fun (e, x) =>
      (e, { x with links := x.links.map (fun (t, l) => (t, if t = d then { l with rate := 256, echoes := 16, quiet := 0, owed := [] } else l)) })) }

/-! ## Egress and host writes (R117, R118) -/

/-- Queues an access on an egress link; the first one takes the link for peer accesses (R375). -/
def State.addEgress (s : State) (l : Nat) (part : Nat) (r : AccRec) : State :=
  s.mapEgress l (fun e => { e with
    use := if e.use = 0 then 1 else e.use
    queue := e.queue ++ [r]
    parts := if e.parts.contains part then e.parts else part :: e.parts })

/-- The translation generation of a ply's context (R360). -/
def State.genOf (s : State) (h : Here) : BitVec 16 := (s.vf (s.ply h).vf).tgen

/-- Posts a write of a ply to host memory (R118). -/
def State.post (s : State) (h : Here) (pa : Nat) (bs : List Byte) : State :=
  let p := s.ply h
  { s with posted := s.posted ++ [⟨h.d, p.unit, p.vf, s.genOf h, pa, bs⟩] }

/-! ## What is outstanding (R118) -/

/-- Whether a record belongs to a unit of a die. -/
def AccRec.of (r : AccRec) (u : Nat) : Bool := decide (r.unit = u)

/-- Whether some on-panel access of a unit of die `d` has not been acknowledged (R118). -/
def State.unacked (s : State) (d u : Nat) : Bool :=
  s.frames.any (fun f => decide (f.src = d) && f.recs.any (·.of u)) ||
  s.replies.any (fun r => decide (r.dst = d) && r.recs.any (fun q => q.1.of u)) ||
  (s.die d).links.any (fun l => l.2.open_.any (·.of u))

/-- The egress links with writes of a unit of die `d`, or its flushing reads, outstanding (R117). -/
def State.egressBusy (s : State) (d u : Nat) : Bool :=
  s.links.any (fun l => l.2.queue.any (fun r => r.of u && decide (r.die = d)))

/-- Whether some host write of a unit has not completed at the host port (R118). -/
def State.hostBusy (s : State) (d u : Nat) : Bool := s.posted.any (fun p => decide (p.die = d) && decide (p.unit = u))

/-- Whether every earlier access of a unit has met its condition of R118. -/
def State.unitQuiet (s : State) (d u : Nat) : Bool := !s.unacked d u && !s.egressBusy d u && !s.hostBusy d u

/-- Whether a unit of die `d` has a write on a link with no flushing read of its own behind it. -/
def Egress.unflushed (l : Egress) (d u : Nat) : Bool :=
  l.queue.foldl (fun b r => if r.of u ∧ r.die = d then (if r.kind = 3 then false else b || decide (r.kind = 0)) else b) false

/-- A flushing read of a unit (R117). -/
def flushRec (d u : Nat) : AccRec :=
  { kind := 3, op := 0, va := 0, pa := 0, len := 0, data := [], expect := 0, die := d, core := 0, slot := 0, agent := 0, at_ := 0,
    unit := u, vf := 0, stamp := false, tgen := 0 }

/-- Issues a flushing read on every egress link that holds unflushed writes of the unit (R118, R374). -/
def State.flushEgress (s : State) (d u : Nat) : State :=
  { s with links := s.links.map (fun (i, l) => (i, if l.unflushed d u then { l with queue := l.queue ++ [flushRec d u] } else l)) }

/-- Sends what a unit still holds open, its frames and its flushing reads, while something waits for them (R112, R118; the
closing counts like any other, log 14). -/
def State.drainUnit (s : State) (d u : Nat) : State :=
  let s := if (s.die d).links.any (fun l => l.2.open_.any (·.of u)) then s.closeFrames d else s
  s.flushEgress d u

/-- An SQ busy record with nothing outstanding. -/
def SqBusy.none_ : SqBusy := ⟨0, true, 0, false, [], [], false, false, 0, none⟩

/-- The wait of a system-scope ordering of SQ: closes frames and issues flushing reads once, and goes on with `k` when
every earlier access of the ply has been acknowledged (R111, R118); until then the instruction has not retired. -/
def State.sysGate (s : State) (h : Here) (k : State → State) : State :=
  let u := (s.ply h).unit
  match (s.ply h).sqBusy with
  | some _ => if s.unitQuiet h.d u then k (s.mapPly h (fun p => { p with sqBusy := none })) else s.drainUnit h.d u
  | none =>
    let t := (s.closeFrames h.d).flushEgress h.d u
    if t.unitQuiet h.d u then k t
    else t.mapPly h (fun p => { p with sqBusy := some { SqBusy.none_ with gate := true } })

/-- An access of an engine entry to an HT page is an acquire or a release at system scope: it is performed when every earlier
access of the unit has met its condition of R118, and closes the die's frames (R119, log 14). `error`: it still waits. -/
def State.htGate (s : State) (h : Here) (ht : Bool) : Except State State :=
  let u := (s.ply h).unit
  if !ht then .ok s else if s.unitQuiet h.d u then .ok (s.closeFrames h.d) else .error (s.drainUnit h.d u)

/-- The ordering before an SQ access, by its effective acquire and release bits (R110, R114, R118): a release closes a
frame, and at system scope both wait. -/
def State.orderBefore (s : State) (h : Here) (acq rel : Bool) (scope : Nat) (k : State → State) : State :=
  if (acq || rel) && decide (scope = 4) then s.sysGate h k
  else if rel && decide (scope = 3) then k (s.closeFrames h.d)
  else k s

/-- Whether an acquire closes a frame after its access (R114): a panel-scope acquire does, and so does a system-scope one
whose closing before the access was that of its release. -/
def closesAfter (acq rel : Bool) (scope : Nat) : Bool :=
  acq && (decide (scope = 3) || (rel && decide (scope = 4)))

/-! ## Splitting an access by home (R179) -/

/-- A maximal run of bytes of one access at one home: destination as `SqPart.dest`, index, address, home address,
length. -/
structure Run where
  dest : Nat
  at_ : Nat
  va : Nat
  pa : Nat
  len : Nat
  deriving DecidableEq, Repr

/-- Where a located byte leaves the die to, if it does. -/
def Loc.away (l : Loc) : Option (Nat × Nat) :=
  match l with
  | .remote d pa => some (d, pa)
  | .host pa => some (64, pa)
  | .peer n pa => some (65 + n, pa)
  | _ => none

/-- The runs of located bytes that leave the die, in ascending order. -/
def runsOf (i : Nat) (ls : List (Nat × Loc)) : List Run :=
  match ls with
  | [] => []
  | (va, l) :: t =>
    let rest := runsOf (i + 1) t
    match l.away with
    | none => rest
    | some (d, pa) =>
      match rest with
      | r :: rt =>
        if r.dest = d ∧ r.at_ = i + 1 ∧ r.pa = pa + 1 ∧ r.va = va + 1 then ⟨d, i, va, pa, r.len + 1⟩ :: rt
        else ⟨d, i, va, pa, 1⟩ :: rest
      | [] => [⟨d, i, va, pa, 1⟩]

/-! ## Atomics (R181) -/

/-- The new value of an atomic, by its operation in the order of R181; `none`: a failed compare writes nothing. -/
def atomicNew (op : Nat) (old b expect : Word) : Option Word :=
  match op with
  | 0 => some (old + b)
  | 1 => some (old &&& b)
  | 2 => some (old ||| b)
  | 3 => some (old ^^^ b)
  | 4 => some (if old.toInt ≤ b.toInt then old else b)
  | 5 => some (if old.toInt ≤ b.toInt then b else old)
  | 6 => some b
  | _ => if old = expect then some b else none

end Sys2Proof.Machine
end

