-- ==== Sys2Proof/Machine/Work.lean ====
section
/-! DEFINITION. Work: the journal and completion entries, level records, futures and hold sets, cancel, reclamation, and
the end of plies, units and levels (R25 to R31, R49 to R65, R343, R344, R347). -/

namespace Sys2Proof.Machine

open Sys2Proof

/-! ## The journal (R347) -/

/-- The 256 bits of a journal entry. -/
def journalEntry (seq type status die vf index ident reason info : Nat) : Nat :=
  seq % 2 ^ 64 + type % 16 * 2 ^ 64 + status % 16 * 2 ^ 68 + die % 64 * 2 ^ 72 + vf % 256 * 2 ^ 78 +
    index % 65536 * 2 ^ 88 + ident % 2 ^ 32 * 2 ^ 128 + reason % 256 * 2 ^ 160 + info % 2 ^ 56 * 2 ^ 168

/-- Writes one entry to the journal ring of a partition; nothing while journalling is stopped or JBASE has not been
written (R347, R349). -/
def State.journal (s : State) (p type status die vf index ident reason info : Nat) : State :=
  let q := s.part p
  if !q.jset || q.jstopped || decide (14 ≤ q.jsize.toNat) then s
  else
    let n := 2 ^ (7 + q.jsize.toNat)
    let a := q.jbase.toNat + 32 * (q.jseq.toNat % n)
    let e := journalEntry q.jseq.toNat type status die vf index ident reason info
    (s.mapDie q.jdie.toNat (fun x => { x with mem := putLE x.mem a 32 e })).setPart p { q with jseq := q.jseq + 1 }

/-! ## Completion entries and interrupts (R343, R344) -/

/-- The 128 bits of a completion entry. -/
def cplEntry (kind status die index ident reason info : Nat) : BitVec 128 :=
  BitVec.ofNat 128 (kind % 16 + status % 16 * 2 ^ 4 + die % 64 * 2 ^ 8 + index % 65536 * 2 ^ 16 +
    ident % 2 ^ 32 * 2 ^ 32 + reason % 256 * 2 ^ 64 + info % 2 ^ 56 * 2 ^ 72)

/-- The capacity of a ring of `n` entries (R338). -/
def ringCap (n : Nat) : Nat := if n = 65536 then 65535 else n

/-- Whether a function's completion ring can take no entry (R343). -/
def VFn.cplFull (v : VFn) : Bool :=
  decide (11 ≤ v.cplSize.toNat) || decide ((v.cplTail - v.cplHead).toNat = ringCap (2 ^ (6 + v.cplSize.toNat)))

/-- Sends the interrupt of a function, unless its port is lost: it covers every pending entry (R344, R396). -/
def State.interrupt (s : State) (v : Nat) : State :=
  if !s.hostOn (v / 48) then s else
  { s.mapVf v (fun f => { f with pendCount := 0, pendWindow := false }) with msix := s.msix ++ [v] }

/-- Writes one entry at the tail of a ring that has room, and counts it towards an interrupt (R343, R344). -/
def State.writeCpl (s : State) (v : Nat) (e : BitVec 128) : State :=
  let f := s.vf v
  let f := { f with
    cplRing := mput f.cplRing (f.cplTail.toNat % 2 ^ (6 + f.cplSize.toNat)) e
    cplTail := f.cplTail + 1
    pendCount := if f.intEn then f.pendCount + 1 else f.pendCount
    pendWindow := f.pendWindow || (f.intEn && decide (f.coCycles ≠ 0)) }
  let f := { f with stalled := f.cplFull }
  let s := s.setVf v f
  if f.intEn && decide (f.coCount ≠ 0) && decide (f.coCount.toNat ≤ f.pendCount) then s.interrupt v else s

/-- A completion entry: written, or held in order while the ring is full or the function's port is lost (R343, R396, log 88). -/
def State.complete (s : State) (v : Nat) (e : BitVec 128) : State :=
  let f := s.vf v
  if f.cplFull || !f.held.isEmpty || !s.hostOn (v / 48) then s.setVf v { f with held := f.held ++ [e], stalled := true }
  else s.writeCpl v e

/-! ## Choices the manual leaves open -/

/-- One of the numbers below `n` that `used` does not hold: the free choice when that one is free, and the lowest free
one otherwise, so that some number is found whenever one exists (log 8). -/
def State.pick (s : State) (used : Nat → Bool) (n : Nat) : Option Nat :=
  let c := Config.choice s.fresh % n
  if used c then firstFrom (fun k => !used k) 0 n else some c

/-! ## Level records (R25, R26, R29) -/

/-- Level `i` or one of its ancestors is `a` (R25). -/
def Die.within (x : Die) (a i fuel : Nat) : Bool :=
  match fuel with
  | 0 => false
  | n + 1 => decide (i = a) || (let p := (x.level i).parent.toNat; decide (p ≠ 0xFFFF) && x.within a p n)

/-- The job above a level. -/
def Die.jobOf (x : Die) (i fuel : Nat) : Nat :=
  match fuel with
  | 0 => i
  | n + 1 => if (x.level i).parent = 0xFFFF then i else x.jobOf (x.level i).parent.toNat n

/-- Whether a level or one of its ancestors has an accepted cancel that has not ended (R30). -/
def Die.underCancel (x : Die) (i fuel : Nat) : Bool :=
  match fuel with
  | 0 => false
  | n + 1 =>
    (x.level i).status == 2 || (let p := (x.level i).parent.toNat; decide (p ≠ 0xFFFF) && x.underCancel p n)

/-- Counts completed units into a level and the levels above it (R29). -/
def Die.countUnits (x : Die) (i n fuel : Nat) : Die :=
  match fuel with
  | 0 => x
  | f + 1 =>
    let x := x.mapLevel i (fun l => { l with unitsDone := l.unitsDone + BitVec.ofNat 32 n })
    let p := (x.level i).parent.toNat
    if p = 0xFFFF then x else x.countUnits p n f

/-- A free index of the work table (R340, log 8). -/
def State.freeLevel (s : State) (d : Nat) : Option Nat := s.pick (fun i => ((s.die d).level i).used) Config.levelCount

/-- Creates a level record (R29, R340). -/
def State.newLevel (s : State) (d i code parent ident vf outstanding : Nat) (isSealed notify : Bool) : State :=
  let l : Level := {
    outstanding := outstanding, unitsDone := 0, level := BitVec.ofNat 3 code, status := 0,
    parent := BitVec.ofNat 16 parent, ident := BitVec.ofNat 32 ident, used := true, vf := vf, sealed := isSealed,
    notify := notify, faulted := false, serial := s.fresh, cmdKind := if code = 1 then 2 else 1, jseq := 0, ends := [] }
  (s.mapDie d (fun x => x.setLevel i l)).tickFresh

/-! ## Futures and hold sets (R49 to R56) -/

/-- A handle (R50). -/
def handleOf (d f gen : Nat) : Word := BitVec.ofNat 64 (f % 65536 + gen % 65536 * 2 ^ 16 + d % 64 * 2 ^ 32)

/-- The 256 bits of a future-table entry (R49). -/
def Future.bits (e : Future) : Nat :=
  e.state.toNat + e.cause.toNat * 2 ^ 2 + b2n e.pinned * 2 ^ 4 + b2n e.indirect * 2 ^ 5 + b2n e.doomed * 2 ^ 6 +
    e.reach.toNat * 2 ^ 8 + e.owner.toNat * 2 ^ 32 + e.gen.toNat * 2 ^ 48 + e.dhead.toNat * 2 ^ 64 +
    e.result.toNat * 2 ^ 128

/-- The lowest-numbered slot of a hold set that holds a handle (R198). -/
def slotOf (hs : Map Word) (hd : Word) : Option Nat :=
  match hs with
  | [] => none
  | (i, x) :: t => if x = hd then some i else slotOf t hd

/-- The lowest-numbered free slot of a hold set (R51, R198). -/
def freeSlot (hs : Map Word) : Option Nat := mfree hs 0 32

/-- Drops one reference on the future a handle names: at reach zero the future is doomed (R53). -/
def Die.dropRef (x : Die) (hd : Word) : Die :=
  let f := hd.toNat % 65536
  let e := x.fut f
  let e := { e with reach := e.reach - 1 }
  x.setFut f (if e.reach = 0 then { e with doomed := true } else e)

/-- Drops every reference of a hold set, in ascending slot order (R53). -/
def Die.dropAll (x : Die) (hs : Map Word) : Die := hs.foldl (fun x (_, hd) => x.dropRef hd) x

/-- Marks a future reclaimed with a cause (R55, R61, R64). -/
def Future.reclaimed (e : Future) (cause : BitVec 2) : Future := { e with state := 2, cause := cause, dhead := 0 }

/-- Frees a future-table entry (R53, R55). -/
def Future.freed (e : Future) : Future := { (.reset : Future) with gen := e.gen + 1 }

/-- Entries of the future table that are free and not reserved by a launch (R312). -/
def Die.commonFree (x : Die) : Nat :=
  Config.futCount - (x.futs.filter (fun e => decide (e.2.state ≠ 3))).length - ((x.launches.map (fun l => l.2.resv)).foldl (· + ·) 0)

/-- A free future-table entry (log 8). -/
def State.freeFut (s : State) (d : Nat) : Option Nat := s.pick (fun f => decide (((s.die d).fut f).state ≠ 3)) Config.futCount

/-! ## Units -/

/-- Removes an item from every launch queue. -/
def Die.dropItem (x : Die) (t : QItem) : Die :=
  { x with lqs := x.lqs.map (fun (n, q) => (n, { q with items := q.items.filter (fun i => decide (i ≠ t)) })) }

/-- Removes a unit from every launch queue and from the chosen units. -/
def Die.unqueue (x : Die) (u : Nat) : Die :=
  let x := x.dropItem (.unit u)
  { x with chosen := x.chosen.filter (fun v => decide (v ≠ u)) }

/-- The ring area of a unit: its function and the address of its record, and the area's number (R309). -/
def Die.areaOf (x : Die) (w : WUnit) : Nat × Nat := ((x.level w.level).vf * 2 ^ 64 + w.lr.addr, w.k)

/-- Frees the ring area of a unit (R309). -/
def Die.freeArea (x : Die) (w : WUnit) : Die := { x with areas := x.areas.erase (x.areaOf w) }

/-- Whether a unit has its ring area: while it is bound or saved, and a spawned unit from its spawn (R309). -/
def WUnit.hasArea (w : WUnit) : Bool := w.phase == .bound || w.saved.isSome || (w.spawned && decide (w.defers = 0))

/-- The holder that stands for the units of launch `l` not yet chosen, which have no serial of their own (R81). -/
def pendUnit (l : Nat) : Nat := 2 ^ 65 + l

/-- Ends every hank hold of a unit: applied at the next dwell tick (R81, R83). -/
def Die.endHolds (x : Die) (u : Nat) : Die :=
  { x with holds := x.holds.map (fun o => if o.unit = u then { o with ended := true } else o) }

/-- A unit's counter reaches zero: its level record ends with `status`, or cancelled when a cancel of it was accepted (R31), its
launch's counter falls by one, and the units above are counted (R26, R29, R55 step 4). -/
def Die.unitDone (x : Die) (u : Nat) (status : BitVec 3) : Die :=
  match x.unit? u with
  | none => x
  | some w =>
    if w.phase = .done then x else
    let status := if (x.level w.level).status = 2 then 3 else status
    let x := x.setUnit u { w with phase := .done, saved := none, imageUnits := [], image := none, defers := 0, holdset := [] }
    let x := if w.hasArea then (x.unqueue u).freeArea w else x.unqueue u
    let x := x.mapLevel w.level (fun l => { l with outstanding := 0, status := status, used := false })
    let li := (x.launch? w.launch).map Launch.level
    match li with
    | none => x
    | some i =>
      let x := x.mapLevel i (fun l => { l with outstanding := l.outstanding - 1, faulted := l.faulted || decide (status = 4) })
      (x.countUnits w.level 1 1).countUnits i 1 4

/-- Discards the stores of a unit that are not yet framed (R58). A store that the die's open frame gathers is not yet in a causal
frame (log 83). -/
def Die.dropOpen (x : Die) (u : Nat) : Die :=
  { x with links := x.links.map (fun (t, l) => (t, { l with open_ := l.open_.filter (fun r => !r.of u) })) }

/-- Stops a bound ply as step 3 of R30: it leaves the sequencer and any deferred-read list and is Stopping until its
engines acknowledge. `why`: 1 cancel, 2 reclaim, 3 defer, 4 abandon, 5 evict. Stores not yet framed are discarded (R58; those
that the open frames gather among them, log 83), except for an eviction, which also keeps a wait that has been satisfied
(R193). -/
def Die.stopPly (x : Die) (c k why : Nat) : Die :=
  let u := (x.ply c k).unit
  let x := (x.unlink c k).leave c k .stopping
  let x := if 5 ≤ why then x else x.dropOpen u
  x.mapPly c k (fun p => { p with
    stopWhy := why, stopped := [], sqBusy := none, waitDone := if 5 ≤ why then p.waitDone else false
    wait := if 5 ≤ why ∧ p.waitDone then p.wait else none })

/-- The trap slot of a dropped record is freed; a record held back by a full trap ring is never written (R363). -/
def State.freeTrap (s : State) (d v : Nat) (slot : Option Nat) : State :=
  match slot with
  | none => s
  | some t =>
    let g := ((s.die d).trap t).tgen.toNat
    let mine := fun (r : BitVec 1024) => decide (r.toNat % 2 ^ 38 = t % 2 ^ 16 + g * 2 ^ 16 + d % 2 ^ 6 * 2 ^ 32)
    (s.mapDie d (fun x => x.setTrap t ((x.trap t).freed true))).mapVf v (fun f => { f with
      trapHeld := f.trapHeld.filter (fun e => !mine e.1) })

/-- A trap record pending for a ply that stops is dropped (R58, R363): its slot is freed and the journal gains an entry of type 5.
Its halted agents stay halted: no engine goes on with the entry that failed (R352). -/
def State.dropTrap (s : State) (h : Here) : State :=
  let p := s.ply h
  if !p.held then s
  else
    let lvl := (((s.die h.d).unit? p.unit).map WUnit.level).getD 0xFFFF
    let s := s.freeTrap h.d p.vf p.trapSlot
    let s := s.journal (s.die h.d).partNo 5 0 h.d p.vf lvl 0 0 (p.trapSlot.getD 0xFFFF)
    s.mapPly h (fun p => { p with trapSlot := none })

/-- As `dropTrap`, for a unit whose trap is pending against its saved image (R361, R363). -/
def State.dropSavedTrap (s : State) (d u : Nat) : State :=
  match ((s.die d).unit? u) with
  | none => s
  | some w => match w.saved with
    | none => s
    | some v =>
      if !v.ply.held then s
      else
        let s := s.freeTrap d v.ply.vf v.ply.trapSlot
        let s := s.journal (s.die d).partNo 5 0 d v.ply.vf w.level 0 0 (v.ply.trapSlot.getD 0xFFFF)
        s.mapDie d (fun x => x.setUnit u { w with saved := some { v with ply := { v.ply with halts := [], trapSlot := none } } })

/-- Reclaims or cancels the unit of a bound ply: the future takes `state` 2 with `cause`, the hold set is dropped, a
pending trap record is dropped, and the ply is stopped (R55, R64, R363). -/
def State.reclaimBound (s : State) (h : Here) (cause : BitVec 2) (why : Nat) : State :=
  let s := (s.dropTrap h).dropSavedTrap h.d (s.ply h).unit
  let p := s.ply h
  s.mapDie h.d (fun x =>
    let f := ((x.unit? p.unit).map WUnit.fut).getD 0
    let x := x.mapFut f (fun e => { e.reclaimed cause with doomed := true, pinned := false })
    let x := (x.dropAll p.holdset).endHolds p.unit
    let x := x.mapPly h.c h.k (fun p => { p with holdset := [] })
    x.stopPly h.c h.k why)

/-- Reclaims or cancels an unbound unit (R30 step 2, R55, R64). -/
def Die.reclaimUnbound (x : Die) (u : Nat) (cause : BitVec 2) : Die :=
  match x.unit? u with
  | none => x
  | some w =>
    let hs := match w.saved with | some sv => sv.ply.holdset | none => w.holdset
    let x := x.mapFut w.fut (fun e => { e.reclaimed cause with doomed := true, pinned := false })
    ((x.dropAll hs).endHolds u).unitDone u 3

/-- What the stop of a unit that was evicted discards: its trap record, its stores not yet framed, and its shadow writes not
yet published (R58, R59, R363). -/
def State.discardSaved (s : State) (d u : Nat) : State :=
  match ((s.die d).unit? u).bind WUnit.saved with
  | none => s
  | some _ => ((((s.dropSavedTrap d u).mapDie d (fun x => x.dropOpen u)).discardUnit u s.fresh)).tickFresh

/-- Reclaims or cancels an unbound unit with all its effects (R55, R58). -/
def State.endUnstarted (s : State) (d u : Nat) (cause : BitVec 2) : State :=
  (s.discardSaved d u).mapDie d (fun x => x.reclaimUnbound u cause)

/-- The batch that launch `l` leads, if any, is undone: its members wait for a start again, and so does `l` (R85). -/
def Die.undoBatch (x : Die) (l : Nat) : Die :=
  match x.launch? l with
  | none => x
  | some a =>
    if !a.lr.keyed || decide (a.lr.batchClass = 0) then x
    else
      a.members.foldl (fun x m => x.mapLaunch m (fun b => { b with leader := none, met := [] }))
        ((x.setLaunch l { a with members := [], met := [] }).endHolds (pendUnit l))

/-- Hank-missed defers a unit (R85): a trap record pending for it is dropped as R58 gives for a reclaimed unit, its ply is
stopped, its hold set dropped, its future stays as it is, and a batch that it leads is undone. -/
def State.deferUnit (s : State) (h : Here) : State :=
  let s := (s.dropTrap h).dropSavedTrap h.d (s.ply h).unit
  let p := s.ply h
  s.mapDie h.d (fun x =>
    let x := (x.dropAll p.holdset).endHolds p.unit
    let x := x.mapPly h.c h.k (fun p => { p with holdset := [] })
    (x.undoBatch (((x.unit? p.unit).map WUnit.launch).getD 0)).stopPly h.c h.k 3)

/-! ## Cancel (R30, R31) -/

/-- Drops the references that a job holds on the futures of its units (R51). -/
def Die.dropJobRefs (x : Die) (job : Nat) : Die :=
  x.units.foldl (fun x (u, w) =>
    if w.job = job ∧ w.jobRef then
      (x.mapUnit u (fun w => { w with jobRef := false })).dropRef (handleOf 0 w.fut w.gen.toNat)
    else x) x

/-- Removes the units of a launch that have not been chosen, as if they had completed (R30 step 2). -/
def Die.dropLaunch (x : Die) (l : Nat) : Die :=
  match x.launch? l with
  | none => x
  | some a =>
    let n := a.lr.units - a.next
    let x := x.setLaunch l { a with next := a.lr.units, leader := none }
    let x := (x.dropItem (.launch l)).endHolds (pendUnit l)
    (x.mapLevel a.level (fun v => { v with outstanding := v.outstanding - n })).countUnits a.level n 4

/-- Whether a cancel of level record `i` reaches a unit: its own record, or its launch below the record (R30). -/
def Die.cancelHits (x : Die) (i : Nat) (w : WUnit) : Bool :=
  if (x.level i).level = 0 then decide (w.level = i) && decide (w.phase ≠ .done)
  else ((x.launch? w.launch).map (fun a => x.within i a.level 5)).getD false

/-- A cancel reaches one unit (R30, R65): an unbound one is removed at once, unless it is pinned; a bound or a pinned one is
marked, its future doomed (R49), and stopped at its point. -/
def State.cancelUnit (s : State) (d u : Nat) (w : WUnit) : State :=
  let mark := fun (x : Die) => (x.mapUnit u (fun w => { w with cancelled := true })).mapFut w.fut (fun e => { e with doomed := true })
  match w.phase with
  | .done => s
  | .bound => s.mapDie d mark
  | _ => if ((s.die d).fut w.fut).pinned then s.mapDie d mark else s.endUnstarted d u 2

/-- A cancel of level record `i`: an accepted cancel acts as R30, any other changes nothing; the status found. -/
def State.cancelLevel (s : State) (d i : Nat) : State × Nat :=
  let x := s.die d
  let lv := x.level i
  if lv.status ≠ 0 then (s, lv.status.toNat)
  else
    let extra := decide (2 ≤ lv.level.toNat) && !lv.sealed
    let x := x.setLevel i { lv with
      status := 2, sealed := true, outstanding := if extra then lv.outstanding - 1 else lv.outstanding }
    let x := if lv.level = 4 then x.dropJobRefs lv.serial else x
    let x := x.launches.foldl (fun x (l, a) =>
      if lv.level ≠ 0 ∧ x.within i a.level 5 ∧ (x.level a.level).used then x.dropLaunch l else x) x
    let s := s.setDie d x
    (x.units.foldl (fun s (u, _) =>
      match (s.die d).unit? u with
      | none => s
      | some w => if (s.die d).cancelHits i w then s.cancelUnit d u w else s) s, 0)

/-! ## The end of a level (R26, R29) -/

/-- An unbound unit ends with a status, its future unfilled (R61, R80, R84, R308). -/
def Die.endUnbound (x : Die) (u : Nat) (status : BitVec 3) : Die :=
  match x.unit? u with
  | none => x
  | some w =>
    let x := x.mapFut w.fut (fun e => if e.state = 0 then e.reclaimed 3 else e)
    ((x.dropAll w.holdset).endHolds u).unitDone u status

/-- An unbound unit ends faulted. -/
def Die.failUnit (x : Die) (u : Nat) : Die := x.endUnbound u 4

/-- A member of a batch completes with its leader's launch and takes its status (R80 step 4). -/
def Die.endMember (x : Die) (l : Nat) (a : Launch) (st : BitVec 3) : Die :=
  let x := x.units.foldl (fun x (u, w) => if w.launch = l ∧ w.phase = .queued then x.endUnbound u st else x) x
  let x := (x.setLaunch l { a with leader := none, next := a.lr.units }).dropItem (.launch l)
  let x := x.countUnits a.level (a.lr.units - a.next) 4
  x.mapLevel a.level (fun v => { v with
    outstanding := 0, faulted := v.faulted || decide (st = 4), status := if st = 3 then 2 else v.status })

/-- A launch has completed with status complete on die `d`: the pending faults of its block, of its carder, and of the switch
dies and edge chiplets that reset its partition are classed transient (R400). -/
def State.classTransient (s : State) (d : Nat) : State :=
  { s with blocks := s.blocks.map (fun (b, k) =>
      (b, if k.pending && (decide (b = d) || decide (b = 64 + d) ||
            (decide (128 ≤ b) && decide (k.pendPart = (s.die d).part.toNat) && (s.die d).member)) then
          { k with pending := false, transient := if k.transient = 0xFFFF then k.transient else k.transient + 1 }
        else k)) }

/-- A level whose counter is zero ends: its status, its parent's counter, the journal and the completion entry, and what
else its end does (R26, R28, R29, R51, R80, R312, R340). -/
def State.endLevel (s : State) (d i : Nat) : State :=
  let x := s.die d
  let lv := x.level i
  let st : BitVec 3 := if lv.status = 2 then 3 else if lv.faulted then 4 else 1
  let x := x.setLevel i { lv with status := st, used := decide (lv.level = 1) }
  let x := if lv.parent = 0xFFFF then x
    else x.mapLevel lv.parent.toNat (fun p => { p with outstanding := p.outstanding - 1, faulted := p.faulted || decide (st = 4) })
  let x := if lv.level = 2 then
      { x with levels := x.levels.map (fun (j, l) =>
          (j, if l.level = 1 ∧ l.parent.toNat = i then { l with used := false } else l)) }
    else x
  let x := if lv.level = 4 then x.dropJobRefs lv.serial else x
  let x := if lv.level = 1 then
      x.launches.foldl (fun x (l, a) =>
        if a.level = i then x.setLaunch l { a with resv := 0, members := [] }
        else if a.leader.any (fun g => ((x.launch? g).map (fun b => decide (b.level = i))).getD false) then
          x.endMember l a st
        else x) x
    else x
  let s := s.setDie d x
  let s := if lv.level = 1 ∧ st = 1 then s.classTransient d else s
  let cst := match st.toNat with | 1 => 1 | 3 => 2 | _ => 3
  let s := s.journal x.partNo 3 cst d lv.vf i lv.ident.toNat lv.cmdKind lv.unitsDone.toNat
  if lv.notify then s.complete lv.vf (cplEntry lv.cmdKind cst d i lv.ident.toNat 0 lv.unitsDone.toNat) else s

/-- A level that has just reached zero on a die, if any: launches before graphs before phases before jobs. -/
def Die.zeroLevel (x : Die) : Option Nat :=
  let p := fun (c : Nat) => (x.levels.find? (fun e =>
    e.2.used && decide (e.2.level.toNat = c) && (e.2.status == 0 || e.2.status == 2) && decide (e.2.outstanding = 0))).map Prod.fst
  (p 1).or ((p 2).or ((p 3).or (p 4)))

/-- Ends every level of a die whose counter is zero. -/
def State.endLevels (s : State) (d fuel : Nat) : State :=
  match fuel with
  | 0 => s
  | n + 1 =>
    match (s.die d).zeroLevel with
    | none => s
    | some i => (s.endLevel d i).endLevels d n

/-! ## The end of a ply (R37) -/

/-- The vector registers of a ply's window, rebased to v0. -/
def Die.window (x : Die) (c : Nat) (p : Ply) : Map VReg :=
  (x.core c).vregs.filterMap (fun (n, v) => if p.vbase ≤ n ∧ n < p.vbase + p.vcount then some (n - p.vbase, v) else none)

/-- Releases the operand-memory slots and accumulator tiles of a ply (R95, R265). -/
def Die.releaseLathes (x : Die) (c k : Nat) : Die :=
  { x with lathes := x.lathes.map (fun (n, l) => (n, { l with
      slots := l.slots.filter (fun e => !(decide (e.2.core = c) && decide (e.2.slot = k)))
      tiles := l.tiles.filter (fun e => !(decide (e.2.core = c) && decide (e.2.slot = k))) })) }

/-- The image of a ply (R362). -/
def Die.image (x : Die) (c k : Nat) : Saved :=
  let p := x.ply c k
  let l := x.lathe (c / 2)
  { ply := p.relatch
    vregs := x.window c p
    slots := l.slots.filterMap (fun (n, o) => if o.core = c ∧ o.slot = k then some (n, o.data) else none)
    tiles := x.lathes.flatMap (fun (n, l) => l.tiles.filterMap (fun (t, a) =>
      if a.core = c ∧ a.slot = k then some ((if a.ganged then 4 * (n % 3) else 0) + t % 2, (a.acc, a.valid)) else none))
    ganged := l.tiles.filterMap (fun (t, a) => if a.core = c ∧ a.slot = k ∧ a.ganged then some (t % 2) else none) }

/-- The 64 KiB units an image takes (R362). -/
def Saved.size (v : Saved) : Nat := 1 + (v.ply.vcount + 15) / 16 + v.slots.length + 2 * v.tiles.length

/-- The units of the context store that images use on a die (R362). -/
def Die.imagesUsed (x : Die) : List Nat := x.units.flatMap (fun e => e.2.imageUnits)

/-- A part of an image: the number of its first 64 KiB unit, how many it takes, whether it is dirty, and, for a header that an
earlier image has, the state that each of its 64-byte lines keeps apart (R362). -/
structure ImagePart where
  first : Nat
  units : Nat
  dirty : Bool
  byLine : Bool
  deriving DecidableEq, Repr

/-- The parts of an image in the order of their units: the header, each bank of 16 registers, each slot, and each tile, which
takes two units; a part is dirty when it differs from that part of an earlier image (R362). -/
def Saved.parts (v : Saved) (old : Option Saved) : List ImagePart :=
  let banks := (v.ply.vcount + 15) / 16
  let bank := fun (o : Saved) (k : Nat) => o.vregs.filter (fun e => decide (e.1 / 16 = k))
  let at_ := fun (k : Nat) => 1 + banks + k
  let tiles := fun (o : Saved) (k : Nat) => if o.slots.length = v.slots.length then o.tiles[k]? else none
  [⟨0, 1, !old.any (fun o => decide (o.ply = v.ply)), old.isSome⟩] ++
    (List.range banks).map (fun k => ⟨1 + k, 1, !old.any (fun o => decide (bank o k = bank v k)), false⟩) ++
    v.slots.zipIdx.map (fun e => ⟨at_ e.2, 1, !old.any (fun o => decide (o.slots[e.2]? = some e.1)), false⟩) ++
    v.tiles.zipIdx.map (fun e => ⟨at_ v.slots.length + 2 * e.2, 2, !old.any (fun o => decide (tiles o e.2 = some e.1)), false⟩)

/-- The units an image is given: those the unit already has, then the lowest free ones of the region (R362, log 72). -/
def Die.imageRoom (x : Die) (w : WUnit) (v : Saved) : Option (List Nat) :=
  let free := (List.range x.cstoreUnits.toNat).filter (fun n => !x.imagesUsed.contains n)
  let us := (w.imageUnits ++ free).take (max w.imageUnits.length v.size)
  if us.length < v.size then none else some us

/-- Writes the dirty parts of an image to the context store, as bytes the manual gives no layout for: free values under the serial
`n`. Which lines of a header are dirty, when its state has changed at all, is a free value too; the others keep their bytes (R362,
log 72). -/
def Die.writeImage (x : Die) (us : List Nat) (ps : List ImagePart) (n : Nat) : Die :=
  ps.foldl (fun x e =>
    if !e.dirty then x
    else (List.range e.units).foldl (fun x j =>
      let a := x.cstoreBase.toNat + 65536 * us.getD (e.first + j) 0
      let writes := fun o => !e.byLine || Config.lineDirty n (o / 64)
      let bs := (Config.imageBytes n).filterMap (fun b =>
        let o := b.1 - 65536 * (e.first + j)
        if 65536 * (e.first + j) ≤ b.1 ∧ o < 65536 ∧ writes o then some (o, b.2) else none)
      { x with mem := pasteRange (x.mem.filter (fun c => !(decide (a ≤ c.1) && decide (c.1 < a + 65536) && writes (c.1 - a)))) a bs }) x) x

/-- Puts a unit at the head of its launch queue (R85, R361). -/
def Die.requeue (x : Die) (u : Nat) : Die :=
  match x.unit? u with
  | none => x
  | some w =>
    let q := ((x.launch? w.launch).map Launch.queue).getD 0
    let x := x.setUnit u { w with phase := .queued }
    x.setLqc q { x.lqc q with items := .unit u :: (x.lqc q).items }

/-- Saves the image of an evicted unit in the units of the context store it is given, and puts the unit back at the head of
its queue (R361, R362). -/
def Die.saveUnit (x : Die) (u : Nat) (v : Saved) (n : Nat) : Die :=
  let v := { v with ply := ({ v.ply with evict := false, preempt := false, stopped := [], stopWhy := 0 }).replayVl }
  match x.unit? u with
  | none => x
  | some w =>
    match x.imageRoom w v with
    | none => x
    | some us =>
      ((x.writeImage us (v.parts w.image) n).setUnit u { w with saved := some v, imageUnits := us, image := some v }).requeue u

/-- A Free slot after a ply that has ended: no rule clears its flags, tokens and registers before the next bind (R36, R37, R131).
Those of a ply that was stopped are lost with it (R58). -/
def Ply.freed (p : Ply) : Ply :=
  if p.phase = .ended then { (.reset : Ply) with regs := p.regs, flags := p.flags, toks := p.toks, ft := p.ft, dsrec := p.dsrec }
  else .reset

/-- A ply slot becomes Free (R37): slots and tiles are released, and its unit ends, returns to its queue, or is saved under
the serial `n`. -/
def Die.freePly (x : Die) (c k n : Nat) : Die :=
  let p := x.ply c k
  let u := p.unit
  let img := x.image c k
  let x := (x.releaseLathes c k).setPly c k p.freed
  let x := x.mapUnit u (fun w => { w with core := 0, slot := 0 })
  if p.phase = .ended then (x.endHolds u).unitDone u 1
  else
    match p.stopWhy with
    | 3 =>
      let x := x.mapUnit u (fun w => { w with
        holdset := [], defers := w.defers + 1
        missed := ((x.launch? w.launch).map (fun a => a.lr.keyed)).getD false })
      let x := match x.unit? u with
        | none => x
        | some w => x.freeArea w
      x.requeue u
    | 4 => (x.endHolds u).unitDone u 4
    | 5 => x.saveUnit u { img with ply := { img.ply with phase := .ready } } n
    | _ => (x.endHolds u).unitDone u 3

end Sys2Proof.Machine
end

