-- ==== Sys2Proof/Machine/Waits.lean ====
section
/-! DEFINITION. The objects a ply waits on, and hank copies and holds: when a wait's condition holds and what it then does
(R43, R68, R81, R106, R193). -/

namespace Sys2Proof.Machine

open Sys2Proof

/-! ## Hank copies and holds (R68, R81) -/

/-- Bytes of a hank (R66, R72). -/
def WhorlRec.hankBytes (r : WhorlRec) : Nat := (r.hankCode + 1) * 2 ^ 20

/-- S: the die share (R69). -/
def WhorlRec.share (r : WhorlRec) : Nat := r.hanks / r.n

/-- The die-store address of slot `k` of the slack loop: behind the transit queue and the splice slots (R72). -/
def WhorlRec.slackAt (r : WhorlRec) (k : Nat) : Nat := r.base + (r.share + r.spare + k) * r.hankBytes

/-- The configuration record of the whorl a die belongs to, with what the die holds. -/
def State.whorlOf (s : State) (d : Nat) : Option (WhorlRec × WhorlDie) :=
  (s.die d).whorl.map (fun w => ((s.whorl w.id).cfg, w))

/-- Whether a tag matches a key (R68). -/
def tagMatch (t key mask : Word) : Bool := decide (t.toNat % 4 = 0) && decide ((t ^^^ key) &&& mask = 0)

/-- The retained copies of a die. -/
def Die.slack (x : Die) : List Copy := (x.whorl.map WhorlDie.slack).getD []

/-- The youngest matching copy in the slack loop (R203). -/
def Die.youngest (x : Die) (key mask : Word) : Option Copy :=
  (x.slack.filter (fun c => tagMatch c.tag key mask)).foldl (fun b c =>
    match b with
    | none => some c
    | some y => if c.age < y.age then some c else some y) none

/-- Live holds of a unit. -/
def Die.holdCount (x : Die) (u : Nat) : Nat := (x.holds.filter (fun o => decide (o.unit = u) && !o.ended)).length

/-- Takes a hold on a copy. -/
def State.takeHold (s : State) (d u copy : Nat) : State :=
  (s.mapDie d (fun x => { x with holds := x.holds ++ [⟨u, copy, s.fresh, false⟩] })).tickFresh

/-- The oldest matching copy on which a unit has a live hold (R203). -/
def Die.oldestHeld (x : Die) (u : Nat) (key mask : Word) : Option Copy :=
  (x.slack.filter (fun c => tagMatch c.tag key mask && x.holds.any (fun o => decide (o.unit = u) && decide (o.copy = c.serial) && !o.ended))).foldl
    (fun b c => match b with | none => some c | some y => if y.age < c.age then some c else some y) none

/-- Ends one of a unit's holds on a copy; applied at the next dwell tick (R83). -/
def endOne (hs : List Hold) (u copy : Nat) : List Hold :=
  match hs with
  | [] => []
  | o :: t => if o.unit = u ∧ o.copy = copy ∧ !o.ended then { o with ended := true } :: t else o :: endOne t u copy

/-! ## Watched memory (R106, R196) -/

/-- V: the 8 bytes a monitor-and-wait tests, through the mapping as it stands; 0 when out of range. -/
def State.watched (s : State) (h : Here) (a : Nat) : Nat :=
  let ls := State.locateAll (fun va => (s.locate h.d (some h.key) (s.ply h).vf .load none va).1) a 8
  if ls.any (fun l => match l.2 with | .here (.bad _) => true | .here _ => false | _ => true) then 0
  else leNat ((s.die h.d).readLocs ls)

/-- The compare of mwait (R196). -/
def memCond (cond : BitVec 2) (v b : Nat) : Bool :=
  match cond.toNat with
  | 0 => decide (v = b)
  | 1 => decide (v ≠ b)
  | 2 => decide (b ≤ v)
  | _ => decide (b < v)

/-! ## Waits (R193) -/

/-- Delivers a future's result to a reader (R198). -/
def PlyRegs.deliver (r : PlyRegs) (e : Future) (dst : BitVec 5) (nw : Bool) : PlyRegs :=
  let v := if e.state = 1 then e.result.toNat else 0
  if nw then r else (r.wrG (2 * dst.toNat) (BitVec.ofNat 64 v)).wrG (2 * dst.toNat + 1) (BitVec.ofNat 64 (v / 2 ^ 64))

/-- A wait whose condition holds performs its effect; `none`: the condition is false. A seventeenth hank hold takes the
work trap instead (R203). -/
def State.tryWait (s : State) (h : Here) (w : Wait) : Option State :=
  let p := s.ply h
  let x := s.die h.d
  match w with
  | .flag f thr sub =>
    if thr ≤ p.flag f then some (s.setPly h (p.metFlag 0 f thr sub)) else none
  | .barrier b target => if barrierReached (x.bar b).phase target then some s else none
  | .mem a cond v => if memCond cond (s.watched h a) v.toNat then some s else none
  | .fut hd dst nw consume =>
    let e := x.fut (hd.toNat % 65536)
    if e.state = 1 ∨ e.state = 2 then
      let s := s.mapDie h.d (fun x => x.unlink h.c h.k)
      let s := s.mapRegs h (fun r => r.deliver e dst nw)
      if consume then
        match slotOf p.holdset hd with
        | none => some s
        | some i => some ((s.mapPly h (fun p => { p with holdset := mdel p.holdset i })).mapDie h.d (fun x => x.dropRef hd))
      else some s
    else none
  | .hank key mask =>
    match x.youngest key mask with
    | none => none
    | some c => if 16 ≤ x.holdCount p.unit then some (s.trapSq h 0x13 5 0) else some (s.takeHold h.d p.unit c.serial)

/-- Wakes a Waiting ply whose wait's condition has become true (R43, R193). A held ply is not woken (R352). -/
def State.wake (s : State) (h : Here) : State :=
  let p := s.ply h
  match p.wait with
  | none => s
  | some w =>
    if p.phase ≠ .waiting ∨ p.waitDone ∨ p.held then s
    else match s.tryWait h w with
      | none => s
      | some t =>
        if (t.ply h).held then t.mapPly h (fun p => { p with wait := none })
        else t.mapPly h (fun p => { p with waitDone := true, phase := .ready })

end Sys2Proof.Machine
end

