-- ==== Sys2Proof/Machine/Settle.lean ====
section
/-! DEFINITION. What follows every step at once, by the manual's "in the same step" and "at once" rules: waits that have
become true, reclamation and cancel at their points, units and levels that end, futures that are freed, launches whose
predecessors failed, and the sequencers' selection (R26, R28, R30, R37, R38, R41, R43, R53 to R57, R64, R65). -/

namespace Sys2Proof.Machine

open Sys2Proof

/-- The ply slots of a die that are not Free. -/
def Die.plyKeys (x : Die) : List Nat := (x.plies.filter (fun e => decide (e.2.phase ≠ .free))).map Prod.fst

/-- The ply slot with a key. -/
def hereOf (d k : Nat) : Here := ⟨d, k / 8, k % 8⟩

/-- Wakes SQ's waits, then grants the engines' flag waits, in the agent order (R41, R43). -/
def State.wakeAll (s : State) (d : Nat) : State :=
  (s.die d).plyKeys.foldl (fun s k => (s.wake (hereOf d k)).mapPly (hereOf d k) Ply.grantAll) s

/-- Whether every ring of a ply is empty and every command it started has completed (R37). -/
def Die.plyIdle (x : Die) (p : Ply) : Bool :=
  p.vl.entries.isEmpty && p.va.entries.isEmpty && p.vs.entries.isEmpty && p.mxq.entries.isEmpty && p.trq.entries.isEmpty &&
    p.mx.cmd.isNone && p.mxBehind.isEmpty && p.tr.cmd.isNone && !x.tcolls.any (fun t => decide (t.unit = p.unit) && !t.retired)

/-- The future of a ply's unit. -/
def Die.ownFut (x : Die) (p : Ply) : Future := x.fut (((x.unit? p.unit).map WUnit.fut).getD 0)

/-- Cancels or reclaims one bound ply if it is at its point (R30, R54, R57, R65); `none`: it is not. A unit that an accepted
cancel has reached is stopped with cause 2, whatever else dooms it (log 73). -/
def State.reap? (s : State) (h : Here) : Option State :=
  let x := s.die h.d
  let p := s.ply h
  let f := x.ownFut p
  let w := x.unit? p.unit
  let cancelled := (w.map WUnit.cancelled).getD false
  if p.phase = .free ∨ p.phase = .stopping ∨ f.pinned then none
  else if cancelled && p.sqBusy.isNone then some (s.reclaimBound h 2 1)
  else if f.doomed && (p.phase == .waiting || p.held || (p.phase == .ended && !x.plyIdle p)) then
    some (s.reclaimBound h 1 2)
  else none

/-- Reclaims or cancels one unbound unit if its future is doomed or a cancel has reached it (R53, R55, R57, R65). -/
def State.reapUnit? (s : State) (d u : Nat) : Option State :=
  match (s.die d).unit? u with
  | none => none
  | some w =>
    let f := (s.die d).fut w.fut
    if (w.phase = .queued ∨ w.phase = .chosen) ∧ (f.doomed ∨ w.cancelled) ∧ !f.pinned then
      some (s.endUnstarted d u (if w.cancelled then 2 else 1))
    else none

/-- One reclamation or cancel that is due on a die, bound plies first (R53, R54). -/
def State.reapOne (s : State) (d : Nat) : Option State :=
  ((s.die d).plyKeys.findSome? (fun k => s.reap? (hereOf d k))).or
    ((s.die d).units.findSome? (fun e => s.reapUnit? d e.1))

/-- Every reclamation and cancel that is due, and those that follow from them (R53 to R55), at most `n`. -/
def State.reapAll (s : State) (d n : Nat) : State :=
  match n with
  | 0 => s
  | n + 1 => match s.reapOne d with
    | none => s
    | some t => t.reapAll d n

/-- How many reclamations can follow one another on a die. -/
def Die.reapBound (x : Die) : Nat := x.units.length + x.plies.length

/-- A ply that has ended, or has stopped with every engine acknowledged, becomes Free (R37). A unit that ends so counts as
complete at system scope only when its accesses are acknowledged (R112), and a deferred one is unstarted only then: nothing of it
is on its way once it stands in its queue (log 83). Its shadow writes are discarded here, when its engines have made the last of
them (R58, R59, log 74). -/
def State.freeIf (s : State) (h : Here) : State :=
  let x := s.die h.d
  let p := s.ply h
  let ended := p.phase == .ended && x.plyIdle p
  let stopped := p.phase == .stopping && decide (p.stopWhy < 5) && [Ring.vl, .va, .vs, .mx, .tr].all (fun r => p.stopped.contains r)
  if (ended || stopped) && s.unitQuiet h.d p.unit then
    ((if p.phase = .stopping then s.discardUnit p.unit s.fresh else s).mapDie h.d (fun x => x.freePly h.c h.k s.fresh)).tickFresh
  else if ended || stopped then s.drainUnit h.d p.unit
  else s

/-! ## Restoring an image (R362) -/

/-- The lathe and the tile key of an entry of an image's tiles. -/
def Saved.tileAt (v : Saved) (h : Here) (key : Nat) : Nat × Nat :=
  let a := key % 2
  (if v.ganged.contains a then h.lathe / 3 * 3 + key / 4 else h.lathe, 2 * (h.c % 2) + a)

/-- Whether every operand-memory slot and tile of an image is free on the lathes of a ply slot (R258, R265, R362). -/
def Die.canRestore (x : Die) (h : Here) (v : Saved) : Bool :=
  v.slots.all (fun e => (mfind (x.lathe h.lathe).slots e.1).isNone) &&
    v.tiles.all (fun e => (mfind (x.lathe (v.tileAt h e.1).1).tiles (v.tileAt h e.1).2).isNone)

/-- Restores an image into the ply slot its unit is bound to: window, slots under the serial `n`, tiles, ply (R362). The ply is
Ready, whatever it was: a held one leaves the sequencer again for Waiting, and one whose `end` has retired for Ended (R37). A
pre-emption requested meanwhile still stands. -/
def Die.restore (x : Die) (h : Here) (u n : Nat) (v : Saved) : Die :=
  let base := (x.ply h.c h.k).vbase
  let x := x.mapCore h.c (fun y => { y with vregs := v.vregs.foldl (fun m e => mput m (base + e.1) e.2) y.vregs })
  let x := x.mapLathe h.lathe (fun l => { l with
    slots := v.slots.foldl (fun m e => mput m e.1 (⟨h.c, h.k, n, e.2⟩ : OpSlot)) l.slots })
  let x := v.tiles.foldl (fun x e => x.mapLathe (v.tileAt h e.1).1 (fun l => { l with
    tiles := mput l.tiles (v.tileAt h e.1).2 (⟨h.c, h.k, e.2.2, v.ganged.contains (e.1 % 2), e.2.1⟩ : Tile) })) x
  let q := x.ply h.c h.k
  (x.setPly h.c h.k { v.ply with
    mx := v.ply.mx.outdate, mxBehind := v.ply.mxBehind.map MxState.outdate
    vbase := base, phase := q.phase, preempt := q.preempt, evict := q.evict, stopped := q.stopped
    regs := { v.ply.regs with loop := { v.ply.regs.loop with stop := q.regs.loop.stop } } }).mapUnit u (fun w => { w with saved := none })

/-- A bound unit whose image awaits restoring is restored once its slots and tiles are free (R362). -/
def State.restoreIf (s : State) (h : Here) : State :=
  let x := s.die h.d
  let u := (x.ply h.c h.k).unit
  match (x.unit? u).bind WUnit.saved with
  | none => s
  | some v =>
    if (x.ply h.c h.k).phase = .ready ∧ x.canRestore h v then (s.mapDie h.d (fun x => x.restore h u s.fresh v)).tickFresh
    else s

/-- Frees the futures that nobody can reach and whose units' counters are zero (R53, R55). -/
def Die.freeFuts (x : Die) : Die :=
  x.futs.foldl (fun x (f, e) =>
    let gone : Bool := match x.unit? e.ounit with | none => true | some w => decide (w.phase = .done) || decide (w.fut ≠ f)
    if e.state ≠ 3 ∧ e.reach = 0 ∧ gone then
      let x := x.setFut f e.freed
      match x.unit? e.ounit with
      | none => x
      | some w => if w.fut = f then { x with units := mdel x.units e.ounit } else x
    else x) x

/-- Cancels every launch one of whose predecessors ended cancelled or faulted (R28). -/
def Die.failLaunches (x : Die) : Die :=
  x.launches.foldl (fun x (l, a) =>
    let lv := x.level a.level
    if lv.used ∧ lv.status = 0 ∧ a.deps.any (fun i => (x.level i).status == 3 || (x.level i).status == 4) then
      (x.setLevel a.level { lv with status := 2 }).dropLaunch l
    else x) x

/-- Whether a sequencer may select a ply: it is Ready, not stopped for an eviction, and not waiting to be restored (R37, R38,
R361, R362). -/
def Die.selectable (x : Die) (p : Ply) : Bool :=
  p.phase == .ready && !(p.evict && p.stopped.contains .sq) && !(x.unit? p.unit).any (fun w => w.saved.isSome)

/-- Each idle sequencer selects the next Ready ply after the slot that left it, in ascending cyclic order (R38). -/
def Die.select (x : Die) : Die :=
  x.plies.foldl (fun x (k, p) =>
    let c := k / 8
    let y := x.core c
    if x.selectable p && y.running.isNone then
      match firstFrom (fun n => x.selectable (x.ply c (n % 8))) (y.last + 1) 8 with
      | none => x
      | some n => (x.setCore c { y with running := some (n % 8) }).mapPly c (n % 8) (fun p => { p with phase := .running })
    else x) x

/-! ## Acknowledgements of a pre-emption (R193, R361) -/

/-- A Waiting ply loses its wait to a pre-emption: it leaves any deferred-read list, and the wait issues afresh. It is Ready, but
under an eviction it stays Waiting, on nothing, until it is saved. A held ply that still has the sequencer leaves it (R37, R193,
R352, R361). -/
def State.preemptWaiting (s : State) (h : Here) : State :=
  let p := s.ply h
  if p.held then (if p.phase = .running then s.leave h .waiting else s)
  else if p.phase ≠ .waiting then s
  else (s.mapDie h.d (fun x => x.unlink h.c h.k)).mapPly h (fun p => { p with
    wait := none, phase := if p.evict then .waiting else .ready })

/-- Whether the SQ of a ply acknowledges a request at once: it is Waiting, held with no instruction under way, or ended; a ply
that waits to be restored is none of these yet (R361). -/
def Die.sqIdle (x : Die) (p : Ply) : Bool :=
  (p.phase == .waiting || p.phase == .ended || (p.held && p.sqBusy.isNone)) && !(x.unit? p.unit).any (fun w => w.saved.isSome)

/-- The acknowledgement that the SQ of a ply under a request owes at once (R361). -/
def State.ackIf (s : State) (h : Here) : State :=
  let p := s.ply h
  if !p.preempt || p.phase == .stopping || p.phase == .free then s
  else if p.wanted && (s.die h.d).sqIdle p then (s.preemptWaiting h).ackSq h else s

/-- What happens at once on one die: waits that have become true, reclamation, ends, restores, and what follows from them. -/
def State.settleRound (s : State) (d : Nat) : State :=
  let s := (s.wakeAll d).reapAll d (s.die d).reapBound
  let s := (s.die d).plyKeys.foldl (fun s k => s.freeIf (hereOf d k)) s
  let s := s.reapAll d (s.die d).reapBound
  let s := (s.die d).plyKeys.foldl (fun s k => s.restoreIf (hereOf d k)) s
  let s := s.wakeAll d
  (s.endLevels d ((s.die d).levels.length)).mapDie d (fun x => x.failLaunches.freeFuts)

/-- Rounds on a die until none is due, at most `n` more. -/
def State.settleRounds (s : State) (d n : Nat) : State :=
  match n with
  | 0 => s
  | n + 1 => if (s.reapOne d).isSome || (s.die d).zeroLevel.isSome then (s.settleRound d).settleRounds d n else s

/-- What follows a step on one die. -/
def State.settleDie (s : State) (d : Nat) : State :=
  let s := s.settleRound d
  let s := s.settleRounds d ((s.die d).reapBound + (s.die d).levels.length)
  let s := (s.die d).plyKeys.foldl (fun s k => s.ackIf (hereOf d k)) s
  s.mapDie d Die.select

/-- What follows a step at once. -/
def State.settle (s : State) : State := (mkeys s.dies).foldl State.settleDie s

/-- The next turn: the tick counts on, and the schedule names the agent that acts (log 1). -/
def State.advanceTurn (s : State) : State := { s with tick := s.tick + 1, turn := Config.schedule (s.tick + 1) }

end Sys2Proof.Machine
end

