-- ==== Sys2Proof/Machine/Schedule.lean ====
section
/-! DEFINITION. Leaving the sequencer at a switch point, and the static copy schedule (R39, R54, R103, R104, R193,
R206, R209, R310, R352, R361). -/

namespace Sys2Proof.Machine

open Sys2Proof

/-! ## Switch points and stalls -/

/-- The sequencer is taken from a ply at a switch point: the ply is Ready (R37, R39, R209, R361). Under an eviction it is not
selected again. -/
def State.takeSequencer (s : State) (h : Here) : State := (s.ackSq h).leave h .ready

/-- An SQ instruction that cannot go on, not being a switch point: the sequencer of a held ply is then quiescent and
leaves the ply (R352); otherwise it stays (R35, R197). -/
def State.stallSq (s : State) (h : Here) : State := if (s.ply h).held then s.leave h .waiting else s

/-- Reclaims the ply at a reclamation point, or goes on (R54, R57); a unit that an accepted cancel has reached is stopped with
cause 2 (log 73). -/
def State.reclaimOr (s : State) (h : Here) (k : State → State) : State :=
  let x := s.die h.d
  let f := x.ownFut (s.ply h)
  let cancelled := ((x.unit? (s.ply h).unit).map WUnit.cancelled).getD false
  if f.doomed && !f.pinned then (if cancelled then s.reclaimBound h 2 1 else s.reclaimBound h 1 2) else k s

/-- A wait of SQ reaches issue (R193): a doomed unit is reclaimed, a held ply's SQ stops without issuing it, and a
pending pre-emption takes the sequencer. A wait that was satisfied while the ply was Waiting retires. -/
def State.atWait (s : State) (h : Here) (k : State → State) : State :=
  s.reclaimOr h (fun s =>
    let p := s.ply h
    if p.held then s.leave h .waiting
    else if p.waitDone then s.setPly h { p with wait := none, waitDone := false }.retireSwitch
    else if p.wanted then s.takeSequencer h
    else k s)

/-- A wait that issues: performed and retired if its condition is true, else the ply is Waiting on it (R193). -/
def State.issueWait (s : State) (h : Here) (w : Wait) : State :=
  match s.tryWait h w with
  | some t => if (t.ply h).held then t else t.mapPly h Ply.retireSwitch
  | none => (s.mapPly h (fun p => { p with wait := some w })).leave h .waiting

/-! ## The static copy schedule (R103, R104, R310) -/

/-- The words of the entry at an address, from die store: the header, then the command. A byte that is out of range, or at home
elsewhere, reads as zero and is an offence of SQ (R310, log 91). -/
def State.readSched (s : State) (h : Here) (a : Nat) : Except (Nat × Nat × Nat) (List W32 × State) :=
  match s.nearRead h 0 none a 4 with
  | .error f => .error f
  | .ok (hd, s) =>
    let n := bits (leNat hd) 16 5 + 1
    match s.nearRead h 0 none (a + 4) (4 * n) with
    | .error f => .error f
    | .ok (bs, s) =>
      .ok (BitVec.ofNat 32 (leNat hd) :: (List.range n).map (fun i => BitVec.ofNat 32 (leNat ((bs.drop (4 * i)).take 4))), s)

/-- The header of the entry at an address: in the schedule cache, or as it stands in die store. It is looked at, not read: an
offence is recorded only when the entry is released (R103, R104). -/
def State.schedHead (s : State) (h : Here) (a : Nat) : Except (Nat × Nat × Nat) Nat :=
  match (s.die h.d).sched.find? (fun e => e.1 == a) with
  | some e => .ok (e.2.headD 0).toNat
  | none => (s.nearRead h 0 none a 4).map (fun q => leNat q.1)

/-- The entry at an address through the schedule cache: a cached copy, or a read of die store (R104). -/
def State.schedEntry (s : State) (h : Here) (a : Nat) : Except (Nat × Nat × Nat) (List W32 × State) :=
  match (s.die h.d).sched.find? (fun e => e.1 == a) with
  | some e => .ok (e.2, s)
  | none => s.readSched h a

/-- Puts an entry at the front of the schedule cache; the least recently released one leaves a full cache (R104). -/
def Die.cacheSched (x : Die) (a : Nat) (ws : List W32) : Die :=
  { x with sched := (a, ws) :: ((x.sched.filter (fun e => e.1 != a)).take 255) }

/-- Whether a word is a GO (R154). -/
def isGo (w : Nat) : Bool := decide (w / 2 ^ 27 = 0x1F)

/-- Whether a released command is ill-formed with reason 1: a reserved header bit, or no GO at its stated length and
only there (R310). -/
def schedBad (hd : Nat) (ws : List Nat) : Bool :=
  decide (bits hd 21 11 ≠ 0) || !isGo (ws.getLastD 0) || ws.dropLast.any isGo

/-- How far the releases of a ply got: SQ goes on, stalls on the full TR ring, or takes a translation fault. -/
inductive Released where
  | go (s : State)
  | stall (s : State)
  | trap (s : State)

/-- Releases, in schedule order, at most `n` entries that R103 allows. An entry is read at its release and no sooner; one whose
header does not translate has no stage to wait for, and traps (log 70). -/
def State.releaseSched (s : State) (h : Here) (count n : Nat) : Released :=
  match n with
  | 0 => .go s
  | n + 1 =>
    let p := s.ply h
    if count ≤ p.schedAt then .go s
    else match s.schedHead h p.schedPtr with
      | .error f => .trap (s.faultSq h f)
      | .ok hd =>
        if !barrierReached p.regs.stage (BitVec.ofNat 16 hd) then .go s
        else if !(p.trq.room (bits hd 16 5 + 1)) then .stall s
        else match s.schedEntry h p.schedPtr with
        | .error f => .trap (s.faultSq h f)
        | .ok (e, t) =>
          let ws := (e.drop 1).map BitVec.toNat
          let t := t.mapDie h.d (fun x => x.cacheSched p.schedPtr e)
          let t := t.append h .tr ws (schedBad hd ws)
          let t := t.mapPly h (fun p => { p with
            schedAt := p.schedAt + 1, schedPtr := roundUp (p.schedPtr + 4 + 4 * ws.length) 8 })
          t.releaseSched h count n

/-- The entries of the schedule of a ply's launch record (R306). -/
def State.schedCount (s : State) (h : Here) : Nat :=
  (((s.die h.d).unit? (s.ply h).unit).map (fun w => w.lr.schedN)).getD 0

end Sys2Proof.Machine
end

