-- ==== Sys2Proof/Machine/Issue.lean ====
section
/-! DEFINITION. What the agent of the turn does next: fetching and decoding at the sequencer and at the engine rings
(R32, R34, R35, R38, R142, R161, R170, R173, R352). -/

namespace Sys2Proof.Machine

open Sys2Proof

/-- What a step does before what follows it: run an instruction's meaning in a state, or go to a state. -/
inductive Act where
  | run (i : Instr) (s : State)
  | to (s : State)

/-- The `n` bytes a device fetches for an agent of a ply, or a translation fault. -/
def State.fetch (s : State) (h : Here) (va n : Nat) : Except (Nat × Nat × Nat) Nat :=
  let ls := State.locateAll (s.locateNear h .load none) va n
  match firstFault ls with
  | some f => .error f
  | none => .ok (leNat ((s.die h.d).readLocs ls))

/-- A word of SQ, decoded (R161, R170). -/
def State.fetchSq (s : State) (h : Here) : Act :=
  let p := s.ply h
  if p.codeLen ≤ p.pco then .to (s.trapSq h 0x12 6 0)
  else match s.fetch h (p.sq.base.toNat + p.pco) 4 with
    | .error f => .to (s.faultSq h f)
    | .ok w =>
      match decodeSq w with
      | .error e => .to (s.trapSq h 0x11 e.reason e.field)
      | .ok i => .run i s

/-- The sequencer of a core: nothing while an access is in flight; otherwise the releases that its schedule allows, then
the instruction at PCO (R180, R206). A held ply under a pre-emption stops between instructions (R361). A restored ply whose `end`
has retired goes to Ended, and one that is held with its SQ quiescent to Waiting (R37, R352, R362). -/
def State.sqAct (s : State) (h : Here) : Act :=
  match (s.ply h).sqBusy with
  | some b => if b.gate then s.fetchSq h else .to s
  | none =>
    if (s.ply h).sqEnd then .to (s.leave h .ended) else
    if (s.ply h).held && ((mfind (s.ply h).halts 0).isSome || (s.ply h).trapSlot.isSome) then .to (s.leave h .waiting) else
    if (s.ply h).held && (s.ply h).wanted then .to (s.ackIf h) else
    let n := s.schedCount h
    match s.releaseSched h n (n - (s.ply h).schedAt) with
    | .go t => t.fetchSq h
    | .stall t => .to (t.stallSq h)
    | .trap t => .to t

/-- Words of the entry at a ring's read pointer, from word `i` up, or a translation fault. -/
def State.fetchEntry (s : State) (h : Here) (r : Ring) (i n : Nat) : Except (Nat × Nat × Nat) (List Nat) :=
  match n with
  | 0 => .ok []
  | n + 1 =>
    match s.fetch h (((s.ply h).ring r).addr (4 * i)) 4 with
    | .error f => .error f
    | .ok w => match s.fetchEntry h r (i + 1) n with
      | .error f => .error f
      | .ok t => .ok (w :: t)

/-- A vector ring: the retirement of an entry already performed, or the entry at its read pointer, once the slip limit
lets it issue (R35, R40). One that has issued goes on with the words it was read with (R93, R237). -/
def State.vecAct (s : State) (h : Here) (r : Ring) : Act :=
  let p := s.ply h
  let e := p.headE r
  if (p.ring r).done.isSome then .run (.vectorEntryRetire h.d h.c h.k r) s
  else if !p.begun r && !p.slipOk e then .to s
  else match (if p.begun r then .ok (p.ring r).issued else s.fetchEntry h r 0 e.words) with
    | .error f => .to (s.faultRing h r f)
    | .ok ws =>
      match decode r (ws.headD 0) (ws.drop 1) with
      | .error e => .to (s.trapRing h r 0x11 e.reason e.field)
      | .ok i => .run i (s.mapPly h (fun p => p.mapRing r (fun q => { q with issued := ws })))

/-- The first illegal word of a command. -/
def firstIllegal (r : Ring) (ws : List Nat) : Option Illegal :=
  match ws with
  | [] => none
  | w :: t => match decode r w [] with
    | .error e => some e
    | .ok _ => firstIllegal r t

/-- The accumulator a matrix step word names (R159). -/
def accNamed (w : Nat) : Option Nat :=
  match w / 2 ^ 27 with
  | 9 => some (w % 4)
  | 10 => some (w % 2)
  | 11 => some (w % 2)
  | _ => none

/-- The lathes of the gang of a lathe, ascending; lathe 15 is in none (R264). -/
def gangOf (n : Nat) : List Nat := if 15 ≤ n then [] else [n / 3 * 3, n / 3 * 3 + 1, n / 3 * 3 + 2]

/-- The number of tile or plane `a` of a ply's side in its lathe (R251). -/
def Here.sideKey (h : Here) (a : Nat) : Nat := 2 * (h.c % 2) + a

/-- Whether a tile is bound to a ply. -/
def Tile.mine (t : Tile) (h : Here) : Bool := decide (t.core = h.c) && decide (t.slot = h.k)

/-- The tile of a lathe that accumulator `a` of a ply names, if the ply holds it. -/
def Die.tileOf (x : Die) (h : Here) (n a : Nat) : Option Tile :=
  match mfind (x.lathe n).tiles (h.sideKey a) with
  | none => none
  | some t => if t.mine h then some t else none

/-- The lathes whose tiles accumulator `a` of a ply names (R264). -/
def Die.groupOf (x : Die) (h : Here) (a : Nat) : List Nat :=
  if ((x.tileOf h h.lathe a).map Tile.ganged).getD false then gangOf h.lathe else [h.lathe]

/-- Changes a tile that a ply holds. -/
def Die.mapTile (x : Die) (h : Here) (n a : Nat) (f : Tile → Tile) : Die :=
  match x.tileOf h n a with
  | none => x
  | some t => x.mapLathe n (fun l => { l with tiles := mput l.tiles (h.sideKey a) (f t) })

/-- Changes every tile of an accumulator's group. -/
def Die.mapGroup (x : Die) (h : Here) (a : Nat) (f : Tile → Tile) : Die :=
  (x.groupOf h a).foldl (fun x n => x.mapTile h n a f) x

/-- Marks invalid every accumulator that an ill-formed command names (R130, R273). -/
def State.spoilTiles (s : State) (h : Here) (ws : List Nat) : State :=
  s.mapDie h.d (fun x => ws.foldl (fun x w =>
    match accNamed w with
    | none => x
    | some a => x.mapGroup h a (fun t => { t with valid := false })) x)

end Sys2Proof.Machine
end

