-- ==== Sys2Proof/Machine/Commands.lean ====
section
/-! DEFINITION. What every MX and TR command does around its words: the pop and the wait of its GO, the removal of a word
performed, and its completion (R40, R41, R154, R254, R276). -/

namespace Sys2Proof.Machine

open Sys2Proof

/-- The command in progress of a command ring. -/
def Ply.cmd (p : Ply) (r : Ring) : Option CmdRun := if r = .mx then p.mx.cmd else p.tr.cmd

/-- Sets the command in progress of a command ring. -/
def Ply.setCmd (p : Ply) (r : Ring) (c : Option CmdRun) : Ply :=
  if r = .mx then { p with mx := { p.mx with cmd := c } } else { p with tr := { p.tr with cmd := c } }

/-- Changes the command in progress of a command ring. -/
def Ply.mapCmd (p : Ply) (r : Ring) (f : CmdRun → CmdRun) : Ply := p.setCmd r ((p.cmd r).map f)

/-- The words of the entry at a ring's read pointer, as die store holds them. -/
def State.entryWords (s : State) (h : Here) (r : Ring) : List Nat :=
  (List.range ((s.ply h).headE r).words).map (s.entryWord h r)

/-- A GO word's pop and then its wait (R154), each made once; `k` goes on with the command. -/
def State.issueGo (s : State) (h : Here) (r : Ring) (pop : BitVec 3) (wf : BitVec 6) (thr : BitVec 7) (sub : Bool)
    (k : State → State) : State :=
  match (s.ply h).entryPop r ((ringOfCode pop.toNat).map Ring.code) with
  | none => s
  | some p =>
    if thr = 0 then k (s.setPly h p)
    else match p.entryWait r wf.toNat thr.toNat sub with
      | none => s.setPly h (p.standWait r wf.toNat thr.toNat sub)
      | some q => k (s.setPly h (q.mapRing r (fun g => { g with granted := true })))

/-- A command that starts: its words still to perform, state words first (R254, R276). -/
def startCmd (e : Entry) (re : Bool) (rf : BitVec 6) (push : BitVec 3) (todo : List Nat) : CmdRun :=
  { todo := todo.map (BitVec.ofNat 32), re := re, rf := rf, push := push, entry := e, snap := none, desc := 0,
    flags := 0, iter := 0, block := 1, prev := none, plane := false, seen := [], held := [], latching := false, pages := [], tgen := 0, early := [],
    rows := [], next := none, group := [], pre := [], stale := false }

/-- The first word of the command in progress has been performed. -/
def Ply.wordDone (p : Ply) (r : Ring) : Ply :=
  p.mapCmd r (fun c => { c with todo := c.todo.drop 1, iter := 0, early := [], rows := [] })

/-- What a GO word's raise and push release: the raise shows the command's AFLAGS bits, and a push what its ring may
release (R112, R132). -/
def Ply.releaseCmd (p : Ply) (r : Ring) (shown : Bool) (flags : W32) (push : BitVec 3) : Ply :=
  let p := if shown then { p with regs := p.regs.setFlags flags } else p.noteFlags r.code flags
  match ringOfCode push.toNat with
  | none => p
  | some .sq => (p.pushTok r.code 0 1).showFlags r.code
  | some q => (p.pushTok r.code q.code 1).passFlags r.code q.code

/-- Whether a GO word's push finds room (R40). -/
def Ply.pushRoom (p : Ply) (r : Ring) (push : BitVec 3) : Bool :=
  match ringOfCode push.toNat with
  | none => true
  | some q => decide (p.tok r.code q.code < 16)

/-- A command leaves its ring: the one whose entry stands next, or one in flight whose entry has issued before it (R33, R34). -/
def Ply.leaveRing (p : Ply) (r : Ring) : Ply :=
  if r = .mx ∧ p.mx.late then p.newest.catchUp else (p.setCmd r none).popEntry r

/-- The completion of the command at a ring's read pointer: GO raises its flag, then pushes as the entry retires; an entry
whose push finds 16 tokens does not retire, and its raise is not made again (R40, R254, R276). -/
def Ply.completeCmd (p : Ply) (r : Ring) (c : CmdRun) : Ply :=
  let p := if c.re then p.raiseBy r.code c.rf.toNat 1 else p
  if !p.pushRoom r c.push then p.setCmd r (some (if c.re then
      { c with re := false, flags := 0 } else c)) |> (fun p => if c.re then { p with regs := p.regs.setFlags c.flags } else p)
  else (p.releaseCmd r c.re c.flags c.push).leaveRing r

end Sys2Proof.Machine
end

