-- ==== Sys2Proof/Machine/Flags.lean ====
section
/-! DEFINITION. Numbers: format records and their checks, decoding, the one rounding, saturation, exact sums, the special
functions and the quantiser, each with the AFLAGS bits it sets (R124 to R141). -/

namespace Sys2Proof.Machine

open Sys2Proof

/-! ## AFLAGS bits (R131) -/

def fInv : W32 := 1
def fDz : W32 := 2
def fOvf : W32 := 4
def fUnf : W32 := 8
def fInx : W32 := 16
def fClamp : W32 := 32

/-- `m` if `c` holds, else no flag. -/
def flagIf (c : Bool) (m : W32) : W32 := if c then m else 0

/-! ## Format records (R124 to R126) -/

/-- A format record with the parameters its class fixes. -/
structure Fmt where
  cls : Nat
  sign : Bool
  ebits : Nat
  mbits : Nat
  bias : Int
  special : Nat
  sat : Bool
  scale : Nat
  deriving DecidableEq, Repr

/-- Reads a record (R124, R125). -/
def fmtOf (r : W32) : Fmt :=
  let v := r.toNat
  let sat := bitB v 22
  match v % 8 with
  | 1 => ⟨1, true, 8, 7, 127, 0, sat, 0⟩
  | 2 => ⟨2, true, 5, 10, 15, 0, sat, 0⟩
  | 3 => ⟨3, true, 8, 23, 127, 0, sat, 0⟩
  | 4 => ⟨4, true, 0, 31, 0, 2, sat, 0⟩
  | c => ⟨c, bitB v 3, bits v 4 4, bits v 8 4, sInt (bits v 12 8) 8, bits v 20 2, sat, bits v 23 2⟩

/-- W (R124). -/
def Fmt.width (f : Fmt) : Nat := b2n f.sign + f.ebits + f.mbits

/-- Whether a format is an integer format. -/
def Fmt.isInt (f : Fmt) : Bool := decide (f.ebits = 0)

/-- Bits of an element's container (R124). -/
def Fmt.cbits (f : Fmt) : Nat :=
  match f.cls with
  | 0 => if f.width ≤ 4 then 4 else 8
  | 1 => 16
  | 2 => 16
  | _ => 32

/-- FP32. -/
def fp32 : Fmt := fmtOf 3

/-- Reasons 1 to 7 of R130 for a record on its own, the lowest that holds. `sat` of class 4 counts under reason 2 (log 16). -/
def recordReason (r : W32) : Option Nat :=
  let v := r.toNat
  let c := v % 8
  let f := fmtOf r
  if 5 ≤ c then some 1
  else if 1 ≤ c ∧ (bits v 3 19 ≠ 0 ∨ bits v 23 2 ≠ 0 ∨ (c = 4 ∧ f.sat)) then some 2
  else if c = 0 ∧ (f.width = 0 ∨ 8 < f.width) then some 3
  else if c = 0 ∧ f.ebits = 0 ∧ f.special ≠ 2 then some 4
  else if c = 0 ∧ (f.special = 3 ∨ (f.special = 0 ∧ (f.ebits < 2 ∨ f.mbits = 0))) then some 5
  else if c = 0 ∧ 2 ≤ f.scale then some 6
  else if bits v 25 7 ≠ 0 then some 7
  else none

/-! ## Exact values -/

/-- An exact number `m * 2 ^ e`. -/
structure Dy where
  m : Int
  e : Int
  deriving DecidableEq, Repr

/-- The two integers of a pair at its lower exponent, and that exponent. -/
def Dy.align (a b : Dy) : Int × Int × Int :=
  let e := min a.e b.e
  (a.m * 2 ^ (a.e - e).toNat, b.m * 2 ^ (b.e - e).toNat, e)

def Dy.add (a b : Dy) : Dy := let t := a.align b; ⟨t.1 + t.2.1, t.2.2⟩
def Dy.neg (a : Dy) : Dy := ⟨-a.m, a.e⟩
def Dy.mul (a b : Dy) : Dy := ⟨a.m * b.m, a.e + b.e⟩
def Dy.le (a b : Dy) : Bool := let t := a.align b; decide (t.1 ≤ t.2.1)
def Dy.lt (a b : Dy) : Bool := let t := a.align b; decide (t.1 < t.2.1)
def Dy.abs (a : Dy) : Dy := ⟨a.m.natAbs, a.e⟩
/-- The greatest `k` with `2 ^ k ≤ |a|`, for `a` not zero. -/
def Dy.log (a : Dy) : Int := (a.m.natAbs.log2 : Int) + a.e

/-- A value: an exact non-zero real, a signed zero, an infinity or NaN (R134). -/
inductive ExNum where
  | nan
  | inf (neg : Bool)
  | zero (neg : Bool)
  | fin (x : Dy)
  deriving DecidableEq, Repr

/-- An exact value; an exact zero is +0. -/
def ExNum.ofDy (x : Dy) : ExNum := if x.m = 0 then .zero false else .fin x

/-- An exact integer. -/
def ExNum.ofInt (n : Int) : ExNum := .ofDy ⟨n, 0⟩

/-- Whether a value is negative or −0. -/
def ExNum.neg? (x : ExNum) : Bool :=
  match x with
  | .nan => false
  | .inf n => n
  | .zero n => n
  | .fin d => decide (d.m < 0)

/-- −x (R221). -/
def ExNum.negate (x : ExNum) : ExNum :=
  match x with
  | .nan => .nan
  | .inf n => .inf (!n)
  | .zero n => .zero (!n)
  | .fin d => .fin d.neg

/-- |x| (R221). -/
def ExNum.abs (x : ExNum) : ExNum := if x.neg? then x.negate else x

/-- x times a power of two. -/
def ExNum.scale (x : ExNum) (k : Int) : ExNum :=
  match x with
  | .fin d => .fin ⟨d.m, d.e + k⟩
  | y => y

/-- A zero as the real 0 (R138). -/
def ExNum.dy (x : ExNum) : Dy :=
  match x with
  | .fin d => d
  | _ => ⟨0, 0⟩

/-! ## Decoding (R125 to R127) -/

/-- The value of a code in a format. -/
def Fmt.decode (f : Fmt) (code : Nat) : ExNum :=
  let c := code % 2 ^ f.width
  if f.isInt then .ofDy ⟨if f.sign then sInt c f.width else c, -f.bias⟩
  else
    let em := f.ebits + f.mbits
    let neg := f.sign && bitB c em
    let mag := c % 2 ^ em
    let e := mag / 2 ^ f.mbits
    let m := mag % 2 ^ f.mbits
    let sgn : Int := if neg then -1 else 1
    if f.special = 0 ∧ e = 2 ^ f.ebits - 1 then (if m = 0 then .inf neg else .nan)
    else if f.special = 1 ∧ mag = 2 ^ em - 1 then .nan
    else if mag = 0 then .zero neg
    else if e = 0 then .fin ⟨sgn * m, 1 - f.bias - f.mbits⟩
    else .fin ⟨sgn * (m + 2 ^ f.mbits : Nat), (e : Int) - f.bias - f.mbits⟩

/-- A value under a block scale byte (R127). -/
def scaled (x : ExNum) (t : Byte) : ExNum := if t = 0xFF then .nan else x.scale ((t.toNat : Int) - 127)

/-! ## Rounding (R134) -/

/-- The magnitude code of the largest finite value of a float format (R126). -/
def Fmt.maxMag (f : Fmt) : Nat :=
  match f.special with
  | 0 => (2 ^ f.ebits - 1) * 2 ^ f.mbits - 1
  | 1 => 2 ^ (f.ebits + f.mbits) - 2
  | _ => 2 ^ (f.ebits + f.mbits) - 1

/-- Whether a format has a NaN code (R126). -/
def Fmt.hasNan (f : Fmt) : Bool := !f.isInt && decide (f.special ≤ 1)

/-- The NaN the device writes (R126). -/
def Fmt.nanCode (f : Fmt) : Nat :=
  if f.special = 0 then (2 ^ f.ebits - 1) * 2 ^ f.mbits + 2 ^ (f.mbits - 1) else 2 ^ (f.ebits + f.mbits) - 1

/-- A magnitude code with its sign. -/
def Fmt.signed (f : Fmt) (neg : Bool) (mag : Nat) : Nat := if f.sign && neg then 2 ^ (f.ebits + f.mbits) + mag else mag

/-- The greatest `k` with `2 ^ k ≤ n / d`. -/
def floorLog (n d : Nat) : Int :=
  let a : Int := (n.log2 : Int) - d.log2
  if d * 2 ^ a.toNat ≤ n * 2 ^ (-a).toNat then a else a - 1

/-- n / d to the nearest integer, ties to even, and whether it is exact. -/
def roundDiv (n d : Nat) : Nat × Bool :=
  let q := n / d
  let r := n % d
  (if d < 2 * r ∨ (2 * r = d ∧ q % 2 = 1) then q + 1 else q, decide (r = 0))

/-- The units and quantum of |x| = n / d in a float format, ties to even, and whether they are exact (R134). -/
def Fmt.units (f : Fmt) (n d : Nat) : Nat × Int × Bool :=
  let q := max (floorLog n d - f.mbits) (1 - f.bias - f.mbits)
  let t := roundDiv (n * 2 ^ (-q).toNat) (d * 2 ^ q.toNat)
  (t.1, q, t.2)

/-- The magnitude code of `u * 2 ^ q`, which may lie above every finite code. -/
def Fmt.magOf (f : Fmt) (u : Nat) (q : Int) : Nat :=
  if u < 2 ^ f.mbits then u else (q + f.mbits + f.bias - 1).toNat * 2 ^ f.mbits + u

/-- RoundNE for a non-zero real of sign `neg` and magnitude n / d, in a float format (R134, last part). -/
def Fmt.roundQ (f : Fmt) (neg : Bool) (n d : Nat) : Nat × W32 :=
  let t := f.units n d
  let mag := f.magOf t.1 t.2.1
  let inx := !t.2.2
  let tiny := decide (floorLog n d < 1 - f.bias) && inx
  let fl := flagIf inx fInx ||| flagIf tiny fUnf
  if f.maxMag < mag then
    let fl := fl ||| fOvf ||| fInx
    if f.sat ∨ f.special = 2 then (f.signed neg f.maxMag, fl)
    else if f.special = 0 then (f.signed neg ((2 ^ f.ebits - 1) * 2 ^ f.mbits), fl)
    else (f.nanCode, fl)
  else (f.signed neg mag, fl)

/-- The least and greatest integers of an integer format. -/
def Fmt.lo (f : Fmt) : Int := if f.sign then -(2 ^ (f.width - 1) : Nat) else 0
def Fmt.hi (f : Fmt) : Int := if f.sign then (2 ^ (f.width - 1) : Nat) - 1 else (2 ^ f.width : Nat) - 1

/-- Sat (R135). -/
def satTo (x lo hi : Int) : Int × W32 := if x < lo then (lo, fClamp) else if hi < x then (hi, fClamp) else (x, 0)

/-- RoundNE(x, f): the code and the flags (R134). -/
def roundNE (x : ExNum) (f : Fmt) : Nat × W32 :=
  match x with
  | .nan => if f.hasNan then (f.nanCode, 0) else (0, fInv)
  | .inf neg =>
    if f.isInt then (uNat (if neg then f.lo else f.hi) f.width, fClamp)
    else if !f.sign && neg then (0, fClamp)
    else if f.special = 0 ∧ !f.sat then (f.signed neg ((2 ^ f.ebits - 1) * 2 ^ f.mbits), 0)
    else if f.special = 1 ∧ !f.sat then (f.nanCode, fInv)
    else (f.signed neg f.maxMag, fClamp)
  | .zero neg => if f.isInt then (0, 0) else (f.signed neg 0, 0)
  | .fin d =>
    let neg := decide (d.m < 0)
    let m := d.m.natAbs
    if f.isInt then
      let k := d.e + f.bias
      let t := roundDiv (m * 2 ^ k.toNat) (2 ^ (-k).toNat)
      let n : Int := if neg then -(t.1 : Int) else t.1
      let r := satTo n f.lo f.hi
      (uNat r.1 f.width, flagIf (!t.2) fInx ||| r.2)
    else if !f.sign && neg then (0, fClamp)
    else f.roundQ neg (m * 2 ^ d.e.toNat) (2 ^ (-d.e).toNat)

/-! ## The exact operations (R219) -/

/-- x + y before rounding. -/
def ExNum.add (x y : ExNum) : ExNum × W32 :=
  match x, y with
  | .nan, _ => (.nan, 0)
  | _, .nan => (.nan, 0)
  | .inf a, .inf b => if a = b then (.inf a, 0) else (.nan, fInv)
  | .inf a, _ => (.inf a, 0)
  | _, .inf b => (.inf b, 0)
  | .zero a, .zero b => (.zero (a && b), 0)
  | .zero _, y => (y, 0)
  | x, .zero _ => (x, 0)
  | .fin a, .fin b => (.ofDy (a.add b), 0)

/-- x − y before rounding. -/
def ExNum.sub (x y : ExNum) : ExNum × W32 := x.add y.negate

/-- x × y before rounding. A product of a zero and an infinity is invalid. -/
def ExNum.mul (x y : ExNum) : ExNum × W32 :=
  match x, y with
  | .nan, _ => (.nan, 0)
  | _, .nan => (.nan, 0)
  | .inf a, .inf b => (.inf (a != b), 0)
  | .inf _, .zero _ => (.nan, fInv)
  | .zero _, .inf _ => (.nan, fInv)
  | .inf a, .fin b => (.inf (a != decide (b.m < 0)), 0)
  | .fin a, .inf b => (.inf (decide (a.m < 0) != b), 0)
  | .zero a, y => (.zero (a != y.neg?), 0)
  | x, .zero b => (.zero (x.neg? != b), 0)
  | .fin a, .fin b => (.fin (a.mul b), 0)

/-- x × y + z before rounding; 0 × ∞ is invalid whatever z is (R219). -/
def ExNum.fma (x y z : ExNum) : ExNum × W32 :=
  let p := x.mul y
  let t := p.1.add z
  (t.1, p.2 ||| t.2)

/-- x < y, with −0 below +0 only when `zeros`; false for NaN. -/
def ExNum.lt (zeros : Bool) (x y : ExNum) : Bool :=
  match x, y with
  | .nan, _ => false
  | _, .nan => false
  | .inf a, .inf b => a && !b
  | .inf a, _ => a
  | _, .inf b => !b
  | .zero a, .zero b => zeros && a && !b
  | x, y => x.dy.lt y.dy

/-- x = y, −0 equal to +0; false for NaN (R223). -/
def ExNum.eq (x y : ExNum) : Bool :=
  match x, y with
  | .nan, _ => false
  | _, .nan => false
  | x, y => !x.lt false y && !y.lt false x

/-- The lesser of x, y; NaN if either is (R219). -/
def ExNum.min (x y : ExNum) : ExNum :=
  match x, y with
  | .nan, _ => .nan
  | _, .nan => .nan
  | x, y => if y.lt true x then y else x

/-- The greater of x, y; NaN if either is (R219). -/
def ExNum.max (x y : ExNum) : ExNum :=
  match x, y with
  | .nan, _ => .nan
  | _, .nan => .nan
  | x, y => if x.lt true y then y else x

/-- The exact sum of a list (R137, R225): NaN for a NaN term, or for infinities of both signs, which also sets `inv`; an
infinity if there is one; −0 only if every term is −0. -/
def sumNums (xs : List ExNum) : ExNum × W32 :=
  let pinf := xs.any (fun x => x == .inf false)
  let ninf := xs.any (fun x => x == .inf true)
  if pinf && ninf then (.nan, fInv)
  else if xs.any (fun x => x == .nan) then (.nan, 0)
  else if pinf then (.inf false, 0)
  else if ninf then (.inf true, 0)
  else if xs.all (fun x => x == .zero true) then (.zero true, 0)
  else (.ofDy (xs.foldl (fun a x => a.add x.dy) ⟨0, 0⟩), 0)

/-- The sum of the products of a pass and the accumulator, before its one rounding (R137). -/
def lathSum (acc : ExNum) (ps : List (ExNum × W32)) : ExNum × W32 :=
  let inv := ps.any (fun p => decide (p.2 ≠ 0))
  let t := sumNums (acc :: ps.map Prod.fst)
  (t.1, t.2 ||| flagIf inv fInv)

/-! ## Special functions (R139, R140) -/

/-- The square root of `n` rounded down, bit `k - 1` downwards. -/
def sqrtBits (n k r : Nat) : Nat :=
  match k with
  | 0 => r
  | k + 1 => sqrtBits n k (if (r + 2 ^ k) * (r + 2 ^ k) ≤ n then r + 2 ^ k else r)

def isqrt (n : Nat) : Nat := sqrtBits n (n.log2 / 2 + 1) 0

/-- 2 ^ (f / 2 ^ k) in units of 2^-128, from the `k` bits of the fraction `f`, highest first; `c` is 2 ^ (2 ^ -i) in
the same units for the bit in hand. -/
def exp2Frac (f k c acc : Nat) : Nat :=
  match k with
  | 0 => acc
  | k + 1 =>
    let c := isqrt (c * 2 ^ 128)
    exp2Frac f k c (if bitB f k then acc * c / 2 ^ 128 else acc)

/-- 2 ^ x to within 2^-90 of itself, for a real x (R139). -/
def exp2Near (x : Dy) : Dy :=
  let k := (-x.e).toNat
  let n := x.m * 2 ^ x.e.toNat
  let fl := n / (2 ^ k : Nat)
  let fr := (n % (2 ^ k : Nat)).toNat
  let f := if 96 < k then fr / 2 ^ (k - 96) else fr
  ⟨exp2Frac f (Nat.min k 96) (2 * 2 ^ 128) (2 ^ 128), fl - 128⟩

/-- Whether an FP32 code is a finite number. -/
def fp32Finite (c : W32) : Bool := match fp32.decode c.toNat with | .nan => false | .inf _ => false | _ => true

/-- Whether a value lies within three halves of an FP32 unit in the last place of `y` of the value `y` (R139). -/
def withinUlps (v y : Dy) : Bool :=
  let q := max (y.log - 23) (-149)
  (v.add y.neg).abs.le (Dy.add ⟨3, q - 1⟩ ⟨-1, q - 60⟩)

/-- The place of an FP32 code in the order of its values. -/
def fp32Order (c : Nat) : Int := if c < 2 ^ 31 then c else 2 ^ 31 - (c : Int)

/-- The FP32 codes that R139 allows for the value `y` = 2 ^ x with `n < x < n + 1`, rising: within the bound, and between the exact
results at `n` and `n + 1`, since results never fall. -/
def exp2Codes (n : Int) (y : Dy) : List Nat :=
  let r := (roundNE (.fin y) fp32).1
  let lo := (roundNE (.fin ⟨1, n⟩) fp32).1
  let hi := min 0x7F7FFFFF (roundNE (.fin ⟨1, n + 1⟩) fp32).1
  ((List.range 5).map (fun i => r + i - 2)).filter (fun v => decide (lo ≤ v) && decide (v ≤ hi) && withinUlps (fp32.decode v).dy y)

/-- The result among the allowed codes: the highest whose free threshold the operand `x` has reached, else the lowest. Whatever the
thresholds, results never fall as the operand rises, and every such choice of results is that of some thresholds (R139, log 6). -/
def exp2Pick (x : Nat) (codes : List Nat) : Nat :=
  ((codes.filter (fun v => decide (fp32Order (Config.exp2 (BitVec.ofNat 32 v)).toNat ≤ fp32Order x))).getLast?).getD (codes.headD 0)

/-- exp2 (R139). -/
def exp2Num (x : ExNum) : W32 × W32 :=
  match x with
  | .nan => (BitVec.ofNat 32 fp32.nanCode, 0)
  | .inf neg => (if neg then 0 else 0x7F800000, 0)
  | .zero _ => (0x3F800000, 0)
  | .fin d =>
    if d.lt ⟨-149, 0⟩ then (0, fUnf ||| fInx)
    else if Dy.le ⟨128, 0⟩ d then (0x7F800000, fOvf ||| fInx)
    else
      let k := (-d.e).toNat
      let m := d.m * 2 ^ d.e.toNat
      let n := m / (2 ^ k : Nat)
      if m % (2 ^ k : Nat) = 0 then (BitVec.ofNat 32 (roundNE (.fin ⟨1, n⟩) fp32).1, 0)
      else
        let y := exp2Near d
        (BitVec.ofNat 32 (exp2Pick (roundNE x fp32).1 (exp2Codes n y)), fInx ||| flagIf (y.lt ⟨1, -126⟩) fUnf)

/-- Flags of a rounded special result `v` of the exact value: inexact when it differs, tiny when also below the
smallest normal (R131). -/
def nearFlags (exact tiny : Bool) : W32 := flagIf (!exact) fInx ||| flagIf (tiny && !exact) fUnf

/-- The reciprocal (R140); the free value within 1 ulp, else the nearest (log 6). -/
def rcpNum (x : ExNum) : W32 × W32 :=
  match x with
  | .nan => (BitVec.ofNat 32 fp32.nanCode, 0)
  | .inf neg => (if neg then 0x80000000 else 0, 0)
  | .zero neg => (if neg then 0xFF800000 else 0x7F800000, fDz)
  | .fin d =>
    let neg := decide (d.m < 0)
    -- |1 / x| = n / m
    let m := d.m.natAbs * 2 ^ d.e.toNat
    let n := 2 ^ (-d.e).toNat
    let r := fp32.roundQ neg n m
    if r.2 &&& fOvf ≠ 0 then (BitVec.ofNat 32 r.1, fOvf ||| fInx)
    else
      let v := Config.rcp (BitVec.ofNat 32 (roundNE x fp32).1)
      let y := (fp32.decode v.toNat).dy
      let q := max (floorLog n m - 23) (-149)
      -- |v - 1/x| ≤ 2^q, multiplied out by |x|: | |v| * |x| - 1 | ≤ 2^q * |x|
      let ax : Dy := d.abs
      let ok := fp32Finite v && decide (bitB v.toNat 31 = neg) &&
        (((y.abs.mul ax).add ⟨-1, 0⟩).abs.le (ax.mul ⟨1, q⟩))
      let w := if ok then v else BitVec.ofNat 32 r.1
      let exact := decide ((((fp32.decode w.toNat).dy.abs.mul ax).add ⟨-1, 0⟩).m = 0)
      (w, nearFlags exact (decide (floorLog n m < -126)))

/-- Whether `v` lies within 2^q of 1 / sqrt x: multiplied out, (v - 2^q)^2 x ≤ 1 ≤ (v + 2^q)^2 x (R140). -/
def nearRoot (x v : Dy) (q : Int) : Bool :=
  let lo := v.add ⟨-1, q⟩
  let hi := v.add ⟨1, q⟩
  (decide (lo.m ≤ 0) || ((lo.mul lo).mul x).le ⟨1, 0⟩) && Dy.le ⟨1, 0⟩ ((hi.mul hi).mul x)

/-- The reciprocal square root (R140); the free value within 1 ulp, else the nearest (log 6). -/
def rsqrtNum (x : ExNum) : W32 × W32 :=
  match x with
  | .nan => (BitVec.ofNat 32 fp32.nanCode, 0)
  | .inf neg => if neg then (BitVec.ofNat 32 fp32.nanCode, fInv) else (0, 0)
  | .zero neg => (if neg then 0xFF800000 else 0x7F800000, fDz)
  | .fin d =>
    if d.m < 0 then (BitVec.ofNat 32 fp32.nanCode, fInv)
    else
      -- 1 / x = 1 / (m * 2^e), with e made even; the root is 2^(-e/2) / sqrt m
      let m := if d.e % 2 = 0 then d.m.natAbs else 2 * d.m.natAbs
      let h := (if d.e % 2 = 0 then d.e else d.e - 1) / 2
      -- floor(2^64 / sqrt m), at quantum 2^(-64-h), with a sticky half when it is not exact
      let s := isqrt (2 ^ 128 / m)
      let exact := decide (s * s * m = 2 ^ 128)
      let y : Dy := if exact then ⟨s, -64 - h⟩ else ⟨2 * s + 1, -65 - h⟩
      let r := BitVec.ofNat 32 (roundNE (.fin y) fp32).1
      let v := Config.rsqrt (BitVec.ofNat 32 (roundNE x fp32).1)
      let ok := fp32Finite v && !bitB v.toNat 31 && nearRoot d (fp32.decode v.toNat).dy (max (y.log - 23) (-149))
      let w := if ok then v else r
      let z := ((fp32.decode w.toNat).dy.mul (fp32.decode w.toNat).dy).mul d
      (w, nearFlags (decide ((z.add ⟨-1, 0⟩).m = 0)) false)

/-! ## The quantiser (R138) -/

/-- The exponent of a format's largest finite value. -/
def emaxOf (r : W32) : Int :=
  let f := fmtOf r
  let x := if f.isInt then Dy.mk f.hi (-f.bias) else (f.decode f.maxMag).dy
  if x.m = 0 then Config.emaxOfZero r else x.log

/-- One candidate scale 2^c: the codes, the flags and the exact error. -/
def quantTry (f : Fmt) (xs : List ExNum) (c : Int) : List Nat × W32 × Dy :=
  let f := { f with sat := true }
  xs.foldr (fun x t =>
    let r := roundNE (x.scale (-c)) f
    let q := ((f.decode r.1).scale c).dy
    let e := x.dy.add q.neg
    (r.1 :: t.1, r.2 ||| t.2.1, t.2.2.add (e.mul e))) ([], 0, ⟨0, 0⟩)

/-- The quantiser on a block: the scale byte, the codes and the flags (R138). -/
def quantBlock (r : W32) (xs : List ExNum) : Nat × List Nat × W32 :=
  let f := fmtOf r
  if xs.any (fun x => match x with | .nan => true | .inf _ => true | _ => false) then (0xFF, xs.map (fun _ => 0), fInv)
  else if xs.all (fun x => match x with | .zero _ => true | _ => false) then (127, xs.map (fun x => (roundNE x f).1), 0)
  else
    let mx := xs.foldl (fun a x => if a.lt x.dy.abs then x.dy.abs else a) ⟨0, 0⟩
    let e := max (-127) (min 127 (mx.log - emaxOf r))
    let better := fun (a b : Int × List Nat × W32 × Dy) => if b.2.2.2.lt a.2.2.2 then b else a
    let cands := ([e + 1, e, e - 1].filter (fun c => decide (-127 ≤ c) && decide (c ≤ 127))).map (fun c => (c, quantTry f xs c))
    match cands with
    | [] => (127, xs.map (fun _ => 0), 0)
    | a :: t =>
      let k := t.foldl better a
      ((k.1 + 127).toNat, k.2.1, k.2.2.1)

end Sys2Proof.Machine
end

