-- ==== Sys2Proof/Machine/Operands.lean ====
section
/-! DEFINITION. Operand forms: the sequencer's sources and immediates (R145, R164), the vector register fields, tiles and
latches (R92 to R94, R149, R150), and what every vector entry does around its own effect (R34, R40, R161, R215, R229). -/

namespace Sys2Proof.Machine

open Sys2Proof

/-! ## Sources of the sequencer (R145, R147) -/

/-- The value of a source field: g0 to g63, or a latch, `none` if the latch is invalid. -/
def PlyRegs.src (r : PlyRegs) (a : BitVec 7) : Option Word :=
  match a.toNat with
  | 64 => r.y0
  | 65 => r.y1
  | 66 => r.y2
  | 67 => r.y3
  | n => some (r.rdG n)

/-- Reads the source field `a` with field code `f`: the traps of R161, or the rest of the instruction. -/
def State.withSrc (s : State) (h : Here) (a : BitVec 7) (f : Nat) (k : Word → State) : State :=
  if 67 < a.toNat then s.trapSq h 0x11 4 f
  else match (s.regs h).src a with
    | none => s.trapSq h 0x12 1 f
    | some x => k x

/-- The first source (R164, A). -/
def State.withA (s : State) (h : Here) (a : BitVec 7) (k : Word → State) : State := s.withSrc h a 3 k

/-- Both sources (R164, A and B): every illegal-instruction case before an invalid latch (R161). -/
def State.withAB (s : State) (h : Here) (a b : BitVec 7) (k : Word → Word → State) : State :=
  if 67 < a.toNat then s.trapSq h 0x11 4 3
  else if 67 < b.toNat then s.trapSq h 0x11 4 4
  else s.withSrc h a 3 (fun x => s.withSrc h b 4 (k x))

/-- I, sign-extended (R164). -/
def immS (i : BitVec 12) : Word := i.signExtend 64

/-- I, zero-extended (R164). -/
def immU (i : BitVec 12) : Word := i.zeroExtend 64

/-- Goes on with an access at `x` if it is naturally aligned (R178, R196). -/
def State.aligned (s : State) (h : Here) (x : Word) (n : Nat) (k : State) : State :=
  if x.toNat % n = 0 then k else s.trapSq h 0x12 5 3

/-! ## Tiles (R92) -/

def Shape.rows (h : Shape) : Nat := h.rowsM1.toNat + 1
def Shape.cols (h : Shape) : Nat := h.colsM1.toNat + 1
/-- Bits of an element. -/
def Shape.bits (h : Shape) : Nat := match h.esz.toNat with | 0 => 4 | 1 => 8 | 2 => 16 | _ => 32
/-- T. -/
def Shape.elems (h : Shape) : Nat := h.rows * h.cols
/-- Whether the tile exceeds 4,096 bytes (R213). -/
def Shape.over (h : Shape) : Bool := decide (32768 < h.elems * h.bits)
/-- Bytes of a row, for shapes with whole rows (R232). -/
def Shape.rowBytes (h : Shape) : Nat := h.cols * h.bits / 8

/-- Element `i` of a register, of `n` bits, at byte offset `off` (R92). -/
def elemAt (v : VReg) (n i : Nat) : Nat :=
  if n = 4 then (getByte v (i / 2)).toNat / (if i % 2 = 0 then 1 else 16) % 16 else getLE v (i * (n / 8)) (n / 8)

/-- Writes element `i` of a register (R92). -/
def setElem (v : VReg) (n i x : Nat) : VReg :=
  if n = 4 then
    let b := (getByte v (i / 2)).toNat
    putByte v (i / 2) (BitVec.ofNat 8 (if i % 2 = 0 then b / 16 * 16 + x % 16 else x % 16 * 16 + b % 16))
  else putLE v (i * (n / 8)) (n / 8) x

/-- The first `t` elements of a register. -/
def readTile (v : VReg) (n t : Nat) : List Nat := (List.range t).map (elemAt v n)

/-- Writes elements from index `i` up; bytes beyond keep their contents (R215). -/
def writeTile (v : VReg) (n i : Nat) (xs : List Nat) : VReg :=
  match xs with
  | [] => v
  | x :: t => writeTile (setElem v n i x) n (i + 1) t

/-! ## Vector registers and latches (R36, R92 to R94, R150) -/

/-- The value of an index register (R93). -/
def PlyRegs.ixVal (r : PlyRegs) (n : Nat) : Nat := (mget 0 r.ix n).toNat

/-- The register number a field names, after indirection (R93, R149). -/
def PlyRegs.vnum (r : PlyRegs) (v : BitVec 8) : Nat := if 252 ≤ v.toNat then r.ixVal (v.toNat - 252) else v.toNat

/-- Vector register `n` of a ply. -/
def State.rdV (s : State) (h : Here) (n : Nat) : VReg := mget [] (s.core h).vregs ((s.ply h).vbase + n)

/-- Writes vector register `n` of a ply. -/
def State.wrV (s : State) (h : Here) (n : Nat) (v : VReg) : State :=
  s.mapCore h (fun c => { c with vregs := mset [] c.vregs ((s.ply h).vbase + n) v })

/-- Latch w`n`. -/
def PlyRegs.wLatch (r : PlyRegs) (n : Nat) : Option WLatch :=
  match n with
  | 0 => r.w0
  | 1 => r.w1
  | 2 => r.w2
  | _ => r.w3

/-- Whether a field value names a latch (R149). -/
def isLatch (v : BitVec 8) : Bool := decide (248 ≤ v.toNat) && decide (v.toNat ≤ 251)

/-- A register of which the 8-byte units that `f` names are as they were in `old`. -/
def mixUnits (f : Nat → Bool) (old new : VReg) : VReg :=
  (old.filter (fun e => f (e.1 / 8))).foldl (fun m e => mput m e.1 e.2) (new.filter (fun e => !f (e.1 / 8)))

/-- Vector register `n` as a ring reads it that nothing orders after the entries which last wrote the registers of `olds`:
each 8-byte unit is as it was before that write or as it is after it (R216). -/
def State.rdRace (s : State) (h : Here) (olds : List (Map VReg)) (n : Nat) : VReg :=
  olds.foldl (fun v m => match mfind m n with | none => v | some old => mixUnits (Config.seesOld s.tick) old v) (s.rdV h n)

/-- The value a source field of VA names: a register or a latch. -/
def State.vsrc (s : State) (h : Here) (v : BitVec 8) : VReg :=
  if isLatch v then (((s.regs h).wLatch (v.toNat - 248)).map WLatch.val).getD []
  else s.rdRace h [(s.ply h).vlOldVa] ((s.regs h).vnum v)

/-- Keeps a register as it was before an entry of another ring writes it (R216). -/
def keepOld (m : Map VReg) (n : Nat) (v : VReg) : Map VReg := if (mfind m n).isSome then m else mput m n v

/-- VA writes vector register `n` of its ply: a later VA entry never finds what it held before (R34, R215). -/
def State.wrVa (s : State) (h : Here) (n : Nat) (v : VReg) : State :=
  (s.mapPly h (fun p => { p with
    vaOld := keepOld p.vaOld n (s.rdV h n)
    vlOldVa := if (mfind p.vlOldVa n).isSome then mput p.vlOldVa n v else p.vlOldVa })).wrV h n v

/-- Shifts the w latches (R94, R215). -/
def PlyRegs.shiftW (r : PlyRegs) (v : VReg) (tag : Nat) : PlyRegs :=
  { r with w3 := r.w2, w2 := r.w1, w1 := r.w0, w0 := some ⟨v, tag⟩ }

/-- The write and latch parts of a VA result: `f` writes the destination's bytes; with `d` = 248 only the latches take
them, from zero bytes (R215). -/
def State.vaResult (s : State) (h : Here) (tag : Nat) (d : BitVec 8) (f : VReg → VReg) : State :=
  if d.toNat = 248 then s.mapRegs h (fun r => r.shiftW (f []) tag)
  else
    let n := (s.regs h).vnum d
    let v := f (s.rdV h n)
    (s.wrVa h n v).mapRegs h (fun r => r.shiftW v tag)

/-! ## The checks of a vector entry (R149, R150, R161, R229, R250) -/

/-- A register field of a vector word: its value, its field code, whether the word reads it. -/
structure VField where
  val : BitVec 8
  field : Nat
  reads : Bool
  deriving DecidableEq, Repr

/-- An invalid latch (reason 1), an indirect value of 248 to 255 (reason 2), a register at or above the declared count
(reason 3): the first by reason, then by field code (R161). -/
def PlyRegs.operandTrap (p : PlyRegs) (vcount tag : Nat) (fs : List VField) : Option (Nat × Nat) :=
  let r1 := fs.find? (fun f => f.reads && isLatch f.val && (match p.wLatch (f.val.toNat - 248) with
    | none => true | some w => decide (w.tag ≠ tag)))
  let r2 := fs.find? (fun f => decide (252 ≤ f.val.toNat) && decide (248 ≤ p.vnum f.val))
  let r3 := fs.find? (fun f => !isLatch f.val && decide (vcount ≤ p.vnum f.val))
  (r1.map (fun f => (1, f.field))).or ((r2.map (fun f => (2, f.field))).or (r3.map (fun f => (3, f.field))))

/-- A format record a vector entry uses, with its FT index and the reason of R130 that it meets, if any. -/
structure VRec where
  cap : W32
  ix : Nat
  reason : Option Nat

/-- The check of a record of the floating-point forms (R220): reasons 1 to 7, then the container, then `scale_mode`. -/
def vrecOf (cap : W32) (ix : BitVec 4) (cbits : Option Nat) (more : Bool) : VRec :=
  let f := fmtOf cap
  ⟨cap, ix.toNat, (recordReason cap).or
    (if cbits.any (fun n => decide (n ≠ f.cbits)) then some 8 else if f.scale = 1 || more then some 9 else none)⟩

/-- The first ill-formed record (R130). -/
def firstRec (rs : List VRec) : Option (VRec × Nat) :=
  match rs with
  | [] => none
  | r :: t => match r.reason with | some n => some (r, n) | none => firstRec t

/-- Marks the entry at a ring's read pointer as performed; it retires by the event of its ring (R40). -/
def State.finishVec (s : State) (h : Here) (r : Ring) (push : Bool) (raise : Option Nat) : State :=
  s.mapPly h (fun p => p.mapRing r (fun q => { q with done := some (push, raise) }))

/-- Whether the entry at a vector ring's read pointer stands at a pop whose FIFO is empty (R40). -/
def Ply.noToken (p : Ply) (r : Ring) (pop : Bool) : Bool :=
  pop && !(p.ring r).popped && decide (p.tok (ringPopFrom r) r.code = 0)

/-- The register fields that can be checked now: in VL and VS the number behind an index register may come with the token that
the entry waits for, and is read at issue (R93, log 84). -/
def Ply.checkable (p : Ply) (r : Ring) (pop : Bool) (fs : List VField) : List VField :=
  if r ≠ .va ∧ p.noToken r pop then fs.filter (fun f => decide (f.val.toNat < 252)) else fs

/-- A vector entry at issue: operand checks, the shape with field code `shf`, the word's own operand checks `extra`
(reason 7), the records, the token pop, and then its effect `body`; an entry that has passed its checks stands at its pop while
there is no token (R40, R161, R229). One that has issued goes on with its effect (R93, R237, R250). -/
def State.issueVec (s : State) (h : Here) (r : Ring) (fs : List VField) (shf : Nat) (extra : List (Bool × Nat))
    (recs : List VRec) (pop : Bool) (body : State → Entry → State) : State :=
  let p := s.ply h
  let e := p.headE r
  if p.begun r then body s e else
  match (p.regsAt r pop).operandTrap p.vcount e.tag (p.checkable r pop fs) with
  | some (reason, field) => s.trapRing h r 0x12 reason field
  | none =>
    if e.shape.over then s.trapRing h r 0x12 4 shf
    else match extra.find? Prod.fst with
      | some (_, field) => s.trapRing h r 0x12 7 field
      | none =>
        match firstRec recs with
        | some (x, reason) => s.recordTrap h r reason x.ix x.cap
        | none =>
          match p.entryPop r (if pop then some (ringPopFrom r) else none) with
          | none => s.setPly h (p.mapRing r (fun q => { q with checked := true }))
          | some p => body (s.setPly h p) e

/-- The field of a destination register. -/
def fieldD (d : BitVec 8) (reads : Bool) : VField := ⟨d, 2, reads⟩
def fieldA (a : BitVec 8) : VField := ⟨a, 3, true⟩
def fieldB (b : BitVec 8) : VField := ⟨b, 4, true⟩

/-- Sets the AFLAGS bits of an engine entry (R132, R216). -/
def State.note (s : State) (h : Here) (r : Ring) (m : W32) : State := s.mapPly h (fun p => p.noteFlags r.code m)

/-! ## Element-wise forms -/

/-- An integer entry of two sources: `f n x y` gives the low bits and flags of an element of `n` bits, from its unsigned
operands (R218). -/
def State.vecInt (s : State) (h : Here) (r : Ring) (d a b : BitVec 8) (push pop : Bool)
    (f : Nat → Nat → Nat → Nat × W32) : State :=
  s.issueVec h r [fieldD d false, fieldA a, fieldB b] 0 [] [] pop (fun s e =>
    let n := e.shape.bits
    let t := e.shape.elems
    let xs := (readTile (s.vsrc h a) n t).zip (readTile (s.vsrc h b) n t)
    let rs := xs.map (fun x => f n x.1 x.2)
    let s := s.vaResult h e.tag d (fun v => writeTile v n 0 (rs.map Prod.fst))
    (s.note h r (rs.foldl (fun m x => m ||| x.2) 0)).finishVec h r push none)

/-- The records of a floating-point form: sf before df (R130, R220). -/
def floatRecs (e : Entry) (df : Bool) (more : Fmt → Bool) : List VRec :=
  vrecOf e.fmt.src e.fmt.srcIx (some e.shape.bits) (more (fmtOf e.fmt.src)) ::
    (if df then [vrecOf e.fmt.dst e.fmt.dstIx (some e.shape.bits) (more (fmtOf e.fmt.dst))] else [])

/-- A floating-point entry: reads its sources with sf, applies `f`, and writes with df, one rounding each (R219, R221).
`z` says whether `d` is read too. -/
def State.vecFloat (s : State) (h : Here) (r : Ring) (d a : BitVec 8) (b : Option (BitVec 8)) (z : Bool) (push pop : Bool)
    (f : ExNum → ExNum → ExNum → ExNum × W32) : State :=
  let e := (s.ply h).headE r
  let fs := fieldD d z :: fieldA a :: (match b with | some b => [fieldB b] | none => [])
  s.issueVec h r fs 0 [] (floatRecs e true (fun _ => false)) pop (fun s e =>
    let n := e.shape.bits
    let t := e.shape.elems
    let sf := fmtOf e.fmt.src
    let df := fmtOf e.fmt.dst
    let rd := fun (v : BitVec 8) => (readTile (s.vsrc h v) n t).map sf.decode
    let xs := (rd a).zip ((rd (b.getD a)).zip (if z then rd d else rd a))
    let rs := xs.map (fun x =>
      let y := f x.1 x.2.1 x.2.2
      let q := roundNE y.1 df
      (q.1, y.2 ||| q.2))
    let s := s.vaResult h e.tag d (fun v => writeTile v n 0 (rs.map Prod.fst))
    (s.note h r (rs.foldl (fun m x => m ||| x.2) 0)).finishVec h r push none)

/-- A special function on FP32, its value written as it is (R221). -/
def State.vecSpecial (s : State) (h : Here) (r : Ring) (d a : BitVec 8) (push pop : Bool) (f : ExNum → W32 × W32) : State :=
  let e := (s.ply h).headE r
  s.issueVec h r [fieldD d false, fieldA a] 0 [] (floatRecs e true (fun f => decide (f.cls ≠ 3))) pop (fun s e =>
    let t := e.shape.elems
    let rs := (readTile (s.vsrc h a) 32 t).map (fun x => f (fp32.decode x))
    let s := s.vaResult h e.tag d (fun v => writeTile v 32 0 (rs.map (fun x => x.1.toNat)))
    (s.note h r (rs.foldl (fun m x => m ||| x.2) 0)).finishVec h r push none)

/-- A compare of integers: the mask −1 or 0 (R223). -/
def State.vecCmpInt (s : State) (h : Here) (r : Ring) (d a b : BitVec 8) (push pop : Bool) (f : Int → Int → Bool) : State :=
  s.vecInt h r d a b push pop (fun n x y => (if f (sInt x n) (sInt y n) then 2 ^ n - 1 else 0, 0))

/-- A compare of values decoded by sf: the mask −1 or 0; only sf is checked (R223). -/
def State.vecCmpFloat (s : State) (h : Here) (r : Ring) (d a b : BitVec 8) (push pop : Bool) (f : ExNum → ExNum → Bool) : State :=
  let e := (s.ply h).headE r
  s.issueVec h r [fieldD d false, fieldA a, fieldB b] 0 [] (floatRecs e false (fun _ => false)) pop (fun s e =>
    let n := e.shape.bits
    let t := e.shape.elems
    let sf := fmtOf e.fmt.src
    let xs := ((readTile (s.vsrc h a) n t).map sf.decode).zip ((readTile (s.vsrc h b) n t).map sf.decode)
    let s := s.vaResult h e.tag d (fun v => writeTile v n 0 (xs.map (fun x => if f x.1 x.2 then 2 ^ n - 1 else 0)))
    s.finishVec h r push none)

/-! ## Reductions (R225) -/

/-- The indexes of the elements that element `i` of a tile is reduced over. -/
def redGroup (sh : Shape) (col : Bool) (i : Nat) : List Nat :=
  if col then (List.range sh.rows).map (fun r => r * sh.cols + i % sh.cols)
  else (List.range sh.cols).map (fun c => i / sh.cols * sh.cols + c)

/-- A reduction of integers, its result written to every element of the row or column. -/
def State.vecRedInt (s : State) (h : Here) (r : Ring) (col : Bool) (d a : BitVec 8) (push pop : Bool)
    (f : List Int → Int) : State :=
  s.issueVec h r [fieldD d false, fieldA a] 0 [] [] pop (fun s e =>
    let n := e.shape.bits
    let t := e.shape.elems
    let v := s.vsrc h a
    let rs := (List.range t).map (fun i => uNat (f ((redGroup e.shape col i).map (fun j => sInt (elemAt v n j) n))) n)
    (s.vaResult h e.tag d (fun v => writeTile v n 0 rs)).finishVec h r push none)

/-- A reduction of values, rounded once. -/
def State.vecRedFloat (s : State) (h : Here) (r : Ring) (col : Bool) (d a : BitVec 8) (push pop : Bool)
    (f : List ExNum → ExNum × W32) : State :=
  let e := (s.ply h).headE r
  s.issueVec h r [fieldD d false, fieldA a] 0 [] (floatRecs e true (fun _ => false)) pop (fun s e =>
    let n := e.shape.bits
    let t := e.shape.elems
    let v := s.vsrc h a
    let sf := fmtOf e.fmt.src
    let df := fmtOf e.fmt.dst
    let rs := (List.range t).map (fun i =>
      let y := f ((redGroup e.shape col i).map (fun j => sf.decode (elemAt v n j)))
      let q := roundNE y.1 df
      (q.1, y.2 ||| q.2))
    let s := s.vaResult h e.tag d (fun v => writeTile v n 0 (rs.map Prod.fst))
    (s.note h r (rs.foldl (fun m x => m ||| x.2) 0)).finishVec h r push none)

end Sys2Proof.Machine
end

