-- ==== Sys2Proof/Machine/VecMove.lean ====
section
/-! DEFINITION. Vector loads and stores, address descriptors, the permute network, the quantiser and chains (R230 to
R247). -/

namespace Sys2Proof.Machine

open Sys2Proof

/-! ## Rows at unbounded addresses (R233) -/

/-- What translation finds for the `n` bytes of a row at an unbounded integer address, each with its address as DSREC
records it. -/
def State.xlateRow (s : State) (h : Here) (m : Mode) (a : Int) (n : Nat) : List (Nat × Xlat) :=
  (List.range n).map (fun (i : Nat) => (uNat (a + (i : Int)) 56,
    if a + (i : Int) < 0 ∨ (2 ^ 56 : Nat) ≤ a + (i : Int) then .out else s.xlate h.d (s.ply h).vf m (a + (i : Int)).toNat))

/-- Where translated bytes of a row are performed. -/
def State.placeRow (s : State) (h : Here) (m : Mode) (snap : Snap) (xs : List (Nat × Xlat)) : List (Nat × Loc) :=
  xs.map (fun e => (e.1, (s.placed h.d (some h.key) m snap e.1 e.2).near m e.1))

/-- Locates the `n` bytes of a row. -/
def State.locateRow (s : State) (h : Here) (m : Mode) (snap : Snap) (a : Int) (n : Nat) : List (Nat × Loc) :=
  s.placeRow h m snap (s.xlateRow h m a n)

/-- Whether a byte of a row lies on an HT page (R119). -/
def State.htRow (s : State) (h : Here) (m : Mode) (a : Int) (n : Nat) : Bool := (s.xlateRow h m a n).any (fun e => e.2.ht)

/-- How a row starts: a translation fault, a wait for earlier accesses before an HT page, or its translated bytes with the
offence recorded. -/
inductive RowStart where
  | fault (f : Nat × Nat × Nat)
  | wait (s : State)
  | go (row : List (Nat × Xlat)) (s : State)

/-- Starts a row: it is checked whole (R237, R359). -/
def State.startRow (s : State) (h : Here) (agent : Nat) (write : Bool) (m : Mode) (snap : Snap) (a : Int) (n : Nat) : RowStart :=
  let xs := s.xlateRow h m a n
  let ls := s.placeRow h m snap xs
  match firstFault ls with
  | some f => .fault f
  | none =>
    match s.htGate h (xs.any (fun e => e.2.ht)) with
    | .error t => .wait t
    | .ok t => .go xs (t.offend h agent write (firstBad ls))

/-- The bytes from the start of a row that one step performs: all of them, or, of an entry performed in pieces, those of one
naturally aligned 8-byte unit (R108). -/
def pieceLen (pieces : Bool) (xs : List (Nat × Xlat)) : Nat :=
  if pieces then min xs.length (8 - ((xs.head?.map Prod.fst).getD 0) % 8) else xs.length

/-! ## Address descriptors (R230, R231) -/

/-- The descriptor a literal triple gives. -/
def adOf (lit1 lit2 lit3 : W32) : AddrDesc := ⟨BitVec.ofNat 56 (lit1.toNat + lit2.toNat % 2 ^ 24 * 2 ^ 32), lit3⟩

/-- R231, writes a VL descriptor. -/
def execVad (ad : BitVec 4) (lit1 lit2 lit3 : BitVec 32) (push pop : Bool) (s : State) : Out :=
  onVec s (fun h r => s.issueVec h r [] 0 [] [] pop (fun s _ =>
    (s.mapRegs h (fun g => { g with adl := mset .reset g.adl ad.toNat (adOf lit1 lit2 lit3) })).finishVec h r push none))

/-- R231, writes a VS descriptor. -/
def execVsad (ad : BitVec 4) (lit1 lit2 lit3 : BitVec 32) (push pop : Bool) (s : State) : Out :=
  onVec s (fun h r => s.issueVec h r [] 0 [] [] pop (fun s _ =>
    (s.mapRegs h (fun g => { g with ads := mset .reset g.ads ad.toNat (adOf lit1 lit2 lit3) })).finishVec h r push none))

/-! ## Loads and stores (R232 to R237) -/

/-- The 4-bit tile with odd `cols` that no load or store can move (R232). -/
def Shape.oddRow (h : Shape) : Bool := decide (h.bits = 4) && decide (h.cols % 2 = 1)

/-- The address of row `r` (R234): dense, strided, or at the signed offset that a register gives. -/
def VIssue.rowAddr (v : VIssue) (strided gather : Bool) (rb r : Nat) : Int :=
  if gather then (v.base.toNat : Int) + sInt (getLE v.offs (4 * r) 4) 32
  else if strided then (v.base.toNat : Int) + r * v.stride.toInt
  else (v.base.toNat : Int) + r * rb

/-- The base after `.inc`, for an advance of `n` rows. -/
def AddrDesc.advance (d : AddrDesc) (strided : Bool) (n rb : Nat) : AddrDesc :=
  let adv : Int := if strided then n * d.stride.toInt else n * rb
  { d with base := BitVec.ofNat 56 (uNat (d.base.toNat + adv) 56) }

/-- Where a VL or VS entry stands after a step: ended, stopped by a translation fault, or with work left. -/
inductive RowEnd where
  | done
  | fault (f : Nat × Nat × Nat)
  | more
  deriving DecidableEq, Repr

/-- Writes bytes from byte `o` of row `r` up; a broadcast writes them in every row. -/
def putRow (v : VReg) (bcast : Bool) (rows rb r o : Nat) (bs : List Byte) : VReg :=
  if bcast then iterFrom (fun i v => putBytes v (i * rb + o) bs) 0 rows v else putBytes v (r * rb + o) bs

/-- An entry of VL or VS at work: its issue values, its current row, the register value of a load, the state, how it ended. -/
structure RowRun where
  iss : VIssue
  row : Nat
  val : VReg
  s : State
  stop : RowEnd

/-- A run once `k` more bytes of its row `xs` are done and others are left: the row goes on in a later turn, with the generation its
translations were made in (R237, R360). -/
def RowRun.pieceDone (q : RowRun) (xs : List (Nat × Xlat)) (k : Nat) (gen : BitVec 16) : RowRun :=
  { q with
    iss := { q.iss with row := xs, part := q.iss.part + k, tgen := if q.iss.part = 0 then gen else q.iss.tgen }
    stop := .more }

/-- Performs `n` more rows of a load from the current one up, until one faults, or one unit of them (R108, R234, R237). -/
def RowRun.load (q : RowRun) (h : Here) (pieces : Bool) (at_ : Nat → Int) (bcast : Bool) (rows rb n : Nat) : RowRun :=
  match n with
  | 0 => { q with stop := .done }
  | n + 1 =>
    match (if q.iss.part = 0 then q.s.startRow h 1 false .load q.iss.snap (at_ q.row) rb else .go q.iss.row q.s) with
    | .fault f => { q with stop := .fault f }
    | .wait t => { q with s := t, stop := .more }
    | .go xs t =>
      let todo := xs.drop q.iss.part
      let k := pieceLen pieces todo
      let bs := (t.die h.d).readLocs (t.placeRow h .load q.iss.snap (todo.take k))
      let q : RowRun := { q with val := putRow q.val bcast rows rb q.row q.iss.part bs, s := t }
      if k < todo.length then q.pieceDone xs k (t.genOf h)
      else
        let q := { q with iss := { q.iss with row := [], part := 0 }, row := q.row + 1 }
        if pieces && decide (n ≠ 0) then { q with stop := .more } else q.load h pieces at_ bcast rows rb n

/-- Performs `n` more rows of a store from the current one up, until one faults, or one unit of them. -/
def RowRun.store (q : RowRun) (h : Here) (pieces : Bool) (at_ : Nat → Int) (v : VReg) (rb n : Nat) : RowRun :=
  match n with
  | 0 => { q with stop := .done }
  | n + 1 =>
    match (if q.iss.part = 0 then q.s.startRow h 3 true .store none (at_ q.row) rb else .go q.iss.row q.s) with
    | .fault f => { q with stop := .fault f }
    | .wait t => { q with s := t, stop := .more }
    | .go xs t =>
      let todo := xs.drop q.iss.part
      let k := pieceLen pieces todo
      let bs := getBytes v (q.row * rb + q.iss.part) k
      let q : RowRun := { q with
        s := t.mapDie h.d (fun x => x.writeLocs (t.placeRow h .store none (todo.take k)) (t.ply h).unit bs) }
      if k < todo.length then q.pieceDone xs k (t.genOf h)
      else
        let q := { q with iss := { q.iss with row := [], part := 0 }, row := q.row + 1 }
        if pieces && decide (n ≠ 0) then { q with stop := .more } else q.store h pieces at_ v rb n

/-- Whether an entry of VL or VS is performed in pieces in this step: one of whose rows a byte lies on an HT page is performed
at once, so that its accesses are seen in address order (R108, R119). -/
def State.rowPieces (s : State) (h : Here) (m : Mode) (at_ : Nat → Int) (rows rb : Nat) : Bool :=
  s.inPieces && !(List.range rows).any (fun i => s.htRow h m (at_ i) rb)

/-- How many bytes of its register a load has written when it stands at byte `part` of row `row`: whole 8-byte units, so that no
other ring finds half of one (R216), or, once it has ended or stopped, every row performed. -/
def loadFront (bcast : Bool) (rows rb row part : Nat) (stop : RowEnd) : Nat :=
  if bcast then (if stop = .done then rows * rb else 0)
  else if stop = .more then (row * rb + part) / 8 * 8 else row * rb + part

/-- A load entry (R234): its `.inc` is applied once, at issue; a fault leaves the rows before it performed, and the entry
keeps its issue values (R237). -/
def State.vecLoad (s : State) (h : Here) (r : Ring) (d : BitVec 8) (ad : BitVec 4) (offs : Option (BitVec 8))
    (strided inc bcast push pop : Bool) : State :=
  let e := (s.ply h).headE r
  let fs := fieldD d false :: (match offs with | some b => [fieldB b] | none => [])
  s.issueVec h r fs 0 [(e.shape.oddRow, 0)] [] pop (fun s e =>
    let rb := e.shape.rowBytes
    let rows := e.shape.rows
    let total := if bcast then 1 else rows
    let p := s.ply h
    let g := p.regsAt r false
    let desc := mget .reset p.regs.adl ad.toNat
    let iss := p.vlIss.getD ⟨desc.base, desc.stride,
      match offs with | some b => s.rdRace h [p.vaOld] (g.vnum b) | none => [], g.vnum d, [], none, [], 0, 0⟩
    let old := s.rdV h iss.reg
    let adl := if inc && p.vlIss.isNone then mset .reset p.regs.adl ad.toNat (desc.advance strided total rb) else p.regs.adl
    let at_ := if bcast then fun _ => (iss.base.toNat : Int) else iss.rowAddr strided offs.isSome rb
    let s := s.setPly h { p with
      regs := { p.regs with adl := adl }, vlOld := keepOld p.vlOld iss.reg old, vlOldVa := keepOld p.vlOldVa iss.reg old }
    let q := RowRun.load ⟨iss, p.vlRow, if p.vlRow = 0 ∧ iss.part = 0 then old else iss.val, s, .more⟩ h
      (s.rowPieces h .load at_ total rb) at_ bcast rows rb (total - p.vlRow)
    let lo := loadFront bcast rows rb p.vlRow iss.part .more
    let s := q.s.wrV h iss.reg (putBytes old lo (getBytes q.val lo (loadFront bcast rows rb q.row q.iss.part q.stop - lo)))
    match q.stop with
    | .fault f => (s.mapPly h (fun p => { p with vlIss := some q.iss.replay, vlRow := 0 })).faultRing h r f
    | .more => s.mapPly h (fun p => { p with
        vlIss := some { q.iss with val := q.val, snap := some (iss.snap.getD (s.die h.d).sample) }, vlRow := q.row })
    | .done => (s.mapPly h (fun p => { p with vlIss := none, vlRow := 0 })).finishVec h r push none)

/-- The register of a store as VS reads it: a VL or VA entry that nothing orders before it may be writing it (R216). -/
def State.vsRead (s : State) (h : Here) (n : Nat) : VReg := s.rdRace h [(s.ply h).vlOld, (s.ply h).vaOld] n

/-- The register of a store entry in progress: the 8-byte units of which it has stored a byte are as they were then, and the
others are read afresh (R216). -/
def State.storeVal (s : State) (h : Here) (iss : VIssue) (rb row : Nat) : VReg :=
  if row = 0 ∧ iss.part = 0 then s.vsRead h iss.reg
  else putBytes (s.vsRead h iss.reg) 0 (getBytes iss.val 0 ((row * rb + iss.part + 7) / 8 * 8))

/-- A store entry (R234); on resumption it goes on at the row that faulted (R237). -/
def State.vecStore (s : State) (h : Here) (r : Ring) (b : BitVec 8) (ad : BitVec 4) (offs : Option (BitVec 8))
    (strided inc push pop : Bool) : State :=
  let e := (s.ply h).headE r
  let fs := (match offs with | some d => [⟨d, 2, true⟩] | none => []) ++ [fieldB b]
  s.issueVec h r fs 0 [(e.shape.oddRow, 0)] [] pop (fun s e =>
    let rb := e.shape.rowBytes
    let rows := e.shape.rows
    let p := s.ply h
    let g := p.regsAt r false
    let desc := mget .reset p.regs.ads ad.toNat
    let iss := p.vsIss.getD ⟨desc.base, desc.stride,
      match offs with | some d => s.vsRead h (g.vnum d) | none => [], g.vnum b, [], none, [], 0, 0⟩
    let s := if inc && p.vsIss.isNone then
        s.mapRegs h (fun g => { g with ads := mset .reset g.ads ad.toNat (desc.advance strided rows rb) })
      else s
    let at_ := iss.rowAddr strided offs.isSome rb
    let v := s.storeVal h iss rb p.rowAt
    let q := RowRun.store ⟨{ iss with val := v }, p.rowAt, [], s, .more⟩ h (s.rowPieces h .store at_ rows rb) at_ v rb (rows - p.rowAt)
    match q.stop with
    | .fault f => (q.s.mapPly h (fun p => { p with vsIss := some q.iss, rowAt := q.row })).faultRing h r f
    | .more => q.s.mapPly h (fun p => { p with vsIss := some q.iss, rowAt := q.row })
    | .done => (q.s.mapPly h (fun p => { p with vsIss := none, rowAt := 0 })).finishVec h r push none)

/-- R234, loads a tile, dense or strided. -/
def execVld (d : BitVec 8) (mode : BitVec 3) (inc : Bool) (ad : BitVec 4) (push pop : Bool) (s : State) : Out :=
  onVec s (fun h r => s.vecLoad h r d ad none (decide (mode ≠ 0)) inc false push pop)

/-- R234, gathers rows at offsets. -/
def execVldg (d : BitVec 8) (ad : BitVec 4) (b : BitVec 8) (push pop : Bool) (s : State) : Out :=
  onVec s (fun h r => s.vecLoad h r d ad (some b) false false false push pop)

/-- R234, loads one row into every row. -/
def execVldb (d : BitVec 8) (mode : BitVec 3) (inc : Bool) (ad : BitVec 4) (push pop : Bool) (s : State) : Out :=
  onVec s (fun h r => s.vecLoad h r d ad none (decide (mode ≠ 0)) inc true push pop)

/-- R234, stores a tile, dense or strided. -/
def execVst (mode : BitVec 3) (inc : Bool) (ad : BitVec 4) (b : BitVec 8) (push pop : Bool) (s : State) : Out :=
  onVec s (fun h r => s.vecStore h r b ad none (decide (mode ≠ 0)) inc push pop)

/-- R234, scatters rows to offsets. -/
def execVsts (d : BitVec 8) (ad : BitVec 4) (b : BitVec 8) (push pop : Bool) (s : State) : Out :=
  onVec s (fun h r => s.vecStore h r b ad (some d) false false push pop)

/-! ## The permute network (R239 to R241) -/

/-- β(s): the lane bit of stage `s`. -/
def benesBit (s : Nat) : Nat := if s ≤ 5 then 5 - s else s - 5

/-- The switch of the pair whose lower lane is `x`, for lane bit `b`. -/
def benesSwitch (x b : Nat) : Nat := x / 2 ^ (b + 1) * 2 ^ b + x % 2 ^ b

/-- One stage on the list of source lanes. -/
def benesStage (p : Nat) (s : Nat) (xs : List Nat) : List Nat :=
  let b := benesBit s
  (List.range 64).map (fun l =>
    let low := if bitB l b then l - 2 ^ b else l
    let from_ := if bitB p (32 * s + benesSwitch low b) then (if bitB l b then low else low + 2 ^ b) else l
    xs.getD from_ 0)

/-- The source lane of every lane under control word `p`. -/
def benesLanes (p : Nat) : List Nat := iterFrom (benesStage p) 0 11 (List.range 64)

/-- A register with its lanes permuted. -/
def permuteReg (v : VReg) (p : Nat) : VReg :=
  ((benesLanes p).zipIdx).foldl (fun m e => pasteRange m (64 * e.2) (takeRange v (64 * e.1) 64)) []

/-- R241, permutes the 64 lanes. -/
def execVperm (d a : BitVec 8) (pc : BitVec 4) (push pop : Bool) (s : State) : Out :=
  onVec s (fun h r =>
    s.issueVec h r [fieldD d false, fieldA a] 0 [] [] pop (fun s e =>
      let v := permuteReg (s.vsrc h a) (mget 0 (s.regs h).p pc.toNat).toNat
      (s.vaResult h e.tag d (fun _ => v)).finishVec h r push none))

/-- R240, loads a control word from bytes 0 to 43 of a source. -/
def execVpset (p : BitVec 4) (a : BitVec 8) (push pop : Bool) (s : State) : Out :=
  onVec s (fun h r =>
    s.issueVec h r [fieldA a] 0 [] [] pop (fun s _ =>
      let v := BitVec.ofNat 352 (getLE (s.vsrc h a) 0 44)
      (s.mapRegs h (fun g => { g with p := mset 0 g.p p.toNat v })).finishVec h r push none))

/-! ## The quantiser (R242) -/

/-- The records of vquant: sf in the element's container without block scales; df narrow with block scales, its codes
within a register. -/
def quantRecs (e : Entry) : List VRec :=
  let df := fmtOf e.fmt.dst
  [vrecOf e.fmt.src e.fmt.srcIx (some e.shape.bits) false,
   ⟨e.fmt.dst, e.fmt.dstIx.toNat, (recordReason e.fmt.dst).or
     (if 32768 < e.shape.elems * df.cbits then some 8 else if df.cls ≠ 0 ∨ df.scale ≠ 1 then some 9 else none)⟩]

/-- The blocks of 32 of a list. -/
def blocksOf (xs : List ExNum) (n : Nat) : List (List ExNum) := (List.range n).map (fun k => (xs.drop (32 * k)).take 32)

/-- R242, quantises blocks of 32 into codes and scales. -/
def execVquant (d a b : BitVec 8) (push pop : Bool) (s : State) : Out :=
  onVec s (fun h r =>
    let p := s.ply h
    let e := p.headE r
    let same := !isLatch d && decide (p.regs.vnum b = p.regs.vnum d)
    s.issueVec h r [fieldD d false, fieldA a, ⟨b, 4, false⟩] 0 [(decide (e.shape.elems % 32 ≠ 0), 0), (same, 4)] (quantRecs e) pop
      (fun s e =>
        let t := e.shape.elems
        let sf := fmtOf e.fmt.src
        let df := fmtOf e.fmt.dst
        let xs := (readTile (s.vsrc h a) e.shape.bits t).map sf.decode
        let qs := (blocksOf xs (t / 32)).map (quantBlock e.fmt.dst)
        let nb := (s.regs h).vnum b
        let s := s.wrVa h nb (writeTile (s.rdV h nb) 8 0 (qs.map Prod.fst))
        let s := s.vaResult h e.tag d (fun v => writeTile v df.cbits 0 (qs.flatMap (fun q => q.2.1)))
        (s.note h r (qs.foldl (fun m q => m ||| q.2.2) 0)).finishVec h r push none))

/-! ## Chains (R243 to R247) -/

/-- The value a chain's operand code names: a slot, a stream element, a constant. -/
def chainOperand (ts : List ExNum) (xs : List ExNum) (ks : List ExNum) (c : Nat) : ExNum :=
  if c < 8 then ts.getD c (.zero false) else if c < 11 then xs.getD (c - 8) (.zero false) else ks.getD (c - 11) (.zero false)

/-- A special function of a chain, whose operand is first rounded to FP32. -/
def chainSpecial (f : ExNum → W32 × W32) (x : ExNum) : ExNum × W32 :=
  let q := roundNE x fp32
  let r := f (fp32.decode q.1)
  (fp32.decode r.1.toNat, q.2 ||| r.2)

/-- One operation: its value rounded to FP32, with its flags (R244, R245). -/
def chainOp (w : Nat) (x y z : ExNum) : ExNum × W32 :=
  let rnd := fun (v : ExNum × W32) => let q := roundNE v.1 fp32; (fp32.decode q.1, v.2 ||| q.2)
  match bits w 28 4 with
  | 0 => rnd (x.add y)
  | 1 => rnd (x.sub y)
  | 2 => rnd (x.mul y)
  | 3 => rnd (x.fma y z)
  | 4 => rnd (x.min y, 0)
  | 5 => rnd (x.max y, 0)
  | 6 => rnd (x.negate, 0)
  | 7 => rnd (x.abs, 0)
  | 8 => chainSpecial exp2Num x
  | 9 => chainSpecial rcpNum x
  | 10 => chainSpecial rsqrtNum x
  | 11 => (if x.lt false y then ExNum.ofInt 1 else .zero false, 0)
  | _ => rnd ((match x with | .zero _ => z | _ => y), 0)

/-- One element: the operation words in order, then the value of the last word's slot, with the flags. -/
def chainElem (ops : List W32) (xs ks : List ExNum) : ExNum × W32 :=
  let run := ops.foldl (fun (st : List ExNum × W32 × Nat) w =>
    let v := w.toNat
    let g := chainOperand st.1 xs ks
    let r := chainOp v (g (bits v 21 4)) (g (bits v 17 4)) (g (bits v 13 4))
    (st.1.set (bits v 25 3) r.1, st.2.1 ||| r.2, bits v 25 3)) (List.replicate 8 (.zero false), 0, 0)
  (run.1.getD run.2.2 (.zero false), run.2.1)

/-- Whether an operation word names stream `k` in an operand its `fop` uses. -/
def chainUses (ops : List W32) (k : Nat) : Bool :=
  ops.any (fun w =>
    let v := w.toNat
    let u := fopUses (bits v 28 4)
    decide (bits v 21 4 = 8 + k) || (u.1 && decide (bits v 17 4 = 8 + k)) || (u.2 && decide (bits v 13 4 = 8 + k)))

/-- The bytes that `n` elements of `c` bits occupy. -/
def spanBytes (n c : Nat) : Nat := (n * c + 7) / 8

/-- The elements of a run of bytes. -/
def elemsOf (bs : List Byte) (c n : Nat) : List Nat := readTile (putBytes [] 0 bs) c n

/-- The byte a place holds as a writer of part of it finds it. -/
def Die.peekPlace (x : Die) (p : Place) : Byte :=
  match p with
  | .shadow i off =>
    let b := x.buf i
    let live := b.live x.mem (off / 4096)
    getByte x.mem (b.frame (if b.dirty x.mem (off / 4096) then !live else live) (off / 4096) + off % 4096)
  | p => x.readPlace p

/-- The fault with the lowest address. -/
def lowestFault (a b : Option (Nat × Nat × Nat)) : Option (Nat × Nat × Nat) :=
  match a, b with
  | some x, some y => if y.1 < x.1 then some y else some x
  | some x, none => some x
  | none, y => y

/-- The reserved bits of a chain descriptor, as pairs of low bit and length (R243). -/
def chainReserved : List (Nat × Nat) := [(56, 8), (120, 8), (184, 8), (248, 8), (288, 32), (448, 64)]

/-- One block of a chain: the check of every byte, then every read, then the writes (R246, R247). -/
def State.chainBlock (s : State) (h : Here) (c : ChainRun) (ops : List W32) (e : Entry) : State :=
  let v := c.desc.toNat
  let sf := fmtOf e.fmt.src
  let df := fmtOf e.fmt.dst
  let i0 := c.blocks * 1024
  let n := min 1024 (bits v 256 32 - i0)
  let snap := c.snap.getD (s.die h.d).sample
  let src := fun (k : Nat) => s.locateRow h .load (some snap) (bits v (64 * k) 56 + i0 * sf.cbits / 8) (spanBytes n sf.cbits)
  let locs := (List.range 3).map (fun k => if chainUses ops k then src k else [])
  let outAt := bits v 192 56 + i0 * df.cbits / 8
  let out := s.locateRow h .store none outAt (spanBytes n df.cbits)
  let ht := s.htRow h .store outAt (spanBytes n df.cbits) || (List.range 3).any (fun k => chainUses ops k &&
    s.htRow h .load (bits v (64 * k) 56 + i0 * sf.cbits / 8) (spanBytes n sf.cbits))
  match (out :: locs).foldl (fun f ls => lowestFault f (firstFault ls)) none with
  | some f => (s.mapPly h (fun p => { p with chain := some { c with snap := none } })).faultRing h .va f
  | none =>
  match s.htGate h ht with
  | .error t => t
  | .ok s =>
    let x := s.die h.d
    let streams := locs.map (fun ls => if ls.isEmpty then [] else (elemsOf (x.readLocs ls) sf.cbits n).map sf.decode)
    let ks := (List.range 4).map (fun k => fp32.decode (bits v (320 + 32 * k) 32))
    let rs := (List.range n).map (fun i =>
      let r := chainElem ops (streams.map (fun st => st.getD i (.zero false))) ks
      let q := roundNE r.1 df
      (q.1, r.2 ||| q.2))
    let old := out.map (fun l => match l.2 with | .here p => x.peekPlace p | _ => 0)
    let bs := getBytes (writeTile (putBytes [] 0 old) df.cbits 0 (rs.map Prod.fst)) 0 out.length
    let s := locs.foldl (fun s ls => s.offend h 2 false (firstBad ls)) s
    let s := (s.mapDie h.d (fun x => x.writeLocs out (s.ply h).unit bs)).offend h 2 true (firstBad out)
    s.mapPly h (fun p => { p with chain := some { c with
      blocks := c.blocks + 1, snap := some snap, flags := rs.foldl (fun m r => m ||| r.2) c.flags } })

/-- R243, a chain: the descriptor is read once, after the pop; then a block of 1,024 elements at a time; it retires when
every element is written. -/
def execVchain (lit1 lit2 : BitVec 32) (ops : List (BitVec 32)) (push pop : Bool) (s : State) : Out :=
  onVec s (fun h r =>
    let e := (s.ply h).headE r
    let recs := [vrecOf e.fmt.src e.fmt.srcIx none false, vrecOf e.fmt.dst e.fmt.dstIx none false]
    s.issueVec h r [] 0 [] recs pop (fun s e =>
      match (s.ply h).chain with
      | some c =>
        if bits c.desc.toNat 256 32 ≤ c.blocks * 1024 then
          ((s.mapPly h (fun p => { p with chain := none })).note h r c.flags).finishVec h r push none
        else s.chainBlock h c ops e
      | none =>
        match s.nearRead h 2 none (lit1.toNat + lit2.toNat % 2 ^ 24 * 2 ^ 32) 64 with
        | .error f => s.faultRing h r f
        | .ok (bs, t) =>
          let v := leNat bs
          if chainReserved.any (fun f => decide (bits v f.1 f.2 ≠ 0)) then t.trapRing h r 0x24 1 0
          else t.mapPly h (fun p => { p with chain := some ⟨BitVec.ofNat 512 v, 0, some (t.die h.d).sample, 0⟩ })))

end Sys2Proof.Machine
end

