-- ==== Sys2Proof/Machine/Matrix.lean ====
section
/-! DEFINITION. Matrix step words: state, slots, the loop nest, accumulators and gangs, and the checks of a command (R251
to R273). -/

namespace Sys2Proof.Machine

open Sys2Proof

/-! ## State words (R255 to R257) -/

/-- Bits [55:31] of an address register. -/
def setHigh (a : BitVec 56) (x : BitVec 25) : BitVec 56 := BitVec.ofNat 56 (x.toNat * 2 ^ 31 + a.toNat % 2 ^ 31)

/-- Bits [30:6] of an address register; bits [5:0] become 0. -/
def setMid (a : BitVec 56) (x : BitVec 25) : BitVec 56 := BitVec.ofNat 56 (a.toNat / 2 ^ 31 * 2 ^ 31 + x.toNat * 2 ^ 6)

/-- Changes the MX address register that `tgt` names (R255). -/
def MxState.mapAddr (m : MxState) (tgt : BitVec 2) (f : BitVec 56 → BitVec 56) : MxState :=
  match tgt.toNat with
  | 0 => { m with aAddr := f m.aAddr }
  | 1 => { m with fillAddr := f m.fillAddr }
  | 2 => { m with drainAddr := f m.drainAddr }
  | _ => { m with scaleAddr := f m.scaleAddr }

/-- What a state word does to the MX state, with the copies its command captured (R255 to R257). -/
def MxState.word (m : MxState) (e : Entry) (i : Instr) : MxState :=
  match i with
  | .mah tgt b => m.mapAddr tgt (fun a => setHigh a b)
  | .mal tgt b => m.mapAddr tgt (fun a => setMid a b)
  | .mafmt f => { m with aRec := mget 0 e.ft f.toNat, aIx := f }
  | .mlatch plane f slack slot =>
    { m with wRec := mget 0 e.ft f.toNat, wIx := f, wSlot := slot, wSlack := slack, wPlane := plane,
             bound := if slack then e.bind else none }
  | .mloop l item v =>
    let x := mget .reset m.shadow l.toNat
    let y := match item.toNat with
      | 0 => { x with count := v }
      | 1 => { x with astr := v }
      | 2 => { x with sstr := v }
      | _ => { x with rstr := v }
    { m with shadow := mset .reset m.shadow l.toNat y }
  | _ => m

/-- Whether a step word is a state word of MX (R253). -/
def isMxState (w : Nat) : Bool := decide (4 ≤ w / 2 ^ 27) && decide (w / 2 ^ 27 ≤ 8)

/-- Whether a step word is an operation word of MX (R253). -/
def isMxOp (w : Nat) : Bool := decide (w / 2 ^ 27 = 3) || (decide (9 ≤ w / 2 ^ 27) && decide (w / 2 ^ 27 ≤ 11))

/-- The MX state that the state words of a command leave, the shadow table copied to the active one (R254). -/
def MxState.after (m : MxState) (e : Entry) (ws : List Nat) : MxState :=
  let m := ws.foldl (fun m w => match decodeMx w with | .ok i => m.word e i | .error _ => m) m
  { m with active := m.shadow }

/-- A state word is performed; after the last one the shadow table becomes the active table (R254 step 4). -/
def State.mxState (s : State) (h : Here) (i : Instr) : State :=
  s.mapPly h (fun p =>
    match p.mx.cmd with
    | none => p
    | some c =>
      let m := p.mx.word c.entry i
      let last := !(c.todo.drop 1).any (fun w => isMxState w.toNat)
      { p with mx := if last then { m with active := m.shadow } else m }.wordDone .mx)

/-- R255, writes bits 55:31 of an MX address register. -/
def execMah (tgt : BitVec 2) (bits : BitVec 25) (s : State) : Out := onRing .mx s (fun h => s.mxState h (.mah tgt bits))

/-- R255, writes bits 30:6 of an MX address register. -/
def execMal (tgt : BitVec 2) (bits : BitVec 25) (s : State) : Out := onRing .mx s (fun h => s.mxState h (.mal tgt bits))

/-- R256, the A-stream format. -/
def execMafmt (fmt : BitVec 4) (s : State) : Out := onRing .mx s (fun h => s.mxState h (.mafmt fmt))

/-- R256, the weight source. -/
def execMlatch (plane : Bool) (fmt : BitVec 4) (slack : Bool) (slot : BitVec 5) (s : State) : Out :=
  onRing .mx s (fun h => s.mxState h (.mlatch plane fmt slack slot))

/-- R257, one item of a level of the shadow table. -/
def execMloop (lvl : BitVec 3) (item : BitVec 2) (val : BitVec 22) (s : State) : Out :=
  onRing .mx s (fun h => s.mxState h (.mloop lvl item val))

/-! ## The loop nest (R252, R260) -/

/-- Level `l` of the active table. -/
def MxState.level (m : MxState) (l : Nat) : LoopLevel := mget .reset m.active l

/-- Iterations of levels 0 to `l` − 1. -/
def MxState.below (m : MxState) (l : Nat) : Nat := (List.range l).foldl (fun n k => n * (m.level k).count.toNat) 1

/-- The index of level `l` in iteration `n`, level 0 innermost. -/
def MxState.index (m : MxState) (n l : Nat) : Nat := n / m.below l % (m.level l).count.toNat

/-- The sum over the levels of index times stride, in iteration `n`. -/
def MxState.coord (m : MxState) (f : LoopLevel → BitVec 22) (n : Nat) : Int :=
  (List.range 6).foldl (fun x l => x + m.index n l * (f (m.level l)).toInt) 0

/-- The six (count, stride) pairs of a coordinate. -/
def MxState.strides (m : MxState) (f : LoopLevel → BitVec 22) : List (Nat × Int) :=
  (List.range 6).map (fun l => ((m.level l).count.toNat, (f (m.level l)).toInt))

/-- Every value a coordinate takes over the nest, from a base. -/
def nestVals (ls : List (Nat × Int)) (base : Int) : List Int :=
  match ls with
  | [] => [base]
  | (c, st) :: t => if st = 0 then nestVals t base else (nestVals t base).flatMap (fun v => (List.range c).map (fun (i : Nat) => v + (i : Int) * st))

/-- The level that reason 4 names for a coordinate (R273). -/
def nestLevel (ls : List (Nat × Int)) : Nat :=
  match (ls.zipIdx).reverse.find? (fun e => decide (1 < e.1.1) && decide (e.1.2 ≠ 0)) with
  | some e => e.2
  | none => 6

/-- The values of a coordinate over the nest; none when a level has count 0. -/
def MxState.vals (m : MxState) (f : LoopLevel → BitVec 22) (base : Int) : List Int :=
  if m.below 6 = 0 then [] else nestVals (m.strides f) base

/-! ## Slots (R95, R258, R259) -/

/-- The operand-memory slot `n` of a lathe, if the ply holds it. -/
def Die.slotOf (x : Die) (h : Here) (n : Nat) : Option OpSlot :=
  match mfind (x.lathe h.lathe).slots n with
  | none => none
  | some o => if o.core = h.c ∧ o.slot = h.k then some o else none

/-- A byte of a slot; a byte not filled since its claim is undefined: a free value (R95, log 7). -/
def OpSlot.byte (o : OpSlot) (a : Nat) : Byte := (mfind o.data a).getD (Config.freeByte o.serial a)

/-- Whether a command in flight still uses a slot of operand memory with the MX state it sees (R258). -/
def MxState.usesSlot (m : MxState) (n : Nat) : Bool :=
  (m.cmd.map CmdRun.todo).getD [] |>.any (fun w =>
    match decodeMx w.toNat with
    | .ok (.mfill _ slot) => decide (slot.toNat = n)
    | .ok (.mop gang _ _ _ _) =>
      (!m.wSlack && ((m.vals LoopLevel.sstr m.wSlot.toNat).any (fun (v : Int) =>
        decide (v = n) || (decide (gang = 1) && (decide (v + 1 = n) || decide (v + 2 = n)))))) ||
        (m.vals LoopLevel.astr m.aAddr.toNat).any (fun a => decide (0 ≤ a) && bitB a.toNat 55 && decide (bits a.toNat 16 5 = n))
    | _ => false)

/-- R258, claims a slot, or waits while another ply holds it. -/
def execMclaim (slot : BitVec 5) (s : State) : Out :=
  onRing .mx s (fun h =>
    match mfind ((s.die h.d).lathe h.lathe).slots slot.toNat with
    | none =>
      ((s.mapDie h.d (fun x => x.mapLathe h.lathe (fun l =>
        { l with slots := mput l.slots slot.toNat ⟨h.c, h.k, s.fresh, []⟩ }))).tickFresh).mapPly h (fun p => p.wordDone .mx)
    | some o => if o.core = h.c ∧ o.slot = h.k then s.mapPly h (fun p => p.wordDone .mx) else s)

/-- Whether a command in flight has issued before the one that has its turn. -/
def MxState.before (m n : MxState) : Bool := m.late && (!n.late || decide (m.ahead < n.ahead))

/-- Whether an earlier command in flight still uses a slot (R258). -/
def Ply.slotInUse (p : Ply) (n : Nat) : Bool := p.mxBehind.any (fun m => m.before p.mx && m.usesSlot n)

/-- R258, releases a slot and discards its contents, once every earlier command has finished with it. -/
def execMrel (slot : BitVec 5) (s : State) : Out :=
  onRing .mx s (fun h =>
    if (s.ply h).slotInUse slot.toNat then s else
    let s := if ((s.die h.d).slotOf h slot.toNat).isSome then
        s.mapDie h.d (fun x => x.mapLathe h.lathe (fun l => { l with slots := mdel l.slots slot.toNat }))
      else s
    s.mapPly h (fun p => p.wordDone .mx))

/-- A row or iteration of an operation word has been performed; after the last of `n` the word is. -/
def Ply.unitDone (p : Ply) (r : Ring) (n : Nat) : Ply :=
  match p.cmd r with
  | none => p
  | some c => if n ≤ c.iter + 1 then p.wordDone r else p.mapCmd r (fun c => { c with iter := c.iter + 1 })

/-! ## Accesses to die store (R259, R269, R359) -/

/-- What the step-3 checks of a command found for the byte at `va` (R359). -/
def CmdRun.xlate (c : CmdRun) (va : Int) : Xlat :=
  if va < 0 ∨ (2 ^ 56 : Nat) ≤ va then .out
  else match mfind c.pages (va.toNat % 2 ^ 55 / 131072) with
    | some (.page p) => .page { p with pa := p.pa + va.toNat % 131072 }
    | _ => .out

/-- The places of the `n` bytes from `a` up that a command accesses, as its step-3 checks translated them. -/
def State.mxRow (s : State) (h : Here) (c : CmdRun) (m : Mode) (snap : Snap) (a : Int) (n : Nat) : List (Nat × Loc) :=
  s.placeRow h m snap ((List.range n).map (fun (i : Nat) => (uNat (a + (i : Int)) 56, c.xlate (a + (i : Int)))))

/-- A read of a matrix command, through the mapping it sampled, with the offence recorded; a byte of an HT page has been read at
its issue (R119, R259, R269). -/
def State.mxRead (s : State) (h : Here) (c : CmdRun) (a : Int) (n : Nat) : List Byte × State :=
  let ls := s.mxRow h c .load c.snap a n
  ((((s.die h.d).readLocs ls).zip ls).map (fun e => (mfind c.pre e.2.1).getD e.1), s.offend h 4 false (firstBad ls))

/-- Whether a command has an access to an HT page (R119). -/
def CmdRun.ht (c : CmdRun) : Bool := c.pages.any (fun e => e.2.ht)

/-- The bytes of HT pages that a matrix command reads: it reads all of them at its issue, so in ascending order (R119). -/
def State.mxPre (s : State) (h : Here) (c : CmdRun) (rs : List (Mode × Int × Nat)) : Map Byte :=
  if !c.ht then [] else
  rs.foldl (fun m r =>
    if r.1 ≠ .load then m else
    let ls := (s.mxRow h c .load c.snap r.2.1 r.2.2).filter (fun l => (c.xlate (l.1 : Int)).ht)
    (ls.zip ((s.die h.d).readLocs ls)).foldl (fun m e => mput m e.1.1 e.2) m) []

/-- A write of a matrix command, to the shadow half of a registered buffer, of the 8-byte units that `sel` takes, counted from
the address (R101, R266, R268). -/
def State.mxWrite (s : State) (h : Here) (c : CmdRun) (a : Int) (bs : List Byte) (sel : Nat → Bool) : State :=
  let es := ((s.mxRow h c .engine none a bs.length).zip bs).zipIdx.filterMap (fun e => if sel (e.2 / 8) then some e.1 else none)
  let ls := es.map Prod.fst
  (s.mapDie h.d (fun x => x.writeLocs ls (s.ply h).unit (es.map Prod.snd))).offend h 4 true (firstBad ls)

/-- The command in flight has performed unit `u` out of its order (R268). -/
def Ply.early (p : Ply) (u : Nat) : Ply := p.mapCmd .mx (fun c => { c with early := u :: c.early })

/-- One row of a fill (R259, R268). -/
def State.fillRow (s : State) (h : Here) (c : CmdRun) (slot r : Nat) : State :=
  let (bs, t) := s.mxRead h c ((s.ply h).mx.fillAddr.toNat + 512 * r) 512
  match (t.die h.d).slotOf h slot with
  | none => t
  | some o =>
    let o := { o with data := (bs.zipIdx).foldl (fun (m : Map Byte) (e : Byte × Nat) => mput m (512 * r + e.2) e.1) o.data }
    t.mapDie h.d (fun x => x.mapLathe h.lathe (fun l => { l with slots := mput l.slots slot o }))

/-- R259, fills rows of a slot from die store, one row at a time. -/
def execMfill (rowsM1 : BitVec 7) (slot : BitVec 5) (s : State) : Out :=
  onRing .mx s (fun h =>
    match (s.ply h).mx.cmd with
    | none => s
    | some c =>
      let t := if c.early.contains c.iter then s else s.fillRow h c slot.toNat c.iter
      t.mapPly h (fun p => p.unitDone .mx (rowsM1.toNat + 1)))

/-- A row of a fill out of its order (R268). -/
def State.fillEarly (s : State) (h : Here) (c : CmdRun) (rows slot u : Nat) : State :=
  if u < c.iter ∨ rows ≤ u ∨ c.early.contains u then s else (s.fillRow h c slot u).mapPly h (fun p => p.early u)

/-! ## Accumulators (R264 to R266) -/

/-- Elements of one tile: 192 rows of 128 (R251). -/
def tileElems : Nat := 192 * 128

/-- Sets to +0 the elements that `sel` takes of the tiles of an accumulator's group; `sel` numbers them through the group
(R265, R268). -/
def Die.zeroTiles (x : Die) (h : Here) (group : List Nat) (a : Nat) (sel : Nat → Bool) : Die :=
  group.zipIdx.foldl (fun x n => x.mapTile h n.1 a (fun t => { t with
    acc := t.acc.filter (fun e => !sel (tileElems * n.2 + e.1)), valid := true })) x

/-- R265, sets every element of an accumulator's group to +0. -/
def execMzero (acc : BitVec 1) (s : State) : Out :=
  onRing .mx s (fun h =>
    match (s.ply h).mx.cmd with
    | none => s
    | some c =>
      (s.mapDie h.d (fun x => x.zeroTiles h c.group acc.toNat (fun u => !c.early.contains u))).mapPly h (fun p => p.wordDone .mx))

/-- An element of an mzero out of its order (R268). -/
def State.zeroEarly (s : State) (h : Here) (c : CmdRun) (acc u : Nat) : State :=
  if c.early.contains u ∨ tileElems * c.group.length ≤ u then s
  else (s.mapDie h.d (fun x => x.zeroTiles h c.group acc (fun v => v == u))).mapPly h (fun p => p.early u)

/-- The elements of row `r` of an accumulator, over the lathes of a group. -/
def Die.accRow (x : Die) (h : Here) (group : List Nat) (a r : Nat) : List W32 :=
  group.flatMap (fun n =>
    let t := (x.tileOf h n a).getD default
    (List.range 128).map (fun c => mget 0 t.acc (128 * r + c)))

/-- The bytes of a row of codes, packed as R92 packs them. -/
def packCodes (cbits : Nat) (xs : List Nat) : List Byte := getBytes (writeTile [] cbits 0 xs) 0 (xs.length * cbits / 8)

/-- The 8-byte units of a row of a drain. -/
def CmdRun.drainUnits (c : CmdRun) (f : Fmt) : Nat := c.group.length * 128 * f.cbits / 64

/-- The 8-byte units that `sel` takes of row `r` of a drain: their elements are read, converted and written, and the command
gathers the flags (R266, R268). -/
def State.drainRow (s : State) (h : Here) (c : CmdRun) (f : Fmt) (acc r : Nat) (sel : Nat → Bool) : State :=
  let qs := ((s.die h.d).accRow h c.group acc r).map (fun v => roundNE (fp32.decode v.toNat) f)
  let bs := packCodes f.cbits (qs.map Prod.fst)
  let t := s.mxWrite h c ((s.ply h).mx.drainAddr.toNat + r * bs.length) bs sel
  let fl := qs.zipIdx.foldl (fun m q => if sel (q.2 * f.cbits / 64) then m ||| q.1.2 else m) c.flags
  t.mapPly h (fun p => p.mapCmd .mx (fun c => { c with flags := fl }))

/-- R266, converts rows of an accumulator and writes them to die store, one row at a time. -/
def execMdrain (rowsM1 : BitVec 8) (fmt : BitVec 4) (acc : BitVec 1) (s : State) : Out :=
  onRing .mx s (fun h =>
    match (s.ply h).mx.cmd with
    | none => s
    | some c =>
      let f := fmtOf (mget 0 c.entry.ft fmt.toNat)
      let n := c.drainUnits f
      let t := s.drainRow h c f acc.toNat c.iter (fun j => !c.early.contains (n * c.iter + j))
      t.mapPly h (fun p => (p.mapCmd .mx (fun c => { c with
        early := c.early.filter (fun u => decide (n * (c.iter + 1) ≤ u)) })).unitDone .mx (rowsM1.toNat + 1)))

/-- An 8-byte unit of a drain out of its order, but to an HT page (R119, R268). -/
def State.drainEarly (s : State) (h : Here) (c : CmdRun) (f : Fmt) (rows acc u : Nat) : State :=
  let n := c.drainUnits f
  if c.ht ∨ n = 0 ∨ u < n * c.iter ∨ n * rows ≤ u ∨ c.early.contains u then s
  else (s.drainRow h c f acc (u / n) (fun j => j == u % n)).mapPly h (fun p => p.early u)

/-- R267, the command has waited for every earlier command of the ring before its checks (R254 step 2). -/
def execMfence (s : State) : Out := onRing .mx s (fun h => s.mapPly h (fun p => p.wordDone .mx))

/-- R270, sets the issue-window mode of the lathe. -/
def execMwin (mode : BitVec 2) (s : State) : Out :=
  onRing .mx s (fun h =>
    (s.mapDie h.d (fun x => x.mapLathe h.lathe (fun l => { l with winMode := decide (mode = 1) }))).mapPly h (fun p => p.wordDone .mx))

/-! ## Latches (R260 to R264) -/

/-- Scale bytes of one column or row of a 512-byte pass (R263). -/
def scaleBytes (f : Fmt) : Nat := if f.scale = 1 then 4096 / f.cbits / 32 else 0

/-- What the data of a latch is: 64 KiB, beats not yet written, or a copy that has left the slack loop. -/
inductive LatchData where
  | ok (data : Map Byte)
  | wait
  | miss

/-- The retained copies that a latch can read: those of the slack loop, and, for a latch that has issued, one that has since left
it (R84). -/
def WhorlDie.copies (x : WhorlDie) (issued : Bool) : List Copy := if issued then x.slack ++ x.leaving else x.slack

/-- The 64 KiB that the latch of coordinate `w` reads: a slot, or the bound copy at its offset (R262). The contents of a slot that
the command held as it issued and that has been released since are free values (R95, R268, log 7). -/
def State.latchData (s : State) (h : Here) (issued : Bool) (w : Int) : LatchData :=
  let m := (s.ply h).mx
  if m.wSlack then
    match s.whorlOf h.d, m.bound with
    | some (r, q), some n =>
      match (q.copies issued).find? (fun c => decide (c.serial = n)) with
      | none => .miss
      | some c =>
        let off := m.fillAddr.toNat % 2 ^ 24 + (65536 * w).toNat
        if (off + 65536 + 4095) / 4096 ≤ c.beats then .ok (takeRange (s.die h.d).mem (r.slackAt c.slot + off) 65536) else .wait
    | _, _ => .miss
  else
    match (s.die h.d).slotOf h w.toNat with
    | none => .ok (putBytes [] 0 ((List.range 65536).map (Config.freeByte s.tick)))
    | some o => .ok (putBytes [] 0 ((List.range 65536).map o.byte))

/-- The scales of coordinate `w`: 128 columns of at most 32 bytes (R263). -/
def State.latchScales (s : State) (h : Here) (c : CmdRun) (w : Int) (n : Nat) (cols : List Nat) (acc : Map Byte) : Map Byte × State :=
  match cols with
  | [] => (acc, s)
  | k :: t =>
    let (bs, u) := s.mxRead h c ((s.ply h).mx.scaleAddr.toNat + 4096 * w + 32 * k) n
    u.latchScales h c w n t (putBytes acc (32 * k) bs)

/-- What a latch does: goes on with the planes latched, by lathe, waits for a beat, or misses its hank. -/
inductive Latched where
  | ok (held : Map Plane) (s : State)
  | wait
  | miss

/-- Latches the planes of the lathes `ls`, lathe `k` of the list at coordinate `w + k` (R260, R264). -/
def State.latch (s : State) (h : Here) (c : CmdRun) (plane : Nat) (w : Int) (ls : List Nat) (held : Map Plane) : Latched :=
  match ls with
  | [] => .ok held s
  | n :: t =>
    match s.latchData h c.latching w with
    | .miss => .miss
    | .wait => .wait
    | .ok data =>
      let sb := scaleBytes (fmtOf (s.ply h).mx.wRec)
      let (sc, u) := if sb = 0 then ([], s) else s.latchScales h c w sb (List.range 128) []
      let pl : Plane := ⟨data, sc⟩
      (u.mapDie h.d (fun x => x.mapLathe n (fun l => { l with planes := mput l.planes (h.sideKey plane) pl }))).latch
        h c plane (w + 1) t (mput held n pl)

/-- A hank-missed fault of a bound unit (R85, R351). When several of its reasons hold, the lowest is reported. A unit whose
record has no key is deferred like one whose block is zero (R78). -/
def State.missHank (s : State) (h : Here) : State :=
  let x := s.die h.d
  match x.unit? (s.ply h).unit with
  | none => s.trapRing h .mx 0x15 1 0
  | some w =>
    if w.lr.keyed ∧ w.lr.onMiss then s.trapRing h .mx 0x15 1 0
    else if w.lr.keyed ∧ w.lr.maxDefer ≠ 0 ∧ w.lr.maxDefer ≤ w.defers then s.trapRing h .mx 0x15 2 0
    else if (x.fut w.fut).pinned then s.trapRing h .mx 0x15 3 0
    else s.deferUnit h

/-! ## One pass (R137, R260) -/

/-- The elements of 512 code bytes with their scales (R125, R127, R263). -/
def passElems (f : Fmt) (codes scales : Map Byte) (co so : Nat) : List ExNum :=
  (readTile (takeRange codes co 512) f.cbits (4096 / f.cbits)).zipIdx.map (fun e =>
    let v := f.decode e.1
    if f.scale = 1 then scaled v (getByte scales (so + e.2 / 32)) else v)

/-- One accumulator element after a pass: the exact sum of its products and the accumulator, rounded once (R137). -/
def passElem (xs ys : List ExNum) (base : W32) : Nat × W32 :=
  let t := lathSum (fp32.decode base.toNat) ((xs.zip ys).map (fun p => p.1.mul p.2))
  let q := roundNE t.1 fp32
  (q.1, t.2 ||| q.2)

/-- One pass of an A row through the plane of one lathe into accumulator row `row`, at the columns that `sel` takes. -/
def passLathe (wf : Fmt) (negB first : Bool) (xs : List ExNum) (pl : Plane) (t : Tile) (row : Nat) (sel : Nat → Bool) : Tile × W32 :=
  (List.range 128).foldl (fun (r : Tile × W32) c =>
    if !sel c then r else
    let ys := (passElems wf pl.data pl.scales (512 * c) (32 * c)).map (fun y => if negB then y.negate else y)
    let q := passElem xs ys (if first then 0x80000000 else mget 0 t.acc (128 * row + c))
    ({ r.1 with acc := mset 0 r.1.acc (128 * row + c) (BitVec.ofNat 32 q.1) }, r.2 ||| q.2)) (t, 0)

/-- The A row at address `a`: operand memory when bit 55 is set, else die store, its scales behind its codes (R261, R263). -/
def State.aRow (s : State) (h : Here) (c : CmdRun) (a : Int) (n : Nat) : List Byte × State :=
  if 0 ≤ a ∧ a < 2 ^ 56 ∧ bitB a.toNat 55 then
    match (s.die h.d).slotOf h (bits a.toNat 16 5) with
    | none => ((List.range n).map (fun i => Config.freeByte s.tick (a.toNat % 2 ^ 21 + i)), s)
    | some o => ((List.range n).map (fun i => o.byte (a.toNat % 65536 + i)), s)
  else s.mxRead h c a n

/-- The pass of one iteration into each lathe of the group, through the planes that the mop has latched, at the columns that `sel`
takes, numbered through the group (R260, R264, R268). -/
def State.passAll (s : State) (h : Here) (acc : Nat) (held : Map Plane) (row : Nat) (negA negB first : Bool) (bs : List Byte)
    (ls : List Nat) (sel : Nat → Bool) : State × W32 :=
  let m := (s.ply h).mx
  let af := fmtOf m.aRec
  let raw := putBytes [] 0 bs
  let xs := (passElems af raw (takeRange raw 512 32) 0 0).map (fun x => if negA then x.negate else x)
  ls.zipIdx.foldl (fun r n =>
    match (r.1.die h.d).tileOf h n.1 acc with
    | none => r
    | some t =>
      let q := passLathe (fmtOf m.wRec) negB first xs (mget default held n.1) t row (fun j => sel (128 * n.2 + j))
      (r.1.mapDie h.d (fun x => (x.mapTile h n.1 acc (fun _ => q.1)).mapLathe n.1 (fun l => { l with winLast := decide (h.c % 2 = 1) })),
        r.2 ||| q.2)) (s, 0)

/-- A mop in an iteration: its lathes, its weight coordinate, its accumulator row and the address of its A row (R260). -/
structure MopAt where
  lathes : List Nat
  w : Int
  row : Nat
  a : Int

/-- Where the mop of the command in flight stands (R260). -/
def MxState.mopAt (m : MxState) (h : Here) (gang : Bool) (n : Nat) : MopAt :=
  ⟨if gang then gangOf h.lathe else [h.lathe], m.wSlot.toNat + m.coord LoopLevel.sstr n, (m.coord LoopLevel.rstr n).toNat,
    m.aAddr.toNat + m.coord LoopLevel.astr n⟩

/-- The latch of an iteration when its coordinate has changed, unless it has been made early, and the plane it leaves in use
(R260). -/
def State.mopLatch (s : State) (h : Here) (c : CmdRun) (m : MopAt) : Bool × Latched :=
  if c.prev = some m.w then (c.plane, .ok c.held s)
  else
    let plane := if c.prev.isNone then (s.ply h).mx.wPlane else !c.plane
    (plane, match c.next with
      | some held => .ok held s
      | none => s.latch h c (b2n plane) m.w m.lathes [])

/-- The A row of iteration `n`, read once (R260). -/
def State.mopRow (s : State) (h : Here) (c : CmdRun) (m : MopAt) (n : Nat) : List Byte × State :=
  match mfind c.rows n with
  | some bs => (bs, s)
  | none => s.aRow h c m.a (512 + scaleBytes (fmtOf (s.ply h).mx.aRec))

/-- The elements of one pass, over the lathes of its group. -/
def MopAt.elems (m : MopAt) : Nat := 128 * m.lathes.length

/-- R260, runs the loop nest, one iteration at a time: a latch when the coordinate changes, then the pass. A latch whose copy has
left the slack loop takes the hank-missed fault once no other command is in flight (R262). -/
def execMop (gang : BitVec 2) (accOff negB negA : Bool) (acc : BitVec 2) (s : State) : Out :=
  onRing .mx s (fun h =>
    match (s.ply h).mx.cmd with
    | none => s
    | some c =>
      let m := (s.ply h).mx.mopAt h (decide (gang = 1)) c.iter
      match s.mopLatch h c m with
      | (_, .wait) => s.mapPly h (fun p => p.mapCmd .mx (fun c => { c with latching := true }))
      | (_, .miss) => if (s.ply h).mxBehind.any (fun b => b.cmd.isSome) then s else (s.mapPly h Ply.catchTo).missHank h
      | (plane, .ok held t) =>
        let (bs, t) := t.mopRow h c m c.iter
        let r := t.passAll h acc.toNat held m.row negA negB (accOff && !c.seen.contains m.row) bs m.lathes
          (fun j => !c.early.contains (m.elems * c.iter + j))
        r.1.mapPly h (fun p =>
          (p.mapCmd .mx (fun c => { c with
            prev := some m.w, plane := plane, held := held, latching := false, flags := c.flags ||| r.2
            next := if c.prev = some m.w then c.next else none
            early := c.early.filter (fun u => decide (m.elems * (c.iter + 1) ≤ u)), rows := mdel c.rows c.iter
            seen := if c.seen.contains m.row then c.seen else m.row :: c.seen })).unitDone .mx ((s.ply h).mx.below 6)))

/-- The iterations of a mop from the current one up to iteration `n`, which it does not contain. -/
def MxState.mopUpTo (m : MxState) (h : Here) (gang : Bool) (c : CmdRun) (n : Nat) : List (Nat × MopAt) :=
  (List.range (n - c.iter)).map (fun i => (c.iter + i, m.mopAt h gang (c.iter + i)))

/-- Element `j` of the pass of iteration `n` before the passes of the iterations `ms` into other rows, through the planes `held`. -/
def State.passAt (s : State) (h : Here) (c : CmdRun) (accOff negB negA : Bool) (acc n j : Nat) (m : MopAt)
    (ms : List (Nat × MopAt)) (held : Map Plane) : State :=
  let (bs, t) := s.mopRow h c m n
  let first := accOff && !c.seen.contains m.row && !ms.any (fun k => decide (k.2.row = m.row))
  let r := t.passAll h acc held m.row negA negB first bs m.lathes (fun i => i == j)
  r.1.mapPly h (fun p => p.mapCmd .mx (fun c => { c with
    flags := c.flags ||| r.2, rows := mput c.rows n bs, early := (m.elems * n + j) :: c.early }))

/-- An element of the pass of an iteration out of its order: every pass before it into the same element has been made, and it goes
through the planes of the current latch or of the one that follows, which is made first where it has not been (R260, R267,
R268). -/
def State.passEarly (s : State) (h : Here) (c : CmdRun) (gang accOff negB negA : Bool) (acc u : Nat) : State :=
  let x := (s.ply h).mx
  let cur := x.mopAt h gang c.iter
  let n := u / cur.elems
  let m := x.mopAt h gang n
  let ms := x.mopUpTo h gang c n
  if c.prev ≠ some cur.w then
    match s.mopLatch h c cur with
    | (plane, .ok held t) => t.mapPly h (fun p => p.mapCmd .mx (fun c => { c with
        prev := some cur.w, plane := plane, held := held, latching := false, next := none }))
    | _ => s
  else if n < c.iter ∨ x.below 6 ≤ n ∨ c.early.contains u ∨
      ms.any (fun k => decide (k.2.row = m.row) && !c.early.contains (m.elems * k.1 + u % m.elems)) then s
  else if ms.all (fun k => decide (k.2.w = cur.w)) ∧ m.w = cur.w then
    s.passAt h c accOff negB negA acc n (u % m.elems) m ms c.held
  else if (ms.dropWhile (fun k => decide (k.2.w = cur.w))).any (fun k => decide (k.2.w ≠ m.w)) then s
  else match c.next with
    | some held => s.passAt h c accOff negB negA acc n (u % m.elems) m ms held
    | none =>
      match s.latch h c (b2n !c.plane) m.w m.lathes [] with
      | .ok held t => t.mapPly h (fun p => p.mapCmd .mx (fun c => { c with next := some held }))
      | _ => s

/-- Unit `u` of the operation word of the command in flight, out of its order (R268). -/
def State.mxEarly (s : State) (h : Here) (u : Nat) : State :=
  match (s.ply h).mx.cmd.filter (fun c => !c.stale) with
  | none => s
  | some c =>
    match decodeMx (c.todo.headD 0).toNat with
    | .ok (.mfill rows slot) => s.fillEarly h c (rows.toNat + 1) slot.toNat u
    | .ok (.mzero acc) => s.zeroEarly h c acc.toNat u
    | .ok (.mdrain rows fmt acc) => s.drainEarly h c (fmtOf (mget 0 c.entry.ft fmt.toNat)) (rows.toNat + 1) acc.toNat u
    | .ok (.mop gang accOff negB negA acc) => s.passEarly h c (decide (gang = 1)) accOff negB negA acc.toNat u
    | _ => s

/-! ## The checks of a command (R130, R254, R273) -/

/-- What becomes of an attempt to start a command: it is not made yet (`s`) if it halts MX while earlier commands are in flight. -/
def State.unlessHalted (t : State) (h : Here) (s : State) : State :=
  if !(s.ply h).mxBehind.isEmpty && (mfind (t.ply h).halts Ring.mx.code).isSome then s else t

/-- The records a command uses, in the order of R130: A stream, weights, drain, wherever their words stand. -/
def mxRecs (m : MxState) (e : Entry) (ws : List Nat) : List VRec :=
  let af := fmtOf m.aRec
  let wf := fmtOf m.wRec
  let opMem := (m.vals LoopLevel.astr m.aAddr.toNat).any (fun a => decide (0 ≤ a) && bitB a.toNat 55)
  let ps := ws.flatMap (fun w =>
    match decodeMx w with
    | .ok (.mop _ _ _ _ _) =>
      [⟨m.aRec, m.aIx.toNat, (recordReason m.aRec).or
         (if 3 ≤ af.cls then some 9 else if af.scale = 1 && opMem then some 9 else none)⟩,
       ⟨m.wRec, m.wIx.toNat, (recordReason m.wRec).or
         (if 3 ≤ wf.cls then some 9 else if wf.cbits ≠ af.cbits then some 8 else none)⟩]
    | _ => [])
  let ds := ws.flatMap (fun w =>
    match decodeMx w with
    | .ok (.mdrain _ f _) =>
      let c := mget 0 e.ft f.toNat
      [⟨c, f.toNat, (recordReason c).or (if (fmtOf c).scale = 1 then some 9 else none)⟩]
    | _ => [])
  ps ++ ds

/-- The slots a ply holds in its lathe. -/
def Die.heldSlots (x : Die) (h : Here) : List Nat :=
  (x.lathe h.lathe).slots.filterMap (fun (n, o) => if o.core = h.c ∧ o.slot = h.k then some n else none)

/-- The coordinates of a mop's weights, its gang's included. -/
def mopCoords (m : MxState) (gang : Bool) : List Int :=
  let ws := m.vals LoopLevel.sstr m.wSlot.toNat
  if gang then ws ++ ws.map (· + 1) ++ ws.map (· + 2) else ws

/-- The addresses at which a mop reads operand memory. -/
def mopOpMem (m : MxState) : List Nat :=
  ((m.vals LoopLevel.astr m.aAddr.toNat).filter (fun a => decide (0 ≤ a) && bitB a.toNat 55)).map Int.toNat

/-- Whether a word uses a slot that is not in `held` (reason 3). -/
def slotUnheld (m : MxState) (held : List Nat) (w : Nat) : Bool :=
  match decodeMx w with
  | .ok (.mfill _ slot) => !held.contains slot.toNat
  | .ok (.mop gang _ _ _ _) =>
    (!m.wSlack && (mopCoords m (gang = 1)).any (fun c => decide (0 ≤ c) && decide (c < 32) && !held.contains c.toNat)) ||
      (mopOpMem m).any (fun a => !held.contains (bits a 16 5))
  | _ => false

/-- Reason 3 over a command: the slots held at the check, with the claims and releases of earlier words. -/
def anyUnheld (m : MxState) (held : List Nat) (ws : List Nat) : Bool :=
  match ws with
  | [] => false
  | w :: t =>
    slotUnheld m held w || anyUnheld m (match decodeMx w with
      | .ok (.mclaim n) => n.toNat :: held
      | .ok (.mrel n) => held.filter (fun k => decide (k ≠ n.toNat))
      | _ => held) t

/-- Reason 4 of a mop: the level to report (R273). `hank` is the size of the bound copy. -/
def mopRange (m : MxState) (gang : Bool) (hank : Nat) : Option Nat :=
  let rows := m.vals LoopLevel.rstr 0
  let ws := mopCoords m gang
  if rows.any (fun r => decide (r < 0) || decide (191 < r)) then some (nestLevel (m.strides LoopLevel.rstr))
  else if !m.wSlack && ws.any (fun w => decide (w < 0) || decide (31 < w)) then some (nestLevel (m.strides LoopLevel.sstr))
  else if m.wSlack && ws.any (fun w => decide (w < 0) ||
      decide ((hank : Int) < m.fillAddr.toNat % 2 ^ 24 + 65536 * w + 65536)) then some (nestLevel (m.strides LoopLevel.sstr))
  else if m.wSlack && decide (m.fillAddr.toNat / 2 ^ 24 ≠ 0) then some 6
  else if (mopOpMem m).any (fun a => decide (bits a 21 34 ≠ 0) || decide (65536 < a % 65536 + 512)) then
    some (nestLevel (m.strides LoopLevel.astr))
  else none

/-- The lowest level whose count is 0. -/
def MxState.zeroLevel (m : MxState) : Option Nat := (List.range 6).find? (fun l => decide ((m.level l).count = 0))

/-- The case of R273 that a command meets, lowest reason first: the reason and the field. -/
def State.mxIll (s : State) (h : Here) (m : MxState) (e : Entry) (ws : List Nat) : Option (Nat × Nat) :=
  let x := s.die h.d
  let is := ws.filterMap (fun w => match decodeMx w with | .ok i => some i | .error _ => none)
  let mops := is.filterMap (fun i => match i with | .mop g _ _ _ _ => some (decide (g = 1)) | _ => none)
  let hank := match s.whorlOf h.d with | some (r, _) => r.hankBytes | none => 2 ^ 24
  let invalid := is.any (fun i =>
    let bad := fun (a : Nat) => !((x.tileOf h h.lathe a).map Tile.valid).getD false
    match i with
    | .mop _ _ _ _ a => bad a.toNat
    | .mdrain _ _ a => bad a.toNat
    | _ => false)
  if 1 < (ws.filter isMxOp).length then some (2, 0)
  else if anyUnheld m (x.heldSlots h) ws then some (3, 0)
  else match (mops.filterMap (fun g => mopRange m g hank)).head? with
    | some l => some (4, l)
    | none =>
      if h.lathe = 15 ∧ mops.contains true then some (5, 0)
      else if e.bind.isNone && bindsSlack ws then some (6, 0)
      else if invalid then some (7, 0)
      else if mops.isEmpty then none
      else m.zeroLevel.map (fun l => (8, l))

/-- The ranges of die store that a command accesses over its nest: the mode, the first address and the bytes of each. -/
def State.mxRanges (s : State) (h : Here) (m : MxState) (e : Entry) (ws : List Nat) : List (Mode × Int × Nat) :=
  ws.flatMap (fun w =>
    match decodeMx w with
    | .ok (.mfill rows _) => [(.load, (m.fillAddr.toNat : Int), 512 * (rows.toNat + 1))]
    | .ok (.mdrain rows k a) =>
      [(.engine, (m.drainAddr.toNat : Int),
        ((s.die h.d).groupOf h a.toNat).length * 128 * (fmtOf (mget 0 e.ft k.toNat)).cbits / 8 * (rows.toNat + 1))]
    | .ok (.mop g _ _ _ _) =>
      let as := (m.vals LoopLevel.astr m.aAddr.toNat).filter (fun a => !(decide (0 ≤ a) && bitB a.toNat 55))
      let n := scaleBytes (fmtOf m.wRec)
      as.map (fun a => (Mode.load, a, 512 + scaleBytes (fmtOf m.aRec))) ++
        (if n = 0 then []
        else (mopCoords m (g = 1)).flatMap (fun (w : Int) =>
          (List.range 128).map (fun (c : Nat) => (Mode.load, (m.scaleAddr.toNat : Int) + 4096 * w + 32 * c, n))))
    | _ => [])

/-- The first translation fault of a command's accesses over its nest, lowest address first (R359). -/
def State.mxFault (s : State) (h : Here) (rs : List (Mode × Int × Nat)) : Option (Nat × Nat × Nat) :=
  rs.foldl (fun f r => lowestFault f (firstFault (s.locateRow h r.1 none r.2.1 r.2.2))) none

/-- What translation finds for each 128 KiB that the ranges of a command touch (R358, R359). -/
def State.mxPages (s : State) (h : Here) (rs : List (Mode × Int × Nat)) : Map Xlat :=
  rs.foldl (fun m r =>
    let lo := r.2.1.toNat / 131072
    let hi := (r.2.1 + (r.2.2 : Int) - 1).toNat / 131072
    iterFrom (fun i m =>
      if 2 ^ 39 ≤ i then m else mput m (i % 2 ^ 38) (s.xlate h.d (s.ply h).vf r.1 (131072 * i % 2 ^ 55))) lo (hi - lo + 1) m) []

/-- A restored command translates the accesses of its words afresh; a translation fault halts MX at the command, once no
other one is in flight (R359, R360, R362). -/
def State.renewMx (s : State) (h : Here) (c : CmdRun) : State :=
  let rs := s.mxRanges h (s.ply h).mx c.entry (c.todo.map BitVec.toNat)
  match s.mxFault h rs with
  | some f => if (s.ply h).mxBehind.any (fun b => b.cmd.isSome) then s else (s.mapPly h Ply.catchTo).faultRing h .mx f
  | none =>
    let c := { c with pages := s.mxPages h rs, tgen := (s.vf (s.ply h).vf).tgen, stale := false }
    s.mapPly h (fun p => { p with mx := { p.mx with cmd := some c } })

/-- The lathes whose tiles the words of a command name, with the accumulator: a gang mop names its whole gang (R264). -/
def Die.namedTiles (x : Die) (h : Here) (ws : List Nat) : List (Nat × Nat) :=
  ws.flatMap (fun w =>
    match accNamed w with
    | none => []
    | some a =>
      let ls := if w / 2 ^ 27 = 9 ∧ bits w 5 2 = 1 ∧ h.lathe ≠ 15 then gangOf h.lathe else x.groupOf h a
      ls.map (fun n => (n, a)))

/-- Whether a tile is bound to another ply (R265). -/
def Die.tileTaken (x : Die) (h : Here) (t : Nat × Nat) : Bool :=
  match mfind (x.lathe t.1).tiles (h.sideKey t.2) with
  | none => false
  | some u => !u.mine h

/-- Binds the issuing lathe's tile of an accumulator that no ply holds; it is left invalid (R265). -/
def Die.bindTile (x : Die) (h : Here) (n a : Nat) (valid : Bool) : Die :=
  if (mfind (x.lathe n).tiles (h.sideKey a)).isSome then x
  else x.mapLathe n (fun l => { l with tiles := mput l.tiles (h.sideKey a) ⟨h.c, h.k, valid, false, []⟩ })

/-- Forms the gang of an accumulator the first time a gang mop names it (R264): the two other tiles are bound, set to +0
and marked valid. A tile of that name that the ply holds already keeps its elements. -/
def Die.formGang (x : Die) (h : Here) (a : Nat) : Die :=
  (gangOf h.lathe).foldl (fun x n => (x.bindTile h n a true).mapTile h n a (fun t => { t with ganged := true, valid := true })) x

/-- Whether MX orders a mop behind one that an earlier command has in flight: the same accumulator, the same `gang` and the same
counts and row strides (R267). -/
def MxState.mopBehind (m n : MxState) (w : Nat) : Bool :=
  let pairs := fun (x : MxState) => (List.range 6).map (fun l => ((x.level l).count, (x.level l).rstr))
  match decodeMx w with
  | .ok (.mop g _ _ _ a) => (n.cmd.map CmdRun.todo).getD [] |>.any (fun v =>
      match decodeMx v.toNat with
      | .ok (.mop g' _ _ _ a') => decide (a = a' ∧ g = g' ∧ pairs m = pairs n)
      | _ => false)
  | _ => false

/-- Whether a command may start while earlier ones are in flight: it holds no mfence, no interlock orders a mop of it behind one of
theirs, and none of them stands at a push without room (R40, R254, R267). -/
def Ply.mayOverlap (p : Ply) (m : MxState) (ws : List Nat) : Bool :=
  p.mxBehind.isEmpty ||
    (!ws.any (fun w => decide (w / 2 ^ 27 = 12)) &&
      !p.mxBehind.any (fun n => ws.any (fun w => m.mopBehind n w) ||
        n.cmd.any (fun c => c.todo.isEmpty && !p.pushRoom .mx c.push)))

/-- A command that has passed its pop, its wait and its fence: it waits for a tile that another ply holds, or for an earlier
command if both access HT pages (R119), is refused, or starts (R254 steps 3 to 5). -/
def State.checkMx (s : State) (h : Here) (re : Bool) (rf : BitVec 6) (push : BitVec 3) : State :=
  let p := s.ply h
  let e := p.headE .mx
  let ws := (s.entryWords h .mx).dropLast
  if ((s.die h.d).namedTiles h ws).any ((s.die h.d).tileTaken h) then s
  else
    let s := s.mapDie h.d (fun x => ws.foldl (fun x w => match accNamed w with | none => x | some a => x.bindTile h h.lathe a false) x)
    let m := p.mx.after e ws
    match firstRec (mxRecs m e ws) with
    | some (r, reason) => (s.spoilTiles h ws).recordTrap h .mx reason r.ix r.cap
    | none =>
      match s.mxIll h m e ws with
      | some (reason, field) => (s.spoilTiles h ws).trapRing h .mx 0x22 reason field
      | none =>
        let rs := s.mxRanges h m e ws
        match s.mxFault h rs with
        | some f => s.faultRing h .mx f
        | none =>
        let pages := s.mxPages h rs
        let ht := pages.any (fun e => e.2.ht)
        if ht && p.mxBehind.any (fun b => b.cmd.any CmdRun.ht) then s else
        match s.htGate h ht with
        | .error t => t
        | .ok s =>
          let x := s.die h.d
          let s := s.setDie h.d (ws.foldl (fun x w =>
            match decodeMx w with
            | .ok (.mzero a) => x.mapGroup h a.toNat (fun t => { t with valid := true })
            | .ok (.mop g _ _ _ a) => if g = 1 then x.formGang h a.toNat else x
            | _ => x) x)
          let stop := ((x.unit? p.unit).map (fun w => w.lr.mxStop)).getD 0
          let c := { startCmd e re rf push (ws.filter isMxState ++ ws.filter (fun w => !isMxState w)) with
            snap := some x.sample, block := max 1 (m.below stop), pages := pages, tgen := (s.vf p.vf).tgen,
            group := ((ws.filter isMxOp).filterMap accNamed).flatMap ((s.die h.d).groupOf h) }
          s.mapPly h (fun p => { p with mx := { p.mx with cmd := some { c with pre := s.mxPre h c rs } } })

/-- A command that has passed its pop and its wait. While earlier commands are in flight it starts only if it may overlap them,
and is refused only after them (R254, R267). -/
def State.startMx (s : State) (h : Here) (re : Bool) (rf : BitVec 6) (push : BitVec 3) : State :=
  let p := s.ply h
  let ws := (s.entryWords h .mx).dropLast
  if !p.mayOverlap (p.mx.after (p.headE .mx) ws) ws then s
  else (s.checkMx h re rf push).unlessHalted h s

/-- A command without a GO at its end: the record checks come first, and otherwise it is ill-formed with reason 1 (R130, R273). -/
def State.mxNoGo (s : State) (h : Here) (ws : List Nat) : State :=
  let e := (s.ply h).headE .mx
  let t := s.spoilTiles h ws
  match firstRec (mxRecs ((s.ply h).mx.after e ws) e ws) with
  | some (r, reason) => t.recordTrap h .mx reason r.ix r.cap
  | none => t.trapRing h .mx 0x22 1 0

/-- R254, the GO word of an MX command: pop, wait, checks, then its words. -/
def execGoMx (wf : BitVec 6) (thr : BitVec 7) (sub re : Bool) (rf : BitVec 6) (pop push : BitVec 3) (s : State) : Out :=
  onRing .mx s (fun h =>
    if (s.ply h).mx.cmd.isSome then s
    else s.issueGo h .mx pop wf thr sub (fun s => s.startMx h re rf push))

/-- Whether the next command may start beside the one in flight, whose state words have been performed (R34, R268). -/
def Ply.canSetAside (p : Ply) : Bool :=
  !p.mx.late && p.mx.cmd.any (fun c => !c.todo.isEmpty && !c.todo.any (fun w => isMxState w.toNat))

/-- The command of the ring goes on while the next one of the ring may start (R34, R268). -/
def Ply.setAside (p : Ply) : Ply :=
  if !p.canSetAside then p
  else ({ p with mxBehind := p.mxBehind ++ [{ p.mx with late := true, ahead := p.mxq.lead }], mx := { p.mx with cmd := none } }).popEntry .mx

/-- MX goes on with command `j` of those in flight. -/
def Ply.turnTo (p : Ply) (j : Nat) : Ply :=
  match p.mxBehind[j]? with
  | none => p
  | some m => { p with mx := m, mxBehind := p.mxBehind.set j p.mx }

/-- R254 step 6, an MX command completes. -/
def execMxCommandComplete (die core slot : Nat) (s : State) : Out :=
  let h : Here := ⟨die, core, slot⟩
  let p := s.ply h
  .next (match p.mx.cmd with
    | none => s
    | some c => if p.ringGoes .mx && c.todo.isEmpty then s.setPly h (p.completeCmd .mx c) else s)

end Sys2Proof.Machine
end

