-- ==== Sys2Proof/Machine/SqArith.lean ====
section
/-! DEFINITION. The integer instructions of the sequencer: the alu and cmp groups and the immediate forms (R166 to R169). -/

namespace Sys2Proof.Machine

open Sys2Proof

/-! ## Values (R166, R167) -/

/-- The shift and rotate amount, B mod 64. -/
def shiftBy (b : Word) : Nat := b.toNat % 64

/-- A rotated left by k. -/
def rolW (a : Word) (k : Nat) : Word := BitVec.ofNat 64 (a.toNat * 2 ^ k % 2 ^ 64 + a.toNat / 2 ^ (64 - k))

/-- Bits [127:64] of an exact product. -/
def highW (p : Int) : Word := BitVec.ofNat 64 (uNat (p / (2 ^ 64 : Nat)) 64)

/-- Quotient and remainder of div and rem (R167). -/
def divS (a b : Word) : Int × Int :=
  if b.toInt = 0 then (-1, a.toInt)
  else if a.toInt = -(2 ^ 63 : Nat) ∧ b.toInt = -1 then (-(2 ^ 63 : Nat), 0)
  else (Int.tdiv a.toInt b.toInt, Int.tmod a.toInt b.toInt)

/-- Quotient and remainder of divu and remu (R167). -/
def divU (a b : Word) : Nat × Nat := if b.toNat = 0 then (2 ^ 64 - 1, a.toNat) else (a.toNat / b.toNat, a.toNat % b.toNat)

/-- An integer mod 2^64 (R164). -/
def intW (x : Int) : Word := BitVec.ofNat 64 (uNat x 64)

/-- The number of zero bits from bit `k - 1` of `v` downwards. -/
def zerosDown (v k : Nat) : Nat :=
  match k with
  | 0 => 0
  | k + 1 => if bitB v k then 0 else 1 + zerosDown v k

/-- The number of zero bits from bit `k` of `v` upwards, of `n` bits. -/
def zerosUp (v k n : Nat) : Nat :=
  match n with
  | 0 => 0
  | n + 1 => if bitB v k then 0 else 1 + zerosUp v (k + 1) n

/-- The number of one bits of the low `n` bits. -/
def onesOf (v n : Nat) : Nat :=
  match n with
  | 0 => 0
  | n + 1 => onesOf v n + b2n (bitB v n)

/-- 1 or 0 (R169). -/
def oneIf (c : Bool) : Word := if c then 1 else 0

/-- A saturating result with its flag (R135, R166). -/
def satW (x : Int) : Word × W32 :=
  let r := satTo x (-(2 ^ 63 : Nat)) ((2 ^ 63 : Nat) - 1)
  (intW r.1, r.2)

/-- Retires an instruction whose result may set AFLAGS. -/
def State.resultFlags (s : State) (h : Here) (nw : Bool) (dst : Nat) (r : Word × W32) : State :=
  (s.mapRegs h (fun g => g.setFlags r.2)).result h nw dst r.1

/-! ## The alu group (R166) -/

/-- R166, A + B. -/
def execAdd (nw : Bool) (dst : BitVec 6) (a b : BitVec 7) (s : State) : Out :=
  onSq s (fun h => s.withAB h a b (fun x y => s.result h nw dst.toNat (x + y)))

/-- R166, A − B. -/
def execSub (nw : Bool) (dst : BitVec 6) (a b : BitVec 7) (s : State) : Out :=
  onSq s (fun h => s.withAB h a b (fun x y => s.result h nw dst.toNat (x - y)))

/-- R166, A AND B. -/
def execAnd (nw : Bool) (dst : BitVec 6) (a b : BitVec 7) (s : State) : Out :=
  onSq s (fun h => s.withAB h a b (fun x y => s.result h nw dst.toNat (x &&& y)))

/-- R166, A OR B. -/
def execOr (nw : Bool) (dst : BitVec 6) (a b : BitVec 7) (s : State) : Out :=
  onSq s (fun h => s.withAB h a b (fun x y => s.result h nw dst.toNat (x ||| y)))

/-- R166, A XOR B. -/
def execXor (nw : Bool) (dst : BitVec 6) (a b : BitVec 7) (s : State) : Out :=
  onSq s (fun h => s.withAB h a b (fun x y => s.result h nw dst.toNat (x ^^^ y)))

/-- R166, A AND NOT B. -/
def execAndn (nw : Bool) (dst : BitVec 6) (a b : BitVec 7) (s : State) : Out :=
  onSq s (fun h => s.withAB h a b (fun x y => s.result h nw dst.toNat (x &&& ~~~y)))

/-- R166, A shifted left by B mod 64. -/
def execShl (nw : Bool) (dst : BitVec 6) (a b : BitVec 7) (s : State) : Out :=
  onSq s (fun h => s.withAB h a b (fun x y => s.result h nw dst.toNat (x <<< shiftBy y)))

/-- R166, UA shifted right by B mod 64. -/
def execShr (nw : Bool) (dst : BitVec 6) (a b : BitVec 7) (s : State) : Out :=
  onSq s (fun h => s.withAB h a b (fun x y => s.result h nw dst.toNat (x >>> shiftBy y)))

/-- R166, SA shifted right by B mod 64. -/
def execSar (nw : Bool) (dst : BitVec 6) (a b : BitVec 7) (s : State) : Out :=
  onSq s (fun h => s.withAB h a b (fun x y => s.result h nw dst.toNat (x.sshiftRight (shiftBy y))))

/-- R166, A rotated left by B mod 64. -/
def execRol (nw : Bool) (dst : BitVec 6) (a b : BitVec 7) (s : State) : Out :=
  onSq s (fun h => s.withAB h a b (fun x y => s.result h nw dst.toNat (rolW x (shiftBy y))))

/-- R166, the low 64 bits of A × B. -/
def execMul (nw : Bool) (dst : BitVec 6) (a b : BitVec 7) (s : State) : Out :=
  onSq s (fun h => s.withAB h a b (fun x y => s.result h nw dst.toNat (x * y)))

/-- R166, bits [127:64] of SA × SB. -/
def execMulh (nw : Bool) (dst : BitVec 6) (a b : BitVec 7) (s : State) : Out :=
  onSq s (fun h => s.withAB h a b (fun x y => s.result h nw dst.toNat (highW (x.toInt * y.toInt))))

/-- R166, bits [127:64] of UA × UB. -/
def execMulhu (nw : Bool) (dst : BitVec 6) (a b : BitVec 7) (s : State) : Out :=
  onSq s (fun h => s.withAB h a b (fun x y => s.result h nw dst.toNat (highW ((x.toNat : Int) * y.toNat))))

/-- R167, the signed quotient. -/
def execDiv (nw : Bool) (dst : BitVec 6) (a b : BitVec 7) (s : State) : Out :=
  onSq s (fun h => s.withAB h a b (fun x y => s.result h nw dst.toNat (intW (divS x y).1)))

/-- R167, the unsigned quotient. -/
def execDivu (nw : Bool) (dst : BitVec 6) (a b : BitVec 7) (s : State) : Out :=
  onSq s (fun h => s.withAB h a b (fun x y => s.result h nw dst.toNat (BitVec.ofNat 64 (divU x y).1)))

/-- R167, the signed remainder. -/
def execRem (nw : Bool) (dst : BitVec 6) (a b : BitVec 7) (s : State) : Out :=
  onSq s (fun h => s.withAB h a b (fun x y => s.result h nw dst.toNat (intW (divS x y).2)))

/-- R167, the unsigned remainder. -/
def execRemu (nw : Bool) (dst : BitVec 6) (a b : BitVec 7) (s : State) : Out :=
  onSq s (fun h => s.withAB h a b (fun x y => s.result h nw dst.toNat (BitVec.ofNat 64 (divU x y).2)))

/-- R166, the smaller of SA, SB. -/
def execMin (nw : Bool) (dst : BitVec 6) (a b : BitVec 7) (s : State) : Out :=
  onSq s (fun h => s.withAB h a b (fun x y => s.result h nw dst.toNat (if x.toInt ≤ y.toInt then x else y)))

/-- R166, the larger of SA, SB. -/
def execMax (nw : Bool) (dst : BitVec 6) (a b : BitVec 7) (s : State) : Out :=
  onSq s (fun h => s.withAB h a b (fun x y => s.result h nw dst.toNat (if x.toInt ≤ y.toInt then y else x)))

/-- R166, the smaller of UA, UB. -/
def execMinu (nw : Bool) (dst : BitVec 6) (a b : BitVec 7) (s : State) : Out :=
  onSq s (fun h => s.withAB h a b (fun x y => s.result h nw dst.toNat (if x.toNat ≤ y.toNat then x else y)))

/-- R166, the larger of UA, UB. -/
def execMaxu (nw : Bool) (dst : BitVec 6) (a b : BitVec 7) (s : State) : Out :=
  onSq s (fun h => s.withAB h a b (fun x y => s.result h nw dst.toNat (if x.toNat ≤ y.toNat then y else x)))

/-- R166, the leading zero bits of A. -/
def execClz (nw : Bool) (dst : BitVec 6) (a : BitVec 7) (s : State) : Out :=
  onSq s (fun h => s.withA h a (fun x => s.result h nw dst.toNat (BitVec.ofNat 64 (zerosDown x.toNat 64))))

/-- R166, the trailing zero bits of A. -/
def execCtz (nw : Bool) (dst : BitVec 6) (a : BitVec 7) (s : State) : Out :=
  onSq s (fun h => s.withA h a (fun x => s.result h nw dst.toNat (BitVec.ofNat 64 (zerosUp x.toNat 0 64))))

/-- R166, the one bits of A. -/
def execPopc (nw : Bool) (dst : BitVec 6) (a : BitVec 7) (s : State) : Out :=
  onSq s (fun h => s.withA h a (fun x => s.result h nw dst.toNat (BitVec.ofNat 64 (onesOf x.toNat 64))))

/-- R166, SA + SB saturated. -/
def execAdds (nw : Bool) (dst : BitVec 6) (a b : BitVec 7) (s : State) : Out :=
  onSq s (fun h => s.withAB h a b (fun x y => s.resultFlags h nw dst.toNat (satW (x.toInt + y.toInt))))

/-- R166, SA − SB saturated. -/
def execSubs (nw : Bool) (dst : BitVec 6) (a b : BitVec 7) (s : State) : Out :=
  onSq s (fun h => s.withAB h a b (fun x y => s.resultFlags h nw dst.toNat (satW (x.toInt - y.toInt))))

/-! ## The cmp group (R169) -/

/-- R169, 1 if A = B. -/
def execSeq (nw : Bool) (dst : BitVec 6) (a b : BitVec 7) (s : State) : Out :=
  onSq s (fun h => s.withAB h a b (fun x y => s.result h nw dst.toNat (oneIf (decide (x = y)))))

/-- R169, 1 if A ≠ B. -/
def execSne (nw : Bool) (dst : BitVec 6) (a b : BitVec 7) (s : State) : Out :=
  onSq s (fun h => s.withAB h a b (fun x y => s.result h nw dst.toNat (oneIf (decide (x ≠ y)))))

/-- R169, 1 if SA < SB. -/
def execSlt (nw : Bool) (dst : BitVec 6) (a b : BitVec 7) (s : State) : Out :=
  onSq s (fun h => s.withAB h a b (fun x y => s.result h nw dst.toNat (oneIf (decide (x.toInt < y.toInt)))))

/-- R169, 1 if UA < UB. -/
def execSltu (nw : Bool) (dst : BitVec 6) (a b : BitVec 7) (s : State) : Out :=
  onSq s (fun h => s.withAB h a b (fun x y => s.result h nw dst.toNat (oneIf (decide (x.toNat < y.toNat)))))

/-- R169, 1 if SA ≥ SB. -/
def execSge (nw : Bool) (dst : BitVec 6) (a b : BitVec 7) (s : State) : Out :=
  onSq s (fun h => s.withAB h a b (fun x y => s.result h nw dst.toNat (oneIf (decide (y.toInt ≤ x.toInt)))))

/-- R169, 1 if UA ≥ UB. -/
def execSgeu (nw : Bool) (dst : BitVec 6) (a b : BitVec 7) (s : State) : Out :=
  onSq s (fun h => s.withAB h a b (fun x y => s.result h nw dst.toNat (oneIf (decide (y.toNat ≤ x.toNat)))))

/-! ## The immediate forms (R168) -/

/-- R168, (A shifted left by 12) OR the immediate. -/
def execSli (nw : Bool) (dst : BitVec 6) (a : BitVec 7) (imm : BitVec 12) (s : State) : Out :=
  onSq s (fun h => s.withA h a (fun x => s.result h nw dst.toNat (x <<< 12 ||| immU imm)))

/-- R168, A + the sign-extended immediate. -/
def execAddi (nw : Bool) (dst : BitVec 6) (a : BitVec 7) (imm : BitVec 12) (s : State) : Out :=
  onSq s (fun h => s.withA h a (fun x => s.result h nw dst.toNat (x + immS imm)))

/-- R168, A AND the immediate. -/
def execAndi (nw : Bool) (dst : BitVec 6) (a : BitVec 7) (imm : BitVec 12) (s : State) : Out :=
  onSq s (fun h => s.withA h a (fun x => s.result h nw dst.toNat (x &&& immU imm)))

/-- R168, A OR the immediate. -/
def execOri (nw : Bool) (dst : BitVec 6) (a : BitVec 7) (imm : BitVec 12) (s : State) : Out :=
  onSq s (fun h => s.withA h a (fun x => s.result h nw dst.toNat (x ||| immU imm)))

/-- R168, A XOR the immediate. -/
def execXori (nw : Bool) (dst : BitVec 6) (a : BitVec 7) (imm : BitVec 12) (s : State) : Out :=
  onSq s (fun h => s.withA h a (fun x => s.result h nw dst.toNat (x ^^^ immU imm)))

/-- R168, A shifted left. -/
def execShli (nw : Bool) (dst : BitVec 6) (a : BitVec 7) (sh : BitVec 6) (s : State) : Out :=
  onSq s (fun h => s.withA h a (fun x => s.result h nw dst.toNat (x <<< sh.toNat)))

/-- R168, UA shifted right. -/
def execShri (nw : Bool) (dst : BitVec 6) (a : BitVec 7) (sh : BitVec 6) (s : State) : Out :=
  onSq s (fun h => s.withA h a (fun x => s.result h nw dst.toNat (x >>> sh.toNat)))

/-- R168, SA shifted right. -/
def execSari (nw : Bool) (dst : BitVec 6) (a : BitVec 7) (sh : BitVec 6) (s : State) : Out :=
  onSq s (fun h => s.withA h a (fun x => s.result h nw dst.toNat (x.sshiftRight sh.toNat)))

/-- R168, 1 if SA < the sign-extended immediate. -/
def execSlti (nw : Bool) (dst : BitVec 6) (a : BitVec 7) (imm : BitVec 12) (s : State) : Out :=
  onSq s (fun h => s.withA h a (fun x => s.result h nw dst.toNat (oneIf (decide (x.toInt < (immS imm).toInt)))))

/-- R168, 1 if UA < U(the sign-extended immediate). -/
def execSltiu (nw : Bool) (dst : BitVec 6) (a : BitVec 7) (imm : BitVec 12) (s : State) : Out :=
  onSq s (fun h => s.withA h a (fun x => s.result h nw dst.toNat (oneIf (decide (x.toNat < (immS imm).toNat)))))

end Sys2Proof.Machine
end

