-- ==== Sys2Proof/Machine/Transfer.lean ====
section
/-! DEFINITION. Transfer step words: state, copies, the message to an Ethernet port, publish, the schedule cache, and the
checks and completion of a command (R275 to R288, R297). -/

namespace Sys2Proof.Machine

open Sys2Proof

/-! ## State words (R277, R278) -/

/-- Bits [5:0] of an address register. -/
def setLow (a : BitVec 56) (x : BitVec 6) : BitVec 56 := BitVec.ofNat 56 (a.toNat / 64 * 64 + x.toNat)

/-- Changes the TR address register that `tgt` names (R277). -/
def TrState.mapAddr (m : TrState) (tgt : BitVec 2) (f : BitVec 56 → BitVec 56) : TrState :=
  match tgt.toNat with
  | 0 => { m with saddr := f m.saddr }
  | 1 => { m with daddr := f m.daddr }
  | 2 => { m with stampAddr := f m.stampAddr }
  | _ => { m with ctrAddr := f m.ctrAddr }

/-- What a state word does to the TR state. -/
def TrState.word (m : TrState) (i : Instr) : TrState :=
  match i with
  | .tah tgt b => m.mapAddr tgt (fun a => setHigh a b)
  | .tal tgt b => m.mapAddr tgt (fun a => setMid a b)
  | .tlb tgt b => m.mapAddr tgt (fun a => setLow a b)
  | .tshape rows rb => { m with rowbytes := rb, rowsM1 := rows }
  | .tstride side st => if side then { m with dstr := st } else { m with sstr := st }
  | _ => m

/-- Whether a step word is a state word of TR (R276). -/
def isTrState (w : Nat) : Bool := decide (1 ≤ w / 2 ^ 27) && decide (w / 2 ^ 27 ≤ 5)

/-- The TR state that the state words of a command leave. -/
def TrState.after (m : TrState) (ws : List Nat) : TrState :=
  ws.foldl (fun m w => match decodeTr w with | .ok i => m.word i | .error _ => m) m

/-- A state word is performed. -/
def State.trState (s : State) (h : Here) (i : Instr) : State :=
  s.mapPly h (fun p => if p.tr.cmd.isNone then p else { p with tr := p.tr.word i }.wordDone .tr)

/-- R277, writes bits 55:31 of a TR address register. -/
def execTah (tgt : BitVec 2) (bits : BitVec 25) (s : State) : Out := onRing .tr s (fun h => s.trState h (.tah tgt bits))

/-- R277, writes bits 30:6 of a TR address register and clears bits 5:0. -/
def execTal (tgt : BitVec 2) (bits : BitVec 25) (s : State) : Out := onRing .tr s (fun h => s.trState h (.tal tgt bits))

/-- R277, writes bits 5:0 of a TR address register. -/
def execTlb (tgt : BitVec 2) (bits : BitVec 6) (s : State) : Out := onRing .tr s (fun h => s.trState h (.tlb tgt bits))

/-- R278, bytes per row and rows. -/
def execTshape (rowsM1 : BitVec 13) (rowbytes : BitVec 14) (s : State) : Out :=
  onRing .tr s (fun h => s.trState h (.tshape rowsM1 rowbytes))

/-- R278, a row stride. -/
def execTstride (side : Bool) (stride : BitVec 26) (s : State) : Out := onRing .tr s (fun h => s.trState h (.tstride side stride))

/-! ## Bytes of TR (R279, R280) -/

/-- Locates a byte at an unbounded address for TR; `keep` names the homes it may lie at, and any other is out of range
with cause 0. -/
def State.trByte (s : State) (h : Here) (m : Mode) (snap : Snap) (keep : Loc → Bool) (a : Int) : Nat × Loc :=
  (uNat a 56,
    if a < 0 ∨ (2 ^ 56 : Nat) ≤ a then .here (.bad 0)
    else
      let l := (s.locate h.d (some h.key) (s.ply h).vf m snap a.toNat).1
      match l with
      | .fault _ _ => l
      | .here (.bad _) => l
      | _ => if keep l then l else .here (.bad 0))

/-- Whether a byte lies in the issuing die's store. -/
def Loc.isHere (l : Loc) : Bool := match l with | .here _ => true | _ => false
/-- Whether a byte lies in host memory. -/
def Loc.isHost (l : Loc) : Bool := match l with | .host _ => true | _ => false
/-- Whether a byte lies on a peer panel. -/
def Loc.isPeer (l : Loc) : Bool := match l with | .peer _ _ => true | _ => false

/-- The lowest faulting byte: address, reason, level (R353). -/
def lowFault (ls : List (Nat × Loc)) : Option (Nat × Nat × Nat) :=
  ls.foldl (fun f e => match e.2 with | .fault r l => lowestFault f (some (e.1, r, l)) | _ => f) none

/-- The lowest offending byte: address, cause (R99). -/
def lowBad (ls : List (Nat × Loc)) : Option (Nat × Nat) :=
  ls.foldl (fun f e => match e.2, f with
    | .here (.bad c), none => some (e.1, c)
    | .here (.bad c), some g => if e.1 < g.1 then some (e.1, c) else f
    | _, _ => f) none

/-- Locates source bytes of TR: the issuing die's store, or host memory. -/
def State.trSource (s : State) (h : Here) (snap : Snap) (as : List Int) : List (Nat × Loc) :=
  as.map (s.trByte h .load snap (fun l => l.isHere || l.isHost))

/-- The bytes at located sources; what host memory returns is a free value (log 10). -/
def State.trRead (s : State) (h : Here) (ls : List (Nat × Loc)) : List Byte :=
  ls.map (fun e => match e.2 with
    | .here p => (s.die h.d).readPlace p
    | .host pa => Config.outsideByte pa s.tick
    | _ => 0)

/-- Reads `n` bytes from `a` for TR: a translation fault, or the bytes with the offence recorded. -/
def State.trFetch (s : State) (h : Here) (snap : Snap) (a : Int) (n : Nat) : Except (Nat × Nat × Nat) (List Byte × State) :=
  let ls := s.trSource h snap ((List.range n).map (fun (i : Nat) => a + (i : Int)))
  match lowFault ls with
  | some f => .error f
  | none => .ok (s.trRead h ls, s.offend h 5 false (lowBad ls))

/-- Bytes of the current copy (R279). -/
def TrState.bytes (m : TrState) : Nat := (m.rowsM1.toNat + 1) * m.rowbytes.toNat

/-- The source and destination addresses of stream byte `i` (R279). -/
def TrState.source (m : TrState) (i : Nat) : Int :=
  m.saddr.toNat + (i / m.rowbytes.toNat : Nat) * m.sstr.toInt + (i % m.rowbytes.toNat : Nat)
def TrState.dest (m : TrState) (i : Nat) : Int :=
  m.daddr.toNat + (i / m.rowbytes.toNat : Nat) * m.dstr.toInt + (i % m.rowbytes.toNat : Nat)

/-- Where a copy writes (R280). -/
inductive Target where
  | local_
  | die (d : Nat)
  | peer
  | host
  | nowhere
  deriving DecidableEq, Repr

/-- The destination that `.remote`, `.host` and `die` choose (R280). -/
def State.copyTarget (s : State) (h : Here) (host remote : Bool) (d : Nat) : Target :=
  if host then .host
  else if !remote then .local_
  else if d = h.d then .peer
  else if (s.die d).member ∧ (s.die d).part = (s.vf (s.ply h).vf).part then .die d
  else .nowhere

/-- Whether the target of a copy to another die has applied every frame that precedes the copy's next one: those of this die, its
open one among them, and those that its clock covers. The target translates the chunk as it then stands (R114, R280, R359, log 40). -/
def State.farReady (s : State) (h : Here) (d : Nat) : Bool :=
  ((s.die h.d).link d).open_.isEmpty &&
    !s.frames.any (fun f => decide (f.dst = d) && (decide (f.src = h.d) || clockReached ((s.die h.d).clock f.src) f.own))

/-- Locates a destination byte at another die: translated there, in the issuing context; a byte outside the window, or
that does not lie on that die, keeps an address above every device address, so that it is out of range there (R280). -/
def State.farByte (s : State) (h : Here) (d : Nat) (a : Int) : Nat × Loc :=
  let f := s.vf (s.ply h).vf
  let out := (2 ^ 56 + uNat a 56, Loc.remote d (2 ^ 56 + uNat a 56))
  if a < 0 ∨ (2 ^ 56 : Nat) ≤ a then out
  else
    let plain := a.toNat % 2 ^ 55
    if plain < f.winBase.toNat ∨ f.winLimit.toNat ≤ plain then out
    else match s.translate d (s.ply h).vf plain true with
      | .fault r l => (a.toNat, .fault r l)
      | .page p => if p.kind = 0 ∧ p.home = d then (a.toNat, .remote d p.pa) else out
      | .out => out

/-- Whether a byte at an unbounded address lies on an HT page (R119). -/
def State.trHt (s : State) (h : Here) (d : Nat) (m : Mode) (a : Int) : Bool :=
  decide (0 ≤ a) && decide (a < (2 ^ 56 : Nat)) && (s.xlate d (s.ply h).vf m a.toNat).ht

/-- Locates the destination bytes of a copy. -/
def State.trDest (s : State) (h : Here) (m : Mode) (t : Target) (as : List Int) : List (Nat × Loc) :=
  match t with
  | .local_ => as.map (s.trByte h m none Loc.isHere)
  | .host => as.map (s.trByte h m none Loc.isHost)
  | .peer => as.map (s.trByte h m none Loc.isPeer)
  | .die d => as.map (s.farByte h d)
  | .nowhere => as.map (fun a => (uNat a 56, .here (.bad 0)))

/-- The record of one run of TR bytes (R370). -/
def State.trRecord (s : State) (h : Here) (bs : List Byte) (stamp : Bool) (r : Run) : AccRec :=
  let p := s.ply h
  { kind := 0, op := 0, va := r.va, pa := r.pa, len := r.len, data := (bs.drop r.at_).take r.len, expect := 0, die := h.d,
    core := h.c, slot := h.k, agent := 5, at_ := r.at_, unit := p.unit, vf := p.vf, stamp := stamp,
    tgen := (s.vf p.vf).tgen }

/-- Of the units of 8 bytes at which a local write of TR meets a delivery of an outstanding tcoll of its unit, those whose write
the manual lets come first: the delivery stands there. Which they are is a free choice for each unit (R288, log 77). -/
def State.trBefore (s : State) (h : Here) (va : Nat) : Bool :=
  (s.die h.d).tcolls.any (fun t => decide (t.unit = (s.ply h).unit) && !t.retired && decide (t.output ≤ va / 8 * 8 + 7) &&
    decide (va / 8 * 8 < t.output + t.outAt) && Config.seesOld t.seq.toNat (va / 8))

/-- The tcolls of a unit that are outstanding remember the units of 8 bytes that its other commands write meanwhile (R288). -/
def Die.noteMixed (x : Die) (u : Nat) (vas : List Nat) : Die :=
  { x with tcolls := x.tcolls.map (fun t => if t.unit = u ∧ !t.retired then { t with mixed := t.mixed ++ vas.map (· / 8) } else t) }

/-- The local bytes of a TR write. -/
def State.trLocal (s : State) (h : Here) (ls : List (Nat × Loc)) (bs : List Byte) : State :=
  let es := (ls.zip bs).filter (fun e => e.1.2.isHere && !s.trBefore h e.1.1)
  s.mapDie h.d (fun x => (x.writeLocs (es.map Prod.fst) (s.ply h).unit (es.map Prod.snd)).noteMixed (s.ply h).unit
    ((ls.filter (fun e => e.2.isHere)).map Prod.fst))

/-- Writes located bytes: local ones at once, the others in frames, posted, or on their egress link; `ctr` is the completion
counter of the frames (R116, R280). -/
def State.trWrite (s : State) (h : Here) (ls : List (Nat × Loc)) (bs : List Byte) (ctr : Nat) (stamp : Bool) : State :=
  let p := s.ply h
  let s := (s.trLocal h ls bs).offend h 5 true (lowBad ls)
  (runsOf 0 ls).foldl (fun s r =>
    let q := s.trRecord h bs stamp r
    if r.dest < 64 then s.addRec h.d r.dest ctr q
    else if r.dest = 64 then s.post h r.pa q.data
    else s.addEgress (r.dest - 65) (s.vf p.vf).part.toNat q) s

/-! ## tcopy (R279 to R282) -/

/-- Adds to a completion counter in the issuing die's store; a counter out of range keeps no count (R116, R281). In a registered
buffer the counter is that of the live frame, as a stamp is (log 77). -/
def State.countLocal (s : State) (h : Here) (ls : List (Nat × Loc)) (n : Nat) : State :=
  if (lowBad ls).isSome then s
  else
    let old := leNat ((s.die h.d).readLocs ls)
    s.mapDie h.d (fun x => x.writeLocs ls (s.ply h).unit (leBytes 8 (old + n)))

/-- The 8 addresses from an address up. -/
def eight (a : Nat) : List Int := (List.range 8).map (fun (i : Nat) => (a : Int) + (i : Int))

/-- The end of a copy, whose counter and stamp have been located: the count of a local copy, the stamp, and the closing of the
frames of a copy to another die (R281, R287; log 14). A counter or a stamp in a registered buffer takes the live frame (R101; of the
counter, log 77). -/
def State.copyEnd (s : State) (h : Here) (t : Target) (cl sl : List (Nat × Loc)) (ctr : Nat) : State :=
  let m := (s.ply h).tr
  let s := if t = .local_ ∧ !cl.isEmpty then s.countLocal h cl m.bytes else s
  let s := if sl.isEmpty then s
    else (s.mapPly h (fun p => { p with tr := { p.tr with tseq := m.tseq + 1 } })).trWrite h sl (leBytes 8 (m.tseq + 1).toNat) ctr true
  let s := match t with | .die _ => s.closeFrames h.d | _ => s
  s.mapPly h (fun p => { p with tr := { p.tr with doneChunks := 0 } }.wordDone .tr)

/-- Inserts a located byte by its address, behind those of the same address. -/
def byAddr (e : (Nat × Loc) × Byte) (l : List ((Nat × Loc) × Byte)) : List ((Nat × Loc) × Byte) :=
  match l with
  | [] => [e]
  | x :: t => if x.1.1 ≤ e.1.1 then x :: byAddr e t else e :: x :: t

/-- Writes the bytes of chunks, 4,096 at a time. -/
def State.trSend (s : State) (h : Here) (es : List ((Nat × Loc) × Byte)) (ctr n : Nat) : State :=
  iterFrom (fun i s =>
    let e := (es.drop (4096 * i)).take 4096
    s.trWrite h (e.map Prod.fst) (e.map Prod.snd) ctr false) 0 n s

/-- How the chunks of one step of a copy stand: whether it is the first step of a run, and, of chunks performed as one, whether their
writes go in address order (R119). -/
structure CopyStep where
  chunks : Nat
  sorted : Bool
  first : Bool

/-- The next chunks of a copy, performed as one: every byte's translation, then every read, then every write. The last chunk takes
the counter and the stamp with it, so that the stamp travels in its payload's frame (R105, R281); their translation is checked with it. A
chunk that touches an HT page waits for the unit's earlier accesses (R119), and one for another die for the frames that precede it
there (R114, R359). -/
def State.copyChunk (s : State) (h : Here) (c : CmdRun) (t : Target) (count stamp : Bool) (q : CopyStep) : State :=
  let m := (s.ply h).tr
  let i0 := 4096 * m.doneChunks
  let is := (List.range (min (4096 * q.chunks) (m.bytes - i0))).map (· + i0)
  let last := decide (m.bytes ≤ i0 + 4096 * q.chunks)
  let snap := c.snap.getD (s.die h.d).sample
  let away := match t with | .die e => e | _ => h.d
  let counts := count && (match t with | .local_ => last | .die _ => true | _ => false)
  let stamps := last && stamp
  let src := s.trSource h (some snap) (is.map m.source)
  let dst := s.trDest h .engine t (is.map m.dest)
  let cl := if counts then s.trDest h .stamp t (eight m.ctrAddr.toNat) else []
  let sl := if stamps then s.trDest h .stamp t (eight m.stampAddr.toNat) else []
  let ht := is.any (fun i => s.trHt h h.d .load (m.source i) || s.trHt h away .engine (m.dest i)) ||
    (counts && (eight m.ctrAddr.toNat).any (s.trHt h away .stamp)) || (stamps && (eight m.stampAddr.toNat).any (s.trHt h away .stamp))
  if q.first && (match t with | .die e => !s.farReady h e | _ => false) then
    (match t with | .die e => if ((s.die h.d).link e).open_.isEmpty then s else s.closeFrames h.d | _ => s)
  else match lowestFault (lowestFault (lowFault src) (lowFault dst)) (lowestFault (lowFault cl) (lowFault sl)) with
  | some f => s.faultRing h .tr f
  | none =>
    match s.htGate h (q.first && ht) with
    | .error u => u
    | .ok s =>
      let ctr := if count then m.ctrAddr.toNat else 0
      let es := dst.zip (s.trRead h src)
      let s := (s.offend h 5 false (lowBad src)).trSend h (if q.sorted then es.foldr byAddr [] else es) ctr ((is.length + 4095) / 4096)
      if last then s.copyEnd h t cl sl ctr
      else s.mapPly h (fun p => { p with tr := { p.tr with
        doneChunks := m.doneChunks + q.chunks, cmd := some { c with snap := some snap } } })

/-- Chunks of a copy, one after another, at most `n`, until one ends it, waits or faults. -/
def State.copyRun (s : State) (h : Here) (t : Target) (count stamp : Bool) (first : Bool) (n : Nat) : State :=
  match n with
  | 0 => s
  | n + 1 =>
    match (s.ply h).tr.cmd with
    | none => s
    | some c =>
      let u := s.copyChunk h c t count stamp ⟨1, false, first⟩
      if (u.ply h).tr.doneChunks = (s.ply h).tr.doneChunks + 1 then u.copyRun h t count stamp false n else u

/-- Whether a copy does not run up through an HT page: no agent may see its accesses there in another order than that of their
addresses (R119). -/
def State.copyDown (s : State) (h : Here) (t : Target) : Bool :=
  let m := (s.ply h).tr
  let away := match t with | .die e => e | _ => h.d
  let down := fun (st : BitVec 26) => decide (st.toInt < m.rowbytes.toNat) && decide (m.rowsM1 ≠ 0)
  (down m.sstr && (List.range m.bytes).any (fun i => s.trHt h h.d .load (m.source i))) ||
    (down m.dstr && (List.range m.bytes).any (fun i => s.trHt h away .engine (m.dest i)))

/-- The chunks of a copy from the next one on that come before the first one that faults in translation. -/
def State.cleanChunks (s : State) (h : Here) (t : Target) (k n : Nat) : Nat :=
  match n with
  | 0 => 0
  | n + 1 =>
    let m := (s.ply h).tr
    let is := (List.range (min 4096 (m.bytes - 4096 * k))).map (· + 4096 * k)
    if (lowestFault (lowFault (s.trSource h none (is.map m.source))) (lowFault (s.trDest h .engine t (is.map m.dest)))).isSome then 0
    else s.cleanChunks h t (k + 1) n + 1

/-- R279, copies rows, one chunk at a time. A copy that does not run up through an HT page is performed in one step as far as it can
go: a local one chunk after chunk, which no agent sees, and one that leaves the die as one chunk whose writes go in address order
(R119, log 14). -/
def execTcopy (stamp count host remote : Bool) (die : BitVec 6) (s : State) : Out :=
  onRing .tr s (fun h =>
    let t := s.copyTarget h host remote die.toNat
    let k := (s.ply h).tr.doneChunks
    let n := ((s.ply h).tr.bytes + 4095) / 4096 - k
    if !s.copyDown h t then s.copyRun h t count stamp true 1
    else if t = .local_ then s.copyRun h t count stamp true n
    else match (s.ply h).tr.cmd with
      | none => s
      | some c => s.copyChunk h c t count stamp ⟨max 1 (s.cleanChunks h t k n), true, true⟩)

/-! ## The other operation words (R283 to R286) -/

/-- The `ident` of a unit's launch command. -/
def Die.identOf (x : Die) (u : Nat) : W32 := ((x.unit? u).bind (fun w => (x.launch? w.launch).map Launch.ident)).getD 0

/-- The mapping that a command of TR sampled as it issued (R102). -/
def CmdRun.map (c : CmdRun) (x : Die) : Snap := some (c.snap.getD x.sample)

/-- R283, sends the row and the enqueue to the target; the word waits for the target's answer. Nothing is sent to a die outside
the partition: every byte of the row is out of range there, as R280 has it for a tcopy (log 78). -/
def execTenq (notify : Bool) (die : BitVec 6) (queue : BitVec 8) (s : State) : Out :=
  onRing .tr s (fun h =>
    let p := s.ply h
    let y := s.die die.toNat
    match p.tr.cmd with
    | none => s
    | some c =>
      if c.iter ≠ 0 then s
      else if !(y.member && decide (y.part = (s.vf p.vf).part)) then
        (s.tickFresh.tickFresh).faultRing h .tr (p.tr.daddr.toNat, Config.choice s.fresh % 16, Config.choice (s.fresh + 1) % 16)
      else match s.trFetch h (c.map (s.die h.d)) p.tr.saddr.toNat p.tr.rowbytes.toNat with
        | .error f => s.faultRing h .tr f
        | .ok (bs, t) =>
          match t.htGate h ((List.range p.tr.rowbytes.toNat).any (fun (i : Nat) => s.trHt h h.d .load (p.tr.saddr.toNat + (i : Int)) ||
              s.trHt h die.toNat .store (p.tr.daddr.toNat + (i : Int)))) with
          | .error u => u
          | .ok t =>
            let q : Tenq := ⟨h.d, h.c, h.k, p.unit, p.vf, (s.die h.d).identOf p.unit, queue.toNat, notify, p.tr.daddr.toNat, bs,
              (s.die h.d).inc, y.inc, false, 0⟩
            (t.mapDie die.toNat (fun x => { x with tenqs := x.tenqs ++ [q] })).mapPly h (fun p => p.mapCmd .tr (fun c => { c with iter := 1 })))

/-- The source bytes of a message (R284). -/
def State.message (s : State) (h : Here) (snap : Snap) (m : TrState) : List (Nat × Loc) :=
  s.trSource h snap ((List.range m.bytes).map m.source)

/-- R284, the port's engine accepts the whole message in one step. A header that the message does not fill reads zero. -/
def execTsend (port : BitVec 3) (s : State) : Out :=
  onRing .tr s (fun h =>
    let p := s.ply h
    match p.tr.cmd with
    | none => s
    | some c =>
      let ls := s.message h (c.map (s.die h.d)) p.tr
      match lowFault ls with
      | some f => s.faultRing h .tr f
      | none =>
      match s.htGate h ((List.range p.tr.bytes).any (fun i => s.trHt h h.d .load (p.tr.source i))) with
      | .error u => u
      | .ok s =>
        let bs := s.trRead h ls
        let hd := BitVec.ofNat 512 (leNat (bs.take 64))
        let msg : EthMsg := ⟨h.d, p.vf, (s.vf p.vf).part.toNat, bits hd.toNat 288 56, hd, bs.drop 64⟩
        ((s.offend h 5 false (lowBad ls)).mapPort port.toNat (fun e => { e with sending := e.sending ++ [msg] })).mapPly h
          (fun p => p.wordDone .tr))

/-- Whether a unit has a tcoll outstanding on a die (R287). -/
def Die.collsOut (x : Die) (u : Nat) : Nat := (x.tcolls.filter (fun t => decide (t.unit = u) && !t.retired)).length

/-- R285, publishes a buffer once every earlier command has completed, and writes its report, in the frame that is live after
the flip (R101). -/
def execTflip (entry : BitVec 10) (s : State) : Out :=
  onRing .tr s (fun h =>
    let p := s.ply h
    if p.tr.cmd.isNone ∨ (s.die h.d).collsOut p.unit ≠ 0 then s
    else
      let a := p.tr.stampAddr.toNat
      let at_ := fun (s : State) => if a = 0 then [] else s.trDest h .stamp .local_ (eight a)
      match lowFault (at_ s) with
      | some f => s.faultRing h .tr f
      | none =>
        match s.htGate h (decide (a ≠ 0) && (eight a).any (s.trHt h h.d .stamp)) with
        | .error u => u
        | .ok s =>
          let r := (s.die h.d).publish entry.toNat
          let s := s.setDie h.d r.1
          let report := r.2 + (if r.2 = 3 then 0 else (r.1.buf entry.toNat).epoch.toNat) * 2 ^ 32
          let s := if a = 0 then s else s.trWrite h (at_ s) (leBytes 8 report) 0 true
          s.mapPly h (fun p => p.wordDone .tr))

/-- R286, drops entries of the schedule cache. -/
def execTsinv (all : Bool) (s : State) : Out :=
  onRing .tr s (fun h =>
    if (s.ply h).tr.cmd.isNone then s
    else
      let a := (s.ply h).tr.saddr.toNat
      (s.mapDie h.d (fun x => { x with sched := if all then [] else x.sched.filter (fun e => e.1 != a) })).mapPly h
        (fun p => p.wordDone .tr))

/-! ## Collective descriptors (R289, R290) -/

/-- A hop entry's fields. -/
def hopOp (e : W32) : Nat := bits e.toNat 0 3
def hopSw (e : W32) : Bool := bitB e.toNat 3
def hopNode (e : W32) : Nat := bits e.toNat 4 6
def hopFan (e : W32) : Nat := bits e.toNat 10 6
def hopCopy (e : W32) : Nat := bits e.toNat 16 16

/-- The node a hop entry names: carder 0 to 63, switch die 64 to 79. -/
def hopAt (e : W32) : Nat := if hopSw e then 64 + hopNode e else hopNode e

/-- The hop entries in use. -/
def descRoute (v : Nat) : List W32 := (List.range (bits v 208 4)).map (fun i => BitVec.ofNat 32 (bits v (256 + 32 * i) 32))

/-- Whether a route breaks a rule of R290; `prev`: the entry before was a forward with copies. -/
def routeBad (prev : Bool) (rs : List W32) : Bool :=
  match rs with
  | [] => false
  | e :: t =>
    let op := hopOp e
    let copies := decide (hopCopy e ≠ 0)
    decide (4 < op) || (decide (op = 3 ∨ op = 4) != t.isEmpty) ||
      (if prev then !(hopSw e && decide (hopNode e = 63)) else hopSw e && decide (15 < hopNode e)) ||
      (if op = 1 ∨ op = 2 then decide (hopFan e < 2) || copies else decide (hopFan e ≠ 0)) ||
      (decide (op = 0) && copies && !hopSw e) ||
      (decide (op = 3 ∨ op = 4) && (if hopSw e then decide (15 < hopCopy e) else copies)) ||
      routeBad (decide (op = 0) && copies) t

/-- Whether a descriptor is ill-formed (R289, R290). -/
def descBad (v : Nat) : Bool :=
  decide (bits v 56 8 ≠ 0) || decide (bits v 120 8 ≠ 0) || decide (bits v 212 44 ≠ 0) || decide (bits v 160 16 = 0) ||
    decide (bits v 176 4 < 6) || decide (12 < bits v 176 4) || decide (bits v 180 2 = 3) || decide (bits v 208 4 = 0) ||
    decide (8 < bits v 208 4) || routeBad false (descRoute v)

/-- The carders that the last entry of a route delivers to, with the entry before it (R290). -/
def deliverTo (rs : List W32) : List Nat :=
  let e := rs.getLastD 0
  if !hopSw e then [hopNode e]
  else
    let sws := if hopNode e = 63 then (List.range 16).filter (fun k => bitB (hopCopy (rs.dropLast.getLastD 0)) k) else [hopNode e]
    sws.flatMap (fun n => ((List.range 4).filter (fun k => bitB (hopCopy e) k)).map (fun k => 4 * n + k))

/-- Under which key a die numbers its collectives on a group of a partition (R378, R379). -/
def groupKey (p g : Nat) : Nat := 256 * p + g

/-- A collective group of a partition. -/
def State.group (s : State) (p g : Nat) : Group := mget .reset (s.part p).groups g

/-- Whether a die may name a group (R378, R393). -/
def State.groupOk (s : State) (p g d : Nat) : Bool :=
  let r := s.group p g
  decide (g < 256) && r.valid && bitB r.members.toNat d &&
    (!r.enc || (decide (r.keySlot.toNat ≤ 255) && (mfind s.keys r.keySlot.toNat).isSome))

/-- One bit of CRC-32C, reflected. -/
def crcBit (c : W32) : W32 := if c.toNat % 2 = 1 then (c >>> 1) ^^^ 0x82F63B78 else c >>> 1

/-- CRC-32C of bytes. -/
def crcBytes (bs : List Byte) : W32 :=
  (bs.foldl (fun (c : W32) b => iterFrom (fun _ c => crcBit c) 0 8 (c ^^^ b.zeroExtend 32)) 0xFFFFFFFF) ^^^ 0xFFFFFFFF

/-- The descriptor hash (R379). -/
def descHash (v group : Nat) : W32 :=
  let b := bits v 160 32
  let b := if bitB b 22 then b - 2 ^ 22 else b
  crcBytes (leBytes 8 (b + group % 65536 * 2 ^ 32))

/-! ## tcoll (R289 to R296) -/

/-- A chunk of a member's input, before its body (R291). -/
def chunkOf (part group : Nat) (seq : W32) (v j : Nat) (dense disorder : Bool) (body : List (Nat × W32)) : Chunk :=
  { part := part, group := group, seq := seq, hash := descHash v group, j := j, span := 2 ^ bits v 176 4,
    vtype := bits v 180 2, denseOff := bitB v 183, dthresh := bits v 184 8, dense := dense, ovf := false,
    disorder := disorder, deferred := false, body := body, rank := bits v 192 6, route := descRoute v, deferList := [],
    deliver := none, nchunks := bits v 160 16, src := 0, srcInc := 0, dstInc := 0, mark := false, left := 0, hop := 0 }

/-- The carder a chunk is on its way to, if that is where its next entry is acted on (R290, R369). -/
def Chunk.target (c : Chunk) : Option Nat :=
  match c.deliver, c.route with
  | some d, _ => some d
  | none, e :: _ => if hopSw e then none else some (hopNode e)
  | none, [] => none

/-- A chunk sent on from a node: its header names the incarnation of its target as the sender holds it (R369). -/
def State.headed (s : State) (node : Nat) (c : Chunk) : Chunk :=
  { c with dstInc := (c.target.map (fun d => (s.die d).inc)).getD 0, left := node, hop := 0 }

/-- A chunk as its member's carder, die `d`, sends it. -/
def State.sentBy (s : State) (d : Nat) (c : Chunk) : Chunk := s.headed d { c with src := d, srcInc := (s.die d).inc }

/-- Whether a chunk is stale (R377). -/
def State.staleChunk (s : State) (c : Chunk) : Bool :=
  decide (c.srcInc ≠ (s.die c.src).inc) || c.target.any (fun d => decide (c.dstInc ≠ (s.die d).inc))

/-- The value of an input element as it travels: BF16 becomes FP32 exactly (R291). -/
def travels (vtype x : Nat) : W32 := if vtype = 2 then BitVec.ofNat 32 (x % 65536 * 65536) else BitVec.ofNat 32 x

/-- The pairs of a sparse input in stream order up to its first disorder, and the chunk of that disorder (R295). -/
def sparseRun (limit span vtype : Nat) (prev : Option Nat) (ps : List (Nat × Nat)) : List (Nat × W32) × Option Nat :=
  match ps with
  | [] => ([], none)
  | (i, x) :: t =>
    if limit ≤ i ∨ prev.any (fun p => decide (i ≤ p)) then ([], some (match prev with | none => 0 | some p => p / span))
    else
      let r := sparseRun limit span vtype (some i) t
      ((i, travels vtype x) :: r.1, r.2)

/-- The chunks of a member's input (R291, R295), and the first disordered one. -/
def buildChunks (part group : Nat) (seq : W32) (v : Nat) (bs : List Byte) : List Chunk × Option Nat :=
  let span := 2 ^ bits v 176 4
  let n := bits v 160 16
  let vt := bits v 180 2
  if bitB v 182 then
    let w := if vt = 2 then 2 else 4
    ((List.range n).map (fun j => chunkOf part group seq v j true false
      ((List.range span).map (fun i => (j * span + i, travels vt (leNat ((bs.drop (w * (j * span + i))).take w)))))), none)
  else
    let ps := (List.range (bits v 128 32)).map (fun i => (leNat ((bs.drop (8 * i)).take 4), leNat ((bs.drop (8 * i + 4)).take 4)))
    let r := sparseRun (n * span) span vt none ps
    ((List.range n).map (fun j =>
      if r.2.any (fun b => decide (b ≤ j)) then chunkOf part group seq v j false true []
      else chunkOf part group seq v j false false (r.1.filter (fun e => decide (e.1 / span = j)))), r.2)

/-- Bytes of a member's input. -/
def inputBytes (v : Nat) : Nat :=
  if bitB v 182 then bits v 160 16 * 2 ^ bits v 176 4 * (if bits v 180 2 = 2 then 2 else 4) else 8 * bits v 128 32

/-- R289, starts a member's part of a collective: its carder numbers it and sends every chunk of its input; it is then
outstanding, and TR goes on (R287, R379). A sequence number already dropped sends nothing. -/
def execTcoll (group : BitVec 16) (s : State) : Out :=
  onRing .tr s (fun h =>
    let p := s.ply h
    match p.tr.cmd with
    | none => s
    | some c =>
      let v := c.desc.toNat
      match s.trFetch h (c.map (s.die h.d)) (bits v 0 56) (inputBytes v) with
      | .error f => s.faultRing h .tr f
      | .ok (bs, t) =>
      match t.htGate h ((List.range (inputBytes v)).any (fun (i : Nat) => s.trHt h h.d .load ((bits v 0 56 + i : Nat) : Int))) with
      | .error u => u
      | .ok t =>
        let x := t.die h.d
        let part := (t.vf p.vf).part.toNat
        let g := group.toNat
        let seq := mget 0 x.collSeq (groupKey part g)
        let r := buildChunks part g seq v bs
        let dead := x.deadSeqs.any (fun e => decide (e.1 = groupKey part g) && decide (e.2.1 = seq.toNat))
        let q : Tcoll := {
          part := part, group := g, seq := seq, unit := p.unit, vf := p.vf, re := c.re, rf := c.rf, push := c.push,
          output := bits v 64 56, outAt := 0, written := 0, nchunks := bits v 160 16, pubEntry := bits v 198 10,
          delivers := (deliverTo (descRoute v)).contains h.d, complete := false, retired := false, disorderAt := r.2,
          faultAt := none, notice := 0, mixed := [] }
        let t := t.setDie h.d { x with collSeq := mset 0 x.collSeq (groupKey part g) (seq + 1), tcolls := x.tcolls ++ [q] }
        let t := if dead then t else { t with chunks := t.chunks ++ r.1.map (t.sentBy h.d) }
        t.mapPly h (fun p => (p.setCmd .tr none).popEntry .tr))

/-! ## The checks of a command, its start and its completion (R276, R297) -/

/-- The reason of R297 that an operation word meets, lowest first. -/
def State.trIll (s : State) (h : Here) (m : TrState) (i : Instr) (desc : Nat) : Option Nat :=
  let part := (s.vf (s.ply h).vf).part.toNat
  match i with
  | .tcopy stamp count _ _ _ =>
    if (stamp && decide (m.stampAddr.toNat % 8 ≠ 0)) || (count && decide (m.ctrAddr.toNat % 8 ≠ 0)) then some 3 else none
  | .tflip _ => if m.stampAddr.toNat % 8 ≠ 0 then some 3 else none
  | .tsinv all => if !all && decide (m.saddr.toNat % 8 ≠ 0) then some 3 else none
  | .tenq _ _ _ => if m.rowsM1 ≠ 0 ∨ 4096 < m.rowbytes.toNat then some 4 else none
  | .tsend port =>
    let e := s.port port.toNat
    let hd := leNat ((s.trRead h (s.message h (some (s.die h.d).sample) m)).take 64)
    if 2 ^ 20 < m.bytes ∨ !e.en ∨ e.part.toNat ≠ part ∨ bits hd 169 23 ≠ 0 ∨ bits hd 344 168 ≠ 0 then some 5 else none
  | .tcoll g => if descBad desc then some 6 else if !s.groupOk part g.toNat h.d then some 7 else none
  | _ => none

/-- The command's operation words. -/
def trOps (ws : List Nat) : List Instr :=
  (ws.filter (fun w => !isTrState w)).filterMap (fun w => match decodeTr w with | .ok i => some i | .error _ => none)

/-- Whether a word is a tcoll. -/
def isTcoll (i : Instr) : Bool := match i with | .tcoll _ => true | _ => false

/-- A command that has passed its pop and its wait: a fifth tcoll waits; otherwise it is checked, and starts with the
mapping of its issue (R102, R276, R287). A descriptor that faults in translation halts the command before any case of R297, that
of an entry released as ill-formed included (R310, log 86). -/
def State.startTr (s : State) (h : Here) (re : Bool) (rf : BitVec 6) (push : BitVec 3) : State :=
  let p := s.ply h
  let e := p.headE .tr
  let ws := (s.entryWords h .tr).dropLast
  let ops := trOps ws
  let m := p.tr.after ws
  let coll := ops.any isTcoll
  if coll && decide (4 ≤ (s.die h.d).collsOut p.unit) then s
  else match (if coll then s.trFetch h (some (s.die h.d).sample) m.saddr.toNat 64 else .ok ([], s)) with
    | .error f => s.faultRing h .tr f
    | .ok (bs, t) =>
    match t.htGate h (coll && (List.range 64).any (fun (i : Nat) => s.trHt h h.d .load ((m.saddr.toNat + i : Nat) : Int))) with
    | .error u => u
    | .ok t =>
      let v := leNat bs
      match (if e.bad then some 1 else if 1 < ops.length then some 2 else (ops.filterMap (fun i => t.trIll h m i v)).head?) with
      | some reason => t.trapRing h .tr 0x23 reason 0
      | none =>
        let c := { startCmd e re rf push (ws.filter isTrState ++ ws.filter (fun w => !isTrState w)) with
          desc := BitVec.ofNat 512 v, snap := some (s.die h.d).sample, tgen := (t.vf p.vf).tgen }
        t.mapPly h (fun p => { p with tr := { p.tr with cmd := some c } })

/-- R276, the GO word of a TR command: pop, wait, checks, then its words. -/
def execGoTr (wf : BitVec 6) (thr : BitVec 7) (sub re : Bool) (rf : BitVec 6) (pop push : BitVec 3) (s : State) : Out :=
  onRing .tr s (fun h =>
    if (s.ply h).tr.cmd.isSome then s
    else s.issueGo h .tr pop wf thr sub (fun s => s.startTr h re rf push))

/-- R276 step 5, a TR command completes. -/
def execTrCommandComplete (die core slot : Nat) (s : State) : Out :=
  let h : Here := ⟨die, core, slot⟩
  let p := s.ply h
  .next (match p.tr.cmd with
    | none => s
    | some c => if p.ringGoes .tr && c.todo.isEmpty then s.setPly h (p.completeCmd .tr c) else s)

end Sys2Proof.Machine
end

