-- ==== Sys2Proof/Machine/Collective.lean ====
section
/-! DEFINITION. Collectives on their way: forwards, merges and sums, deferred reduction, delivery and publish, the order
check, and the completion of a member's tcoll (R290 to R296, R378 to R381). -/

namespace Sys2Proof.Machine

open Sys2Proof

/-! ## The fabric error record (R381) -/

/-- Records a fabric error: the first since the last clear fills the record, and each counts. -/
def Ferr.note (f : Ferr) (code die group : Nat) (seq : W32) : Ferr :=
  let n := if f.count.toNat < 2 ^ 32 - 1 then f.count + 1 else f.count
  if f.valid then { f with count := n }
  else ⟨BitVec.ofNat 8 code, BitVec.ofNat 6 die, BitVec.ofNat 16 group, seq, n, true⟩

/-- Records a fabric error of a partition. -/
def State.fabricError (s : State) (p code die group : Nat) (seq : W32) : State :=
  s.mapPart p (fun q => { q with ferr := q.ferr.note code die group seq })

/-! ## Chunks at a node -/

/-- The entry at the head of a chunk's route. -/
def Chunk.head (c : Chunk) : W32 := c.route.headD 0

/-- Whether two chunks belong to one collective (R379). -/
def Chunk.same (a b : Chunk) : Bool := decide (a.part = b.part) && decide (a.group = b.group) && decide (a.seq = b.seq)

/-- A chunk that has taken the entry at its head (R290). -/
def Chunk.pop (c : Chunk) : Chunk := { c with route := c.route.drop 1 }

/-- The copies a forward at a switch die sends: each copy's next entry names the switch die that holds it (R290). -/
def Chunk.copies (c : Chunk) : List Chunk :=
  let e := c.head
  if hopSw e ∧ hopCopy e ≠ 0 then
    ((List.range 16).filter (fun k => bitB (hopCopy e) k)).map (fun k =>
      { c with route := match c.route.drop 1 with
          | [] => []
          | n :: t => BitVec.ofNat 32 (n.toNat / 1024 * 1024 + k * 16 + n.toNat % 16) :: t })
  else [c.pop]

/-- Replaces the chunk at a position of the list. -/
def replaceAt (cs : List Chunk) (i : Nat) (new : List Chunk) : List Chunk := cs.take i ++ new ++ cs.drop (i + 1)

/-- The members of a group of a partition: dies of that partition (R16, R378). -/
def State.collMembers (s : State) (p g : Nat) : List Nat :=
  (List.range 64).filter (fun d => bitB (s.group p g).members.toNat d && (s.die d).member && decide ((s.die d).part.toNat = p))

/-- Whether every member of a group has issued its tcoll of a sequence number (R379). -/
def State.allIssued (s : State) (p g : Nat) (seq : W32) : Bool :=
  (s.collMembers p g).all (fun d => clockReached (mget 0 (s.die d).collSeq (groupKey p g)) (seq + 1))

/-- Whether nothing more can come of a tcoll that has been completed towards its ply: no chunk of its collective is on its way,
every member has issued its part, and no notice is owed (R296, R379). -/
def State.collOver (s : State) (d : Nat) (t : Tcoll) : Bool :=
  !s.chunks.any (fun c => decide (c.part = t.part) && decide (c.group = t.group) && decide (c.seq = t.seq)) &&
    s.allIssued t.part t.group t.seq &&
    (decide (t.notice ≠ 0) || !(s.die d).deadSeqs.any (fun e => decide (e.1 = groupKey t.part t.group) && decide (e.2.1 = t.seq.toNat)))

/-- Drops the records of completed tcolls of which nothing more can come. -/
def State.dropRetired (s : State) : State :=
  { s with dies := s.dies.map (fun (d, x) => (d, { x with tcolls := x.tcolls.filter (fun t => !t.retired || !s.collOver d t) })) }

/-- Whether a chunk cannot go on to the node at the head of its route: it is stale, or the node is a carder of another partition
(R16, R377). -/
def State.barred (s : State) (c : Chunk) : Bool :=
  s.staleChunk c || c.target.any (fun d => !((s.die d).member && decide ((s.die d).part.toNat = c.part)))

/-- The switch die or carder that finds a stale chunk drops it, a switch die counting it (R377); one that a carder of another
partition would take is dropped (R16). Nothing else of the panel changes. -/
def State.sweep (s : State) (node : Nat) (q : Chunk → Bool) : State :=
  let gone := fun (c : Chunk) => q c && s.barred c
  let t := { s with chunks := s.chunks.filter (fun c => !gone c) }
  if node < 64 then t
  else (s.chunks.filter gone).foldl (fun t c =>
    if s.staleChunk c then t.setSwitch (node - 64) { t.switch (node - 64) with stale := satInc 32 (t.switch (node - 64)).stale } else t) t

/-- A collective fails at a sequence number: its chunks are dropped, now and later, and every member is told (R379, R380). -/
def State.failSeq (s : State) (c : Chunk) (reason node : Nat) : State :=
  let s := { s with chunks := s.chunks.filter (fun k => !k.same c) }
  let s := (s.collMembers c.part c.group).foldl (fun s d =>
    s.mapDie d (fun x => { x with deadSeqs := (groupKey c.part c.group, c.seq.toNat, reason) :: x.deadSeqs })) s
  s.fabricError c.part reason (node % 64) c.group c.seq

/-- R292, passes a chunk on unchanged, with copies where set. -/
def execCollForward (chunk : Nat) (s : State) : Out :=
  .next (match s.chunks[chunk]? with
    | none => s
    | some c =>
      if c.deliver.isSome ∨ c.route.isEmpty ∨ hopOp c.head ≠ 0 then s
      else if s.barred c then s.sweep (hopAt c.head) (fun d => d == c)
      else { s with chunks := replaceAt s.chunks chunk (c.copies.map (s.headed (hopAt c.head))) })

/-! ## Merge and sum (R292 to R294) -/

/-- Fold: one rounding or saturation of an exact sum, and whether an INT32 sum clamped (R293). -/
def foldSum (vtype : Nat) (xs : List W32) : W32 × Bool :=
  if vtype = 1 then
    let r := satTo (xs.foldl (fun a x => a + x.toInt) 0) (-(2 ^ 31 : Nat)) ((2 ^ 31 : Nat) - 1)
    (BitVec.ofInt 32 r.1, decide (r.2 ≠ 0))
  else (BitVec.ofNat 32 (roundNE (sumNums (xs.map (fun x => fp32.decode x.toNat))).1 fp32).1, false)

/-- The values held at each index, ascending, in the inputs' order. -/
def gather (cs : List Chunk) : Map (List W32) :=
  cs.foldl (fun m c => c.body.foldl (fun m e => mput m e.1 (mget [] m e.1 ++ [e.2])) m) []

/-- Chunk j at a merge or sum node, from its inputs in ascending order of rank (R292). -/
def mergeChunks (isSum : Bool) (cs : List Chunk) : Chunk :=
  let c := (cs.headD default).pop
  if cs.any Chunk.disorder then { c with disorder := true, dense := false, ovf := false, deferred := false, body := [] }
  else
    let out := (gather cs).map (fun e => (e.1, foldSum c.vtype e.2))
    let ovf := cs.any Chunk.ovf || out.any (fun e => e.2.2)
    let dense := isSum || cs.any Chunk.dense || (!c.denseOff && decide (c.dthresh * c.span < 256 * out.length))
    let held := out.map (fun e => (e.1, e.2.1))
    let body := if dense then (List.range c.span).map (fun i => (c.j * c.span + i, mget 0 held (c.j * c.span + i))) else held
    { c with ovf := ovf, deferred := cs.any Chunk.deferred, dense := dense, body := body }

/-- Inserts a chunk by rank. -/
def byRank (c : Chunk) (cs : List Chunk) : List Chunk :=
  match cs with
  | [] => [c]
  | d :: t => if c.rank < d.rank then c :: d :: t else d :: byRank c t

/-- Whether a node holds the key of a group's chunks (R380). -/
def State.holdsKey (s : State) (p g node : Nat) : Bool :=
  let r := s.group p g
  !r.enc || (if node < 64 then bitB r.members.toNat node else r.swKeys)

/-- Whether the authentication of some chunk of a collective fails: a free value for the whole of one sequence number, so that
nothing of it is delivered, asked only of an encrypted group (R380, log 9). -/
def State.authBad (s : State) (c : Chunk) : Bool :=
  (s.group c.part c.group).enc && Config.authFails ((s.group c.part c.group).serial * 2 ^ 32 + c.seq.toNat)

/-- Whether a chunk stands at a merge or sum node as chunk `j` of a group's sequence number. -/
def Chunk.standsAt (c : Chunk) (op node g seq j : Nat) : Bool :=
  c.deliver.isNone && !c.route.isEmpty && decide (hopOp c.head = op) && decide (hopAt c.head = node) && decide (c.group = g) &&
    decide (c.seq.toNat = seq) && decide (c.j = j)

/-- The chunks that stand at a merge or sum node for chunk `j` of a group's sequence number. -/
def State.standing (s : State) (op node g seq j : Nat) : List Chunk :=
  s.chunks.filter (fun c => c.standsAt op node g seq j && !s.barred c)

/-- The inputs of one collective among them, those of one stage of its routes. -/
def Chunk.peers (c : Chunk) (cs : List Chunk) : List Chunk := cs.filter (fun d => d.same c && decide (d.route.length = c.route.length))

/-- Whether another input of its collective stands at a merge or sum node with another hash (R379). -/
def State.hashDiffers (s : State) (node : Nat) (c : Chunk) : Bool :=
  s.chunks.any (fun d => d.same c && d.deliver.isNone && !d.route.isEmpty && (decide (hopOp d.head = 1) || decide (hopOp d.head = 2)) &&
    decide (hopAt d.head = node) && decide (d.hash ≠ c.hash))

/-- The inputs of the deferred node that a packet meets first. -/
def deferGroup (cs : List Chunk) (c : Chunk) : List Chunk :=
  cs.filter (fun d => d.same c && decide (d.deferList.length = c.deferList.length) &&
    decide ((d.deferList.head?).map Prod.fst = (c.deferList.head?).map Prod.fst))

/-- One deferred merge or sum among chunks that a node with the key has received, whose inputs have all arrived, deepest first
(R380). -/
def State.rebuild (s : State) (node : Nat) (cs : List Chunk) : Option State :=
  let cs := cs.filter (fun c => !c.deferList.isEmpty)
  (cs.find? (fun c => decide (hopFan ((c.deferList.headD (0, 0)).1) ≤ (deferGroup cs c).length))).map (fun c =>
    let e := (c.deferList.headD (0, 0)).1
    let use := ((deferGroup cs c).foldr byRank []).take (hopFan e)
    let first := use.headD default
    let m := mergeChunks (decide (hopOp e = 2)) use
    let out := { m with route := first.route, deferList := first.deferList.drop 1, deferred := true }
    { s with chunks := s.chunks.filter (fun d => !use.contains d) ++ [{ s.headed node out with hop := 2 }] })

/-- What a merge or sum node does with the inputs of chunk `c`'s collective, if anything yet: it checks the order of its inputs,
defers them without the key, rebuilds what was deferred before, or forms one chunk once `fan` inputs have arrived (R292, R379,
R380). -/
def State.joinAt (s : State) (op node : Nat) (cs : List Chunk) (c : Chunk) : Option State :=
  let ins := c.peers cs
  if s.hashDiffers node c then some (s.failSeq c 2 node)
  else if !s.holdsKey c.part c.group node then
    (s.chunks.findIdx? (fun d => d == c)).map (fun i =>
      { s with chunks := replaceAt s.chunks i [s.headed node { c.pop with deferred := true, deferList := c.deferList ++ [(c.head, c.rank)] }] })
  else if s.authBad c then some (s.failSeq c 3 node)
  else match s.rebuild node ins with
    | some t => some t
    | none =>
      let ins := ins.filter (fun d => d.deferList.isEmpty)
      if ins.length < hopFan c.head then none
      else
        let use := (ins.foldr byRank []).take (hopFan c.head)
        some { s with chunks := s.chunks.filter (fun d => !use.contains d) ++ [s.headed node (mergeChunks (decide (op = 2)) use)] }

/-- A merge or sum node acts on chunk `j` of a group's sequence number, for the first of the collectives standing there that can
go on. -/
def State.join (s : State) (op node g seq j : Nat) : State :=
  let s := s.sweep node (fun c => c.standsAt op node g seq j)
  let cs := s.standing op node g seq j
  (cs.findSome? (s.joinAt op node cs)).getD s

/-- R292, a merge node. -/
def execCollMerge (node group seq chunk : Nat) (s : State) : Out := .next (s.join 1 node group seq chunk)

/-- R292, a sum node. -/
def execCollSum (node group seq chunk : Nat) (s : State) : Out := .next (s.join 2 node group seq chunk)

/-! ## Deferred reduction (R380) -/

/-- The chunks of a collective that carder `d` has received for chunk `j`. -/
def State.receivedAt (s : State) (d g seq j : Nat) : List Chunk :=
  s.chunks.filter (fun c => (decide (c.deliver = some d) || (c.deliver.isNone && decide (c.route.length = 1) && decide (hopAt c.head = d))) &&
    decide (c.group = g) && decide (c.seq.toNat = seq) && decide (c.j = j) && !s.barred c)

/-- R380, the receiving carder performs one deferred merge or sum whose inputs have all arrived, deepest first. -/
def execCollDeferredReduce (die group seq chunk : Nat) (s : State) : Out :=
  .next ((s.rebuild die (s.receivedAt die group seq chunk)).getD s)

/-! ## Delivery and publish (R292, R296) -/

/-- A value as it is delivered: BF16 is rounded (R292). -/
def delivered (vtype : Nat) (x : W32) : Nat := if vtype = 2 then (roundNE (fp32.decode x.toNat) (fmtOf 1)).1 else x.toNat

/-- The bytes of a chunk: its header, its body, and padding to 16 bytes (R291). -/
def Chunk.bytes (c : Chunk) : List Byte :=
  let w := if c.vtype = 2 then 2 else 4
  let body := if c.dense then c.body.flatMap (fun e => leBytes w (delivered c.vtype e.2))
    else c.body.flatMap (fun e => leBytes 8 (e.1 + delivered c.vtype e.2 * 2 ^ 32))
  let hd := c.j * c.span + (if c.dense then c.span else c.body.length) * 2 ^ 32 + b2n c.dense * 2 ^ 48 + b2n c.ovf * 2 ^ 49 +
    b2n c.disorder * 2 ^ 50 + b2n c.deferred * 2 ^ 51 + c.j * 2 ^ 64
  leBytes 16 hd ++ body ++ List.replicate (roundUp body.length 16 - body.length) 0

/-- Records an offence of a unit in the DSREC of its ply, bound or saved (R99, R296). -/
def Die.offendUnit (x : Die) (u : Nat) (agent : Nat) (write : Bool) (o : Option (Nat × Nat)) : Die :=
  match o, x.unit? u with
  | some (a, c), some w =>
    if w.phase = .bound then x.mapPly w.core w.slot (fun p => { p with dsrec := p.dsrec.note agent write a c })
    else match w.saved with
      | none => x
      | some v => x.setUnit u { w with saved := some { v with ply := { v.ply with dsrec := v.ply.dsrec.note agent write a c } } }
  | _, _ => x

/-- The key of the ply slot a unit is bound to. -/
def Die.unitKey (x : Die) (u : Nat) : Option Nat :=
  match x.unit? u with
  | none => none
  | some w => if w.phase = .bound then some (w.core * 8 + w.slot) else none

/-- Writes bytes as TR writes of die `d` in the context of a member's unit: bytes out of range are dropped and recorded,
and bytes that fault are dropped (R296). At a unit of 8 bytes that another command of the unit, a tcoll among them, has written
meanwhile, either write may be the last, as a free choice says (R288, log 77). -/
def State.unitWrite (s : State) (d : Nat) (t : Tcoll) (a : Nat) (bs : List Byte) : State × Bool :=
  let x := s.die d
  let ls := (State.locateAll (fun va => (s.locate d (x.unitKey t.unit) t.vf .engine none va).1) a bs.length).map (fun e =>
    match e.2 with
    | .here _ => e
    | .fault _ _ => e
    | _ => (e.1, Loc.here (.bad 0)))
  let es := (ls.zip bs).filter (fun e => !(t.mixed.contains (e.1.1 / 8) && Config.seesOld t.seq.toNat (e.1.1 / 8)))
  let others := fun (x : Die) => { x with tcolls := x.tcolls.map (fun (q : Tcoll) =>
    if q.unit = t.unit ∧ q ≠ t then { q with mixed := q.mixed ++ ls.map (fun (e : Nat × Loc) => e.1 / 8) } else q) }
  (s.setDie d ((others (x.writeLocs (es.map Prod.fst) noUnit (es.map Prod.snd))).offendUnit t.unit 5 true (lowBad ls)), (lowFault ls).isSome)

/-- Changes the tcoll of a die at a sequence number. -/
def Die.mapTcoll (x : Die) (g seq : Nat) (f : Tcoll → Tcoll) : Die :=
  { x with tcolls := x.tcolls.map (fun t => if t.group = g ∧ t.seq.toNat = seq then f t else t) }

/-- The tcoll of a die at a sequence number. -/
def Die.tcoll? (x : Die) (g seq : Nat) : Option Tcoll := x.tcolls.find? (fun t => decide (t.group = g) && decide (t.seq.toNat = seq))

/-- Whether the next chunk to be delivered to a member writes to an HT page (R119). -/
def State.collHt (s : State) (d : Nat) (t : Tcoll) (at_ : Chunk → Bool) : Bool :=
  s.chunks.any (fun c => at_ c && decide (c.j = t.written) && (List.range c.bytes.length).any (fun i =>
    (s.locate d ((s.die d).unitKey t.unit) t.vf .engine none ((t.output + t.outAt + i) % 2 ^ 64)).2))

/-- A deliver or publish hop acts on one chunk: a switch die passes it to its carders; a carder writes the next chunk of its
member's delivery, in ascending order, and after the last one a publish flips the member's buffer (R292, R296). A chunk
whose member has not issued its tcoll waits, and so does a write to an HT page until the unit's earlier accesses have been
acknowledged (R119). A byte that faults leaves a trap to a member whose tcoll has completed already (R296, log 87). -/
def State.deliverHop (s : State) (op node g seq : Nat) : State :=
  let mine := fun (c : Chunk) => decide (c.group = g) && decide (c.seq.toNat = seq) && !c.route.isEmpty && decide (hopOp c.head = op)
  if 64 ≤ node then
    let s := s.sweep node (fun c => mine c && c.deliver.isNone && decide (hopAt c.head = node))
    match s.chunks.findIdx? (fun c => mine c && c.deliver.isNone && decide (hopAt c.head = node)) with
    | none => s
    | some i =>
      let c := s.chunks.getD i default
      let ks := (List.range 4).filter (fun k => bitB (hopCopy c.head) k)
      { s with chunks := replaceAt s.chunks i (ks.map (fun k => s.headed node { c with deliver := some (4 * (node - 64) + k) })) }
  else
    let at_ := fun (c : Chunk) => mine c && (decide (c.deliver = some node) || (c.deliver.isNone && decide (hopAt c.head = node)))
    match s.chunks.findIdx? (fun c => at_ c && !s.staleChunk c && !(s.collMembers c.part c.group).contains node) with
    | some i =>
      let c := s.chunks.getD i default
      ({ s with chunks := replaceAt s.chunks i [] }.fabricError c.part 1 node c.group c.seq).dropRetired
    | none =>
      let s := s.sweep node at_
      match (s.die node).tcoll? g seq with
      | none => s
      | some t =>
        if t.complete ∨ t.notice ≠ 0 then s
        else if s.collHt node t at_ && !s.unitQuiet node t.unit then s.drainUnit node t.unit
        else match s.chunks.findIdx? (fun c => at_ c && decide (c.j = t.written) && c.deferList.isEmpty && decide (c.part = t.part)) with
          | none => s
          | some i =>
            let c := s.chunks.getD i default
            if s.authBad c then s.failSeq c 3 node
            else
              let bs := c.bytes
              let r := { s with chunks := replaceAt s.chunks i [] }.unitWrite node t (t.output + t.outAt) bs
              let last := decide (t.written + 1 = t.nchunks)
              let v := r.1.mapDie node (fun x => x.mapTcoll g seq (fun t => { t with
                outAt := t.outAt + bs.length, written := t.written + 1, complete := last
                retired := t.retired && !(last && (r.2 || t.faultAt.isSome))
                faultAt := if r.2 && t.faultAt.isNone then some c.j else t.faultAt }))
              (if last && decide (op = 4) then v.mapDie node (fun x => (x.publish t.pubEntry).1) else v).dropRetired

/-- R292, a deliver hop. -/
def execCollDeliver (node group seq : Nat) (s : State) : Out := .next (s.deliverHop 3 node group seq)

/-- R292, a publish hop. -/
def execCollPublish (node group seq : Nat) (s : State) : Out := .next (s.deliverHop 4 node group seq)

/-! ## Notices and completion (R295, R296, R379, R380) -/

/-- R379, a notice completes the member's tcoll at that sequence number with nothing delivered. A tcoll that had already
been completed towards its ply takes the trap only. -/
def execCollOrderNotice (die group seq : Nat) (s : State) : Out :=
  .next (
    let x := s.die die
    match x.deadSeqs.find? (fun e => decide (e.1 = groupKey x.part.toNat group) && decide (e.2.1 = seq)), x.tcoll? group seq with
    | some e, some t =>
      if t.notice ≠ 0 then s
      else s.setDie die (x.mapTcoll group seq (fun t => { t with notice := e.2.2, retired := false }))
    | _, _ => s)

/-- The collective trap a completed tcoll leaves to its ply: the reason and bits [31:16] of the status (R295, R296). -/
def Tcoll.trap (t : Tcoll) : Option (Nat × Nat) :=
  if t.notice ≠ 0 then some (t.notice, t.seq.toNat % 65536)
  else match t.disorderAt with
    | some j => some (1, j)
    | none => t.faultAt.map (fun j => (4, j))

/-- The read offset of the first TR entry not yet begun, or the ring's write offset (R295). -/
def Ply.trNext (p : Ply) : Nat :=
  let q := p.trq
  if p.tr.cmd.isNone then q.rd.toNat % 2 ^ 20
  else (q.move q.rd (4 * (p.headE .tr).words)).toNat % 2 ^ 20

/-- Whether a die is to receive a delivery of a tcoll's collective, by its own route or by a chunk now on its way (R296). -/
def State.receives (s : State) (d : Nat) (t : Tcoll) : Bool :=
  t.delivers || s.chunks.any (fun c => decide (c.part = t.part) && decide (c.group = t.group) && decide (c.seq = t.seq) &&
    (decide (c.deliver = some d) || (c.deliver.isNone && (deliverTo c.route).contains d)))

/-- A tcoll is done with, its trap taken: its record stays, completed towards its ply, while a delivery may still come (R296). -/
def Die.retireTcoll (x : Die) (t : Tcoll) : Die :=
  { x with tcolls := x.tcolls.map (fun q => if q = t then { q with retired := true, re := false, push := 0, disorderAt := none, faultAt := none } else q) }

/-- R296, a member's tcoll completes: GO raises and pushes when the ply is bound, and the collective trap follows. A unit that is
gone takes nothing, and a delivery still owed to its die is written all the same. -/
def execTcollComplete (die group seq : Nat) (s : State) : Out :=
  .next (
    let x := s.die die
    match x.tcoll? group seq with
    | none => s
    | some t =>
      let done_ := fun (s : State) => (s.mapDie die (fun x => x.retireTcoll t)).dropRetired
      if t.retired || !(decide (t.notice ≠ 0) || !s.receives die t || t.complete) then s
      else match x.unit? t.unit with
        | none => done_ s
        | some w =>
          if w.phase = .done then done_ s
          else if w.phase ≠ .bound then s
          else
            let h : Here := ⟨die, w.core, w.slot⟩
            let p := s.ply h
            if p.phase = .stopping then (if 5 ≤ p.stopWhy then s else done_ s)
            else if t.trap.isSome && ((mfind p.halts 5).isSome || p.trapSlot.isSome) then s
            else
              let p := if t.re then p.raiseBy Ring.tr.code t.rf.toNat 1 else p
              if !p.pushRoom .tr t.push then (s.mapDie die (fun x => x.mapTcoll group seq (fun t => { t with re := false }))).setPly h p
              else
                let s := done_ (s.setPly h (p.releaseCmd .tr false 0 t.push))
                match t.trap with
                | none => s
                | some (reason, hi) => s.takeTrap h 5 ⟨statusWord hi 0x25 reason 0, p.trNext, 0, 0, 0, 2⟩)

end Sys2Proof.Machine
end

