-- ==== Sys2Proof/Machine/Launch.lean ====
section
/-! DEFINITION. Launch records, ring areas, and the creation of units (R27, R45, R52, R78, R129, R306 to R309). -/

namespace Sys2Proof.Machine

open Sys2Proof

/-! ## Launch records (R306, R307) -/

/-- The reserved bits of a launch record, as pairs of low bit and length (R306). -/
def launchReserved : List (Nat × Nat) :=
  [(24, 8), (56, 8), (76, 4), (184, 8), (212, 4), (240, 16), (312, 8), (384, 128), (1848, 8), (1888, 160)]

/-- The fields of a record with value `v`, at address `a` (R78, R306). -/
def launchOf (a v : Nat) : LaunchRec :=
  { addr := a, units := bits v 32 16, vregs := bits v 48 8, slip := bits v 64 9, mxStop := bits v 73 3,
    futResv := bits v 80 16, coreMask := BitVec.ofNat 32 (bits v 96 32), code := bits v 128 56, codeLen := bits v 192 20,
    sizes := (List.range 6).map (fun i => bits v (216 + 4 * i) 4), ringBase := bits v 256 56,
    ustride := BitVec.ofNat 64 (bits v 320 64),
    args := (List.range 8).map (fun i => BitVec.ofNat 64 (bits v (512 + 64 * i) 64)),
    ft := (List.range 16).map (fun i => BitVec.ofNat 32 (bits v (1024 + 32 * i) 32)),
    ftDecl := BitVec.ofNat 16 (bits v 1872 16), hankKey := BitVec.ofNat 64 (bits v 1536 64),
    hankMask := BitVec.ofNat 64 (bits v 1600 64), batchClass := bits v 1664 8, rows := bits v 1672 8,
    keyed := bitB v 1680, onMiss := bitB v 1681, maxDefer := bits v 1682 4, batchTable := bits v 1688 56,
    sched := bits v 1792 56, schedN := bits v 1856 16 }

/-- Whether a hank-key block is ill-formed (R78); a block with `keyed` clear is ignored. -/
def hankBad (v : Nat) (r : LaunchRec) : Bool :=
  r.keyed && ((decide (r.batchClass ≠ 0) && (decide (r.rows = 0) || decide (192 < r.rows) || decide (r.batchTable % 4096 ≠ 0))) ||
    decide (bits v 1686 2 ≠ 0) || decide (bits v 1744 48 ≠ 0))

/-- The largest ring size of a record. -/
def LaunchRec.maxRing (r : LaunchRec) : Nat := 2 ^ (12 + r.sizes.foldl max 0)

/-- Whether a record is ill-formed (R307). -/
def launchBad (v : Nat) (r : LaunchRec) : Bool :=
  decide (bits v 0 16 ≠ 0x4C59) || decide (bits v 16 8 ≠ 1) || decide (r.units = 0) ||
  decide (r.vregs % 8 ≠ 0) || decide (r.vregs < 8) || decide (248 < r.vregs) ||
  decide (r.slip = 0) || decide (256 < r.slip) || decide (5 < r.mxStop) || decide (r.coreMask = 0) ||
  decide (r.code % 4 ≠ 0) || decide (r.codeLen = 0) || decide (r.codeLen % 4 ≠ 0) ||
  r.sizes.any (fun n => decide (8 < n)) || decide (2 ^ (12 + r.sizes.headD 0) < r.codeLen + 4) ||
  decide (r.ringBase = 0) || decide (r.ringBase % r.maxRing ≠ 0) || decide (r.sched % 8 ≠ 0) || hankBad v r ||
  launchReserved.any (fun f => decide (bits v f.1 f.2 ≠ 0))

/-- A record from its 256 bytes; `none`: refused. A record must be aligned to 64 bytes (R306). -/
def parseLaunch (a : Nat) (bs : List Byte) : Option LaunchRec :=
  let v := leNat bs
  let r := launchOf a v
  if a % 64 ≠ 0 ∨ launchBad v r then none else some r

/-! ## Ring areas (R308, R309) -/

/-- The size in bytes of ring `i` of a record. -/
def LaunchRec.ringSize (r : LaunchRec) (i : Nat) : Nat := 2 ^ (12 + r.sizes.getD i 0)

/-- F: the length of one ring area. -/
def LaunchRec.areaSize (r : LaunchRec) : Nat :=
  roundUp (((List.range 6).map r.ringSize).foldl (· + ·) 0) r.maxRing

/-- The offset of ring `i` in its area: rings lie in descending order of size, equal sizes in ring order. -/
def LaunchRec.ringOffset (r : LaunchRec) (i : Nat) : Nat :=
  ((List.range 6).map (fun j =>
    if r.ringSize i < r.ringSize j ∨ (r.ringSize i = r.ringSize j ∧ j < i) then r.ringSize j else 0)).foldl (· + ·) 0

/-- The base of ring `i` of unit `k`. -/
def LaunchRec.ringAt (r : LaunchRec) (k i : Nat) : Nat := r.ringBase + k * r.areaSize + r.ringOffset i

/-- The key of a record's areas on a die. -/
def areaKey (vf addr : Nat) : Nat := vf * 2 ^ 64 + addr

/-- Whether a ring area is in use (R309). -/
def Die.areaUsed (x : Die) (vf addr k : Nat) : Bool := x.areas.contains (areaKey vf addr, k)

/-- The lowest-numbered area of a record that is not in use. -/
def Die.freeAreaOf (x : Die) (vf : Nat) (r : LaunchRec) : Option Nat :=
  firstFrom (fun k => !x.areaUsed vf r.addr k) 0 r.units

/-- The format table entry FT`k` at ply start without a declaration (R128, R129). -/
def ftDefault (k : Nat) : W32 :=
  match k with
  | 0 => 0x00000003 | 1 => 0x00000001 | 2 => 0x00000002 | 3 => 0x00200708 | 4 => 0x00200308 | 5 => 0x00107348
  | 6 => 0x0000F258 | 7 => 0x00000004 | _ => 0

/-- The format table of a new ply (R129, R308). -/
def LaunchRec.table (r : LaunchRec) : Map W32 :=
  (List.range 16).foldl (fun m k => mset 0 m k (if bitB r.ftDecl.toNat k then r.ft.getD k 0 else ftDefault k)) []

/-! ## Units (R45, R51, R52) -/

/-- The level record and the future-table entry a new unit takes, when both can be found; a spawn may take a reserved
entry, a host unit only the common pool (R45, R312). -/
def State.unitRoom (s : State) (d : Nat) (reserved : Bool) : Option (Nat × Nat) :=
  if !reserved && decide ((s.die d).commonFree = 0) then none
  else match s.freeLevel d, s.freeFut d with
    | some i, some f => some (i, f)
    | _, _ => none

/-- Creates a unit of launch `l` in level record `i` with future `f`, at the reach of its first holder (R29, R52). -/
def State.newUnit (s : State) (d l : Nat) (a : Launch) (lr : LaunchRec) (k i f : Nat) (spawned : Bool) (passed : List Word)
    (phase : UnitPhase) : State :=
  let u := s.fresh
  let w : WUnit := {
    launch := l, lr := lr, k := k, level := i, fut := f, gen := ((s.die d).fut f).gen, phase := phase, spawned := spawned,
    passed := passed, holdset := (passed.zipIdx).map (fun e => (e.2, e.1)), job := a.job, jobRef := !spawned,
    defers := if spawned then 0 else a.defers, core := 0, slot := 0, saved := none, imageUnits := [], image := none, cancelled := false,
    filled := false, missed := false }
  let s := s.tickFresh
  let s := s.newLevel d i 0 a.level f a.vf 1 true false
  s.mapDie d (fun x =>
    (x.setUnit u w).mapFut f (fun e => { (.reset : Future) with
      state := 0, reach := 1, owner := BitVec.ofNat 16 i, gen := e.gen, ounit := u }))

/-- Puts a spawned unit in its launch queue ahead of every launch none of whose units has been chosen (R45). -/
def insertUnit (x : Die) (u : Nat) (q : List QItem) : List QItem :=
  match q with
  | [] => [.unit u]
  | .launch l :: t =>
    if ((x.launch? l).map (fun a => decide (a.next = 0))).getD true then .unit u :: .launch l :: t
    else .launch l :: insertUnit x u t
  | .unit v :: t => .unit v :: insertUnit x u t

end Sys2Proof.Machine
end

