-- ==== Sys2Proof/Machine/Traps.lean ====
section
/-! DEFINITION. Trap records and the trap ring of a function (R351, R353, R354). -/

namespace Sys2Proof.Machine

open Sys2Proof

/-- The word of one ring in a trap record: status and offset (R353). -/
def Halt.bits (x : Halt) : Nat := x.status.toNat + x.off % 2 ^ 20 * 2 ^ 32

/-- The rings of a trap record. -/
def haltBits (m : Map Halt) : Nat := (m.map (fun e => e.2.bits * 2 ^ (128 + 64 * e.1))).foldl (· + ·) 0

/-- A trap record (R353). -/
def trapRecord (tid tgen die core slot level first fut ident : Nat) (m : Map Halt) : BitVec 1024 :=
  let cls := fun (x : Halt) => bits x.status.toNat 8 8
  let addr := ((haltOf m first (fun x => decide (cls x = 0x14))).map (fun x => x.addr.toNat)).getD 0
  let cap := capHalt m first
  BitVec.ofNat 1024 (tid % 65536 + tgen % 65536 * 2 ^ 16 + die % 64 * 2 ^ 32 + core % 32 * 2 ^ 38 + slot % 8 * 2 ^ 43 +
    level % 65536 * 2 ^ 48 + ((m.map (fun e => 2 ^ e.1)).foldl (· + ·) 0) % 64 * 2 ^ 64 + first % 8 * 2 ^ 72 +
    fut % 65536 * 2 ^ 80 + ident % 2 ^ 32 * 2 ^ 96 + haltBits m + addr % 2 ^ 56 * 2 ^ 512 +
    ((cap.map (fun x => x.cap.toNat)).getD 0) * 2 ^ 576 + ((cap.map (fun x => x.capIx.toNat)).getD 0) * 2 ^ 608)

/-- The completion entry that follows a trap record (R354). -/
def trapEntry (tid tgen die level ident : Nat) : BitVec 128 :=
  cplEntry 15 3 die level ident 0 (tid % 65536 + tgen % 65536 * 2 ^ 16)

/-- Whether a function's trap ring can take no record (R354). -/
def VFn.trapFull (v : VFn) : Bool :=
  decide (9 ≤ v.trapSize.toNat) || decide ((v.trapTail - v.trapHead).toNat = 2 ^ (4 + v.trapSize.toNat))

/-- Writes a record at the tail of a trap ring that has room, and then its completion entry (R354). -/
def State.writeTrap (s : State) (v : Nat) (r : BitVec 1024) (e : BitVec 128) : State :=
  (s.mapVf v (fun f => { f with
    trapRing := mput f.trapRing (f.trapTail.toNat % 2 ^ (4 + f.trapSize.toNat)) r
    trapTail := f.trapTail + 1 })).complete v e

/-- A trap record: written, or held in order while the ring is full or the function's port is lost (R354, R396, log 88). -/
def State.sendTrap (s : State) (v : Nat) (r : BitVec 1024) (e : BitVec 128) : State :=
  let f := s.vf v
  if f.trapFull || !f.trapHeld.isEmpty || !s.hostOn (v / 48) then s.setVf v { f with trapHeld := f.trapHeld ++ [(r, e)] }
  else s.writeTrap v r e

/-- Writes the held records that now find room, at most `n` (R354). -/
def State.flushTraps (s : State) (v n : Nat) : State :=
  match n with
  | 0 => s
  | n + 1 =>
    let f := s.vf v
    match f.trapHeld with
    | [] => s
    | (r, e) :: t => if f.trapFull then s else ((s.setVf v { f with trapHeld := t }).writeTrap v r e).flushTraps v n

/-- The trap record of an unbound unit that took the hank-missed fault (R351). -/
def State.unboundTrap (s : State) (d v level fut ident : Nat) : State :=
  s.sendTrap v (trapRecord 0xFFFF 0 d 31 7 level 0 fut ident []) (trapEntry 0xFFFF 0 d level ident)

end Sys2Proof.Machine
end

