-- ==== Sys2Proof/Machine/Distributor.lean ====
section
/-! DEFINITION. The distributor: eligible queues, one choice, and the binding of a chosen unit, restored or new (R28, R45 to
R47, R79, R80, R308, R309, R361, R362). -/

namespace Sys2Proof.Machine

open Sys2Proof

/-! ## Eligibility (R28, R45, R79) -/

/-- Whether every phase opened earlier in the same job has ended (R28). -/
def Die.phaseTurn (x : Die) (graph : Nat) : Bool :=
  let ph := (x.level graph).parent.toNat
  let p := x.level ph
  x.levels.all (fun (j, l) => !(l.used && decide (l.level = 3) && decide (l.parent = p.parent) && decide (j ≠ ph) &&
    decide (l.serial < p.serial) && (l.status == 0 || l.status == 2)))

/-- Whether a launch is eligible: open with no ancestor under cancel, every launch it depends on complete, its phase's turn
(R28, R30). -/
def Die.eligible (x : Die) (a : Launch) : Bool :=
  let lv := x.level a.level
  lv.used && lv.status == 0 && !x.underCancel a.level 5 && a.deps.all (fun i => (x.level i).status == 1) && x.phaseTurn lv.parent.toNat

/-- Whether a launch waits for its key; a met key stays met while the copy that meets it is retained (R79). -/
def Launch.keyWaits (a : Launch) : Bool := a.lr.keyed && a.met.isEmpty

/-- The head of a queue: members of a batch are passed over, since they are never bound (R80). -/
def Die.headItem (x : Die) (q : Lqc) : Option QItem :=
  q.items.find? (fun t => match t with
    | .launch l => ((x.launch? l).map (fun a => a.leader.isNone && decide (a.next < a.lr.units))).getD false
    | .unit u => (((x.unit? u).bind (fun w => x.launch? w.launch)).map (fun a => a.leader.isNone)).getD true)

/-- Whether a unit starts as one of its launch's own, not as an evicted unit or at a spawned unit's first start: it waits for the
launch's key and takes its ring area (R79, R85, R309, log 90). -/
def WUnit.startsAfresh (w : WUnit) : Bool := w.saved.isNone && (!w.spawned || decide (w.defers ≠ 0))

/-- Whether a queue is eligible (R45). Units spawned into a keyed launch or evicted from it need no key again; a unit that was
deferred, a spawned one too, waits for the next matching start (R85). A pinned unit that
was evicted comes back even under a cancel, since only its unpin or its end stops it (R65). -/
def State.queueReady (s : State) (d n : Nat) : Bool :=
  let x := s.die d
  let q := x.lqc n
  q.enable && (match x.headItem q with
    | none => false
    | some (.launch l) => match x.launch? l with
      | none => false
      | some a => x.eligible a && !a.keyWaits && (s.unitRoom d false).isSome
    | some (.unit u) => match x.unit? u with
      | none => false
      | some w => match x.launch? w.launch with
        | none => false
        | some a => w.phase == .queued && (x.eligible a || (x.fut w.fut).pinned) && !(w.startsAfresh && (w.missed || a.keyWaits)))

/-! ## One choice (R45, R46) -/

/-- A written priority or weight takes effect (R46). -/
def Lqc.refresh (q : Lqc) : Lqc := if q.fresh then { q with effPrio := q.prio, age := 0, credit := 0, fresh := false } else q

/-- One passing over of a queue at a lower level (R45). -/
def Lqc.passed (q : Lqc) (limit : BitVec 16) : Lqc :=
  let q := { q with age := q.age + 1 }
  if limit ≠ 0 ∧ q.age = limit then { q with effPrio := if q.effPrio = 7 then 7 else q.effPrio + 1, age := 0 } else q

/-- Of the holds that stand for a launch's unchosen units, the first on each copy becomes that of a unit (R81); `got`: the
copies on which it has one already. -/
def claimHold (hs : List Hold) (old new : Nat) (got : List Nat) : List Hold :=
  match hs with
  | [] => []
  | o :: t =>
    if o.unit = old ∧ !o.ended ∧ !got.contains o.copy then { o with unit := new } :: claimHold t old new (o.copy :: got)
    else o :: claimHold t old new got

/-- Chooses the head of a queue: a new unit of a launch takes its level record and its future (R45). -/
def State.chooseHead (s : State) (d n : Nat) : State :=
  let x := s.die d
  match x.headItem (x.lqc n) with
  | none => s
  | some (.unit u) =>
    s.mapDie d (fun x => ((x.dropItem (.unit u)).mapUnit u (fun w => { w with phase := .chosen })) |>
      (fun x => { x with chosen := x.chosen ++ [u] }))
  | some (.launch l) =>
    match x.launch? l, s.unitRoom d false with
    | some a, some (i, f) =>
      let u := s.fresh
      let s := s.newUnit d l a a.lr a.next i f false [] .chosen
      s.mapDie d (fun x =>
        let x := x.setLaunch l { a with next := a.next + 1 }
        let x := if a.lr.units ≤ a.next + 1 then x.dropItem (.launch l) else x
        { x with chosen := x.chosen ++ [u], holds := claimHold x.holds (pendUnit l) u [] })
    | _, _ => s

/-- One choice of a distributor that holds fewer than four chosen units (R45, R46). -/
def State.choose (s : State) (d : Nat) : State :=
  let s := s.mapDie d (fun x => { x with lqs := x.lqs.map (fun (n, q) => (n, q.refresh)) })
  let x := s.die d
  let ready := (List.range 64).filter (s.queueReady d)
  match ready with
  | [] => s
  | _ :: _ =>
    let eff := fun n => (x.lqc n).effPrio.toNat
    let p := ready.foldl (fun m n => max m (eff n)) 0
    let at_ := ready.filter (fun n => decide (eff n = p))
    let last := mfind x.lastq p
    let again := match last with | none => false | some n => at_.contains n && decide ((x.lqc n).credit ≠ 0)
    let n := if again then last.getD 0
      else (firstFrom (fun k => at_.contains (k % 64)) ((last.map (· + 1)).getD 0) 64).getD 0 % 64
    let credit := if again then (x.lqc n).credit else max (x.lqc n).weight.toNat 1
    let s := s.chooseHead d n
    s.mapDie d (fun x =>
      let x := ready.foldl (fun x k => if eff k < p then x.setLqc k ((x.lqc k).passed x.dage) else x) x
      { x.setLqc n { x.lqc n with credit := credit - 1, effPrio := (x.lqc n).prio, age := 0 } with lastq := mput x.lastq p n })

/-- R45, the distributor of a die makes one choice while it keeps fewer than four chosen units. -/
def execDistributorChoice (die : Nat) (s : State) : Out :=
  .next (if isDie die && s.dieOn die && decide ((s.die die).chosen.length < 4) then s.choose die else s)

/-! ## Binding (R47) -/

/-- The bound ply slots of a core. -/
def Die.plyOn (x : Die) (c : Nat) : List Ply :=
  ((List.range 8).map (x.ply c)).filter (fun p => decide (p.phase ≠ .free))

/-- The lowest free ply slot of a core. -/
def Die.openSlot (x : Die) (c : Nat) : Option Nat := firstFrom (fun k => decide ((x.ply c k).phase = .free)) 0 8

/-- The lowest-addressed free run of `n` physical vector registers of a core. -/
def Die.openRun (x : Die) (c n : Nat) : Option Nat :=
  firstFrom (fun b => decide (b + n ≤ 248) && (x.plyOn c).all (fun p => decide (b + n ≤ p.vbase) || decide (p.vbase + p.vcount ≤ b))) 0 249

/-- Whether a core qualifies for a unit: the launch's core mask, a slot, a run (R47). A unit whose image holds a gang needs a
lathe that is in a gang. -/
def Die.coreFits (x : Die) (w : WUnit) (c : Nat) : Bool :=
  bitB w.lr.coreMask.toNat c && (x.openSlot c).isSome && (x.openRun c w.lr.vregs).isSome &&
    ((w.saved.map (fun v => v.ganged.isEmpty)).getD true || decide (c < 30))

/-- The core a unit binds to: the fewest resident plies, then the lowest number (R47). -/
def Die.bindCore (x : Die) (w : WUnit) : Option Nat :=
  ((List.range 32).filter (x.coreFits w)).foldl (fun b c =>
    match b with
    | none => some c
    | some e => if (x.plyOn c).length < (x.plyOn e).length then some c else some e) none

/-- The scalar registers a new ply starts with: the arguments, with argument 1 stepped by the unit number, the passed handles
in their place, and the batch table of a batch's leader in g8 (R36, R80, R199, R308). -/
def WUnit.startG (w : WUnit) : Map Word :=
  let a := fun k => w.lr.args.getD k 0
  let base := (List.range 8).map (fun k =>
    if k < w.passed.length then w.passed.getD k 0
    else if k = 0 then a 0 + BitVec.ofNat 64 w.k * w.lr.ustride
    else if k = 7 ∧ w.lr.keyed ∧ w.lr.batchClass ≠ 0 then BitVec.ofNat 64 w.lr.batchTable
    else a k)
  (base.zipIdx).foldl (fun m e => mset 0 m (e.2 + 1) e.1) []

/-- A ring of a new ply (R308). -/
def WUnit.ringOf (w : WUnit) (r : Ring) : RingQ :=
  { (.reset : RingQ) with base := BitVec.ofNat 56 (w.lr.ringAt w.k r.code), sizeCode := BitVec.ofNat 4 (w.lr.sizes.getD r.code 0) }

/-- The ply of a unit that starts: R36 and R308. -/
def WUnit.startPly (w : WUnit) (u v vbase : Nat) : Ply :=
  { Ply.reset with
    phase := .ready, unit := u, vf := v, vbase := vbase, vcount := w.lr.vregs
    regs := { PlyRegs.reset with g := w.startG, slip := BitVec.ofNat 9 w.lr.slip }
    sq := { w.ringOf .sq with wr := BitVec.ofNat 21 w.lr.codeLen }
    vl := w.ringOf .vl, va := w.ringOf .va, vs := w.ringOf .vs, mxq := w.ringOf .mx, trq := w.ringOf .tr
    ft := w.lr.table, holdset := w.holdset, schedPtr := w.lr.sched }

/-- A register window as zero (R36). -/
def Die.zeroWindow (x : Die) (c vbase n : Nat) : Die :=
  x.mapCore c (fun y => { y with vregs := y.vregs.filter (fun e => decide (e.1 < vbase) || decide (vbase + n ≤ e.1)) })

/-- Binds a unit that has not started before (R36, R47, R308). -/
def State.bindNew (s : State) (d u : Nat) (w : WUnit) (c k b : Nat) : State :=
  let v := ((s.die d).level w.level).vf
  match s.ctxRead d v w.lr.code w.lr.codeLen with
  | none => s.mapDie d (fun x => x.failUnit u)
  | some bs =>
    let s := s.ringWrite d (c * 8 + k) v (w.lr.ringAt w.k 0) bs
    s.mapDie d (fun x =>
      let x := (x.zeroWindow c b w.lr.vregs).setPly c k (w.startPly u v b)
      let x := if w.startsAfresh then { x with areas := x.areaOf w :: x.areas } else x
      { x.mapUnit u (fun w => { w with phase := .bound, core := c, slot := k, holdset := [] }) with
        chosen := x.chosen.filter (fun n => decide (n ≠ u)) })

/-- Binds a unit to be restored: its ply is Ready (R37), its slot and window are taken, and the image follows when the lathe's slots and tiles
can be claimed (R361, R362). -/
def State.bindSaved (s : State) (d u : Nat) (w : WUnit) (v : Saved) (c k b : Nat) : State :=
  s.mapDie d (fun x =>
    let p := { Ply.reset with phase := .ready, unit := u, vf := v.ply.vf, vbase := b, vcount := v.ply.vcount, holdset := v.ply.holdset }
    let x := (x.zeroWindow c b w.lr.vregs).setPly c k p
    { x.mapUnit u (fun w => { w with phase := .bound, core := c, slot := k, saved := some v }) with
      chosen := x.chosen.filter (fun n => decide (n ≠ u)) })

/-- R47, the oldest chosen unit binds when a core qualifies and its ring area is free; until then it holds back the units
chosen after it. -/
def execUnitBind (die : Nat) (s : State) : Out :=
  .next (
    let x := s.die die
    match x.chosen with
    | [] => s
    | u :: t => match x.unit? u with
      | none => s.setDie die { x with chosen := t }
      | some w =>
        let f := x.fut w.fut
        if !s.dieOn die then s
        else if !f.pinned && (f.doomed || x.underCancel w.level 5) then s
        else if w.phase ≠ .chosen then s.setDie die { x with chosen := t }
        else if w.startsAfresh && x.areaUsed (x.level w.level).vf w.lr.addr w.k then s
        else match x.bindCore w with
          | none => s
          | some c => match x.openSlot c, x.openRun c w.lr.vregs with
            | some k, some b => match w.saved with
              | some v => s.bindSaved die u w v c k b
              | none => s.bindNew die u w c k b
            | _, _ => s)

end Sys2Proof.Machine
end

