-- ==== Sys2Proof/Machine/Preempt.lean ====
section
/-! DEFINITION. The requests of a pre-emption: PRECTL as written, and what a request that is over leaves of a ply (R209, R272,
R361). The collector that answers a request is in `Faults`. -/

namespace Sys2Proof.Machine

open Sys2Proof

/-- A ply whose request is over (R209, R361). -/
def Ply.unasked (p : Ply) : Ply :=
  { p with preempt := false, evict := false, stopped := [], regs := { p.regs with loop := { p.regs.loop with stop := false } } }

/-- The engines of a ply whose eviction does not take place go on. An entry of VL that had stopped is performed again from row
0, and a mop that had stopped latches afresh (R237, R272, R361). A ply that lost its wait to the request is Ready, and the wait
issues afresh (R193). -/
def Ply.goesOn (p : Ply) : Ply :=
  if !p.evict then p.unasked
  else
    let p := if p.phase = .waiting ∧ p.wait.isNone ∧ !p.held then { p with phase := .ready } else p
    let q := if p.runsOn .vl then p else p.replayVl
    let q := if p.runsOn .mx then q else q.relatch
    q.unasked

/-- Stores the RW fields of a PRECTL (R4, R361). -/
def State.prectlFields (s : State) (d c : Nat) (slot : BitVec 3) (evict : Bool) : State :=
  s.mapCore ⟨d, c, 0⟩ (fun y => { y with prectl := { y.prectl with slot := slot, evict := evict } })

/-- A `go` of PRECTL for the ply and the kind that its fields name (R361): ignored while a request is collected, refused for a
slot that is not bound, and otherwise a request, which sets `stop` (R209). The agents that owe an acknowledgement at once make
it as the step settles. -/
def State.preempt (s : State) (d c : Nat) : State :=
  let q := ((s.die d).core c).prectl
  let h : Here := ⟨d, c, q.slot.toNat⟩
  if q.state = 1 then s
  else
    let q := { q with cur := q.slot, curEvict := q.evict, acks := 0 }
    let p := s.ply h
    if p.phase = .free ∨ p.phase = .stopping then s.mapCore h (fun y => { y with prectl := { q with state := 3, why := 1 } })
    else
      (s.mapPly h (fun p => { p with
        preempt := true, evict := q.evict, stopped := []
        regs := { p.regs with loop := { p.regs.loop with stop := true } } })).mapCore h
          (fun y => { y with prectl := { q with state := 1, why := 0 } })

/-- A `withdraw` of PRECTL: it takes effect while SQ has not acknowledged (R361). -/
def State.withdraw (s : State) (d c : Nat) : State :=
  let q := ((s.die d).core c).prectl
  let h : Here := ⟨d, c, q.cur.toNat⟩
  if q.state ≠ 1 ∨ bitB q.acks.toNat 0 then s
  else (s.mapPly h Ply.goesOn).mapCore h (fun y => { y with prectl := { q with state := 3, why := 3 } })

/-- A write to PRECTL of core `c` of die `d` (R4, R361). A write that sets `withdraw` and `go` together withdraws first and then
requests (log 76). Its request bits hold nothing: they read 0 after the write that they act on (log 89). -/
def State.prectlWrite (s : State) (d c v : Nat) : State :=
  if d < 64 ∧ c < 32 ∧ s.dieOn d then
    let s := s.prectlFields d c (BitVec.ofNat 3 v) (bitB v 3)
    let s := if bitB v 5 then s.withdraw d c else s
    if bitB v 4 then s.preempt d c else s
  else s

/-- The value that asks for a slot. -/
def prectlGo (slot : Nat) (evict : Bool) : Nat := slot % 8 + (if evict then 8 else 0) + 16

/-- R361, a request without `evict`. -/
def execPreemptRequest (die core slot : Nat) (s : State) : Out := .next (s.prectlWrite die core (prectlGo slot false))

/-- R361, a request with `evict`. -/
def execPreemptEvict (die core slot : Nat) (s : State) : Out := .next (s.prectlWrite die core (prectlGo slot true))

/-- R361, a write of 1 to `withdraw`, with `slot` and `evict` as they stand. -/
def execPreemptWithdraw (die core : Nat) (s : State) : Out := .next (if die < 64 ∧ core < 32 ∧ s.dieOn die then s.withdraw die core else s)

end Sys2Proof.Machine
end

