-- ==== Sys2Proof/Machine/SqSystem.lean ====
section
/-! DEFINITION. System registers, trap, nop, fence, yield and end (R183 to R190). -/

namespace Sys2Proof.Machine

open Sys2Proof

/-! ## System registers (R183 to R186) -/

/-- PID (R184). -/
def State.pid (s : State) (h : Here) : Nat :=
  let w := (s.die h.d).unit? (s.ply h).unit
  h.d + h.c * 2 ^ 6 + h.k * 2 ^ 11 + (w.map WUnit.level).getD 0 % 65536 * 2 ^ 16 +
    (w.map WUnit.fut).getD 0 % 65536 * 2 ^ 32 + ((w.map WUnit.gen).getD 0).toNat * 2 ^ 48

/-- The 128 bits of DSREC (R99). -/
def Dsrec.bits (r : Dsrec) : Nat :=
  r.addr.toNat + r.agent.toNat * 2 ^ 56 + b2n r.write * 2 ^ 59 + r.cause.toNat * 2 ^ 60 + b2n r.more * 2 ^ 62 +
    b2n r.valid * 2 ^ 63 + r.count.toNat * 2 ^ 64

/-- PSTAT (R185). -/
def PlyRegs.pstat (r : PlyRegs) : Nat :=
  b2n r.flagOvf + r.slip.toNat * 2 ^ 16 + r.stage.toNat * 2 ^ 32 + r.enqDone.toNat * 2 ^ 48

/-- WPACE (R76); zero on a die in no whorl (R183). -/
def Die.wpace (x : Die) : Nat :=
  match x.whorl with
  | none => 0
  | some w => w.interval % 65536 + w.needDecl.toNat * 2 ^ 16 + w.floor % 65536 * 2 ^ 32 + w.stretches.toNat * 2 ^ 64 +
      w.stretchCycles.toNat * 2 ^ 96

/-- The barrier register (R42). -/
def Barrier.bits (b : Barrier) : Nat := b.phase.toNat + b.participants.toNat * 2 ^ 16 + b.arrived.toNat * 2 ^ 32

/-- The value of system register `n` (R183). -/
def State.sysRead (s : State) (h : Here) (n : Nat) : Nat :=
  let p := s.ply h
  let x := s.die h.d
  if n = 0 then s.pid h
  else if n = 1 then p.regs.aflags.toNat
  else if n = 2 then p.dsrec.bits % 2 ^ 64
  else if n = 3 then p.dsrec.bits / 2 ^ 64
  else if n = 4 then p.regs.pstat
  else if n < 0x20 then (p.ftRec (n - 0x10)).toNat
  else if n = 0x20 then x.wpace % 2 ^ 64
  else if n = 0x21 then x.wpace / 2 ^ 64
  else if n < 0x80 then (x.clock (n - 0x40)).toNat
  else (x.bar (n - 0x100)).bits

/-- A write to a barrier's `participants` (R42). -/
def Barrier.configure (b : Barrier) (n : BitVec 16) : Barrier :=
  if n ≠ 0 ∧ n.toNat ≤ b.arrived.toNat then ⟨b.phase + 1, n, 0⟩ else { b with participants := n }

/-- One arrival at a configured barrier (R42). -/
def Barrier.arrive (b : Barrier) : Barrier :=
  if b.participants.toNat ≤ b.arrived.toNat + 1 then { b with phase := b.phase + 1, arrived := 0 }
  else { b with arrived := b.arrived + 1 }

/-- A write to `need_decl`, which makes a pace record even when the value is unchanged (R77, R186). -/
def Die.declareNeed (x : Die) (d : Nat) (v : BitVec 16) : Die :=
  match x.whorl with
  | none => x
  | some w => { x with whorl := some { w with
      needDecl := v, needs := mset 0 w.needs d v.toNat, paceOut := w.paceOut ++ [⟨d, v.toNat⟩] } }

/-- A write of A to system register `n` by its access codes (R4, R183). -/
def State.sysWrite (s : State) (h : Here) (n : Nat) (a : Word) : State :=
  let v := a.toNat
  if n = 1 then s.mapRegs h (fun r => { r with aflags := r.aflags &&& ~~~(BitVec.ofNat 32 v) })
  else if n = 2 then (if bitB v 63 then s.mapPly h (fun p => { p with dsrec := .reset }) else s)
  else if n = 4 then (if bitB v 0 then s.mapRegs h (fun r => { r with flagOvf := false }) else s)
  else if n < 0x20 then s.mapPly h (fun p => { p with ft := mset 0 p.ft (n - 0x10) (BitVec.ofNat 32 v) })
  else if n = 0x20 then s.mapDie h.d (fun x => x.declareNeed h.d (BitVec.ofNat 16 (bits v 16 16)))
  else s.mapDie h.d (fun x => x.setBar (n - 0x100) ((x.bar (n - 0x100)).configure (BitVec.ofNat 16 (bits v 16 16))))

/-- R183, reads a system register. -/
def execSrd (nw : Bool) (dst : BitVec 6) (imm : BitVec 12) (s : State) : Out :=
  onSq s (fun h => s.result h nw dst.toNat (BitVec.ofNat 64 (s.sysRead h imm.toNat)))

/-- R183, writes a system register. -/
def execSwr (a : BitVec 7) (imm : BitVec 12) (s : State) : Out :=
  onSq s (fun h => s.withA h a (fun x => (s.sysWrite h imm.toNat x).retire h))

/-! ## trap, nop, fence (R187, R188) -/

/-- R187, the software trap: the immediate in [31:20] of the status word. -/
def execTrap (imm : BitVec 12) (s : State) : Out :=
  onSq s (fun h => s.takeTrap h 0 ⟨statusWord (imm.toNat * 16) 0x30 0 0, (s.ply h).pco, 0, 0, 0, 1⟩)

/-- R187, does nothing. -/
def execNop (s : State) : Out := onSq s (fun h => s.retire h)

/-- R188, the fence of R111: the drain waits until every engine command of the ply has completed, and their AFLAGS bits
are then visible; panel scope closes a frame and system scope waits for acknowledgements. -/
def execFence (drain : Bool) (scope : BitVec 3) (s : State) : Out :=
  onSq s (fun h =>
    if drain && !(s.die h.d).plyIdle (s.ply h) then s
    else (if drain then s.mapPly h Ply.showAll else s).orderBefore h true true scope.toNat (fun s => s.retire h))

/-! ## yield and end (R189, R190) -/

/-- R189, moves the ply to Ready at the next word; a pending pre-emption takes the sequencer there. -/
def execYield (s : State) : Out :=
  onSq s (fun h => s.reclaimOr h (fun s =>
    if (s.ply h).held then s.leave h .waiting
    else
      let w := (s.ply h).wanted
      let s := s.mapPly h Ply.retireSwitch
      if w then s.takeSequencer h else s.leave h .ready))

/-- What the end of a ply does at its retirement (R53, R57, R61, R81, R190). -/
def State.endPly (s : State) (h : Here) : State :=
  let p := s.ply h
  (s.mapDie h.d (fun x =>
    let x := (x.dropAll p.holdset).endHolds p.unit
    match x.unit? p.unit with
    | none => x
    | some w => x.mapFut w.fut (fun e =>
        let e := { e with pinned := false }
        if e.state = 0 then e.reclaimed 3 else e))).mapPly h (fun p => { p with holdset := [], sqEnd := true }.retireSwitch)

/-- R190, ends the ply. -/
def execEndUnit (s : State) : Out :=
  onSq s (fun h => s.reclaimOr h (fun s =>
    if (s.ply h).held then s.leave h .waiting
    else
      let w := (s.ply h).wanted
      let s := (s.endPly h).leave h .ended
      if w then s.ackSq h else s))

end Sys2Proof.Machine
end

