-- ==== Sys2Proof/Machine/Whorl.lean ====
section
/-! DEFINITION. The rotating weights: hank starts, dwell ticks, beats and credits, keys and batches, a missed hank, lost hanks
and their rebuilding, and the splice (R66 to R88, R402, R403). -/

namespace Sys2Proof.Machine

open Sys2Proof

/-! ## Figures of a whorl (R66, R69, R71, R77) -/

/-- Beats of a hank (R66). -/
def WhorlRec.beats (r : WhorlRec) : Nat := (r.hankCode + 1) * 256

/-- The link time of one hank in whorl-link cycles (R77). -/
def WhorlRec.floorOf (r : WhorlRec) : Nat := if r.egress then 1280 * (r.hankCode + 1) else 256 * (r.hankCode + 1)

/-- The hank slots of a die's transit queue: its share, and the splice slots once the whorl has been spliced (R72, R86). -/
def Whorl.slots (w : Whorl) : Nat := w.cfg.share + (if w.spliced then w.cfg.spare else 0)

/-- The column-major index of a position, and the position of an index (R71). -/
def WhorlRec.qOf (r : WhorlRec) (p : Nat) : Nat := p % r.share * r.n + p / r.share
def WhorlRec.posOf (r : WhorlRec) (q : Nat) : Nat := q % r.n * r.share + q / r.n

/-- g: the members of a full parity group (R71). -/
def WhorlRec.groupSize (r : WhorlRec) : Nat := min 17 (r.n - 1)

/-- The positions of the parity group of a position (R71). -/
def WhorlRec.groupOf (r : WhorlRec) (p : Nat) : List Nat :=
  let g := r.groupSize
  let lo := r.qOf p / g * g
  ((List.range g).filter (fun i => decide (lo + i < r.hanks))).map (fun i => r.posOf (lo + i))

/-- Whether a position holds a parity hank: the member of its group with the highest index (R71). -/
def WhorlRec.isParity (r : WhorlRec) (p : Nat) : Bool :=
  r.parityOn && (let q := r.qOf p; decide (q + 1 = r.hanks) || decide ((q + 1) % r.groupSize = 0))

/-- The tag of the hank at a position, as loaded (R67, R70, R346). -/
def Whorl.tagOf (w : Whorl) (p rot : Nat) (rebuilt : Bool) : Word :=
  let t := (mget 0 w.tags p).toNat
  let pad := bitB t 24
  let par := w.cfg.isParity p
  let flags := b2n par + b2n (pad && !par) * 2 + b2n rebuilt * 4 + b2n (decide (p = 0)) * 8
  let seg := if par then w.cfg.qOf p / w.cfg.groupSize % 4096 else bits t 0 12
  let layer := if par || pad then 0xFFF else bits t 12 12
  BitVec.ofNat 64 (flags + rot % 2 ^ 24 * 2 ^ 8 + seg * 2 ^ 32 + layer * 2 ^ 44 + w.cfg.model.toNat * 2 ^ 56)

/-- The rotation of a tag (R67). -/
def rotOf (t : Word) : Nat := bits t.toNat 8 24

/-- A tag with its rotation raised by one (R70). -/
def nextRot (t : Word) : Word := BitVec.ofNat 64 (t.toNat - rotOf t * 2 ^ 8 + (rotOf t + 1) % 2 ^ 24 * 2 ^ 8)

/-- The die after and the die before a die on a route. -/
def nextOn (route : List Nat) (d : Nat) : Nat := route.getD ((route.idxOf d + 1) % route.length) d
def prevOn (route : List Nat) (d : Nat) : Nat := route.getD ((route.idxOf d + route.length - 1) % route.length) d

/-- Changes what a die holds of its whorl. -/
def Die.mapWhorl (x : Die) (f : WhorlDie → WhorlDie) : Die := { x with whorl := x.whorl.map f }

/-! ## The transit queue (R74) -/

/-- The die-store address of beat `i` of hank slot `k` (R72). -/
def WhorlRec.beatAt (r : WhorlRec) (k i : Nat) : Nat := r.base + (k * r.beats + i) * 4096

/-- The bytes of beat `i` of a queued hank. -/
def Die.beatBytes (x : Die) (r : WhorlRec) (h : Hank) (i : Nat) : Map Byte := takeRange x.mem (r.beatAt h.slot i) 4096

/-- Writes beat `i` of hank slot `k`. -/
def Die.putBeat (x : Die) (r : WhorlRec) (k i : Nat) (data : Map Byte) : Die :=
  { x with mem := pasteRange (clearRange x.mem (r.beatAt k i) 4096) (r.beatAt k i) data }

/-- The lowest hank slot below `n` that no queued hank uses. -/
def WhorlDie.freeSlot (x : WhorlDie) (n : Nat) : Option Nat := firstFrom (fun k => x.queue.all (fun h => decide (h.slot ≠ k))) 0 n

/-- Where the next beat to arrive goes: a new hank takes a free slot, or that of the hank being sent, whose beats are freed as
they are sent; a later beat follows the one before it (R74). `none`: no beat is free for it. -/
def WhorlDie.beatRoom (x : WhorlDie) (n : Nat) (opens : Bool) : Option (Nat × Nat) :=
  if opens then
    ((x.freeSlot n).or (firstFrom (fun k => x.queue.all (fun h => decide (h.slot ≠ k) || decide (0 < h.sent))) 0 n)).map (·, 0)
  else match x.queue.getLast? with
    | none => none
    | some h => if x.queue.dropLast.all (fun g => decide (g.slot ≠ h.slot) || decide (h.arrived < g.sent)) then some (h.slot, h.arrived) else none

/-- One beat moves from the elastic buffer to the tail of the queue (R74). -/
def Die.takeBeat (x : Die) (r : WhorlRec) (slots : Nat) : Die :=
  match x.whorl with
  | none => x
  | some w => match w.elastic with
    | [] => x
    | b :: t => match w.beatRoom slots b.first.isSome with
      | none => x
      | some (k, i) =>
        let q := match b.first with
          | some h => w.queue ++ [{ h with arrived := 1, sent := 0, slot := k }]
          | none => (match w.queue.getLast? with
            | none => w.queue
            | some h => w.queue.dropLast ++ [{ h with arrived := h.arrived + 1 }])
        { x.putBeat r k i b.data with whorl := some { w with queue := q, elastic := t, freed := w.freed + 1 } }

/-- Every beat that finds room moves to the queue. -/
def Die.takeBeats (x : Die) (r : WhorlRec) (slots : Nat) : Die := iterFrom (fun _ x => x.takeBeat r slots) 0 64 x

/-! ## Sending (R70, R74, R82, R86) -/

/-- The bytes of two beats, exclusive-or. -/
def xorBytes (a b : Map Byte) : Map Byte := b.foldl (fun m e => mset 0 m e.1 (mget 0 m e.1 ^^^ e.2)) a

/-- What a beat that passes the rebuilding die adds to the lost hanks of its group: `first` when it opens its hank, `last`
when it ends it (R86 step 2). -/
def gatherLost (ls : List (Nat × List Nat × Map Byte)) (pos i : Nat) (first last : Bool) (data : Map Byte) :
    List (Nat × List Nat × Map Byte) :=
  ls.map (fun e =>
    let live := if first then e.2.1.contains pos else e.2.1.contains (pos + 2 ^ 32)
    if !live then e
    else
      let rest := e.2.1.filter (fun m => decide (m % 2 ^ 32 ≠ pos))
      (e.1, if last then rest else (pos + 2 ^ 32) :: rest, pasteRange e.2.2 (i * 4096)
        (xorBytes (takeRange e.2.2 (i * 4096) 4096) data)))

/-- Whether a die is the last of the route of a whorl that goes on over an egress link. -/
def Whorl.leavesPanel (w : Whorl) (d : Nat) : Bool := w.cfg.egress && decide (nextOn w.route d = w.route.headD d)

/-- A copy gains the beat of its hank that is being sent (R82). -/
def Copy.gains (c : Copy) (h : Hank) : Copy := if c.pos = h.pos ∧ c.beats = h.sent then { c with beats := c.beats + 1 } else c

/-- The next beat of the hank a die is sending goes out, against a credit, into the next die's elastic buffer or over the
egress link; each copy of it that is being written gains the beat (R74, R82). -/
def State.emitBeat (s : State) (d : Nat) : State :=
  match (s.die d).whorl with
  | none => s
  | some x => match x.queue with
    | [] => s
    | h :: t =>
      let w := s.whorl x.id
      let r := w.cfg
      if !x.sending || decide (h.arrived ≤ h.sent) || decide (x.credits = 0) then s
      else
        let data := (s.die d).beatBytes r h h.sent
        let first := decide (h.sent = 0)
        let last := decide (h.sent + 1 = r.beats)
        let head := decide (w.route.headD d = d)
        let tag := if head && r.origin && !h.counted then nextRot h.tag else h.tag
        let out : Beat := ⟨if first then some { h with tag := tag, counted := false } else none, data⟩
        let s := s.mapDie d (fun y =>
          let y := ((x.slack ++ x.leaving).filter (fun c => decide (c.pos = h.pos) && decide (c.beats = h.sent))).foldl (fun y c =>
            { y with mem := copyRange y.mem (r.beatAt h.slot h.sent) y.mem (r.slackAt c.slot + h.sent * 4096) 4096 }) y
          y.mapWhorl (fun x => { x with
            queue := if last then t else { h with sent := h.sent + 1 } :: t
            sending := !last, credits := x.credits - 1
            slack := x.slack.map (fun c => c.gains h), leaving := x.leaving.map (fun c => c.gains h) }))
        let s := if head then s.mapWhorl x.id (fun w => { w with lostPos := gatherLost w.lostPos h.pos h.sent first last data }) else s
        if w.leavesPanel d then (if first then s.mapWhorl x.id (fun w => { w with paceAway := w.paceAway ++ h.paces }) else s)
        else s.mapDie (nextOn w.route d) (fun y => y.mapWhorl (fun x => { x with elastic := x.elastic ++ [out] }))

/-- Whether the out-port of a die can send: an egress link must be up (R375). -/
def State.outReady (s : State) (d : Nat) : Bool :=
  match (s.die d).whorl with
  | none => false
  | some x => let w := s.whorl x.id
    !w.leavesPanel d || decide ((s.egress w.cfg.egressOut).state = 2)

/-- As `emitBeat`, while the out-port can send. -/
def State.sendBeat (s : State) (d : Nat) : State := if s.outReady d then s.emitBeat d else s

/-! ## Copies and holds at a dwell tick (R83, R84) -/

/-- A launch's key is met only by copies still in the slack loop (R79). -/
def Die.unmeet (x : Die) : Die :=
  { x with launches := x.launches.map (fun (l, a) =>
      (l, { a with met := a.met.filter (fun c => x.slack.any (fun k => decide (k.serial = c))) })) }

/-- Whether a latch step that has issued from a copy waits for one of its beats (R84). -/
def Die.latched (x : Die) (c : Copy) : Bool :=
  x.plies.any (fun e => (e.2.mx :: e.2.mxBehind).any (fun m =>
    m.wSlack && decide (m.bound = some c.serial) && m.cmd.any CmdRun.latching))

/-- The copies that `go` names leave the slack loop; one that a latch still reads keeps its slot until the latch is done
(R83, R84). -/
def Die.letGo (x : Die) (go : Copy → Bool) : Die :=
  (x.mapWhorl (fun w => { w with
    slack := w.slack.filter (fun c => !go c)
    leaving := (w.leaving ++ w.slack.filter go).filter x.latched })).unmeet

/-- Step 1 of a dwell tick: the holds that have ended are applied, and a copy with none left leaves (R83). -/
def Die.sweep (x : Die) : Die :=
  let x := { x with holds := x.holds.filter (fun o => !o.ended) }
  x.letGo (fun c => !x.holds.any (fun o => decide (o.copy = c.serial)))

/-- Whether a further deferral of a unit of a record faults instead (R84, R85). -/
def LaunchRec.missFaults (r : LaunchRec) (defers : Nat) : Bool := r.onMiss || (decide (r.maxDefer ≠ 0) && decide (r.maxDefer ≤ defers))

/-- The units of a launch, in the given phases, that start with its key. -/
def Die.unitsIn (x : Die) (l : Nat) (ps : List UnitPhase) : List Nat :=
  (x.units.filter (fun e => decide (e.2.launch = l) && ps.contains e.2.phase && e.2.startsAfresh)).map Prod.fst

/-- The queued units of a launch that wait for its key. -/
def Die.keyUnits (x : Die) (l : Nat) : List Nat := x.unitsIn l [.queued]

/-- The units of a launch not yet created take the hank-missed fault (R84, R351); such a unit has no level record and no future,
and what its record holds of them is a free value (log 8). A deferral undoes the batch (R85). -/
def State.missUnborn (s : State) (d l : Nat) (a : Launch) : State :=
  let n := a.lr.units - a.next
  if n = 0 then s
  else if !a.lr.missFaults a.defers then s.mapDie d (fun x => (x.mapLaunch l (fun a => { a with defers := a.defers + 1 })).undoBatch l)
  else
    let s := iterFrom (fun _ s => (s.unboundTrap d a.vf (Config.choice s.fresh % 2 ^ 16) (Config.choice (s.fresh + 1) % 2 ^ 16)
      a.ident.toNat).tickFresh.tickFresh) 0 n s
    s.mapDie d (fun x => (x.dropLaunch l).mapLevel a.level (fun v => { v with faulted := true }))

/-- A queued unit takes the hank-missed fault (R84, R351). -/
def State.missQueued (s : State) (d l : Nat) (a : Launch) (u : Nat) : State :=
  match (s.die d).unit? u with
  | none => s
  | some w =>
    if !a.lr.missFaults w.defers then s.mapDie d (fun x => (x.setUnit u { w with defers := w.defers + 1, missed := true }).undoBatch l)
    else (s.unboundTrap d a.vf w.level w.fut a.ident.toNat).mapDie d (fun x => x.failUnit u)

/-- The last copy that met a launch's key has been evicted: its units not yet chosen take the hank-missed fault (R84). -/
def State.missLaunch (s : State) (d l : Nat) : State :=
  match (s.die d).launch? l with
  | none => s
  | some a => ((s.die d).keyUnits l).foldl (fun s u => s.missQueued d l a u) (s.missUnborn d l a)

/-- Steps 1 and 2 of a dwell tick: copies age, and those that reach the dwell budget are evicted with their holds voided
(R83). -/
def State.ageCopies (s : State) (d : Nat) : State :=
  let x := (s.die d).sweep
  match x.whorl with
  | none => s.setDie d x
  | some w =>
    let dwell := (s.whorl w.id).cfg.dwell
    let x := x.mapWhorl (fun w => { w with slack := w.slack.map (fun c => { c with age := c.age + 1 }) })
    let gone := (x.slack.filter (fun c => decide (c.age = dwell))).map Copy.serial
    let hit := (x.launches.filter (fun e => !e.2.met.isEmpty && e.2.met.all gone.contains)).map Prod.fst
    let x := { x with holds := x.holds.filter (fun o => !gone.contains o.copy) }
    hit.foldl (fun s l => s.missLaunch d l) (s.setDie d (x.letGo (fun c => decide (c.age = dwell))))

/-! ## Keys, batches, retention (R79 to R82) -/

/-- The launch of a queue item that waits for a key, if the hank's tag meets it: a launch counts while a unit of it is still in
its queue (log 90). -/
def Die.candidate (x : Die) (tag : Word) (t : QItem) : Option Nat :=
  let l := match t with
    | .launch l => some l
    | .unit u => match x.unit? u with
      | none => none
      | some w => if w.startsAfresh then some w.launch else none
  match l with
  | none => none
  | some l => match x.launch? l with
    | none => none
    | some a => if a.lr.keyed && a.leader.isNone && tagMatch tag a.lr.hankKey a.lr.hankMask && x.eligible a then some l else none

/-- The keyed launches whose keys a hank meets, in ascending queue number and queue order (R80). -/
def Die.candidates (x : Die) (tag : Word) : List Nat :=
  (((List.range 64).flatMap (fun q => (x.lqc q).items)).filterMap (x.candidate tag)).foldl
    (fun acc l => if acc.contains l then acc else acc ++ [l]) []

/-- Whether a ply of a die waits for a hank with this tag (R82). -/
def Die.awaited (x : Die) (tag : Word) : Bool :=
  x.plies.any (fun e => e.2.phase == .waiting && !e.2.waitDone && (match e.2.wait with
    | some (.hank key mask) => tagMatch tag key mask
    | _ => false))

/-- A launch's key is met by a copy: each of its units not yet bound takes one hold, one already chosen as well, and one that was
deferred waits no longer (R79, R81, R85, log 90). -/
def State.meetKey (s : State) (d c l : Nat) : State :=
  match (s.die d).launch? l with
  | none => s
  | some a =>
    let s := s.mapDie d (fun x => x.setLaunch l { a with met := a.met ++ [c] })
    let s := iterFrom (fun _ s => s.takeHold d (pendUnit l) c) 0 (a.lr.units - a.next) s
    ((s.die d).unitsIn l [.queued, .chosen]).foldl (fun s u =>
      (s.takeHold d u c).mapDie d (fun x => x.mapUnit u (fun w => { w with missed := false }))) s

/-- The bytes of a batch table (R80). -/
def Die.batchTable (x : Die) (ls : List Nat) : List Byte :=
  let as_ := ls.filterMap x.launch?
  let total := (as_.map (fun a => a.lr.rows)).foldl (· + ·) 0
  leBytes 8 (as_.length + total * 2 ^ 16) ++ (as_.zipIdx).flatMap (fun e =>
    let off := ((as_.take e.2).map (fun a => a.lr.rows)).foldl (· + ·) 0
    leBytes 16 ((x.level (x.jobOf e.1.level 5)).ident.toNat + e.1.lr.rows * 2 ^ 32 + off * 2 ^ 40 + (e.1.lr.args.headD 0).toNat * 2 ^ 64))

/-- The units of a launch not yet bound end faulted (R80, R87). -/
def Die.failLaunch (x : Die) (l : Nat) : Die :=
  match x.launch? l with
  | none => x
  | some a =>
    let x := (x.keyUnits l).foldl Die.failUnit x
    (x.dropLaunch l).mapLevel a.level (fun v => { v with faulted := true })

/-- A batch is formed: its table is written in the leader's context and the leader's key is met, or no byte can be written
and the leader's launch ends faulted; the members follow the leader's launch (R80). -/
def State.formBatch (s : State) (d c : Nat) (ls : List Nat) : State :=
  match ls with
  | [] => s
  | g :: ms => match (s.die d).launch? g with
    | none => s
    | some a =>
      let s := s.mapDie d (fun x =>
        ms.foldl (fun x m => x.mapLaunch m (fun b => { b with leader := some g })) (x.setLaunch g { a with members := ms }))
      match s.ctxWrite d a.vf a.lr.batchTable ((s.die d).batchTable ls) with
      | some t => t.meetKey d c g
      | none => s.mapDie d (fun x => x.failLaunch g)

/-- Cuts launches into batches: each takes launches while the rows stay at or below 192 (R80). -/
def Die.greedy (x : Die) (cur : List Nat) (rows : Nat) (ls : List Nat) : List (List Nat) :=
  match ls with
  | [] => if cur.isEmpty then [] else [cur]
  | l :: t =>
    let n := ((x.launch? l).map (fun a => a.lr.rows)).getD 0
    if !cur.isEmpty ∧ 192 < rows + n then cur :: x.greedy [l] n t else x.greedy (cur ++ [l]) (rows + n) t

/-- The lowest slack slot that no copy has, if there is one (R72); that a copy takes the lowest is log 90. -/
def WhorlDie.slackSlot (x : WhorlDie) (r : WhorlRec) : Option Nat :=
  firstFrom (fun k => (x.slack ++ x.leaving).all (fun e => decide (e.slot ≠ k))) 0 r.slackDepth

/-- A started hank is retained in slack slot `k` and the tile scheduler batches the launches whose keys it meets (R80, R82). A
launch that is met already, or has class 0, takes its holds on this copy as well. -/
def State.retain (s : State) (d : Nat) (h : Hank) (k : Nat) : State :=
  let c := s.fresh
  let ls := (s.die d).candidates h.tag
  let s := (s.mapDie d (fun x => x.mapWhorl (fun w => { w with slack := w.slack ++ [⟨c, h.pos, h.tag, k, 0, 0⟩] }))).tickFresh
  let x := s.die d
  let class_ : Nat → Nat := fun l => ((x.launch? l).map (fun a => if a.met.isEmpty then a.lr.batchClass else 0)).getD 0
  let s := (ls.filter (fun l => decide (class_ l = 0))).foldl (fun s l => s.meetKey d c l) s
  iterFrom (fun k s =>
    ((s.die d).greedy [] 0 (ls.filter (fun l => decide (class_ l = k)))).foldl (fun s b => s.formBatch d c b) s) 1 255 s

/-! ## Rebuilding (R86) -/

/-- How far a position lies before another on the ring of positions. -/
def before (hanks p q : Nat) : Nat := (q + hanks - p) % hanks

/-- The lost position that can be put back ahead of a queue head at `pos`: its group has passed, and every position between
is lost; the earliest of them. -/
def Whorl.readyBefore (w : Whorl) (pos : Nat) : Option (Nat × Map Byte) :=
  let lost := w.lostPos.map Prod.fst
  let fits := fun (e : Nat × List Nat × Map Byte) => e.2.1.isEmpty &&
    ((List.range (before w.cfg.hanks e.1 pos)).drop 1).all (fun k => lost.contains ((e.1 + k) % w.cfg.hanks))
  (w.lostPos.filter fits).foldl (fun b e =>
    match b with
    | none => some (e.1, e.2.2)
    | some (p, m) => if before w.cfg.hanks p pos < before w.cfg.hanks e.1 pos then some (e.1, e.2.2) else some (p, m)) none

/-- Puts a rebuilt hank at the head of a die's queue, in its own place in the sequence, when it has room (R86, R403). -/
def State.reinsert (s : State) (d : Nat) : State :=
  match (s.die d).whorl with
  | none => s
  | some x => match x.queue with
    | [] => s
    | h :: _ =>
      let w := s.whorl x.id
      match w.readyBefore h.pos, x.freeSlot w.slots with
      | some (p, data), some k =>
        if x.sending then s
        else
          let rot := if h.pos < p then rotOf h.tag + 2 ^ 24 - 1 else rotOf h.tag
          let n : Hank := ⟨p, w.tagOf p rot true, w.cfg.beats, 0, k, [], h.counted⟩
          let s := s.mapDie d (fun y =>
            (iterFrom (fun i y => y.putBeat w.cfg k i (takeRange data (i * 4096) 4096)) 0 w.cfg.beats y).mapWhorl (fun x =>
              { x with queue := n :: x.queue }))
          s.mapWhorl x.id (fun w => { w with
            lostPos := w.lostPos.filter (fun e => decide (e.1 ≠ p)), spliceLost := w.spliceLost.filter (fun q => decide (q ≠ p))
            owed := w.owed - 1
            rebuilt := if w.rebuilt.toNat < 2 ^ 32 - 1 then w.rebuilt + 1 else w.rebuilt
            hstate := if w.owed = 1 then (if w.spliced then 2 else 0) else w.hstate })
      | _, _ => s

/-! ## The events of a member die -/

/-- The interval a die uses from a start onwards (R77). -/
def WhorlDie.pace (x : WhorlDie) (r : WhorlRec) : Nat := x.needs.foldl (fun m e => max m e.2) r.floorOf

/-- The counters and records of a start at die `d`: the pace records of the hank arrive, a record of the die's own is removed, and
the die's new ones ride on (R75, R76, R77). The interval that follows the start is the new one (log 79). -/
def WhorlDie.started (x : WhorlDie) (d : Nat) (r : WhorlRec) (waited stalls : Nat) : WhorlDie :=
  let late := waited - x.interval
  let sat := fun (v : W32) (n : Nat) => if v.toNat + n < 2 ^ 32 then v + BitVec.ofNat 32 n else (BitVec.ofNat 32 (2 ^ 32 - 1))
  match x.queue with
  | [] => x
  | h :: t =>
    let ps := h.paces.filter (fun p => decide (p.die ≠ d))
    let x := { x with needs := ps.foldl (fun m (p : Pace) => mset 0 m p.die p.need) x.needs }
    { x with
      stretches := if late = 0 then x.stretches else sat x.stretches 1
      stretchCycles := sat x.stretchCycles (late + stalls)
      queue := { h with paces := ps ++ x.paceOut } :: t
      paceOut := [], sending := true, interval := x.pace r }

/-- Whether a die keeps a copy of a hank with this tag (R82). -/
def Die.keeps (x : Die) (tag : Word) : Bool := !(x.candidates tag).isEmpty || x.awaited tag

/-- Whether a slack slot of a die is free (R75). -/
def Die.slackFree (x : Die) (r : WhorlRec) : Bool := x.whorl.any (fun w => (w.slackSlot r).isSome)

/-- R75, a die starts the hank at the head of its queue, `waited` whorl-link cycles after its last start and after `stalls`
cycles stalled in the middle of the hank before. While a due start finds no slot for a copy it must keep, only step 1 of R83 is
applied; what it must keep is decided again in step 3, after the copies have aged (R83). The
start is gated by the interval as it stood, and a new one is used from the next start on (log 79). -/
def execHankStart (die waited stalls : Nat) (s : State) : Out :=
  .next (match (s.die die).whorl with
    | none => s
    | some x0 =>
      let r := (s.whorl x0.id).cfg
      if (s.whorl x0.id).state ≠ 2 ∨ (s.whorl x0.id).hstate = 3 ∨ x0.sending ∨ x0.credits = 0 ∨ waited < x0.interval ∨
          s.outReady die = false then s
      else
        let s := s.reinsert die
        match ((s.die die).whorl.map WhorlDie.queue).getD [] with
        | [] => s
        | h :: _ =>
          let s := if (s.die die).keeps h.tag then s.mapDie die Die.sweep else s
          if (s.die die).keeps h.tag && !(s.die die).slackFree r then s
          else
            let t := (s.mapDie die (fun x => x.mapWhorl (fun w => w.started die r waited stalls))).ageCopies die
            match (t.die die).keeps h.tag, (t.die die).whorl.bind (fun w => w.slackSlot r) with
            | true, none => s
            | true, some k => (t.retain die h k).sendBeat die
            | false, _ => t.sendBeat die)

/-- R83, the interval passes since the last dwell tick with no start. -/
def execDwellTick (die : Nat) (s : State) : Out :=
  .next (match (s.die die).whorl with
    | none => s
    | some x => if (s.whorl x.id).state = 2 ∨ (s.whorl x.id).state = 3 then s.ageCopies die else s)

/-- Beats of the newest hank a die has received. -/
def WhorlDie.newest (x : WhorlDie) : Nat :=
  match (x.elastic.reverse.findIdx? (fun b => b.first.isSome)) with
  | some i => i + 1
  | none => (((x.queue.getLast?).map Hank.arrived).getD 0) + x.elastic.length

/-- The pace records that come with a hank from the peer panel: some of those that went out, in order, which their writers still
wait for, and perhaps one of a die of the peer; which of them is a free value (R77, log 10). Dies 64 onwards stand for the
peer's. -/
def Whorl.peerPaces (w : Whorl) (n : Nat) : List Pace × List Pace :=
  let k := Config.choice n % (w.paceAway.length + 1)
  let mine := (w.paceAway.take k).filter (fun p => decide (p.die < 64))
  let c := Config.choice (n + 1)
  ((if c % 2 = 0 then mine else mine ++ [⟨64 + c / 2 % 64, c / 128 % 2 ^ 16⟩]), w.paceAway.drop k)

/-- A beat from the peer panel, whose contents are outside this panel: its position, tag and bytes are free values (R72,
R368, log 10). It comes only while the link is up (R375). -/
def State.peerBeat (s : State) (d : Nat) (x : WhorlDie) (r : WhorlRec) : State :=
  if 64 ≤ x.elastic.length ∨ (s.egress r.egressIn).state ≠ 2 then s
  else
    let data := iterFrom (fun i m => putByte m i (Config.outsideByte s.tick i)) 0 4096 []
    let put := fun (s : State) (f : Option Hank) => s.mapDie d (fun y => y.mapWhorl (fun x => { x with elastic := x.elastic ++ [⟨f, data⟩] }))
    if x.newest % r.beats ≠ 0 then put s none
    else
      let q := (s.whorl x.id).peerPaces (s.fresh + 2)
      let h : Hank := ⟨Config.choice s.fresh % r.hanks, BitVec.ofNat 64 (Config.choice (s.fresh + 1)), 0, 0, 0, q.1, false⟩
      put ((s.mapWhorl x.id (fun w => { w with paceAway := q.2 })).tickFresh.tickFresh.tickFresh.tickFresh) (some h)

/-- Whether the stream of a whorl goes on: it runs or drains, and is not lost (R87). -/
def Whorl.flows (w : Whorl) : Bool := (decide (w.state = 2) || decide (w.state = 3)) && decide (w.hstate ≠ 3)

/-- R74, a beat arrives on the in-port from the die before, or from the peer panel, and beats move into the transit queue as
space frees. The beat that the peer panel sends on is one of the last die's (R72). -/
def execBeatArrival (die : Nat) (s : State) : Out :=
  .next (match (s.die die).whorl with
    | none => s
    | some x =>
      let w := s.whorl x.id
      if !w.flows then s
      else
        let s := if w.cfg.egress && decide (w.route.headD die = die) then s.peerBeat die x w.cfg else s
        (s.sendBeat (prevOn w.route die)).mapDie die (fun y => y.takeBeats w.cfg w.slots))

/-- R74, a credit for a free beat of a die's elastic buffer returns to the out-port before it; at the last die of a whorl
continued over an egress link, a credit arrives from the peer and the stream goes on (R90). -/
def execLinkCredit (die : Nat) (s : State) : Out :=
  .next (match (s.die die).whorl with
    | none => s
    | some x =>
      let w := s.whorl x.id
      if w.hstate = 3 then s
      else if x.freed ≠ 0 then
        let s := s.mapDie die (fun y => y.mapWhorl (fun x => { x with freed := x.freed - 1 }))
        if w.cfg.egress && decide (w.route.headD die = die) then s
        else s.mapDie (prevOn w.route die) (fun y => y.mapWhorl (fun x => { x with credits := x.credits + 1 }))
      else if w.leavesPanel die && s.outReady die then
        (s.mapDie die (fun y => y.mapWhorl (fun x => { x with credits := min 64 (x.credits + 1) }))).sendBeat die
      else s)

/-- Whether every beat of a whorl rests in a transit queue and every slack loop is empty (R88). The beats of a lost whorl rest
where its stream stopped (R87, log 90). -/
def State.whorlAtRest (s : State) (w : Whorl) : Bool :=
  w.route.all (fun d => match (s.die d).whorl with
    | none => true
    | some x => (decide (w.hstate = 3) || x.elastic.isEmpty && !x.sending) && x.slack.isEmpty && x.leaving.isEmpty)

/-- The one completion entry of a whorl command that stands (R345). -/
def State.whorlEntry (s : State) (vf cmd : Nat) : State :=
  s.complete vf (cplEntry 5 1 (bits cmd 8 6) 0xFFFF (bits cmd 32 32) 0 0)

/-- R88, a draining whorl has drained. -/
def execWhorlDrained (whorl : Nat) (s : State) : Out :=
  .next (
    let w := s.whorl whorl
    if w.state = 3 ∧ s.whorlAtRest w then (s.setWhorl whorl { w with state := 4 }).whorlEntry w.vf w.cmd.toNat else s)

/-! ## Loss, splice and rest (R86, R87, R364 step 5, R402) -/

/-- Stops a bound unit that is to end faulted, as an abandon does (R30 step 3, R58, R356). -/
def State.stopFaulted (s : State) (h : Here) : State :=
  let p := s.ply h
  s.mapDie h.d (fun x =>
    let f := ((x.unit? p.unit).map WUnit.fut).getD 0
    let x := x.mapFut f (fun e => if e.state = 0 then { e.reclaimed 3 with pinned := false } else { e with pinned := false })
    let x := (x.dropAll p.holdset).endHolds p.unit
    (x.mapPly h.c h.k (fun p => { p with holdset := [] })).stopPly h.c h.k 4)

/-- Ends a bound unit faulted; a trap record pending for it is dropped (R58, R363). -/
def State.faultBound (s : State) (h : Here) : State := ((s.dropTrap h).dropSavedTrap h.d (s.ply h).unit).stopFaulted h

/-- What a lost whorl ends on a member die: every keyed launch that still waits, every deferred unit that waits for a start, and
every ply in HAWAIT (R87). -/
def State.loseOn (s : State) (d : Nat) : State :=
  let x := s.die d
  let ks := (x.launches.filter (fun e => e.2.lr.keyed && e.2.leader.isNone && e.2.met.isEmpty && (x.level e.2.level).used &&
    (decide (e.2.next < e.2.lr.units) || !(x.keyUnits e.1).isEmpty))).map Prod.fst
  let us := (x.units.filter (fun e => e.2.missed && e.2.phase == .queued && !ks.contains e.2.launch)).map Prod.fst
  let s := s.mapDie d (fun x => us.foldl Die.failUnit (ks.foldl Die.failLaunch x))
  ((s.die d).plies.filter (fun e => e.2.phase == .waiting && !e.2.waitDone && (match e.2.wait with
    | some (.hank _ _) => true
    | _ => false))).foldl (fun s e => s.faultBound ⟨d, e.1 / 8, e.1 % 8⟩) s

/-- The whorl is lost by what befell die `d`: its stream stops, and the journal of partition `part` records it (R87). -/
def State.loseWhorl (s : State) (part id d : Nat) : State :=
  let w := s.whorl id
  if w.hstate = 3 then s
  else (w.route.foldl State.loseOn (s.setWhorl id { w with hstate := 3 })).journal part 6 0 d w.vf 0xFFFF 0 0 0

/-- The hank at a position awaits its rebuilding; one that does already counts once (R402, R403). -/
def Whorl.owes (w : Whorl) (p : Nat) : Whorl :=
  if w.lostPos.any (fun e => decide (e.1 = p)) then w
  else { w with
    owed := w.owed + 1, hstate := if w.hstate = 3 then 3 else 1
    lostPos := w.lostPos ++ [(p, (w.cfg.groupOf p).filter (fun q => decide (q ≠ p)), [])] }

/-- One hank of a whorl is owed: gathered from its group, or the whorl is lost, because it has no parity or another hank of the
group is owed (R86, R87, R402, R403). -/
def State.oweHank (s : State) (part id d p : Nat) : State :=
  let w := s.whorl id
  let t := s.setWhorl id (w.owes p)
  if !w.cfg.parityOn || w.lostPos.any (fun e => decide (e.1 ≠ p) && (w.cfg.groupOf p).contains e.1) then t.loseWhorl part id d else t

/-- The beats of an elastic buffer without those of the hank at a position; `cur`: the beats at its front are of that hank. -/
def dropBeats (p : Nat) (cur : Bool) (bs : List Beat) : List Beat :=
  match bs with
  | [] => []
  | b :: t =>
    let cur := match b.first with
      | some h => decide (h.pos = p)
      | none => cur
    if cur then dropBeats p cur t else b :: dropBeats p cur t

/-- Takes every trace of a position out of a die's queue and elastic buffer, whose freed beats return as credits. -/
def WhorlDie.dropPos (x : WhorlDie) (beats p : Nat) : WhorlDie :=
  let cur := (x.queue.getLast?).any (fun h => decide (h.pos = p) && decide (h.arrived < beats))
  let e := dropBeats p cur x.elastic
  { x with
    sending := x.sending && ((x.queue.head?).map (fun h => decide (h.pos ≠ p))).getD false
    queue := x.queue.filter (fun h => decide (h.pos ≠ p))
    elastic := e, freed := x.freed + (x.elastic.length - e.length) }

/-- The hank at a position is lost from wherever a queue holds it (R402). -/
def State.loseHank (s : State) (id d p : Nat) : State :=
  let w := s.whorl id
  (w.route.foldl (fun s e => s.mapDie e (fun y => y.mapWhorl (fun x => x.dropPos w.cfg.beats p))) s).oweHank (s.die d).partNo id d p

/-! ## The splice (R86) -/

/-- The position of the hank that a die is sending. -/
def WhorlDie.sendingPos (x : WhorlDie) : Option Nat := if x.sending then (x.queue.head?).map Hank.pos else none

/-- The positions of the hanks that a die holds in its queue and its elastic buffer. -/
def WhorlDie.held (x : WhorlDie) : List Nat :=
  x.queue.map Hank.pos ++ (x.elastic.filterMap Beat.first).map Hank.pos

/-- Beat `i` of the newest hank that has reached a die: in its queue, or still in its elastic buffer. -/
def Die.newestBeat (x : Die) (r : WhorlRec) (y : WhorlDie) (p i : Nat) : Map Byte :=
  match y.queue.find? (fun k => decide (k.pos = p)) with
  | some k => if i < k.arrived then x.beatBytes r k i else (y.elastic.getD (i - k.arrived) ⟨none, []⟩).data
  | none =>
    let j := (y.elastic.findIdx? (fun b => b.first.any (fun h => decide (h.pos = p)))).getD 0
    (y.elastic.getD (j + i) ⟨none, []⟩).data

/-- What gathering took from the first `n` beats of a hank that is sent again is taken back: exclusive-or with the same bytes
(R86 step 2). -/
def ungather (ls : List (Nat × List Nat × Map Byte)) (p n : Nat) (beat : Nat → Map Byte) : List (Nat × List Nat × Map Byte) :=
  (iterFrom (fun i ls => gatherLost ls p i false false (beat i)) 0 n ls).map (fun e =>
    (e.1, e.2.1.map (fun m => if m = p + 2 ^ 32 then p else m), e.2.2))

/-- The whole of the hank that die `u` was sending to the failed die `f`, put back at the head of its queue: the beats already
sent are those that `f` had received, and what `f` had sent on of it is dropped. The pace records that rode on it ride on it
again, and the records of `u` with the start that is to come (R77). -/
def State.takeBack (s : State) (u f : Nat) (w : Whorl) : State :=
  match (s.die u).whorl, (s.die f).whorl with
  | some x, some y => match x.queue with
    | [] => s
    | h :: _ =>
      if !x.sending then s
      else
        let r := w.cfg
        let beat := (s.die f).newestBeat r y h.pos
        let shared := x.queue.tail.any (fun g => decide (g.slot = h.slot))
        let k := if shared then (x.freeSlot (r.share + r.spare)).getD h.slot else h.slot
        let rest := iterFrom (fun i (m : Map (Map Byte)) => mput m i ((s.die u).beatBytes r h i)) h.sent (h.arrived - h.sent) []
        let s := s.mapDie (nextOn w.route f) (fun z => z.mapWhorl (fun x => x.dropPos r.beats h.pos))
        let s := s.mapDie u (fun z =>
          (iterFrom (fun i z => z.putBeat r k i (if i < h.sent then beat i else mget [] rest i)) 0 h.arrived z).mapWhorl (fun x => { x with
            sending := false, paceOut := h.paces.filter (fun p => decide (p.die = u)) ++ x.paceOut
            queue := { h with sent := 0, slot := k, paces := h.paces.filter (fun p => decide (p.die ≠ u)) } ::
              x.queue.filter (fun g => decide (g.pos ≠ h.pos)) }))
        if w.route.headD u = u then s.mapWhorl x.id (fun w => { w with lostPos := ungather w.lostPos h.pos h.sent beat }) else s
  | _, _ => s

/-- The pace records of a die that has left the ring are removed, wherever they travel (R77). -/
def WhorlDie.forget (x : WhorlDie) (d : Nat) : WhorlDie :=
  let keep := fun (h : Hank) => { h with paces := h.paces.filter (fun p => decide (p.die ≠ d)) }
  { x with
    needs := mdel x.needs d, queue := x.queue.map keep
    elastic := x.elastic.map (fun b => { b with first := b.first.map keep }) }

/-- The hanks that the failed origin has counted, on the die after it, are not counted there again (R86 item 4). -/
def WhorlDie.countedOnce (x : WhorlDie) : WhorlDie :=
  { x with
    queue := x.queue.map (fun h => { h with counted := true })
    elastic := x.elastic.map (fun b => { b with first := b.first.map (fun h => { h with counted := true }) }) }

/-- The switch layer splices a die of partition `part` out of its whorl (R86): the hanks in its queue are owed, the die before it sends to the die
after it, and the survivors use their splice slots; or the whorl is lost (R87). The pace records that ride on the lost hanks go
with them (R77, log 90). -/
def State.spliceOut (s : State) (part d : Nat) : State :=
  match (s.die d).whorl with
  | none => s
  | some x =>
    let w := s.whorl x.id
    let r := w.cfg
    let up := prevOn w.route d
    let down := nextOn w.route d
    let route := w.route.filter (fun e => decide (e ≠ d))
    let back := (s.die up).whorl.bind WhorlDie.sendingPos
    let lost := x.held.filter (fun p => decide (back ≠ some p))
    let ends := !r.parityOn || !w.spliceLost.isEmpty || decide ((r.share + r.spare) * route.length < r.hanks)
    let s := if ends then s else s.takeBack up d w
    let s := (s.mapWhorl x.id (fun w => { w with route := route, spliced := true, hdie := BitVec.ofNat 6 d })).mapDie d
      (fun y => { y with whorl := none, holds := [] })
    let s := route.foldl (fun s e => s.mapDie e (fun y => y.mapWhorl (fun z =>
      (lost.foldl (fun z p => z.dropPos r.beats p) z).forget d))) s
    let s := if w.route.headD d = d then s.mapDie down (fun y => y.mapWhorl WhorlDie.countedOnce) else s
    let room := ((s.die down).whorl.map (fun z => 64 - z.elastic.length)).getD 64
    let s := s.mapDie up (fun y => y.mapWhorl (fun z => { z with credits := room }))
    let s := s.mapDie down (fun y => y.mapWhorl (fun z => { z with freed := 0 }))
    if ends then (s.mapWhorl x.id (fun w => lost.foldl Whorl.owes w)).loseWhorl part x.id d
    else lost.foldl (fun s p => s.oweHank part x.id d p) (s.mapWhorl x.id (fun w => { w with spliceLost := lost }))

/-- One round of the stream of a whorl in which no hank starts: every die takes its beats, returns its credits and sends one
beat; what goes out over an egress link waits for no credit. -/
def State.whorlRound (s : State) (id : Nat) : State :=
  let w := s.whorl id
  w.route.foldl (fun s d =>
    let s := s.mapDie d (fun y => y.takeBeats w.cfg w.slots)
    let n := ((s.die d).whorl.map WhorlDie.freed).getD 0
    let s := s.mapDie d (fun y => y.mapWhorl (fun x => { x with freed := 0 }))
    let s := s.mapDie (prevOn w.route d) (fun y => y.mapWhorl (fun x => { x with credits := x.credits + n }))
    let s := if w.leavesPanel d then s.mapDie d (fun y => y.mapWhorl (fun x => { x with credits := max 1 x.credits })) else s
    s.emitBeat d) s

/-- The whorl is held as drained: every hank comes to rest in a transit queue, unless the stream has stopped (R87), every slack
loop is emptied and every hold voided (R364 step 5). -/
def State.holdDrained (s : State) (id : Nat) : State :=
  let w := s.whorl id
  if w.state = 0 then s
  else
    let s := if w.hstate = 3 then s else iterFrom (fun _ s => s.whorlRound id) 0 ((w.cfg.beats + 64) * (w.route.length + 1)) s
    let s := w.route.foldl (fun s d => s.mapDie d (fun y => { y.mapWhorl (fun x => { x with slack := [], leaving := [] }) with holds := [] })) s
    let s := if w.state = 3 then s.whorlEntry w.vf w.cmd.toNat else s
    s.mapWhorl id (fun w => { w with state := 4 })

/-! ## The failure of a die (R86 item 1, R401 step 1) -/

/-- Ends faulted every level still open on a die of partition `part`: its jobs, phases, graphs and launches are journalled with type 4, and its
plies and units go. -/
def State.failRequests (s : State) (part d : Nat) : State :=
  let x := s.die d
  let opened := x.levels.filter (fun e => e.2.used && (e.2.status == 0 || e.2.status == 2))
  let s := opened.foldl (fun s e =>
    let s := s.mapDie d (fun x => x.setLevel e.1 { e.2 with status := 4, used := false, outstanding := 0 })
    if e.2.level = 0 then s
    else
      let s := s.journal part 4 3 d e.2.vf e.1 e.2.ident.toNat 0 e.2.unitsDone.toNat
      if e.2.notify then s.complete e.2.vf (cplEntry e.2.cmdKind 3 d e.1 e.2.ident.toNat 0 e.2.unitsDone.toNat) else s) s
  s.mapDie d (fun x => { x with
    units := [], launches := [], areas := [], chosen := [], plies := [], lathes := [], tcolls := [], holds := []
    futs := x.futs.map (fun e => (e.1, if e.2.state = 3 then e.2 else e.2.freed))
    traps := x.traps.map (fun e => (e.1, if e.2.used then e.2.freed true else e.2))
    cores := x.cores.map (fun e => (e.1, { e.2 with running := none, dlink := [] }))
    lqs := x.lqs.map (fun e => (e.1, { e.2 with items := [] })) })

/-- R86, a member die fails: its requests are failed to the host through the journal, and the switch layer splices it out. -/
def execDieFailure (die : Nat) (s : State) : Out :=
  .next (if isDie die && (s.die die).whorl.isSome then (s.failRequests (s.die die).partNo die).spliceOut (s.die die).partNo die else s)

end Sys2Proof.Machine
end

