-- ==== Sys2Proof/Machine/Host.lean ====
section
/-! DEFINITION. The host's memory accesses, command rings and completion rings, and the acceptance of commands and launches
(R283, R312, R334, R338 to R344). -/

namespace Sys2Proof.Machine

open Sys2Proof

/-! ## Host accesses to die store (R98, R334) -/

/-- Where a physical byte of a die lies for an access from outside the die (R21, R29, R97, R334). -/
def hostPlace (wb : Nat) (write : Bool) (pa : Nat) : Place :=
  if Config.storeBytes ≤ pa then .bad 0
  else if Config.futBase ≤ pa then .bad 2
  else if wb ≤ pa ∧ pa < wb + 16 * Config.levelCount then (if write then .bad 2 else .level (pa - wb))
  else .mem pa

/-- Writes bytes physically; an out-of-range byte is dropped (R98). -/
def Die.hostWrite (x : Die) (wb pa : Nat) (bs : List Byte) : Die :=
  match bs with
  | [] => x
  | b :: t => (x.writePlace (hostPlace wb true pa) noUnit b).hostWrite wb (pa + 1) t

/-- Reads bytes physically; an out-of-range byte reads zero (R98). -/
def Die.hostRead (x : Die) (wb pa n : Nat) : List Byte := (List.range n).map (fun i => x.readPlace (hostPlace wb false (pa + i)))

/-- R334, a host write to die store, performed at its home die. -/
def execHostMemWrite (port die addr : Nat) (bytes : List Byte) (s : State) : Out :=
  .next (if isDie die && s.dieOn die && s.hostOn port then s.mapDie die (fun x => x.hostWrite s.workBase addr bytes) else s)

/-- R334, a host read of die store; the bytes are what the host sees. -/
def execHostMemRead (port die addr len : Nat) (s : State) : Out :=
  .next (if isDie die && s.dieOn die && s.hostOn port then { s with hostReads := (s.die die).hostRead s.workBase addr len } else s)

/-! ## Members and busy functions (R335) -/

/-- Whether a die is a member of a function's partition. -/
def State.inPart (s : State) (v d : Nat) : Bool := (s.vf v).en && isDie d && (s.die d).member && (s.die d).part == (s.vf v).part

/-- VFBIND `busy`: an open level or an unconsumed command (R335). -/
def State.vfBusy (s : State) (v : Nat) : Bool :=
  (s.vf v).cmdHead != (s.vf v).cmdTail ||
    s.dies.any (fun e => e.2.levels.any (fun l => l.2.used && decide (l.2.vf = v) && (l.2.status == 0 || l.2.status == 2)))

/-! ## Levels that a command names (R340) -/

/-- The index a `parent` or `dep` value means for a function on a die; `none` for 0xFFFF, for a value that names nothing, and
for a relative reference to a level whose index another level has taken since. -/
def State.levelRef (s : State) (v d n : Nat) : Option Nat :=
  if n < 0x4000 then some n
  else if 0x8001 ≤ n ∧ n ≤ 0x80FF then
    match (((s.vf v).created.filter (fun e => decide (e.1 = d))).drop (n - 0x8001)).head? with
    | none => none
    | some e => if ((s.die d).level e.2.1).serial = e.2.2 then some e.2.1 else none
  else none

/-- The open level of a code that a value names, belonging to the function (R341 reason 5). -/
def State.openLevel (s : State) (v d n code : Nat) : Option Nat :=
  match s.levelRef v d n with
  | none => none
  | some i =>
    let l := (s.die d).level i
    if l.used ∧ l.status = 0 ∧ l.level.toNat = code ∧ l.vf = v then some i else none

/-- Notes a level that a command created (R340). -/
def State.noteCreated (s : State) (v d i : Nat) : State :=
  s.mapVf v (fun f => { f with created := (d, i, ((s.die d).level i).serial) :: f.created })

/-! ## Launches (R312, R340, R283) -/

/-- Creates a launch in level record `i` of graph `g` and appends it to its queue. -/
def State.addLaunch (s : State) (d v q i g : Nat) (lr : LaunchRec) (deps : List Nat) (ident : Nat) (notify : Bool) : State :=
  let job := ((s.die d).level ((s.die d).jobOf g 5)).serial
  let s := s.newLevel d i 1 g ident v lr.units true notify
  let l := s.fresh
  let a : Launch := {
    lr := lr, vf := v, queue := q, level := i, deps := deps, ident := BitVec.ofNat 32 ident, resv := lr.futResv, next := 0,
    met := [], leader := none, members := [], defers := 0, job := job }
  s.tickFresh.mapDie d (fun x =>
    let x := x.mapLevel g (fun p => { p with outstanding := p.outstanding + 1 })
    let x := x.setLaunch l a
    x.setLqc q { x.lqc q with items := (x.lqc q).items ++ [.launch l] })

/-- The launch record at an address as the device reads it once, in a function's context (R307); `none`, which refuses the
command with reason 4, also where a byte of it cannot be read there (R341, log 91). -/
def State.readLaunch (s : State) (d v addr : Nat) : Option LaunchRec :=
  match s.ctxRead d v addr 256 with
  | none => none
  | some bs => parseLaunch addr bs

/-! ## Commands (R339 to R342) -/

/-- Whether a function's next command can be consumed: one is written, its ring is in use and no notice is held (R338, R343). -/
def State.cmdReady (s : State) (v : Nat) : Bool :=
  let f := s.vf v
  decide (v < 192) && s.hostOn (v / 48) && f.cmdHead != f.cmdTail && decide (f.cmdSize.toNat ≤ 10) && !f.cplFull && f.held.isEmpty

/-- A command that stands or is refused: its new state, the level index, the status a cancel found. -/
abbrev Verdict := Except Nat (State × Nat × Nat)

/-- The reserved fields of a command are zero, and its `sub` is one its kind allows (R339, R341 reason 1). -/
def cmdFormed (c : Nat) : Bool :=
  let kind := bits c 0 4
  let sub := bits c 64 3
  decide (kind < 6) && decide (bits c 5 3 = 0) && decide (bits c 14 2 = 0) && decide (bits c 67 5 = 0) && decide (bits c 78 2 = 0) &&
    decide (bits c 136 8 = 0) && (decide (kind ≠ 5) || decide (bits c 200 56 = 0)) &&
    (match kind with
      | 1 => decide (2 ≤ sub) && decide (sub ≤ 4)
      | 5 => decide (sub < 5)
      | _ => decide (sub = 0))

/-- A refused command: journalled, with its completion entry (R341). -/
def State.refuseCmd (s : State) (v c reason : Nat) : State :=
  let d := bits c 8 6
  let info := if bits c 0 4 = 2 then bits c 80 56 else 0
  (s.journal (s.vf v).part.toNat 2 4 d v 0xFFFF (bits c 32 32) reason 0).complete v
    (cplEntry (bits c 0 4) 4 d 0xFFFF (bits c 32 32) reason info)

/-- Consumes the command of a function when it is one that `mine` accepts, and accepts or refuses it. `entry`: the command
writes an entry at acceptance if its `notify` asks for one (R339, R342, R345). -/
def State.command (s : State) (v : Nat) (cmd : BitVec 256) (mine : Nat → Nat → Bool) (entry : Bool) (body : State → Verdict) : State :=
  let c := cmd.toNat
  let kind := bits c 0 4
  let d := bits c 8 6
  if !s.cmdReady v || !mine kind (bits c 64 3) then s
  else
    let s := s.mapVf v (fun f => { f with cmdHead := f.cmdHead + 1 })
    if !cmdFormed c then s.refuseCmd v c 1
    else if !s.inPart v d then s.refuseCmd v c 2
    else match body s with
      | .error r => s.refuseCmd v c r
      | .ok (t, i, found) =>
        let n := (t.part (t.vf v).part.toNat).jseq
        let t := if kind = 1 ∨ kind = 2 then t.mapDie d (fun x => x.mapLevel i (fun l => { l with jseq := n }))
          else if kind = 3 ∨ kind = 4 then t.mapDie d (fun x => x.mapLevel i (fun l => { l with ends := l.ends ++ [(n, kind)] }))
          else t
        let t := t.journal (t.vf v).part.toNat 1 0 d v i (bits c 32 32) kind (if kind = 2 ∨ kind = 5 then bits c 80 56 else 0)
        if entry && bitB c 4 then t.complete v (cplEntry kind 0 d i (bits c 32 32) found 0) else t

/-- R338, the host writes `cmd_tail`; the device consumes commands from then on. -/
def execCmdDoorbell (vf tail : Nat) (s : State) : Out :=
  .next (if vf < 192 && s.hostOn (vf / 48) then s.mapVf vf (fun f => { f with cmdTail := BitVec.ofNat 16 tail }) else s)

/-- R340, a nop; also where a command of a kind or operation that does not exist is refused (R341 reason 1). -/
def execCmdNop (vf : Nat) (cmd : BitVec 256) (s : State) : Out :=
  .next (s.command vf cmd (fun k sub => decide (k = 0) || decide (6 ≤ k) || (decide (k = 5) && decide (5 ≤ sub))) true
    (fun s => .ok (s, 0xFFFF, 0)))

/-- The creation of a job, phase or graph (R340). -/
def State.openCmd (s : State) (v c : Nat) : Verdict :=
  let d := bits c 8 6
  let sub := bits c 64 3
  let n := bits c 16 16
  let p : Option Nat := if sub = 4 then (if n = 0xFFFF then some 0xFFFF else none) else s.openLevel v d n (sub + 1)
  match p with
  | none => .error 5
  | some p => match s.freeLevel d with
    | none => .error 6
    | some i =>
      let s := s.newLevel d i sub p (bits c 32 32) v 1 false (bitB c 4)
      let s := if p = 0xFFFF then s else s.mapDie d (fun x => x.mapLevel p (fun l => { l with outstanding := l.outstanding + 1 }))
      .ok (s.noteCreated v d i, i, 0)

/-- R340, opens a level. -/
def execCmdOpen (vf : Nat) (cmd : BitVec 256) (s : State) : Out :=
  .next (s.command vf cmd (fun k _ => decide (k = 1)) true (fun s => s.openCmd vf cmd.toNat))

/-- The dependences of a launch command: the level indices they name, all of them launches of the same graph (R340, R341). -/
def State.cmdDeps (s : State) (v d g c : Nat) : Option (List Nat) :=
  let ds := ((List.range 7).map (fun k => bits c (144 + 16 * k) 16)).filter (fun n => decide (n ≠ 0xFFFF))
  let is := ds.map (fun n => s.levelRef v d n)
  if is.all (fun o => match o with
    | none => false
    | some i => let l := (s.die d).level i; l.used && decide (l.level = 1) && decide (l.parent.toNat = g) && decide (l.vf = v)) then
    some (is.filterMap id)
  else none

/-- The acceptance of a launch (R340, R341). -/
def State.launchCmd (s : State) (v c : Nat) : Verdict :=
  let d := bits c 8 6
  let q := bits c 72 6
  if !bitB (s.vf v).qmask.toNat q then .error 3
  else match s.readLaunch d v (bits c 80 56) with
    | none => .error 4
    | some lr => match s.openLevel v d (bits c 16 16) 2 with
      | none => .error 5
      | some g => match s.cmdDeps v d g c with
        | none => .error 5
        | some deps => match s.freeLevel d with
          | none => .error 6
          | some i =>
            if (s.die d).commonFree < lr.futResv then .error 6
            else .ok ((s.addLaunch d v q i g lr deps (bits c 32 32) (bitB c 4)).noteCreated v d i, i, 0)

/-- R340, a launch. -/
def execCmdLaunch (vf : Nat) (cmd : BitVec 256) (s : State) : Out :=
  .next (s.command vf cmd (fun k _ => decide (k = 2)) true (fun s => s.launchCmd vf cmd.toNat))

/-- R340, a seal. -/
def execCmdSeal (vf : Nat) (cmd : BitVec 256) (s : State) : Out :=
  .next (s.command vf cmd (fun k _ => decide (k = 3)) true (fun s =>
    let d := bits cmd.toNat 8 6
    match s.levelRef vf d (bits cmd.toNat 16 16) with
    | none => .error 5
    | some i =>
      let l := (s.die d).level i
      if l.used ∧ l.status = 0 ∧ 2 ≤ l.level.toNat ∧ l.vf = vf ∧ !l.sealed then
        .ok (s.mapDie d (fun x => x.setLevel i { l with sealed := true, outstanding := l.outstanding - 1 }), i, 0)
      else .error 5))

/-- R340, a cancel: the level acted on must be one of the function's, open or ended (R31). -/
def execCmdCancel (vf : Nat) (cmd : BitVec 256) (s : State) : Out :=
  .next (s.command vf cmd (fun k _ => decide (k = 4)) true (fun s =>
    let d := bits cmd.toNat 8 6
    match s.levelRef vf d (bits cmd.toNat 16 16) with
    | none => .error 5
    | some i =>
      let l := (s.die d).level i
      if (l.used ∨ l.status ≠ 0) ∧ l.vf = vf then
        let r := s.cancelLevel d i
        .ok (r.1, i, r.2)
      else .error 5))

/-! ## tenq at its target (R283) -/

/-- The first byte of a tenq's row that cannot be placed: its address, with the reason and level of its fault, which are free
values for a byte that does not fault. -/
def State.tenqFault (s : State) (d : Nat) (q : Tenq) : Option (Nat × Nat × Nat) :=
  let own : Option Nat := if q.src = d then some (q.core * 8 + q.slot) else none
  let ls := State.locateAll (fun va => (s.locate d own q.vf .store none va).1) q.daddr q.bytes.length
  (ls.find? (fun e =>
    match e.2 with
    | .here (.mem _) => bitB e.1 55 || (findBuf (s.die d).bufs (e.1 % 2 ^ 55)).isSome
    | _ => true)).map (fun e => match e.2 with
      | .fault r l => (e.1, r, l)
      | _ => (e.1, Config.choice s.fresh % 16, Config.choice (s.fresh + 1) % 16))

/-- Tells the issuing ply that its tenq has been answered; `none`: its TR goes on. -/
def State.tenqAnswer (s : State) (q : Tenq) (f : Option (Nat × Nat × Nat)) : State :=
  let h : Here := ⟨q.src, q.core, q.slot⟩
  let p := s.ply h
  let waits := decide (p.unit = q.unit) && decide (p.phase ≠ .free) && (match p.tr.cmd with
    | some c => decide ((c.todo.headD 0).toNat / 2 ^ 27 = 7) && decide (c.iter = 1)
    | none => false)
  if !waits then s
  else match f with
    | none => s.mapPly h (fun p => p.wordDone .tr)
    | some f => ((s.mapPly h (fun p => p.mapCmd .tr (fun c => { c with iter := 0, snap := none }))).tickFresh.tickFresh).faultRing h .tr f

/-- Level records for a job, a phase, a graph and a launch: the job's index is a free choice among the free ones (R340, log 8), and
the others take the lowest that are left (log 8). -/
def State.fourLevels (s : State) (d : Nat) : Option (Nat × Nat × Nat × Nat) :=
  match s.pick (fun i => ((s.die d).level i).used) Config.levelCount with
  | none => none
  | some a =>
    let next := fun (u : List Nat) => firstFrom (fun i => !((s.die d).level i).used && !u.contains i) 0 Config.levelCount
    match next [a] with
    | none => none
    | some b => match next [a, b] with
      | none => none
      | some c => (next [a, b, c]).map (fun e => (a, b, c, e))

/-- The enqueue of a placed launch record: its own job, phase and graph, already sealed (R283). -/
def State.tenqLaunch (s : State) (d : Nat) (q : Tenq) : State :=
  let part := (s.die d).part.toNat
  let ident := q.ident.toNat
  let refuse := fun (r : Nat) => (s.journal part 2 4 d q.vf 0xFFFF ident r 0).complete q.vf (cplEntry 2 4 d 0xFFFF ident r q.daddr)
  if !bitB (s.vf q.vf).qmask.toNat q.queue then refuse 3
  else match (if q.bytes.length < 256 then none else parseLaunch q.daddr (q.bytes.take 256)) with
    | none => refuse 4
    | some lr => match s.fourLevels d with
      | none => refuse 6
      | some (j, p, g, l) =>
        if (s.die d).commonFree < lr.futResv then refuse 6
        else
          let s := s.newLevel d j 4 0xFFFF ident q.vf 1 true q.notify
          let s := s.mapDie d (fun x => x.mapLevel j (fun v => { v with cmdKind := 2 }))
          let s := s.newLevel d p 3 j ident q.vf 1 true false
          let s := s.newLevel d g 2 p ident q.vf 0 true false
          let n := (s.part part).jseq
          let s := (s.addLaunch d q.vf q.queue l g lr [] ident false).mapDie d (fun x => x.mapLevel l (fun v => { v with jseq := n }))
          s.journal part 1 0 d q.vf l ident 2 q.daddr

/-- Places the row of a tenq. On the issuing die it is a TR write of its unit beside the deliveries of the unit's tcolls: at a unit of 8
bytes that both write, either may be the last (R288, log 77). -/
def State.tenqRow (s : State) (d : Nat) (q : Tenq) : State :=
  let near := decide (q.src = d)
  let own := if near then q.core * 8 + q.slot else noUnit
  let ls := State.locateAll (fun a => (s.locate d (some own) q.vf .store none a).1) q.daddr q.bytes.length
  let es := (ls.zip q.bytes).filter (fun e => !(near && s.trBefore ⟨d, q.core, q.slot⟩ e.1.1))
  s.mapDie d (fun x =>
    let x := x.writeLocs (es.map Prod.fst) noUnit (es.map Prod.snd)
    if near then x.noteMixed q.unit (ls.map Prod.fst) else x)

/-- R283, the target of a tenq checks every byte, places the row and enqueues the launch in one step, or places nothing; a stale
one is dropped (R377). None comes from another partition: its sender has faulted (log 78). -/
def execTenqPlace (die : Nat) (s : State) : Out :=
  .next (match (s.die die).tenqs with
    | [] => s
    | q :: t =>
      let takes := s.dieOn die && !s.stalePkt q.src die q.srcInc q.dstInc
      let s := s.mapDie die (fun x => { x with tenqs := t })
      if !takes then s else match s.tenqFault die q with
      | some f => s.tenqAnswer q (some f)
      | none =>
        ((s.tenqRow die q).tenqLaunch die q).tenqAnswer q none)

/-! ## Completion rings and interrupts (R343, R344) -/

/-- Writes the held entries that now find room, at most `n`, and sets `stalled` (R343). -/
def State.flushCpl (s : State) (v n : Nat) : State :=
  match n with
  | 0 => s.mapVf v (fun f => { f with stalled := f.cplFull })
  | n + 1 =>
    let f := s.vf v
    match f.held with
    | [] => s.setVf v { f with stalled := f.cplFull }
    | e :: t => if f.cplFull then s.setVf v { f with stalled := true } else ((s.setVf v { f with held := t }).writeCpl v e).flushCpl v n

/-- R343, the host advances `cpl_head`, and held entries are written. -/
def execCplHeadWrite (vf head : Nat) (s : State) : Out :=
  .next (if vf < 192 && s.hostOn (vf / 48) then
      (s.mapVf vf (fun f => { f with cplHead := BitVec.ofNat 16 head })).flushCpl vf ((s.vf vf).held.length)
    else s)

/-- R344, the coalescing window of the oldest pending entry expires; while `int_en` is 0 no interrupt is sent. -/
def execInterruptWindowExpiry (vf : Nat) (s : State) : Out :=
  .next (if vf < 192 && (s.vf vf).pendWindow && (s.vf vf).intEn then s.interrupt vf else s)

/-- R354, the host advances the trap ring's `head`, and held records are written. -/
def execTrapqHeadWrite (vf head : Nat) (s : State) : Out :=
  .next (if vf < 192 && s.hostOn (vf / 48) then
      (s.mapVf vf (fun f => { f with trapHead := BitVec.ofNat 16 head })).flushTraps vf ((s.vf vf).trapHeld.length)
    else s)

end Sys2Proof.Machine
end

