-- ==== Sys2Proof/Machine/WhorlCommands.lean ====
section
/-! DEFINITION. Loading, starting, draining, freeing and reconfiguring a whorl (R19, R72, R73, R88, R89, R345, R346). -/

namespace Sys2Proof.Machine

open Sys2Proof

/-! ## The configuration record (R72, R73) -/

/-- The fields of a record. -/
def whorlRecOf (v : Nat) : WhorlRec :=
  { id := bits v 0 8, n := bits v 8 8, hankCode := bits v 16 4, parityOn := bitB v 20, egress := bitB v 21,
    slackDepth := bits v 22 5, spare := bits v 27 5, hanks := bits v 32 24, model := BitVec.ofNat 8 (bits v 56 8),
    dwell := bits v 64 16, needInit := bits v 80 16, origin := bitB v 96, base := bits v 128 56,
    route := (List.range 64).map (fun k => bits v (192 + 8 * k) 8), egressOut := bits v 704 4, egressIn := bits v 712 4 }

/-- The record as kept: its route without the bytes past position N − 1. -/
def WhorlRec.trimmed (r : WhorlRec) : WhorlRec := { r with route := r.route.take r.n }

/-- The reserved fields of a record are zero (R6, R72). -/
def whorlReserved (v : Nat) : Bool :=
  decide (bits v 97 31 = 0) && decide (bits v 184 8 = 0) && decide (bits v 708 4 = 0) && decide (bits v 716 308 = 0)

/-- The length of a whorl region in bytes (R72). -/
def WhorlRec.region (r : WhorlRec) : Nat := (r.share + r.spare + r.slackDepth) * r.hankBytes

/-- Whether the region is misaligned, passes the end of die store or meets the future table (R73). -/
def WhorlRec.regionBad (r : WhorlRec) : Bool :=
  decide (r.base % r.hankBytes ≠ 0) || decide (Config.futBase < r.base + r.region)

/-- The checks of the budgets: dwell, slack depth (R72, R73). -/
def WhorlRec.budgetBad (r : WhorlRec) : Bool := decide (r.slackDepth = 0) || decide (16 < r.slackDepth) || decide (r.dwell = 0)

/-- Whether a list repeats an element. -/
def hasRepeat (l : List Nat) : Bool :=
  match l with
  | [] => false
  | a :: t => t.contains a || hasRepeat t

/-- Whether a record is ill-formed for a load into partition `p` (R73). -/
def State.whorlBad (s : State) (p v : Nat) (r : WhorlRec) : Bool :=
  let dies := r.route.take r.n
  !whorlReserved v || decide (31 < r.id) || decide (r.n < 2) || decide (64 < r.n) || decide ((s.members p).length < r.n) ||
  hasRepeat dies || dies.any (fun d => !(s.members p).contains d) || (r.route.drop r.n).any (fun b => decide (b ≠ 0xFF)) ||
  dies.any (fun d => (s.die d).whorl.isSome) || decide (r.hanks = 0) || decide (r.hanks % r.n ≠ 0) ||
  (r.parityOn && (decide (r.n < 3) || decide (r.hanks % r.groupSize = 1))) || (r.parityOn && r.egress) || r.budgetBad ||
  (!r.origin && !r.egress) ||
  (r.egress && (decide ((s.egress r.egressOut).use ≠ 0) || decide ((s.egress r.egressIn).use ≠ 0))) || r.regionBad

/-- The tag table as read, or none when it is ill-formed or cannot be read (R346). -/
def State.tagTable (s : State) (d v a : Nat) (r : WhorlRec) : Option (Map W32) :=
  match s.ctxRead d v a (4 * r.hanks) with
  | none => none
  | some bs =>
    let es := (List.range r.hanks).map (fun p => (p, leNat ((bs.drop (4 * p)).take 4)))
    if es.any (fun e => !r.isParity e.1 && (decide (bits e.2 25 7 ≠ 0) || (bitB e.2 24 && decide (bits e.2 0 24 ≠ 0)))) then none
    else some (es.foldl (fun m e => mset 0 m e.1 (BitVec.ofNat 32 e.2)) [])

/-! ## Operations (R345) -/

/-- What a member die holds of a whorl at its load (R69, R74, R77). -/
def Whorl.dieAt (w : Whorl) (k : Nat) : WhorlDie :=
  let r := w.cfg
  let first := (r.n - k) % r.n * r.share
  { id := r.id, pos := k, interval := max r.floorOf r.needInit, needDecl := BitVec.ofNat 16 r.needInit, floor := r.floorOf,
    stretches := 0, stretchCycles := 0, needs := w.route.foldl (fun m d => mset 0 m d r.needInit) [], paceOut := []
    queue := (List.range r.share).map (fun i => ⟨first + i, w.tagOf (first + i) 0 false, r.beats, 0, i, [], false⟩)
    elastic := [], credits := 64, freed := 0, sending := false, run := false, slack := [], leaving := [] }

/-- The load of a whorl whose record stands (R345, R403). -/
def State.loadWhorl (s : State) (v : Nat) (cmd : BitVec 256) (r : WhorlRec) (tags : Map W32) : State :=
  let w : Whorl := ⟨r, r.route, 1, v, cmd, 0, 0, 0, 0, false, [], [], [], tags⟩
  let s := s.setWhorl r.id w
  let s := (r.route.zipIdx).foldl (fun s e => s.mapDie e.1 (fun x => { x with whorl := some (w.dieAt e.2) })) s
  if r.egress then ((s.mapEgress r.egressOut (fun l => { l with use := 2 })).mapEgress r.egressIn (fun l => { l with use := 2 })) else s

/-- The record a whorl command names, as the device reads it, in 128 bytes (R339, R345). -/
def State.readWhorl (s : State) (v c : Nat) : Option Nat := (s.ctxRead (bits c 8 6) v (bits c 80 56) 128).map leNat

/-- A whorl command: its record names the whorl, its die must be a member of the route, and the operation must be allowed in
the whorl's state (R341, R345). -/
def State.whorlCmd (s : State) (v c from_ : Nat) (k : Nat → WhorlRec → Verdict) : Verdict :=
  match s.readWhorl v c with
  | none => .error 7
  | some n =>
    let r := whorlRecOf n
    let w := s.whorl r.id
    let route := if from_ = 0 then r.route.take r.n else w.cfg.route
    if 31 < r.id then .error 7
    else if w.state ≠ 0 ∧ !w.cfg.route.contains (bits c 8 6) ∧ from_ ≠ 0 then .error 2
    else if (from_ = 0) ∧ !route.contains (bits c 8 6) then .error 2
    else if w.state ≠ from_ then .error 8
    else k n r

/-- R345, load. -/
def execWhorlLoad (vf : Nat) (cmd : BitVec 256) (s : State) : Out :=
  let c := cmd.toNat
  .next (s.command vf cmd (fun k sub => decide (k = 5) && decide (sub = 0)) false (fun s =>
    s.whorlCmd vf c 0 (fun n r =>
      if s.whorlBad (s.vf vf).part.toNat n r then .error 7
      else match s.tagTable (bits c 8 6) vf (bits c 144 56) r with
        | none => .error 7
        | some tags => .ok ((s.loadWhorl vf cmd r.trimmed tags).whorlEntry vf c, 0xFFFF, 0))))

/-- R345, start: the first start is permitted. -/
def execWhorlStart (vf : Nat) (cmd : BitVec 256) (s : State) : Out :=
  let c := cmd.toNat
  .next (s.command vf cmd (fun k sub => decide (k = 5) && decide (sub = 1)) false (fun s =>
    s.whorlCmd vf c 1 (fun _ r =>
      let s := s.mapWhorl r.id (fun w => { w with state := 2, cmd := cmd })
      .ok (((s.whorl r.id).route.foldl (fun s d => s.mapDie d (fun x => x.mapWhorl (fun z => { z with run := true }))) s).whorlEntry vf c,
        0xFFFF, 0))))

/-- R88, drain: member dies finish the hanks they are sending and start no other; its entry is written when it has drained. -/
def execWhorlDrain (vf : Nat) (cmd : BitVec 256) (s : State) : Out :=
  .next (s.command vf cmd (fun k sub => decide (k = 5) && decide (sub = 2)) false (fun s =>
    s.whorlCmd vf cmd.toNat 2 (fun _ r =>
      .ok (s.mapWhorl r.id (fun w => { w with state := 3, cmd := cmd, vf := vf }), 0xFFFF, 0))))

/-- Whether a die holds a resident ply or an unacknowledged remote store (R19). -/
def State.dieBusy (s : State) (d : Nat) : Bool :=
  (s.die d).plies.any (fun e => e.2.phase != .free) ||
    s.frames.any (fun f => decide (f.src = d) && f.recs.any (fun r => decide (r.kind = 0))) ||
    s.replies.any (fun r => decide (r.dst = d) && r.recs.any (fun q => decide (q.1.kind = 0))) ||
    (s.die d).links.any (fun l => l.2.open_.any (fun r => decide (r.kind = 0)))

/-- Whether a request of R19 that names a die is still under way: a second one is refused (R19, log 80). -/
def State.moving (s : State) (d : Nat) : Bool := decide (s.tick < (s.die d).moveUntil)

/-- A request of R19 that names a die has been accepted; how many steps it is under way is a free value (R19, log 80). -/
def State.moves (s : State) (d : Nat) : State :=
  (s.mapDie d (fun x => { x with moveUntil := s.tick + Config.choice s.fresh })).tickFresh

/-- A link that a whorl has left: the accesses that waited for it take it (R375, log 47). -/
def Egress.released (l : Egress) : Egress := { l with use := if l.queue.isEmpty then 0 else 1 }

/-- A whorl that has been freed: its number is free again, and WHEALTH keeps its fields until a load (R403). -/
def Whorl.freed (w : Whorl) : Whorl := { Whorl.reset with hstate := w.hstate, hdie := w.hdie, owed := w.owed, rebuilt := w.rebuilt }

/-- R345, free: the regions are released; refused while R19 holds a member die. -/
def execWhorlFree (vf : Nat) (cmd : BitVec 256) (s : State) : Out :=
  let c := cmd.toNat
  .next (s.command vf cmd (fun k sub => decide (k = 5) && decide (sub = 3)) false (fun s =>
    s.whorlCmd vf c 4 (fun _ r =>
      let w := s.whorl r.id
      if w.route.any s.dieBusy || w.route.any s.moving then .error 8
      else
        let s := w.route.foldl (fun s d => (s.mapDie d (fun x => { x with whorl := none, holds := [] })).moves d) s
        let s := if w.cfg.egress then
            (s.mapEgress w.cfg.egressOut Egress.released).mapEgress w.cfg.egressIn Egress.released else s
        .ok ((s.setWhorl r.id w.freed).whorlEntry vf c, 0xFFFF, 0))))

/-- Whether two byte ranges meet. -/
def meets (a n b m : Nat) : Bool := decide (a < b + m) && decide (b < a + n)

/-- Whether a region of a die meets a registered buffer, the journal ring or the context store (R89). -/
def State.regionMeets (s : State) (d a n : Nat) : Bool :=
  let x := s.die d
  let q := s.part x.partNo
  x.bufs.any (fun e => e.2.valid && (meets a n (e.2.half0.toNat * 4096) (e.2.chunks.toNat * 4096) ||
    meets a n (e.2.half1.toNat * 4096) (e.2.chunks.toNat * 4096) ||
    meets a n (e.2.bits.toNat * 4096) ((e.2.chunks.toNat + 3) / 4))) ||
  (q.jset && decide (q.jdie.toNat = d) && !q.jstopped && decide (q.jsize.toNat < 14) &&
    meets a n q.jbase.toNat (32 * 2 ^ (7 + q.jsize.toNat))) ||
  (decide (x.cstoreUnits ≠ 0) && meets a n x.cstoreBase.toNat (x.cstoreUnits.toNat * 65536))

/-- Whether a record may reconfigure a drained whorl of partition `p` in place (R18, R73, R89). -/
def State.reconfigureOk (s : State) (p n : Nat) (r : WhorlRec) (w : Whorl) : Bool :=
  whorlReserved n &&
  decide ({ r.trimmed with needInit := w.cfg.needInit, dwell := w.cfg.dwell, slackDepth := w.cfg.slackDepth, spare := w.cfg.spare } = w.cfg) &&
  (r.route.drop r.n).all (fun b => decide (b = 0xFF)) && !r.budgetBad && !r.regionBad && w.route.all (s.members p).contains &&
  w.route.all (fun d => !s.regionMeets d r.base r.region &&
    decide ((((s.die d).whorl.map (fun x => x.queue.length)).getD 0) - r.share ≤ r.spare))

/-- The pace, credits and slack loop of a member die set anew (R89). -/
def WhorlDie.renewed (x : WhorlDie) (r : WhorlRec) (route : List Nat) : WhorlDie :=
  { x with
    interval := max r.floorOf r.needInit, needDecl := BitVec.ofNat 16 r.needInit, floor := r.floorOf
    stretches := 0, stretchCycles := 0, needs := route.foldl (fun m d => mset 0 m d r.needInit) [], paceOut := []
    queue := x.queue.map (fun h => { h with paces := [] }), credits := 64, freed := 0, slack := [], leaving := [], run := true }

/-- A hank in a hank slot that a smaller `spare` gives up moves, with its beats, to a slot that is free (R89). -/
def Die.moveHank (x : Die) (r : WhorlRec) (slots p : Nat) : Die :=
  match x.whorl with
  | none => x
  | some w => match w.queue.find? (fun h => decide (h.pos = p) && decide (slots ≤ h.slot)), w.freeSlot slots with
    | some h, some k =>
      (iterFrom (fun i y => y.putBeat r k i (x.beatBytes r h i)) 0 h.arrived x).mapWhorl (fun w => { w with
        queue := w.queue.map (fun g => if g.pos = p then { g with slot := k } else g) })
    | _, _ => x

/-- Every hank lies in a slot of the queue as it now is; those that do already stay where they lie (R89). -/
def Die.fitQueue (x : Die) (r : WhorlRec) (slots : Nat) : Die :=
  (((x.whorl.map WhorlDie.queue).getD []).map Hank.pos).foldl (fun x p => x.moveHank r slots p) x

/-- R89, reconfigure: the budgets of a drained whorl change in place and its first start is permitted. -/
def execWhorlReconfigure (vf : Nat) (cmd : BitVec 256) (s : State) : Out :=
  let c := cmd.toNat
  .next (s.command vf cmd (fun k sub => decide (k = 5) && decide (sub = 4)) false (fun s =>
    s.whorlCmd vf c 4 (fun n r =>
      let w := s.whorl r.id
      if !s.reconfigureOk (s.vf vf).part.toNat n r w then .error 7
      else
        let v := { w with cfg := r.trimmed, state := 2, cmd := cmd, paceAway := [] }
        let s := w.route.foldl (fun s d => s.mapDie d (fun x =>
          { (x.fitQueue r v.slots).mapWhorl (fun z => z.renewed r w.route) with holds := [] })) s
        .ok ((s.setWhorl r.id v).whorlEntry vf c, 0xFFFF, 0))))

end Sys2Proof.Machine
end

