-- ==== Sys2Proof/Machine/Management.lean ====
section
/-! DEFINITION. The management window and the ring blocks: configuration writes, their refusals and their journal entries (R4,
R19, R42, R44, R46, R100, R335, R336, R338, R347, R349, R378). -/

namespace Sys2Proof.Machine

open Sys2Proof

/-- Journals a configuration change: it stood, or it was refused (R336, R347). -/
def State.journalConfig (s : State) (p d v : Nat) (stood : Bool) : State :=
  s.journal p 8 (if stood then 0 else 4) d v 0xFFFF 0 0 0

/-- R46, a write to LQC n: a changed priority or weight takes effect at the next choice. -/
def execLqcWrite (die queue : Nat) (value : BitVec 32) (s : State) : Out :=
  .next (if isDie die && s.dieOn die && decide (queue < 64) then
      s.mapDie die (fun x =>
        let q := x.lqc queue
        let prio := BitVec.ofNat 3 (bits value.toNat 0 3)
        let weight := BitVec.ofNat 8 (bits value.toNat 3 8)
        x.setLqc queue { q with
          prio := prio, weight := weight, enable := bitB value.toNat 11
          fresh := q.fresh || decide (prio ≠ q.prio) || decide (weight ≠ q.weight) })
    else s)

/-! ## The buffer map (R100) -/

/-- The entry a write leaves, over the entry that stood. -/
def bufWritten (b : Buf) (v : Nat) : Buf :=
  { b with base := BitVec.ofNat 56 (bits v 0 56), chunks := BitVec.ofNat 20 (bits v 64 20), valid := bitB v 128,
           half0 := BitVec.ofNat 19 (bits v 160 19), half1 := BitVec.ofNat 19 (bits v 192 19), bits := BitVec.ofNat 19 (bits v 224 19) }

/-- Whether a range of physical frames overlaps the future table or passes the end of die store. -/
def frameBad (pfn n : Nat) : Bool := decide (Config.futBase < pfn * 4096 + n)

/-- Whether a valid entry is ill-formed (R100). -/
def Die.bufBad (x : Die) (i v : Nat) (b : Buf) : Bool :=
  let n := b.chunks.toNat * 4096
  x.bufs.any (fun e => decide (e.1 ≠ i) && e.2.valid && meets b.base.toNat n e.2.base.toNat (e.2.chunks.toNat * 4096)) ||
  frameBad b.half0.toNat n || frameBad b.half1.toNat n || frameBad b.bits.toNat ((b.chunks.toNat + 3) / 4) ||
  decide (b.base.toNat % 4096 ≠ 0) || bitB b.base.toNat 55 || decide (b.chunks = 0) || decide (262144 < b.chunks.toNat) ||
  decide (bits v 56 8 ≠ 0) || decide (bits v 84 12 ≠ 0) || decide (bits v 131 29 ≠ 0) || decide (bits v 179 13 ≠ 0) ||
  decide (bits v 211 13 ≠ 0) || decide (bits v 243 13 ≠ 0)

/-- R100, a write of a buffer-map entry: refused, or stored; a write that makes it valid registers it. -/
def execBufferMapWrite (die entry : Nat) (value : BitVec 256) (s : State) : Out :=
  .next (if isDie die && s.dieOn die && decide (entry < 1024) then
      let x := s.die die
      let old := x.buf entry
      let b := bufWritten old value.toNat
      if b.valid && x.bufBad entry value.toNat b then s.journalConfig x.partNo die 0xFF false
      else if b.valid && !old.valid then
        s.setDie die { x.setBuf entry { b with written := false, discarded := false, epoch := 0, writers := [] } with
          mem := b.clean x.mem }
      else s.setDie die (x.setBuf entry b)
    else s)

/-- R42, a write to a barrier's `participants`; 256 + n is the loader's write of barrier n, which also sets `phase` and `arrived`
to 0 (R311). -/
def execBarrierParticipantsWrite (die bar : Nat) (value : BitVec 64) (s : State) : Out :=
  .next (if isDie die && s.dieOn die && decide (bar < 512) then
      s.mapDie die (fun x =>
        let b := x.bar (bar % 256)
        let b := if bar < 256 then b else { b with phase := 0, arrived := 0 }
        x.setBar (bar % 256) (b.configure (BitVec.ofNat 16 (bits value.toNat 16 16))))
    else s)

/-! ## Partitions (R19, R335, R336, R349, R376) -/

/-- Whether a function is bound to a partition. -/
def State.bound (s : State) (p : Nat) : Bool := s.vfs.any (fun e => e.2.en && decide (e.2.part.toNat = p))

/-- Bytes of a partition's journal ring. -/
def Part.ringBytes (q : Part) : Nat := 32 * 2 ^ (7 + q.jsize.toNat)

/-- The journal ring of partition `p` moves off die `d`, which leaves, to the lowest-numbered member that stays; with none it
stays where it is, or journalling stops if that die is retired (R349). A slot that cannot be read arrives as zeros; size codes 14
and 15 name no ring. -/
def State.moveJournal (s : State) (p d : Nat) : State :=
  let q := s.part p
  if !q.jset || decide (q.jdie.toNat ≠ d) then s
  else match (s.members p).find? (fun e => decide (e ≠ d)) with
    | some e =>
      let b := q.jbase.toNat
      let m := (s.die d).mem.filter (fun c => !(decide (b ≤ c.1) && Config.slotLost s.fresh ((c.1 - b) / 32)))
      let s := if 14 ≤ q.jsize.toNat then s else s.mapDie e (fun x => { x with mem := copyRange m b x.mem b q.ringBytes })
      s.tickFresh.setPart p { q with jdie := BitVec.ofNat 6 e }
    | none => if (s.die d).retired then s.setPart p { q with jstopped := true } else s

/-- A die that joins a partition no longer keeps the journal ring of another: one that was dissolved, whether or not it has members
again, has its ring there until JBASE is written (R349). -/
def State.joinJournal (s : State) (p d : Nat) : State :=
  { s with parts := s.parts.map (fun (n, q) =>
      (n, if n ≠ p ∧ q.jset ∧ q.jdie.toNat = d then { q with jstopped := true } else q)) }

/-- Whether a die holds an undrained hank (R19). -/
def State.undrained (s : State) (d : Nat) : Bool :=
  match (s.die d).whorl with
  | none => false
  | some x => decide ((s.whorl x.id).state ≠ 4)

/-- R336, a write to DIEPART: refused by R19, for a retired die, or where it would leave a bound partition with fewer than two
dies; a die that joins a partition gets a new incarnation. A second request that names
the die while one is under way is refused (log 80). -/
def execDiepartWrite (die : Nat) (value : BitVec 64) (s : State) : Out :=
  .next (if !isDie die then s
    else
      let x := s.die die
      let p := bits value.toNat 0 5
      let member := bitB value.toNat 5
      let leaves := x.member && (!member || decide (p ≠ x.part.toNat))
      let joins := member && (!x.member || decide (p ≠ x.part.toNat))
      let bad := ((leaves || joins) && (s.dieBusy die || s.undrained die || s.moving die)) || (member && x.retired) ||
        (leaves && decide ((s.members x.part.toNat).length ≤ 2) && s.bound x.part.toNat)
      if bad then s.journalConfig (if x.member then x.part.toNat else p) die 0xFF false
      else
        let old := x.part.toNat
        let s := if leaves then s.moveJournal old die else s
        let s := s.mapDie die (fun x => { x with part := BitVec.ofNat 5 p, member := member })
        let s := if leaves || joins then (s.cutLinks die).moves die else s
        let s := if joins then (s.raiseInc die).joinJournal p die else s
        let s := if leaves then s.journalConfig old die 0xFF true else s
        if !leaves || joins then s.journalConfig p die 0xFF true else s)

/-- R336, a write to VFBIND. -/
def execVfbindWrite (vf : Nat) (value : BitVec 128) (s : State) : Out :=
  .next (if 192 ≤ vf then s
    else
      let v := value.toNat
      let p := bits v 64 5
      let en := bitB v 69
      let bad := (en && decide ((s.members p).length < 2)) || s.vfBusy vf ||
        s.vfs.any (fun e => decide (e.1 ≠ vf) && e.2.en && decide (e.2.part.toNat = p) && decide (bits e.2.qmask.toNat 0 64 &&& bits v 0 64 ≠ 0))
      if bad then s.journalConfig p 0 vf false
      else (s.mapVf vf (fun f => { f with
        qmask := BitVec.ofNat 64 (bits v 0 64), part := BitVec.ofNat 5 p, fence := BitVec.ofNat 5 p, en := en })).journalConfig p 0 vf true)

/-- R336, a write to CTXWIN. -/
def execCtxwinWrite (vf : Nat) (value : BitVec 256) (s : State) : Out :=
  .next (if 192 ≤ vf then s
    else
      let v := value.toNat
      let p := (s.vf vf).part.toNat
      if s.vfBusy vf then s.journalConfig p 0 vf false
      else (s.mapVf vf (fun f => { f with
        winBase := BitVec.ofNat 56 (bits v 0 56), winLimit := BitVec.ofNat 56 (bits v 64 56)
        ptRoot := BitVec.ofNat 56 (bits v 128 56) })).journalConfig p 0 vf true)

/-- R349, a write to JBASE: the journal die is the lowest-numbered member. -/
def execJbaseWrite (part : Nat) (value : BitVec 64) (s : State) : Out :=
  .next (if 32 ≤ part then s
    else s.mapPart part (fun q => { q with
      jbase := BitVec.ofNat 56 (bits value.toNat 0 56), jsize := BitVec.ofNat 4 (bits value.toNat 56 4), jset := true
      jdie := BitVec.ofNat 6 ((s.members part).headD 0), jstopped := (s.members part).isEmpty }))

/-- Whether a collective of a group is outstanding (R378). -/
def State.collOut (s : State) (p g : Nat) : Bool :=
  s.dies.any (fun e => e.2.tcolls.any (fun t => decide (t.part = p) && decide (t.group = g))) ||
    s.chunks.any (fun c => decide (c.part = p) && decide (c.group = g))

/-- R378, a write of a group-table entry: refused while a collective of the group is outstanding; otherwise the
number of every die for this group of this partition starts again at 0, so that of each die that is or becomes a member. -/
def execGroupTableWrite (part group : Nat) (value : BitVec 128) (s : State) : Out :=
  .next (if 32 ≤ part ∨ 256 ≤ group then s
    else
      let v := value.toNat
      if s.collOut part group then s.journalConfig part 0 0xFF false
      else
        let g : Group := ⟨BitVec.ofNat 64 (bits v 0 64), bitB v 64, bitB v 65, bitB v 66, BitVec.ofNat 16 (bits v 72 16), s.fresh⟩
        let s := s.tickFresh
        let s := s.mapPart part (fun q => { q with groups := mset .reset q.groups group g })
        { s with dies := s.dies.map (fun (d, x) => (d, { x with
          collSeq := mdel x.collSeq (groupKey part group)
          deadSeqs := x.deadSeqs.filter (fun e => decide (e.1 ≠ groupKey part group)) })) })

/-! ## Registers without a row of their own (R4) -/

/-- A key-table entry as written (R385). -/
def ethKeyOf (v : Nat) : EthKey :=
  ⟨BitVec.ofNat 32 (bits v 0 32), bitB v 32, BitVec.ofNat 6 (bits v 33 6), BitVec.ofNat 31 (bits v 64 31), BitVec.ofNat 20 (bits v 128 20),
    decide (bits v 39 25 ≠ 0) || decide (bits v 95 33 ≠ 0) || decide (bits v 148 108 ≠ 0)⟩

/-- ETHCFG as written over the port that stood (R382). -/
def EthPort.configured (q : EthPort) (v : Nat) : EthPort :=
  { q with part := BitVec.ofNat 5 (bits v 0 5), en := bitB v 5, mac := BitVec.ofNat 48 (bits v 16 48), ip := BitVec.ofNat 128 (bits v 64 128),
           rxdie := BitVec.ofNat 6 (bits v 192 6), rxslots := BitVec.ofNat 4 (bits v 198 4), rxbase := BitVec.ofNat 56 (bits v 256 56),
           rxctr := BitVec.ofNat 56 (bits v 320 56), rxhead := BitVec.ofNat 32 (bits v 384 32) }

/-- A write to a register of function `v`'s ring block (R338, R354). -/
def VFn.writeReg (f : VFn) (r : Reg) (v : Nat) : VFn :=
  match r with
  | .cmdBase => { f with cmdBase := BitVec.ofNat 56 v }
  | .cmdSize => { f with cmdSize := BitVec.ofNat 4 v }
  | .cplBase => { f with cplBase := BitVec.ofNat 56 v }
  | .cplSize => { f with cplSize := BitVec.ofNat 4 v }
  | .coCount => { f with coCount := BitVec.ofNat 16 v }
  | .coCycles => { f with coCycles := BitVec.ofNat 32 v }
  | .intEn => { f with intEn := bitB v 0 }
  | .trapqBase => { f with trapBase := BitVec.ofNat 56 v }
  | .trapqSize => { f with trapSize := BitVec.ofNat 4 v }
  | _ => f

/-- Whether the unit that holds a register runs: a die that is not held in reset and has its power, an Ethernet port, a switch die, a
host port (R387, R396). -/
def State.regOn (s : State) (r : Reg) (index : Nat) : Bool :=
  match r with
  | .dage => s.dieOn index
  | .cstore => s.dieOn index
  | .wpaceNeed => s.dieOn index
  | .lwinMode => s.dieOn (index / 16)
  | .prectl => s.dieOn (index / 32)
  | .ccfg => !(s.block (128 + index)).off
  | .ethcfg => s.portOn index
  | .rxhead => s.portOn index
  | .ethkey => s.portOn (index / 16)
  | .cmdBase => s.hostOn (index / 48)
  | .cmdSize => s.hostOn (index / 48)
  | .cplBase => s.hostOn (index / 48)
  | .cplSize => s.hostOn (index / 48)
  | .coCount => s.hostOn (index / 48)
  | .coCycles => s.hostOn (index / 48)
  | .intEn => s.hostOn (index / 48)
  | .trapqBase => s.hostOn (index / 48)
  | .trapqSize => s.hostOn (index / 48)
  | _ => true

/-- R4, a write to a register that has no row of its own: `index` names the die, core, lathe, port, partition, block or function
it belongs to. -/
def execRegisterWrite (reg : Reg) (index value : Nat) (s : State) : Out :=
  .next (if !s.regOn reg index then s else match reg with
    | .dage => if index < 64 then s.mapDie index (fun x => { x with dage := BitVec.ofNat 16 value }) else s
    | .cstore => if index < 64 then
        s.mapDie index (fun x => { x with cstoreBase := BitVec.ofNat 56 value, cstoreUnits := BitVec.ofNat 24 (bits value 64 24) })
      else s
    | .pwdog => if index < 32 then s.mapPart index (fun q => { q with wdog := BitVec.ofNat 32 value }) else s
    | .ferr => if index < 32 ∧ bitB value 96 then s.mapPart index (fun q => { q with ferr := .reset }) else s
    | .ccfg => if index < 16 then
        s.setSwitch index { s.switch index with kmin := BitVec.ofNat 16 value, rmin := BitVec.ofNat 8 (bits value 16 8) }
      else s
    | .ethcfg => if index < 8 then s.mapPort index (fun q => q.configured value) else s
    | .ethkey => if index < 128 then s.mapPort (index / 16) (fun q => { q with keys := mput q.keys (index % 16) (ethKeyOf value) }) else s
    | .presetReplay => if index < 32 then s.mapPart index (fun q => { q with replay := bitB value 2 }) else s
    | .updWindow => if s.fw.status = 1 ∨ 2 ^ 26 ≤ index then s
      else { s with fw := { s.fw with window := putByte s.fw.window index (BitVec.ofNat 8 value) } }
    | .fwstatSel => { s with fw := { s.fw with sel := bitB value 1 } }
    | .pwrTrip => if index < 148 then s.mapBlock index (fun b => { b with tripNext := BitVec.ofNat 8 (bits value 32 8) }) else s
    | .rxhead => if index < 8 then s.mapPort index (fun q => { q with rxhead := BitVec.ofNat 32 value }) else s
    | .wpaceNeed => if index < 64 then s.mapDie index (fun x => x.declareNeed index (BitVec.ofNat 16 (bits value 16 16))) else s
    | .lwinMode => if index < 1024 then
        s.mapDie (index / 16) (fun x => x.mapLathe (index % 16) (fun l => { l with winMode := bitB value 0 }))
      else s
    | .prectl => s.prectlWrite (index / 32) (index % 32) value
    | r => if index < 192 then
        let s := s.mapVf index (fun f => f.writeReg r value)
        match r with
        | .cplSize => s.flushCpl index ((s.vf index).held.length)
        | .trapqSize => s.flushTraps index ((s.vf index).trapHeld.length)
        | _ => s
      else s)

end Sys2Proof.Machine
end

