-- ==== Sys2Proof/Machine/Reset.lean ====
section
/-! DEFINITION. The reset of a partition, the classification of faults, the retirement of a die, the replay of journalled
commands, and the loss of an egress link (R349, R364, R365, R375, R376, R399 to R402, R405). -/

namespace Sys2Proof.Machine

open Sys2Proof

/-! ## Health (R398, R400, R405) -/

/-- Sets bit `k` of PHEALTH `why`, 1 to 4 (R405). -/
def State.setWhy (s : State) (k : Nat) : State :=
  { s with phealth := { s.phealth with why := s.phealth.why ||| BitVec.ofNat 4 (2 ^ (k - 1)) } }

/-- Whether some block has corrected `ce_limit` errors (R405). -/
def State.ceReached (s : State) : Bool := decide (s.phealth.ceLimit = 0) || s.blocks.any (fun b => decide (s.phealth.ceLimit ≤ b.2.ce))

/-- Sets the bits of `why` whose limits have been reached (R405). -/
def State.checkLimits (s : State) : State :=
  let s := if s.phealth.retLimit < s.phealth.retired then s.setWhy 2 else s
  if s.ceReached then s.setWhy 4 else s

/-! ## What a reset clears (R364) -/

/-- What steps 1, 2 and 4 leave of a die: no ply, no work, no traffic, no clock; its buffer map, level records, store and whorl
stay. -/
def Die.wiped (x : Die) : Die :=
  { x with
    vclk := [], launches := [], units := [], areas := [], lqs := [], dage := 64, lastq := [], chosen := [], sched := []
    cores := [], plies := [], lathes := [], holds := [], links := [], collSeq := [], tcolls := [], deadSeqs := [], tenqs := []
    futs := []
    bars := x.bars.map (fun e => (e.1, { e.2 with phase := 0, arrived := 0 }))
    traps := x.traps.map (fun e => (e.1, if e.2.used then e.2.freed false else e.2)) }

/-- WPACE as a reset leaves it (R76, R364). -/
def WhorlDie.clearPace (w : WhorlDie) : WhorlDie :=
  { w with interval := 0, needDecl := 0, floor := 0, stretches := 0, stretchCycles := 0, needs := [], paceOut := [] }

/-- PWRCTL as a reset leaves it: `trip` keeps its value (R395). -/
def Block.clearPower (b : Nat) (x : Block) : Block :=
  { x with cap := BitVec.ofNat 12 (Block.allot b), capNext := BitVec.ofNat 12 (Block.allot b), draw := 0, temp := 0, wfrac := 0 }

/-- Step 2: every frame, reply, chunk and egress entry from or to the dies is dropped (R364). -/
def State.dropTraffic (s : State) (p : Nat) (ms : List Nat) : State :=
  let in_ := fun d => ms.contains d
  { s with
    frames := s.frames.filter (fun f => !in_ f.src && !in_ f.dst)
    replies := s.replies.filter (fun f => !in_ f.src && !in_ f.dst)
    chunks := s.chunks.filter (fun c => decide (c.part ≠ p))
    links := s.links.map (fun (n, l) => (n, { l with queue := l.queue.filter (fun r => !in_ r.die) }))
    dies := s.dies.map (fun (d, x) => (d, { x with tenqs := x.tenqs.filter (fun q => !in_ q.src) })) }

/-- The end of step 2: the incarnations of the dies rise, and the panel's own if the partition uses an egress link (R376). -/
def State.raiseAll (s : State) (p : Nat) (ms : List Nat) : State :=
  let s := ms.foldl State.raiseInc s
  if s.links.any (fun l => l.2.parts.contains p) || s.whorls.any (fun e => e.2.cfg.egress && decide (e.2.state ≠ 0) &&
      e.2.route.any (fun d => ms.contains d)) then { s with panelInc := s.panelInc + 1 } else s

/-- The whorls of a partition. -/
def State.whorlsOf (s : State) (ms : List Nat) : List Nat :=
  (s.whorls.filter (fun e => decide (e.2.state ≠ 0) && e.2.route.any (fun d => ms.contains d))).map Prod.fst

/-- The functions bound to a partition. -/
def State.boundTo (s : State) (p : Nat) : List Nat :=
  (s.vfs.filter (fun e => e.2.en && decide (e.2.part.toNat = p))).map Prod.fst

/-- What step 4 leaves of a function's registers with a reset value: TGEN, the ring block, TRAPQ and TRSTAT (R5, R335, R338, R354,
R355). The records held back have lost their trap slots and go with them. -/
def VFn.cleared (f : VFn) : VFn :=
  { f with
    tgen := 0, cmdSize := 0, cmdTail := 0, cmdHead := 0, cplSize := 0, cplTail := 0, cplHead := 0, coCount := 1, coCycles := 0
    intEn := false, stalled := false, pendCount := 0, pendWindow := false, trapSize := 0, trapTail := 0, trapHead := 0
    trapHeld := [], trstat := 0 }

/-- Step 4 for the functions bound to a partition; INVCTL goes too when it names one of them. Completion entries held back find
room in the emptied ring (R343). -/
def State.clearFns (s : State) (vs : List Nat) : State :=
  let s := vs.foldl (fun s v => (s.mapVf v VFn.cleared).flushCpl v ((s.vf v).held.length)) s
  if vs.contains s.invctl.vf.toNat || vs.contains s.invctl.cur.toNat then { s with invctl := .reset } else s

/-- The last of what R5 asks, when the reset has done all that it does by partition: DIEPART of the dies and VFBIND of the functions
take their reset value 0, and a field of reset value U is a free value (log 21). A function with an open level keeps those fields:
its launches run again in its context (R365). -/
def State.unbind (s : State) (ms vs : List Nat) : State :=
  let s := ms.foldl (fun s d => s.mapDie d (fun x => { x with part := 0, member := false })) s
  vs.foldl (fun s v =>
    let s := s.mapVf v (fun f => { f with qmask := 0, part := 0, en := false })
    if s.vfBusy v then s
    else
      let at_ := fun k => BitVec.ofNat 56 (Config.choice (s.fresh + k))
      let s := s.mapVf v (fun f => { f with
        winBase := at_ 0, winLimit := at_ 1, ptRoot := at_ 2, cmdBase := at_ 3, cplBase := at_ 4, trapBase := at_ 5 })
      iterFrom (fun _ s => s.tickFresh) 0 6 s) s

/-- Steps 1 to 5 (R364): `ms` are the partition's dies and `vs` its functions. -/
def State.stopAll (s : State) (p : Nat) (ms vs : List Nat) : State :=
  let s := (s.dropTraffic p ms).raiseAll p ms
  let s := (ms.foldl (fun s d => s.mapDie d (fun x => (x.discardIf d s.fresh Buf.written).wiped)) s).tickFresh
  let s := s.mapPart p (fun q => { q with groups := [], ferr := .reset })
  let s := ms.foldl (fun s d => (s.mapBlock d (Block.clearPower d)).mapBlock (64 + d) (Block.clearPower (64 + d))) s
  let clear := fun (e : EthPort) => if e.en ∧ e.part.toNat = p then { e with rxhead := 0, rxcount := 0 } else e
  let s := { s with ports := s.ports.map (fun (e : Nat × EthPort) => (e.1, clear e.2)) }.clearFns vs
  let s := (s.whorlsOf ms).foldl State.holdDrained s
  ms.foldl (fun s d => s.mapDie d (fun x => x.mapWhorl WhorlDie.clearPace)) s

/-! ## Retirement (R401) -/

/-- Whether a level is still open. -/
def Level.isOpen (l : Level) : Bool := l.used && (l.status == 0 || l.status == 2)

/-- Step 4 of R401: a partition left with fewer than two dies is dissolved. -/
def State.dissolve (s : State) (p : Nat) : State :=
  if 2 ≤ (s.members p).length then s
  else
    let s := (s.members p).foldl (fun s d => (s.mapDie d (fun x => { x with member := false })).journalConfig p d 0xFF true) s
    (s.vfs.filter (fun e => e.2.en && decide (e.2.part.toNat = p))).foldl (fun s e =>
      (s.mapVf e.1 (fun f => { f with en := false })).journalConfig p 0 0xFF true) s

/-- A die and its carder are retired (R401). -/
def State.retire_ (s : State) (p d : Nat) : State :=
  let s := ((s.mapBlock d (fun b => { b with retired := true })).mapBlock (64 + d) (fun b => { b with retired := true })).mapDie d
    (fun x => { x with retired := true })
  let s := { s with phealth := { s.phealth with retired := s.phealth.retired + 1 } }.checkLimits
  let s := (s.failRequests p d).spliceOut p d
  let s := (s.moveJournal p d).mapDie d (fun x => { x with member := false })
  (s.journalConfig p d 0xFF true).dissolve p

/-- The block that a reset names is pending, or its fault is lasting (R400, R401). -/
def State.classify (s : State) (p b : Nat) : State :=
  if 148 ≤ b then s
  else
    let k := s.block b
    if k.pending then
      let s := s.setBlock b { k with pending := false, lasting := satInc 8 k.lasting }
      if 128 ≤ b then s.setWhy 1
      else if (s.die (b % 64)).retired then s else s.retire_ p (b % 64)
    else s.setBlock b { k with pending := true, pendPart := p }

/-! ## Open levels after a reset (R365) -/

/-- An open level of a partition: its die, index, record, and its launch when it is one. -/
structure Opened where
  d : Nat
  i : Nat
  lv : Level
  la : Option Launch
  deriving DecidableEq, Repr

/-- Inserts an open level by its order of creation. -/
def byAge (o : Opened) (os : List Opened) : List Opened :=
  match os with
  | [] => [o]
  | e :: t => if o.lv.serial < e.lv.serial then o :: e :: t else e :: byAge o t

/-- The open levels of the dies, in the order of their creation. -/
def State.openLevels (s : State) (ms : List Nat) : List Opened :=
  (ms.flatMap (fun d =>
    let x := s.die d
    (x.levels.filter (fun e => e.2.isOpen)).map (fun e =>
      ⟨d, e.1, e.2, ((x.launches.filter (fun a => decide (a.2.level = e.1))).getLast?).map Prod.snd⟩))).foldr byAge []

/-- Frees every level record of the dies. -/
def State.closeRecords (s : State) (ms : List Nat) : State :=
  ms.foldl (fun s d => s.mapDie d (fun x => { x with levels := x.levels.map (fun e =>
    (e.1, { e.2 with used := false, status := if e.2.isOpen then 4 else e.2.status })) })) s

/-- The end, faulted, of a level that was open: journalled, with its completion entry (R365). -/
def State.endFaulted (s : State) (o : Opened) : State :=
  if o.lv.level = 0 then s
  else
    let s := s.journal (s.die o.d).part.toNat 3 3 o.d o.lv.vf o.i o.lv.ident.toNat o.lv.cmdKind o.lv.unitsDone.toNat
    if o.lv.notify then s.complete o.lv.vf (cplEntry o.lv.cmdKind 3 o.d o.i o.lv.ident.toNat 0 o.lv.unitsDone.toNat) else s

/-- The new index of an old one, from pairs of (die, old) and new. -/
def newIndex (m : List ((Nat × Nat) × Nat)) (d i : Nat) : Option Nat := (m.find? (fun e => e.1 == (d, i))).map Prod.snd

/-- RFENCE of a function: the lowest journal number of a command whose level has not ended, or JSEQ of the partition that its VFBIND
last named when there is none (R365, log 60); a reset, which clears VFBIND, keeps it (R5). -/
def State.rfence (s : State) (v : Nat) : Nat :=
  (s.dies.flatMap (fun e => e.2.levels.filterMap (fun l =>
    if l.2.isOpen ∧ l.2.vf = v ∧ l.2.jseq ≠ 0 then some l.2.jseq.toNat else none))).foldl min (s.part (s.vf v).fence.toNat).jseq.toNat

/-- A replayed command that is refused (R341, R365). -/
def State.refuseReplay (s : State) (o : Opened) (reason addr : Nat) : State :=
  (s.journal (s.die o.d).part.toNat 2 4 o.d o.lv.vf 0xFFFF o.lv.ident.toNat reason 0).complete o.lv.vf
    (cplEntry 2 4 o.d 0xFFFF o.lv.ident.toNat reason addr)

/-- Journals the command of a replayed level at its new index, and notes its number (R365). -/
def State.journalAgain (s : State) (o : Opened) (j kind info : Nat) : State :=
  let p := (s.die o.d).part.toNat
  let n := (s.part p).jseq
  if o.lv.jseq = 0 then s
  else (s.mapDie o.d (fun x => x.mapLevel j (fun l => { l with jseq := n }))).journal p 1 0 o.d o.lv.vf j o.lv.ident.toNat kind info

/-- Accepts one open command again: the old index is closed and a new one taken (R365). A unit goes: its launch runs again from
its start. The levels that a tenq made for its launch are sealed, as they were made (R283). -/
def State.replayOne (s : State) (m : List ((Nat × Nat) × Nat)) (o : Opened) : State × List ((Nat × Nat) × Nat) :=
  let d := o.d
  let v := o.lv.vf
  let p := (s.die d).part.toNat
  let ident := o.lv.ident.toNat
  let parent := if o.lv.parent = 0xFFFF then 0xFFFF else (newIndex m d o.lv.parent.toNat).getD 0xFFFF
  let made := decide (o.lv.jseq = 0)
  if o.lv.level = 0 then (s, m)
  else
    let s := s.journal p 3 3 d v o.i ident o.lv.cmdKind o.lv.unitsDone.toNat
    match s.freeLevel d with
    | none => (s, m)
    | some j =>
      match o.la with
      | none =>
        let s := s.newLevel d j o.lv.level.toNat parent ident v (if made then 0 else 1) made o.lv.notify
        let s := s.mapDie d (fun x => x.mapLevel j (fun l => { l with cmdKind := o.lv.cmdKind }))
        let s := if parent = 0xFFFF then s
          else s.mapDie d (fun x => x.mapLevel parent (fun l => { l with outstanding := l.outstanding + 1 }))
        (s.journalAgain o j 1 0, ((d, o.i), j) :: m)
      | some a =>
        match s.readLaunch d v a.lr.addr with
        | none => (s.refuseReplay o 4 a.lr.addr, m)
        | some lr =>
          if (s.die d).commonFree < lr.futResv then (s.refuseReplay o 6 a.lr.addr, m)
          else
            let s := s.addLaunch d v a.queue j parent lr (a.deps.filterMap (newIndex m d)) ident o.lv.notify
            (s.journalAgain o j 2 a.lr.addr, ((d, o.i), j) :: m)

/-- Accepts a seal (kind 3) or a cancel (kind 4) of a replayed level again (R340, R365). -/
def State.replayEnd (s : State) (m : List ((Nat × Nat) × Nat)) (kind : Nat) (o : Opened) : State :=
  match newIndex m o.d o.i with
  | none => s
  | some j =>
    let s := if kind = 4 then (s.cancelLevel o.d j).1
      else s.mapDie o.d (fun x => x.mapLevel j (fun l => { l with sealed := true, outstanding := l.outstanding - 1 }))
    let p := (s.die o.d).part.toNat
    let n := (s.part p).jseq
    (s.mapDie o.d (fun x => x.mapLevel j (fun l => { l with ends := l.ends ++ [(n, kind)] }))).journal p 1 0 o.d o.lv.vf j
      o.lv.ident.toNat kind 0

/-- A command of type 1 to accept again: its journal number, its kind, and the open level it made or named (R365). -/
structure Again where
  seq : Nat
  kind : Nat
  o : Opened
  deriving DecidableEq, Repr

/-- Inserts a command by its journal number. -/
def bySeq (a : Again) (l : List Again) : List Again :=
  match l with
  | [] => [a]
  | e :: t => if a.seq ≤ e.seq then a :: e :: t else e :: bySeq a t

/-- The commands of open levels in journal order; `os` stands in the order of creation, and a level that a tenq made stands at the
number of the launch that follows it (R283, R365). -/
def agains (os : List Opened) : List Again :=
  let opens := (os.foldr (fun o (r : Nat × List Again) =>
    let n := if o.lv.jseq = 0 then r.1 else o.lv.jseq.toNat
    (n, ⟨n, if o.la.isSome then 2 else 1, o⟩ :: r.2)) (0, [])).2
  let ends := fun (o : Opened) => o.lv.ends.map (fun e => (⟨e.1.toNat, e.2, o⟩ : Again))
  (opens ++ os.flatMap ends).foldr bySeq []

/-- The open levels whose commands are accepted again: those at or above RFENCE, and the levels that a tenq made
for the launch it was journalled as (R283, R365). -/
def State.fenced (s : State) (os : List Opened) : List Opened :=
  os.filter (fun o => o.lv.jseq = 0 || decide (s.rfence o.lv.vf ≤ o.lv.jseq.toNat))

/-- Accepts the commands of the open levels again, in journal order (R365). A function's own count of the levels it created keeps
its places. -/
def State.replay (s : State) (os : List Opened) : State :=
  let r := (agains os).foldl (fun (r : State × List ((Nat × Nat) × Nat)) a =>
    if a.kind ≤ 2 then r.1.replayOne r.2 a.o else (r.1.replayEnd r.2 a.kind a.o, r.2)) (s, [])
  { r.1 with vfs := r.1.vfs.map (fun (v, f) => (v, { f with created := f.created.map (fun e =>
    match newIndex r.2 e.1 e.2.1 with
    | none => e
    | some j => (e.1, j, ((r.1.die e.1).level j).serial)) })) }

/-- What becomes of the levels that were open when a partition was reset (R365). -/
def State.settleLevels (s : State) (p : Nat) (os : List Opened) : State :=
  let os := os.filter (fun o => ((s.die o.d).level o.i).isOpen)
  let t := s.closeRecords (os.map Opened.d)
  if (s.part p).replay then t.replay (s.fenced os) else os.foldl State.endFaulted t

/-! ## The reset of a partition (R364) -/

/-- A partition reset with a cause, by the block numbered `block`, or 0xFF when no block did it. -/
def State.resetPart (s : State) (p cause block : Nat) : State :=
  let ms := s.members p
  let os := s.openLevels ms
  let s := s.mapPart p (fun q => { q with busy := true, cause := BitVec.ofNat 3 cause })
  let vs := s.boundTo p
  let s := (s.stopAll p ms vs).journal p 7 0 0 0xFF 0xFFFF 0 cause block
  let s := ((s.classify p block).settleLevels p os).unbind ms vs
  s.mapPart p (fun q => { q with busy := false })

/-- R364, a write of 1 to PRESET `go`. -/
def execPartitionReset (part : Nat) (s : State) : Out := .next (if part < 32 then s.resetPart part 1 0xFF else s)

/-- Whether a partition uses a block: a member die, its carder, the switch die of a member, an edge chiplet. -/
def State.usesBlock (s : State) (p b : Nat) : Bool :=
  if b < 128 then (s.members p).contains (b % 64)
  else if b < 144 then (s.members p).any (fun d => decide (d / 4 = b - 128))
  else decide (b < 148) && !(s.members p).isEmpty

/-- R364, the loss of a carder or of a link used by the partition; `block` is the carder, switch die or edge chiplet lost
(R399): a compute die is named only by a trip (R396). -/
def execCarderOrLinkLoss (part block : Nat) (s : State) : Out :=
  .next (if decide (part < 32) && decide (64 ≤ block) && s.usesBlock part block then s.resetPart part 4 block else s)

/-! ## Uncorrectable errors (R364, R399, R402) -/

/-- The sequence position of the hank that holds a byte of a die's store, in a transit queue or a slack slot. -/
def State.hankAt (s : State) (d a : Nat) : Option Nat :=
  match s.whorlOf d with
  | none => none
  | some (r, x) =>
    let w := s.whorl x.id
    if a < r.base then none
    else if a < r.beatAt w.slots 0 then
      let k := (a - r.base) / 4096
      (x.queue.find? (fun h => decide (h.slot = k / r.beats) && decide (h.sent ≤ k % r.beats) && decide (k % r.beats < h.arrived))).map Hank.pos
    else
      ((x.slack ++ x.leaving).find? (fun c => decide (r.slackAt c.slot ≤ a) && decide (a < r.slackAt c.slot + c.beats * 4096))).map Copy.pos

/-- R402 and R364, an uncorrectable error in a block, at a byte of die store or elsewhere in it. -/
def execUncorrectableSoftError (block : Nat) (addr : Option Nat) (s : State) : Out :=
  .next (if 148 ≤ block ∨ (s.block block).retired then s
    else
      let s := s.mapBlock block (fun b => { b with ue := satInc 16 b.ue })
      let d := block % 64
      if 128 ≤ block then s
      else
        let s := match (if block < 64 then addr.bind (s.hankAt d) else none), (s.die d).whorl with
          | some p, some x => s.loseHank x.id d p
          | _, _ => s
        if (s.die d).member then s.resetPart (s.die d).part.toNat 3 block else s)

/-! ## Egress links lost (R375, R381) -/

/-- The partitions with an unanswered access on a link, or with their whorl across it. -/
def State.linkUsers (s : State) (n : Nat) : List Nat :=
  let l := s.egress n
  (List.range 32).filter (fun p =>
    l.queue.any (fun r => decide ((s.die r.die).partNo = p)) ||
      s.whorls.any (fun e => e.2.cfg.egress && decide (e.2.state ≠ 0) && (decide (e.2.cfg.egressOut = n) || decide (e.2.cfg.egressIn = n)) &&
        (s.die (e.2.route.headD 0)).member && decide ((s.die (e.2.route.headD 0)).part.toNat = p)))

/-- A link goes down: what is queued on it is dropped, and each partition that waits on it is reset (R375). What FERR holds of
the die, the group and the number is a free value. -/
def State.linkDown (s : State) (n : Nat) (state : BitVec 2) : State :=
  let ps := s.linkUsers n
  let s := s.mapEgress n (fun l => { l with state := state, use := 0, queue := [] })
  let s := ps.foldl (fun s p =>
    let s := s.resetPart p 4 (144 + n / 4)
    let f := s.fresh
    s.tickFresh.fabricError p 5 (Config.choice f % 64) (Config.choice f / 64 % 65536) (BitVec.ofNat 32 (Config.choice f / 2 ^ 22))) s
  s.mapEgress n (fun l => { l with parts := [] })

end Sys2Proof.Machine
end

