-- ==== Sys2Proof/Machine/SqMemory.lean ====
section
/-! DEFINITION. Loads, stores, ordered accesses and atomics of the sequencer (R174 to R182). -/

namespace Sys2Proof.Machine

open Sys2Proof

/-! ## One access of SQ -/

/-- An access of SQ: kind 0 store, 1 load, 2 atomic with its operation; address, length, data, expected value; how a
result is delivered; and whether it closes a frame once performed. -/
structure SqAcc where
  kind : Nat
  op : Nat
  va : Nat
  len : Nat
  data : List Byte
  expect : Word
  dst : BitVec 6
  nw : Bool
  signed : Bool
  close : Bool

/-- How the bytes of an access take their frames (R101). -/
def SqAcc.mode (a : SqAcc) : Mode := match a.kind with | 0 => .store | 1 => .load | _ => .atomic

/-- The located bytes of an access (R174). -/
def State.sqLocs (s : State) (h : Here) (a : SqAcc) : List (Nat × Loc) :=
  State.locateAll (fun va => (s.locate h.d (some h.key) (s.ply h).vf a.mode none va).1) a.va a.len

/-- Whether a byte of an access lies on an HT page (R119). -/
def State.sqHt (s : State) (h : Here) (a : SqAcc) : Bool :=
  (List.range a.len).any (fun i => (s.locate h.d (some h.key) (s.ply h).vf a.mode none ((a.va + i) % 2 ^ 64)).2)

/-- A loaded value, extended (R175). -/
def extendTo (signed : Bool) (n v : Nat) : Word := if signed then BitVec.ofNat 64 (uNat (sInt v (8 * n)) 64) else BitVec.ofNat 64 v

/-- The retirement of a load or atomic with the value gathered (R180). -/
def State.sqFinish (s : State) (h : Here) (b : SqBusy) : State :=
  let t := s.result h b.nw b.dst.toNat (extendTo b.signed b.width (leNat (getBytes b.got 0 b.width)))
  if b.close then t.closeFrames h.d else t

/-- The record of one part of an access (R370). -/
def SqAcc.record (a : SqAcc) (h : Here) (p : Ply) (tg : BitVec 16) (r : Run) : AccRec :=
  { kind := a.kind, op := a.op, va := r.va, pa := r.pa, len := r.len, data := (a.data.drop r.at_).take r.len,
    expect := a.expect, die := h.d, core := h.c, slot := h.k, agent := 0, at_ := r.at_, unit := p.unit, vf := p.vf,
    stamp := false, tgen := tg }

/-- Sends one part of an access off the die (R179). -/
def State.sendPart (s : State) (h : Here) (a : SqAcc) (r : Run) : State :=
  let p := s.ply h
  let q := a.record h p (s.vf p.vf).tgen r
  if r.dest < 64 then s.addRec h.d r.dest 0 q
  else if r.dest = 64 then (if a.kind = 0 then s.post h r.pa q.data else s)
  else s.addEgress (r.dest - 65) (s.vf p.vf).part.toNat q

/-- What the host port does for an atomic on host memory (R182). -/
def SqAcc.rmw (a : SqAcc) (runs : List Run) : Option Rmw :=
  if a.kind ≠ 2 then none
  else (runs.find? (fun r => decide (r.dest = 64))).map (fun r => ⟨a.op, BitVec.ofNat 64 (leNat a.data), a.expect, r.pa⟩)

/-- Performs a store (R176): local bytes at once, each other part handed on; it retires. -/
def State.sqStore (s : State) (h : Here) (a : SqAcc) : State :=
  let ls := s.sqLocs h a
  let s := (s.mapDie h.d (fun x => x.writeLocs ls (s.ply h).unit a.data)).offend h 0 true (firstBad ls)
  ((runsOf 0 ls).foldl (fun s r => s.sendPart h a r) s).retire h

/-- Starts a load or a remote atomic (R175, R179): the local bytes, then every other part; it retires when the last part
has come back, at once if there is none. -/
def State.sqLoad (s : State) (h : Here) (a : SqAcc) : State :=
  let ls := s.sqLocs h a
  let s := s.offend h 0 (decide (a.kind ≠ 1)) (firstBad ls)
  let runs := runsOf 0 ls
  let b : SqBusy := ⟨a.dst, a.nw, a.len, a.signed, putBytes [] 0 ((s.die h.d).readLocs ls), runs.map (fun r => ⟨r.dest, r.at_, r.len⟩),
    a.close, false, s.genOf h, a.rmw runs⟩
  if runs.isEmpty then s.sqFinish h b
  else
    let s := runs.foldl (fun s r => s.sendPart h a r) s
    let s := if runs.any (fun r => decide (r.dest < 64)) then s.closeFrames h.d else s
    s.mapPly h (fun p => { p with sqBusy := some b })

/-- Performs an atomic on the issuing die in one step (R181); with a byte out of range it reads 0 and writes nothing. -/
def State.sqAtomic (s : State) (h : Here) (a : SqAcc) : State :=
  let ls := s.sqLocs h a
  match firstBad ls with
  | some o =>
    (s.offend h 0 true (some o)).sqFinish h ⟨a.dst, a.nw, 8, false, [], [], a.close, false, 0, none⟩
  | none =>
    if !(runsOf 0 ls).isEmpty then s.sqLoad h a
    else
      let old := (s.die h.d).readLocs ls
      let s := match atomicNew a.op (BitVec.ofNat 64 (leNat old)) (BitVec.ofNat 64 (leNat a.data)) a.expect with
        | none => s
        | some w => s.mapDie h.d (fun x => x.writeLocs ls (s.ply h).unit (leBytes 8 w.toNat))
      s.sqFinish h ⟨a.dst, a.nw, 8, false, putBytes [] 0 old, [], a.close, false, 0, none⟩

/-- An access of SQ with its ordering: a translation fault on any byte comes before anything else (R174); an HT page
makes a load an acquire, a store a release and an atomic both, at system scope (R119); an acquire on a store and a
release on a load have no effect (R110). -/
def State.sqAccess (s : State) (h : Here) (a : SqAcc) (acq rel : Bool) (scope : Nat) : State :=
  match firstFault (s.sqLocs h a) with
  | some f => s.faultSq h f
  | none =>
    let ht := s.sqHt h a
    let acq := decide (a.kind ≠ 0) && (acq || ht)
    let rel := decide (a.kind ≠ 1) && (rel || ht)
    let scope := if ht then 4 else scope
    let a := { a with close := closesAfter acq rel scope }
    s.orderBefore h acq rel scope (fun s =>
      match a.kind with
      | 0 => s.sqStore h a
      | 1 => s.sqLoad h a
      | _ => s.sqAtomic h a)

/-- A plain load of `n` bytes at A + I (R174, R175). -/
def State.plainLoad (s : State) (h : Here) (nw : Bool) (dst : BitVec 6) (a : BitVec 7) (imm : BitVec 12) (n : Nat)
    (signed : Bool) : State :=
  s.withA h a (fun x => s.sqAccess h ⟨1, 0, (x + immS imm).toNat, n, [], 0, dst, nw, signed, false⟩ false false 0)

/-- A plain store of the low `n` bytes of G(`dst`) at A + I (R176). -/
def State.plainStore (s : State) (h : Here) (dst : BitVec 6) (a : BitVec 7) (imm : BitVec 12) (n : Nat) : State :=
  s.withA h a (fun x => s.sqAccess h
    ⟨0, 0, (x + immS imm).toNat, n, leBytes n ((s.regs h).rdG dst.toNat).toNat, 0, dst, true, false, false⟩ false false 0)

/-- An ordered load of `n` bytes (R177). -/
def State.orderedLoad (s : State) (h : Here) (nw : Bool) (dst : BitVec 6) (a : BitVec 7) (acq rel : Bool)
    (scope : BitVec 3) (n : Nat) : State :=
  s.withA h a (fun x => s.aligned h x n
    (s.sqAccess h ⟨1, 0, x.toNat, n, [], 0, dst, nw, false, false⟩ acq rel scope.toNat))

/-- An ordered store of `n` bytes of B (R177). -/
def State.orderedStore (s : State) (h : Here) (a b : BitVec 7) (acq rel : Bool) (scope : BitVec 3) (n : Nat) : State :=
  s.withAB h a b (fun x y => s.aligned h x n
    (s.sqAccess h ⟨0, 0, x.toNat, n, leBytes n y.toNat, 0, 0, true, false, false⟩ acq rel scope.toNat))

/-- An atomic on the 8 bytes at A (R181). -/
def State.atomic (s : State) (h : Here) (nw : Bool) (dst : BitVec 6) (a b : BitVec 7) (acq rel : Bool)
    (scope : BitVec 3) (op : Nat) : State :=
  s.withAB h a b (fun x y => s.aligned h x 8
    (s.sqAccess h ⟨2, op, x.toNat, 8, leBytes 8 y.toNat, (s.regs h).rdG dst.toNat, dst, nw, false, false⟩ acq rel scope.toNat))

/-! ## The instructions -/

/-- R175, loads 1 byte, zero-extended. -/
def execLdb (nw : Bool) (dst : BitVec 6) (a : BitVec 7) (imm : BitVec 12) (s : State) : Out :=
  onSq s (fun h => s.plainLoad h nw dst a imm 1 false)

/-- R175, loads 2 bytes, zero-extended. -/
def execLdh (nw : Bool) (dst : BitVec 6) (a : BitVec 7) (imm : BitVec 12) (s : State) : Out :=
  onSq s (fun h => s.plainLoad h nw dst a imm 2 false)

/-- R175, loads 4 bytes, zero-extended. -/
def execLdw (nw : Bool) (dst : BitVec 6) (a : BitVec 7) (imm : BitVec 12) (s : State) : Out :=
  onSq s (fun h => s.plainLoad h nw dst a imm 4 false)

/-- R175, loads 8 bytes, zero-extended. -/
def execLdd (nw : Bool) (dst : BitVec 6) (a : BitVec 7) (imm : BitVec 12) (s : State) : Out :=
  onSq s (fun h => s.plainLoad h nw dst a imm 8 false)

/-- R175, loads 1 byte, sign-extended. -/
def execLdbs (nw : Bool) (dst : BitVec 6) (a : BitVec 7) (imm : BitVec 12) (s : State) : Out :=
  onSq s (fun h => s.plainLoad h nw dst a imm 1 true)

/-- R175, loads 2 bytes, sign-extended. -/
def execLdhs (nw : Bool) (dst : BitVec 6) (a : BitVec 7) (imm : BitVec 12) (s : State) : Out :=
  onSq s (fun h => s.plainLoad h nw dst a imm 2 true)

/-- R175, loads 4 bytes, sign-extended. -/
def execLdws (nw : Bool) (dst : BitVec 6) (a : BitVec 7) (imm : BitVec 12) (s : State) : Out :=
  onSq s (fun h => s.plainLoad h nw dst a imm 4 true)

/-- R176, stores the low 1 byte of G(`dst`). -/
def execSb (dst : BitVec 6) (a : BitVec 7) (imm : BitVec 12) (s : State) : Out :=
  onSq s (fun h => s.plainStore h dst a imm 1)

/-- R176, stores the low 2 bytes of G(`dst`). -/
def execSh (dst : BitVec 6) (a : BitVec 7) (imm : BitVec 12) (s : State) : Out :=
  onSq s (fun h => s.plainStore h dst a imm 2)

/-- R176, stores the low 4 bytes of G(`dst`). -/
def execSw (dst : BitVec 6) (a : BitVec 7) (imm : BitVec 12) (s : State) : Out :=
  onSq s (fun h => s.plainStore h dst a imm 4)

/-- R176, stores the low 8 bytes of G(`dst`). -/
def execSd (dst : BitVec 6) (a : BitVec 7) (imm : BitVec 12) (s : State) : Out :=
  onSq s (fun h => s.plainStore h dst a imm 8)

/-- R177, an ordered load of 8 bytes. -/
def execLdo (nw : Bool) (dst : BitVec 6) (a : BitVec 7) (acq rel : Bool) (scope : BitVec 3) (s : State) : Out :=
  onSq s (fun h => s.orderedLoad h nw dst a acq rel scope 8)

/-- R177, an ordered load of 4 bytes. -/
def execLdow (nw : Bool) (dst : BitVec 6) (a : BitVec 7) (acq rel : Bool) (scope : BitVec 3) (s : State) : Out :=
  onSq s (fun h => s.orderedLoad h nw dst a acq rel scope 4)

/-- R177, an ordered store of 8 bytes of B. -/
def execSto (a b : BitVec 7) (acq rel : Bool) (scope : BitVec 3) (s : State) : Out :=
  onSq s (fun h => s.orderedStore h a b acq rel scope 8)

/-- R177, an ordered store of 4 bytes of B. -/
def execStow (a b : BitVec 7) (acq rel : Bool) (scope : BitVec 3) (s : State) : Out :=
  onSq s (fun h => s.orderedStore h a b acq rel scope 4)

/-- R181, an atomic whose new value is old + B. -/
def execAadd (nw : Bool) (dst : BitVec 6) (a b : BitVec 7) (acq rel : Bool) (scope : BitVec 3) (s : State) : Out :=
  onSq s (fun h => s.atomic h nw dst a b acq rel scope 0)

/-- R181, an atomic whose new value is old AND B. -/
def execAand (nw : Bool) (dst : BitVec 6) (a b : BitVec 7) (acq rel : Bool) (scope : BitVec 3) (s : State) : Out :=
  onSq s (fun h => s.atomic h nw dst a b acq rel scope 1)

/-- R181, an atomic whose new value is old OR B. -/
def execAor (nw : Bool) (dst : BitVec 6) (a b : BitVec 7) (acq rel : Bool) (scope : BitVec 3) (s : State) : Out :=
  onSq s (fun h => s.atomic h nw dst a b acq rel scope 2)

/-- R181, an atomic whose new value is old XOR B. -/
def execAxor (nw : Bool) (dst : BitVec 6) (a b : BitVec 7) (acq rel : Bool) (scope : BitVec 3) (s : State) : Out :=
  onSq s (fun h => s.atomic h nw dst a b acq rel scope 3)

/-- R181, an atomic whose new value is the smaller, signed. -/
def execAmin (nw : Bool) (dst : BitVec 6) (a b : BitVec 7) (acq rel : Bool) (scope : BitVec 3) (s : State) : Out :=
  onSq s (fun h => s.atomic h nw dst a b acq rel scope 4)

/-- R181, an atomic whose new value is the larger, signed. -/
def execAmax (nw : Bool) (dst : BitVec 6) (a b : BitVec 7) (acq rel : Bool) (scope : BitVec 3) (s : State) : Out :=
  onSq s (fun h => s.atomic h nw dst a b acq rel scope 5)

/-- R181, an atomic whose new value is B. -/
def execAswap (nw : Bool) (dst : BitVec 6) (a b : BitVec 7) (acq rel : Bool) (scope : BitVec 3) (s : State) : Out :=
  onSq s (fun h => s.atomic h nw dst a b acq rel scope 6)

/-- R181, an atomic whose new value is B if old = G(`dst`), else old. -/
def execAcas (nw : Bool) (dst : BitVec 6) (a b : BitVec 7) (acq rel : Bool) (scope : BitVec 3) (s : State) : Out :=
  onSq s (fun h => s.atomic h nw dst a b acq rel scope 7)

end Sys2Proof.Machine
end

