-- ==== Sys2Proof/Machine/Fabric.lean ====
section
/-! DEFINITION. Packets on their way: frames and replies, the hops, congestion, host and peer accesses, egress links and
Ethernet ports (R114 to R118, R179, R369 to R377, R382 to R385). -/

namespace Sys2Proof.Machine

open Sys2Proof

/-! ## Applying a frame (R114 to R116, R370) -/

/-- How the bytes of a record take their frames at the target (R101). -/
def AccRec.mode (r : AccRec) : Mode :=
  match r.kind with
  | 0 => if r.stamp then .stamp else if r.agent = 0 then .store else .engine
  | 1 => .load
  | _ => .atomic

/-- The places of a record's bytes at its target, whose rings `rings` tells; a byte above every device address is out of range. -/
def Die.recPlaces (x : Die) (wb : Nat) (rings : Nat → Bool) (r : AccRec) : List (Nat × Place) :=
  (List.range r.len).map (fun i =>
    (r.va + i, if 2 ^ 56 ≤ r.va + i then .bad 0 else x.place wb rings r.mode none (r.va + i) (r.pa + i)))

/-- The first offence of a record's bytes: address, cause. -/
def placesBad (ps : List (Nat × Place)) : Option (Nat × Nat) :=
  (ps.find? (fun e => e.2.cause?.isSome)).map (fun e => (e.1, e.2.cause?.getD 0))

/-- Writes bytes to places. -/
def Die.writePlaces (x : Die) (ps : List (Nat × Place)) (unit : Nat) (bs : List Byte) : Die :=
  match ps, bs with
  | (_, p) :: pt, b :: bt => Die.writePlaces (x.writePlace p unit b) pt unit bt
  | _, _ => x

/-- Performs one record at its target: the die after it, and the bytes its reply carries. -/
def Die.applyRec (x : Die) (wb : Nat) (rings : Nat → Bool) (r : AccRec) : Die × List Byte :=
  let ps := x.recPlaces wb rings r
  match r.kind with
  | 0 => (x.writePlaces ps r.unit r.data, [])
  | 1 => (x, ps.map (fun e => x.readPlace e.2))
  | _ =>
    if (placesBad ps).isSome then (x, List.replicate r.len 0)
    else
      let old := ps.map (fun e => x.readPlace e.2)
      match atomicNew r.op (BitVec.ofNat 64 (leNat old)) (BitVec.ofNat 64 (leNat r.data)) r.expect with
      | none => (x, old)
      | some w => (x.writePlaces ps r.unit (leBytes 8 w.toNat), old)

/-- Performs a frame's records in order. -/
def Die.applyRecs (x : Die) (wb : Nat) (rings : Nat → Bool) (rs : List AccRec) : Die × List (AccRec × List Byte) × List (AccRec × Nat × Nat) :=
  match rs with
  | [] => (x, [], [])
  | r :: t =>
    let bad := placesBad (x.recPlaces wb rings r)
    let q := x.applyRec wb rings r
    let u := Die.applyRecs q.1 wb rings t
    (u.1, (r, q.2) :: u.2.1, (match bad with | none => [] | some b => [(r, b.1, b.2)]) ++ u.2.2)

/-- Adds to a completion counter at a die, as an address of the context of function `v`; a counter out of range keeps no
count, and 0 names none (R116, R369). -/
def State.count (s : State) (d v ctr n : Nat) : State :=
  let ls := State.locateAll (fun a => (s.locate d none v .stamp none a).1) ctr 8
  if ctr = 0 ∨ ls.any (fun l => match l.2 with | .here (.mem _) => false | _ => true) then s
  else s.mapDie d (fun x => x.writeLocs ls noUnit (leBytes 8 (leNat (x.readLocs ls) + n)))

/-- Whether two dies are in one partition; nothing crosses from one partition into another (R16). -/
def State.together (s : State) (a b : Nat) : Bool := (s.die a).member && (s.die b).member && (s.die a).part == (s.die b).part

/-- Whether a die takes a packet from another: both run, in one partition, and the packet is not stale (R16, R377, R396). -/
def State.takes (s : State) (src dst : Nat) (srcInc dstInc : BitVec 16) : Bool :=
  s.dieOn src && s.dieOn dst && s.together src dst && !s.stalePkt src dst srcInc dstInc

/-- Whether a frame in flight precedes another to the same target, by the clock it carries (R114). -/
def Frame.precedes (g f : Frame) : Bool :=
  decide (g.dst = f.dst) && decide (g.src ≠ f.src) && (match mfind f.clk g.src with
    | none => false
    | some c => clockReached c g.own)

/-- The answer to a frame (R115, R370). -/
def Frame.reply (f : Frame) (clk : Map W32) (inc : BitVec 16) (recs : List (AccRec × List Byte)) (off : List (AccRec × Nat × Nat)) : Reply :=
  { src := f.dst, dst := f.src, srcInc := inc, dstInc := f.srcInc, fseq := f.fseq
    clk := if f.recs.any (fun r => decide (r.kind ≠ 0)) then some clk else none
    recs := recs, offences := off, echo := f.mark, vf := f.vf, tgen := f.tgen, mark := false, hop := 0 }

/-- Applies a frame at its target: its accesses, its counter in the same step, its clock, and its answer. -/
def State.applyFrame (s : State) (f : Frame) : State :=
  let r := (s.die f.dst).applyRecs s.workBase (s.ringAt f.dst none) f.recs
  let s := (s.setDie f.dst r.1).count f.dst f.vf f.ctr (recBytes f.recs)
  let s := s.mapDie f.dst (fun x => x.mergeClock f.clk)
  { s with replies := s.replies ++ [f.reply (s.die f.dst).vclk (s.die f.dst).inc r.2.1 r.2.2] }

/-- R114, the target applies the next frame from a source, once every frame that its clock shows to precede it has been
applied; with none in flight, an open frame of the source is closed and sent (log 14). -/
def execRemoteFrameApply (src dst : Nat) (s : State) : Out :=
  .next (
    match s.frames.find? (fun f => decide (f.src = src) && decide (f.dst = dst)) with
    | none => if ((s.die src).link dst).open_.isEmpty then s else (s.mapDie src (fun x => x.tickClock src)).ship src dst
    | some f =>
      if s.frames.any (fun g => g.precedes f) then s
      else
        let s := { s with frames := s.frames.erase f }
        if s.takes f.src f.dst f.srcInc f.dstInc then s.applyFrame f else s)

/-! ## Answers to SQ (R115, R179, R180) -/

/-- A part of an SQ access has come back with its bytes: the access retires with its last part. -/
def State.answer (s : State) (h : Here) (unit dest at_ len : Nat) (bs : List Byte) : State :=
  let p := s.ply h
  match p.sqBusy with
  | none => s
  | some b =>
    let q : SqPart := ⟨dest, at_, len⟩
    if p.unit ≠ unit ∨ p.phase = .free ∨ !b.parts.contains q then s
    else
      let b := { b with parts := b.parts.erase q, got := putBytes b.got at_ (bs.take len) }
      if b.parts.isEmpty then s.sqFinish h b else s.mapPly h (fun p => { p with sqBusy := some b })

/-- Whether a frame in flight to a reply's die precedes it, by the clock the reply carries (R114). -/
def Frame.precedesReply (g : Frame) (r : Reply) : Bool :=
  decide (g.dst = r.dst) && (match r.clk.bind (fun m => mfind m g.src) with
    | none => false
    | some c => clockReached c g.own)

/-- R115, a reply comes back: its clock is merged, its offences are recorded, and the accesses it answers retire, once every frame
that its clock shows to precede it has been applied (R114). -/
def execRemoteReply (src dst fseq : Nat) (s : State) : Out :=
  .next (
    match s.replies.find? (fun r => decide (r.src = src) && decide (r.dst = dst) && decide (r.fseq.toNat = fseq)) with
    | none => s
    | some r =>
      let gone := { s with replies := s.replies.erase r }
      if !s.takes r.src r.dst r.srcInc r.dstInc then gone
      else if s.frames.any (fun g => g.precedesReply r) then s
      else
        let s := gone.mapDie r.dst (fun x =>
          let x := x.mergeClock (r.clk.getD [])
          let x := x.mapLink r.src (fun l => { l with owed := l.owed ++ [r.echo] })
          r.offences.foldl (fun x o => x.offendUnit o.1.unit o.1.agent (decide (o.1.kind ≠ 1)) (some (o.2.1, o.2.2))) x)
        r.recs.foldl (fun s q =>
          if q.1.kind = 0 then s else s.answer ⟨q.1.die, q.1.core, q.1.slot⟩ q.1.unit r.src q.1.at_ q.1.len q.2) s)

/-- R179, a host access completes at the host port: the ply's load or atomic takes `data`, the new value of an atomic being posted
(R182), or its oldest posted write completes. -/
def execCxlCacheCompletion (die core slot : Nat) (data : BitVec 64) (s : State) : Out :=
  let h : Here := ⟨die, core, slot⟩
  let p := s.ply h
  .next (match (p.sqBusy.map SqBusy.parts).bind (fun ps => ps.find? (fun q => decide (q.dest = 64))) with
    | some q =>
      let s := match (p.sqBusy.bind SqBusy.rmw) with
        | none => s
        | some m => (match atomicNew m.op data m.b m.expect with
          | none => s
          | some v => s.post h m.addr (leBytes 8 v.toNat))
      s.answer h p.unit 64 q.at_ q.len (leBytes q.len data.toNat)
    | none =>
      match s.posted.find? (fun w => decide (w.die = die) && (decide (w.unit = p.unit) ||
          !(s.die die).plies.any (fun e => decide (e.2.phase ≠ .free) && decide (e.2.unit = w.unit)))) with
      | none => s
      | some w => { s with posted := s.posted.erase w })

/-! ## Hops and congestion (R369, R373, R377) -/

/-- Counts a packet at a switch die. -/
def State.countHop (s : State) (k : Nat) (f : Switch → Switch) : State := s.setSwitch k (f (s.switch k))

/-- The switch die that a packet between two dies crosses next: its source's, then its target's if that is another (R367). -/
def switchAt (src dst hop : Nat) : Option Nat :=
  if hop = 0 then some (src / 4) else if hop = 1 ∧ src / 4 ≠ dst / 4 then some (dst / 4) else none

/-- A packet crosses switch die `k`: a malformed or stale one is dropped and counted, and another goes on, marked if it leaves a
queue of more than `kmin` flits; how many the queue holds is a free value (R369, R373, R377, log 8). `put none` is the panel
without the packet, `put (some m)` with it gone on, its mark `m`. -/
def State.crossSwitch (s : State) (k : Nat) (malformed stale mark : Bool) (put : Option Bool → State → State) : State :=
  if malformed then (put none s).countHop k (fun c => { c with malformed := satInc 32 c.malformed })
  else if stale then (put none s).countHop k (fun c => { c with stale := satInc 32 c.stale })
  else if !mark && decide ((s.switch k).kmin.toNat < Config.choice s.fresh) then
    (put (some true) s.tickFresh).countHop k (fun c => { c with marked := satInc 32 c.marked })
  else put (some mark) s.tickFresh

/-- Puts a changed packet in its place in a list, or takes it out. -/
def putAt {α : Type} (l : List α) (i : Nat) (o : Option α) : List α :=
  match o with
  | none => l.eraseIdx i
  | some x => l.set i x

/-- The switch die of a node: its own, or the one its carder is joined to (R367). -/
def switchOf (node : Nat) : Nat := if node < 64 then node / 4 else (node - 64) % 16

/-- The switch die that a chunk crosses next, on its way from the node it has left to that of its first entry: the one's, then the
other's if that is another (R290, R367). -/
def Chunk.switchDie (c : Chunk) : Option Nat :=
  switchAt (4 * switchOf c.left) (4 * switchOf (c.target.getD (hopAt c.head))) c.hop

/-- The tenqs on their way: the target die, and the place among those to that die. -/
def State.tenqAt (s : State) : List (Nat × Nat × Tenq) := s.dies.flatMap (fun e => e.2.tenqs.zipIdx.map (fun q => (e.1, q.2, q.1)))

/-- R377, packet number `pkt` of those in flight (frames, replies, collective chunks, tenqs) reaches the next switch die on its
way, which checks it (R369) and may mark it (R373). -/
def execPacketHop (pkt : Nat) (malformed : Bool) (s : State) : Out :=
  .next (
    let i := pkt - s.frames.length
    let j := i - s.replies.length
    match s.frames[pkt]?, s.replies[i]?, s.chunks[j]?, s.tenqAt[j - s.chunks.length]? with
    | some f, _, _, _ => (match switchAt f.src f.dst f.hop with
      | none => s
      | some k => s.crossSwitch k malformed (s.stalePkt f.src f.dst f.srcInc f.dstInc) f.mark (fun o s =>
          { s with frames := putAt s.frames pkt (o.map (fun m => { f with mark := m, hop := f.hop + 1 })) }))
    | none, some r, _, _ => (match switchAt r.src r.dst r.hop with
      | none => s
      | some k => s.crossSwitch k malformed (s.stalePkt r.src r.dst r.srcInc r.dstInc) r.mark (fun o s =>
          { s with replies := putAt s.replies i (o.map (fun m => { r with mark := m, hop := r.hop + 1 })) }))
    | none, none, some c, _ => (match c.switchDie with
      | none => s
      | some k => s.crossSwitch k malformed (s.staleChunk c) c.mark (fun o s =>
          { s with chunks := putAt s.chunks j (o.map (fun m => { c with mark := m, hop := c.hop + 1 })) }))
    | none, none, none, some (d, n, q) => (match switchAt q.src d q.hop with
      | none => s
      | some k => s.crossSwitch k malformed (s.stalePkt q.src d q.srcInc q.dstInc) q.mark (fun o s =>
          s.mapDie d (fun x => { x with tenqs := putAt x.tenqs n (o.map (fun m => { q with mark := m, hop := q.hop + 1 })) })))
    | none, none, none, none => s)

/-- The rate limiter after an echo (R373). -/
def Link.echoed (l : Link) (rmin : Nat) (echo : Bool) : Link :=
  let l := if echo && decide (16 ≤ l.echoes) then { l with rate := max (max rmin 1) (l.rate - (l.rate + 3) / 4), echoes := 0, quiet := 0 }
    else if echo then l
    else { l with quiet := l.quiet + 1 }
  let l := if l.quiet = 64 then { l with rate := min 256 (l.rate + 8), quiet := 0 } else l
  { l with echoes := l.echoes + 1 }

/-- R373, an echo that has arrived at carder `src` from die `dst` acts on the rate towards it. The lowest rate is that of the
switch die of `src`. -/
def execCongestionEcho (src dst : Nat) (echo : Bool) (s : State) : Out :=
  .next (
    match ((s.die src).link dst).owed with
    | [] => s
    | e :: t =>
      if e ≠ echo then s
      else s.mapDie src (fun x => x.mapLink dst (fun l => { l with owed := t }.echoed (s.switch (src / 4)).rmin.toNat echo)))

/-! ## Egress links (R117, R375) -/

/-- R375, a write of `en`: 1 trains the link, 0 lets it go down. -/
def execEgressLinkEnable (link : Nat) (en : Bool) (s : State) : Out :=
  .next (if 16 ≤ link ∨ s.edgeOn (link / 4) = false then s
    else
      let s := s.mapEgress link (fun l => { l with en := en })
      if en then s.mapEgress link (fun l => { l with state := if l.state = 0 then 1 else l.state })
      else if (s.egress link).state = 0 then s
      else s.linkDown link 0)

/-- R375, training completes, and the peer's incarnation and identifier are learnt. -/
def execEgressLinkUp (link : Nat) (peerInc : BitVec 16) (peerId : BitVec 32) (s : State) : Out :=
  .next (if link < 16 ∧ s.edgeOn (link / 4) ∧ (s.egress link).en ∧ (s.egress link).state ≠ 2 then
      s.mapEgress link (fun l => { l with state := 2, peerInc := peerInc, peerId := peerId })
    else s)

/-- R375, a link goes down; it trains again while `en` holds it. -/
def execEgressLinkDown (link : Nat) (s : State) : Out :=
  .next (if link < 16 ∧ (s.egress link).state ≠ 0 then s.linkDown link (if (s.egress link).en then 1 else 0) else s)

/-- R117, the peer answers the oldest flushing read on a link: it has applied every earlier write. A link that a whorl has taken
carries no access (R375, log 47). -/
def execFlushingRead (link : Nat) (s : State) : Out :=
  .next (
    let l := s.egress link
    match l.queue.findIdx? (fun r => decide (r.kind = 3)) with
    | none => s
    | some i =>
      if l.state ≠ 2 ∨ l.use = 2 then s
      else s.setEgress link { l with queue := (l.queue.take i).filter (fun r => decide (r.kind ≠ 0)) ++ l.queue.drop (i + 1) })

/-- The address, the panel incarnation and the reserved bits of the header of a packet from a peer, as the event gives it. -/
def packetAddr (a : Nat) : Nat := bits a 0 56
def packetInc (a : Nat) : BitVec 16 := BitVec.ofNat 16 (bits a 56 16)
def packetBad (a : Nat) : Bool := decide (2 ^ 72 ≤ a)

/-- R117, a packet arrives from the peer: a malformed one, or one whose panel incarnation is stale, is dropped and counted (R375,
R377); an access is applied physically at a die (`reply` none), or a load or an atomic of this panel, the oldest on the link,
takes its data. A write has no answer of its own: only a flushing read tells that it has been applied. -/
def execEgressPacketArrival (link die addr : Nat) (bytes : List Byte) (reply : Option (BitVec 64)) (s : State) : Out :=
  .next (
    let l := s.egress link
    if l.state ≠ 2 ∨ l.use = 2 ∨ 16 ≤ link then s
    else if packetBad addr then s.setEgress link { l with malformed := satInc 32 l.malformed }
    else if packetInc addr ≠ l.peerInc then s.setEgress link { l with stale := satInc 32 l.stale }
    else match reply with
      | none => if isDie die && s.dieOn die then s.mapDie die (fun x => x.hostWrite s.workBase (packetAddr addr) bytes) else s
      | some v =>
        match l.queue.find? (fun r => decide (r.kind = 1) || decide (r.kind = 2)) with
        | none => s
        | some r => (s.setEgress link { l with queue := l.queue.erase r }).answer ⟨r.die, r.core, r.slot⟩ r.unit (65 + link) r.at_ r.len
            (leBytes r.len v.toNat))

/-! ## Ethernet (R382 to R385) -/

/-- Whether a message goes in an ordered mode (R383). -/
def EthMsg.ordered (m : EthMsg) : Bool := bitB m.header.toNat 164

/-- The place, among a port's messages, of the one that the transport finishes next: any unordered one, or the oldest ordered
one (log 8). -/
def EthPort.nextMsg (e : EthPort) (choice : Nat) : Nat :=
  let i := choice % e.sending.length
  if ((e.sending[i]?).map EthMsg.ordered).getD false then (e.sending.findIdx? EthMsg.ordered).getD 0 else i

/-- The transport has finished with a message: its counter gains `extra` and the payload length (R383). -/
def State.finishMsg (s : State) (port extra : Nat) (fail : Bool) : State :=
  let e := s.port port
  let i := e.nextMsg (Config.choice s.fresh)
  match e.sending[i]? with
  | none => s
  | some m =>
    let s := (s.setPort port { e with sending := e.sending.eraseIdx i, msgs := e.msgs + 1 }).tickFresh
    let s := s.count m.die m.vf m.ctr (extra + m.payload.length)
    if fail then s.fabricError m.part 4 m.die port (BitVec.ofNat 32 e.msgs) else s

/-- R383, the last byte of a message is acknowledged. -/
def execEthSendAcked (port : Nat) (s : State) : Out := .next (if s.portOn port then s.finishMsg port 0 false else s)

/-- R383, the transport gives a message up. -/
def execEthSendGivenUp (port : Nat) (s : State) : Out := .next (if s.portOn port then s.finishMsg port (2 ^ 63) true else s)

/-- Where a physical byte of the receive area lands: in the shadow half of a buffer registered at that address, or in the
store (R97, R101, R384). -/
def Die.rxPlace (x : Die) (wb a : Nat) : Place :=
  match findBuf x.bufs (a % 2 ^ 55) with
  | some (i, b) => .shadow i (a % 2 ^ 55 - b.base.toNat)
  | none => hostPlace wb true a

/-- Writes bytes to the receive area. -/
def Die.rxWrite (x : Die) (wb a : Nat) (bs : List Byte) : Die :=
  match bs with
  | [] => x
  | b :: t => (x.writePlace (x.rxPlace wb a) noUnit b).rxWrite wb (a + 1) t

/-- Adds to the receive counter, in place; 0 names none, and one that is out of range keeps no count (R116, R384). -/
def Die.rxCount (x : Die) (wb a n : Nat) : Die :=
  let ps := (List.range 8).map (fun i => hostPlace wb true (a + i))
  if a = 0 ∨ ps.any (fun p => p.cause?.isSome) then x
  else { x with mem := putLE x.mem a 8 (getLE x.mem a 8 + n) }

/-- R384, a send arrives: it is placed in the next slot and counted, or left unacknowledged, as it is when its die has no power (R396),
or refused. The die that `rxdie` names is not checked against the port's partition (log 82). -/
def execEthReceiveSend (port : Nat) (payload : List Byte) (s : State) : Out :=
  .next (
    let e := s.port port
    let n := payload.length
    if !s.portOn port ∨ !e.en ∨ !s.dieOn e.rxdie.toNat ∨ 2 ^ 20 - 64 < n ∨ (e.rxcount - e.rxhead).toNat = 2 ^ e.rxslots.toNat then s
    else
      let a := e.rxbase.toNat + e.rxcount.toNat % 2 ^ e.rxslots.toNat * 2 ^ 20
      let s := s.setPort port { e with rxcount := e.rxcount + 1 }
      s.mapDie e.rxdie.toNat (fun x =>
        (((x.rxWrite s.workBase a (leBytes 8 n)).rxWrite s.workBase (a + 64) payload)).rxCount s.workBase e.rxctr.toNat (n + 64)))

/-- The window of a key (R385): the lowest-numbered valid entry. -/
def EthPort.window (e : EthPort) (rkey : Nat) : Option EthKey :=
  (e.keys.find? (fun k => k.2.valid && decide (k.2.rkey.toNat = rkey))).map Prod.snd

/-- Whether a write of `n` bytes at `raddr` is placed (R385). -/
def State.keyAllows (s : State) (e : EthPort) (k : EthKey) (raddr n : Nat) : Bool :=
  let lo := k.wbase.toNat
  let len := 4096 * k.wpages.toNat
  let x := s.die k.die.toNat
  x.member && x.part == e.part && decide (raddr + n ≤ len) && !k.rsvd && decide (lo + len ≤ Config.futBase) &&
    !meets lo len s.workBase (16 * Config.levelCount)

/-- R385, a write arrives: it is placed physically in the window of its key, or refused. -/
def execEthReceiveWrite (port rkey raddr : Nat) (payload : List Byte) (s : State) : Out :=
  .next (
    let e := s.port port
    if !s.portOn port ∨ !e.en then s
    else match e.window rkey with
      | none => s
      | some k =>
        if !s.dieOn k.die.toNat ∨ !s.keyAllows e k raddr payload.length then s
        else s.mapDie k.die.toNat (fun x => { x with mem := putBytes x.mem (k.wbase.toNat + raddr) payload }))

end Sys2Proof.Machine
end

