-- ==== Sys2Proof/Machine/Agents.lean ====
section
/-! DEFINITION. Which agent acts and what it does: the entries that cannot proceed, the sharing of a core's engines among its
plies, and the next action of the agent of the turn (R35, R38, R40, R41, R180, R352). -/

namespace Sys2Proof.Machine

open Sys2Proof

/-! ## Entries that cannot proceed (R35, R38, R40, R352) -/

/-- Whether the entry at a ring's read pointer, whose pop is the ring code `pop`, stands at a pop it cannot make. -/
def Ply.popWaits (p : Ply) (r : Ring) (pop : Nat) : Bool :=
  match ringOfCode pop with
  | none => false
  | some a => !(p.ring r).popped && decide (p.tok a.code r.code = 0)

/-- Whether the flag wait of the entry at a ring's read pointer stands unsatisfied, or (`early`) would if it were issued. -/
def Ply.flagWaits (p : Ply) (r : Ring) (early : Bool) (f thr : Nat) : Bool :=
  decide (thr ≠ 0) && !(p.ring r).granted && ((p.ring r).await.isSome || (early && decide (p.flag f < thr)))

/-- Whether the entry of a vector ring cannot proceed: a push that finds 16 tokens (log 71), the slip limit, or, once it has
passed its checks, its pop or its flag wait (R35, R40, R228, R229). -/
def State.vecBlocked (s : State) (h : Here) (early : Bool) (r : Ring) : Bool :=
  let p := s.ply h
  match (p.ring r).done with
  | some (push, _) => push && decide (16 ≤ p.tok r.code (ringPushTo r))
  | none =>
    if p.begun r then false
    else if !p.slipOk (p.headE r) then true
    else match s.fetchEntry h r 0 1 with
      | .error _ => false
      | .ok ws =>
        let w := ws.headD 0
        if p.noToken r (bitB w 0) then (p.ring r).checked
        else match decode r w [] with
          | .ok (.vfwait _ f thr _ _) => p.flagWaits r early f.toNat thr.toNat
          | _ => false

/-- Whether a command at the head of a command ring cannot start: its pop, its wait, a tile of another ply, or a fifth tcoll
(R41, R265, R287). -/
def State.goBlocked (s : State) (h : Here) (early : Bool) (r : Ring) : Bool :=
  let p := s.ply h
  let e := p.headE r
  match s.fetchEntry h r 0 e.words with
  | .error _ => false
  | .ok ws =>
    let g := ws.getLastD 0
    let body := ws.dropLast
    if (firstIllegal r ws).isSome || !isGo g || body.any isGo then false
    else p.popWaits r (bits g 3 3) || p.flagWaits r early (bits g 21 6) (bits g 14 7) ||
      (if r = .mx then ((s.die h.d).namedTiles h body).any ((s.die h.d).tileTaken h)
       else (trOps body).any isTcoll && decide (4 ≤ (s.die h.d).collsOut p.unit))

/-- Command `m` of those in flight has its turn. -/
def Ply.turned (p : Ply) (m : MxState) : Ply := { p with mx := m, mxBehind := (p.mx :: p.mxBehind).erase m }

/-- Whether the next word of a command in progress cannot proceed: a slot of another ply, a slot still in use, a latch that waits for
a beat, a tflip behind a tcoll, or the push at its end that finds 16 tokens (R84, R258, R285, log 71). -/
def State.wordBlocked (s : State) (h : Here) (r : Ring) (c : CmdRun) : Bool :=
  let p := s.ply h
  match c.todo with
  | [] => !p.pushRoom r c.push
  | w :: _ =>
    match decode r w.toNat [] with
    | .ok (.mclaim n) =>
      (match mfind ((s.die h.d).lathe h.lathe).slots n.toNat with
        | none => false
        | some o => decide (o.core ≠ h.c) || decide (o.slot ≠ h.k))
    | .ok (.mrel n) => p.slotInUse n.toNat
    | .ok (.mop gang _ _ _ _) =>
      let m := p.mx
      let v := m.wSlot.toNat + m.coord LoopLevel.sstr c.iter
      let n := if gang = 1 then (gangOf h.lathe).length else 1
      c.latching && decide (c.prev ≠ some v) && c.next.isNone &&
        (List.range n).any (fun (i : Nat) => (match s.latchData h c.latching (v + (i : Int)) with | .wait => true | _ => false))
    | .ok (.tflip _) => decide ((s.die h.d).collsOut p.unit ≠ 0)
    | _ => false

/-- Whether the next entry of an engine ring cannot proceed until something else acts (R38, R352); `early`: a flag wait that has
not been issued counts when it would fail. -/
def State.ringBlocked (s : State) (h : Here) (early : Bool) (r : Ring) : Bool :=
  let p := s.ply h
  match r with
  | .mx => (p.mx :: p.mxBehind).all (fun m =>
      match m.cmd with
      | some c => (s.setPly h (p.turned m)).wordBlocked h .mx c
      | none => p.mxq.entries.isEmpty || s.goBlocked h early .mx ||
          p.mxBehind.any (fun n => n.cmd.any (fun c => c.todo.isEmpty && !p.pushRoom .mx c.push)))
  | .tr => (match p.tr.cmd with | none => s.goBlocked h early .tr | some c => s.wordBlocked h .tr c)
  | .sq => true
  | _ => s.vecBlocked h early r

/-- Whether an engine ring of a ply is quiescent: halted, without an entry, or blocked (R352). -/
def State.ringQuiet (s : State) (h : Here) (r : Ring) : Bool :=
  !(s.ply h).unhalted r || !(s.ply h).ringBusy r || s.ringBlocked h true r

/-- Whether an engine of a ply has yet to reach the unit at which it stops; one that is blocked stops where it stands (R361). -/
def State.engineRuns (s : State) (h : Here) (r : Ring) : Bool := (s.ply h).runsOn r && !s.ringBlocked h true r

/-! ## The sharing of an engine (R38) -/

/-- Whether an engine of a core can go on with the ring of the ply in a slot: an entry that can proceed, or whose wait has not
been issued yet. -/
def State.issuable (s : State) (h : Here) (r : Ring) : Bool := (s.ply h).ringGoes r && !s.ringBlocked h false r

/-- The slot that the engine of a ring serves: the one it served last while that ring can go on, else the next in ascending
cyclic order that can (R38). -/
def State.engineSlot (s : State) (d c : Nat) (r : Ring) : Option Nat :=
  let can := fun k => s.issuable ⟨d, c, k % 8⟩ r
  match mfind ((s.die d).core c).serving r.code with
  | some k => if can k then some k else (firstFrom can (k + 1) 7).map (· % 8)
  | none => firstFrom can 0 8

/-- The engine of a ring serves a ply. -/
def State.serve (s : State) (h : Here) (r : Ring) : State :=
  s.mapCore h (fun c => { c with serving := mput c.serving r.code h.k })

/-! ## The action of a ring -/

/-- A command at a ring's read pointer: every word is legal, or the first that is not traps (R161); it ends in its only GO, or it
is ill-formed with reason 1 (R273, R297, R310); its GO then starts it. -/
def State.goAct (s : State) (h : Here) (r : Ring) : Act :=
  match s.fetchEntry h r 0 ((s.ply h).headE r).words with
  | .error f => .to (s.faultRing h r f)
  | .ok ws =>
    match firstIllegal r ws with
    | some e => .to (s.trapRing h r 0x11 e.reason e.field)
    | none =>
      if !isGo (ws.getLastD 0) || ws.dropLast.any isGo then
        .to (if r = .mx then s.mxNoGo h ws else s.trapRing h r 0x23 1 0)
      else match decode r (ws.getLastD 0) [] with
        | .error e => .to (s.trapRing h r 0x11 e.reason e.field)
        | .ok i => .run i s

/-- The command ring of MX or TR: starts its next command, runs the next word of the one in progress, or completes it. -/
def State.cmdAct (s : State) (h : Here) (r : Ring) (cmd : Option CmdRun) (done : Instr) : Act :=
  match cmd with
  | none => s.goAct h r
  | some c =>
    match c.todo with
    | [] => .run done s
    | w :: _ =>
      match decode r w.toNat [] with
      | .error e => .to (s.trapRing h r 0x11 e.reason e.field)
      | .ok i => .run i s

/-- MX of a ply: the command in flight of its turn, or the next one. A command that has reached the unit at which a pre-emption stops
MX does not go on (R272). -/
def State.mxAct (s : State) (h : Here) : Act :=
  let p := s.ply h
  if p.mustStop && !p.mx.mid then .to s
  else if p.mx.cmd.isNone && p.mxq.entries.isEmpty then .to s
  else match p.mx.cmd.filter CmdRun.stale with
  | some c => .to (s.renewMx h c)
  | none =>
  match s.cmdAct h .mx p.mx.cmd (.mxCommandComplete h.d h.c h.k) with
    | .to t => .to (t.unlessHalted h s)
    | a => a

/-- A turn of MX that is not its next word: it lets the next command start, turns to another command in flight, or performs a unit
out of its order (R268); not on the way to a stop, but for a turn to a command that has to reach its unit. -/
def State.mxTurn (s : State) (h : Here) (stops : Bool) (f : State → State) : Act :=
  let p := s.ply h
  if !p.ringGoes .mx || s.engineSlot h.d h.c .mx != some h.k then .to s
  else if stops && p.mustStop then .to s
  else .to (f (s.serve h .mx))

/-- An engine ring of a ply, while its engine serves that ply. -/
def State.ringAct (s : State) (h : Here) (r : Ring) : Act :=
  let p := s.ply h
  if !p.ringGoes r || s.engineSlot h.d h.c r != some h.k then .to s
  else
  let s := s.serve h r
  match r with
    | .sq => .to s
    | .vl => s.vecAct h .vl
    | .va => s.vecAct h .va
    | .vs => s.vecAct h .vs
    | .mx => s.mxAct h
    | .tr => s.cmdAct h .tr p.tr.cmd (.trCommandComplete h.d h.c h.k)

/-! ## The action of the turn -/

/-- Whether an instruction is an event, which has no word. -/
def isEvent (i : Instr) : Bool := (encode i).isEmpty

/-- Whether the panel can take an event now: nothing but power reaches it while it has none; before it is ready its host ports
accept nothing, and in recovery only FWSTAT and the update window are exposed (R386, R390). -/
def State.admits (s : State) (i : Instr) : Bool :=
  match i with
  | .powerOn _ => true
  | .powerLoss => s.powered
  | .firmwareUpdate => s.powered && (s.fw.ready || s.fw.recovery)
  | .firmwareUpdateDone => s.powered && (s.fw.ready || s.fw.recovery)
  | .registerWrite r _ _ => s.powered && (s.fw.ready || (s.fw.recovery && (r == .fwstatSel || r == .updWindow)))
  | _ => s.powered && s.fw.ready

/-- What the agent of the turn does (log 1). A die without power does nothing (R396). -/
def State.nextAct (s : State) : Act :=
  match s.turn with
  | .idle => .to s
  | .sq d c =>
    match ((s.die d).core c).running with
    | none => .to s
    | some k => if s.powered && s.dieOn d then s.sqAct ⟨d, c, k⟩ else .to s
  | .ring d c k r => if s.powered && s.dieOn d then s.ringAct ⟨d, c, k⟩ r else .to s
  | .piece d c k r => if s.powered && s.dieOn d then s.ringAct ⟨d, c, k⟩ r else .to s
  | .aside d c k => if s.powered && s.dieOn d then s.mxTurn ⟨d, c, k⟩ true (fun s => s.mapPly ⟨d, c, k⟩ Ply.setAside) else .to s
  | .turnTo d c k j => if s.powered && s.dieOn d then s.mxTurn ⟨d, c, k⟩ false (fun s => s.mapPly ⟨d, c, k⟩ (fun p => p.turnTo j)) else .to s
  | .early d c k u => if s.powered && s.dieOn d then s.mxTurn ⟨d, c, k⟩ true (fun s => s.mxEarly ⟨d, c, k⟩ u) else .to s
  | .event i => if isEvent i && s.admits i then .run i s else .to s

/-! ## What follows a step -/

/-- The engines of a ply under an eviction acknowledge it: one whose ring is empty, halted or blocked at once, any other at its unit
once SQ has (R361, log 85). -/
def State.ackEngines (s : State) (h : Here) : State :=
  let p := s.ply h
  if !p.preempt || !p.evict || p.phase == .stopping || p.phase == .free then s
  else
    let acks := [Ring.vl, .va, .vs, .mx, .tr].foldl (fun n r =>
      if (if p.stopped.contains .sq then s.engineRuns h r else !s.ringQuiet h r) then n else n + 2 ^ r.code) 0
    s.mapCore h (fun c => { c with prectl := { c.prectl with acks := c.prectl.acks ||| BitVec.ofNat 6 acks } })

/-- Every acknowledgement that the engines of a die owe. -/
def State.ackDie (s : State) (d : Nat) : State := (s.die d).plyKeys.foldl (fun s k => s.ackEngines (hereOf d k)) s

/-- What follows a step: all that happens at once, and then the next turn. -/
def State.afterStep (s : State) : State := ((mkeys s.dies).foldl State.ackDie s.settle).advanceTurn

end Sys2Proof.Machine
end

