-- ==== Sys2Proof/Machine/Faults.lean ====
section
/-! DEFINITION. Quiescence and the writing of trap records, the responses to them, invalidation, pre-emption, and the watchdog
(R351 to R366). -/

namespace Sys2Proof.Machine

open Sys2Proof

/-! ## Quiescence (R352) -/

/-- Whether the SQ of a held ply is quiescent: it has halted, or the ply has left the sequencer at a switch point or a stall, or
has ended (R352). -/
def Ply.sqQuiet (p : Ply) : Bool := (mfind p.halts 0).isSome || p.phase == .waiting || p.phase == .ended

/-- Whether every agent of a ply is quiescent. -/
def State.allQuiet (s : State) (h : Here) : Bool :=
  (s.ply h).sqQuiet && [Ring.vl, .va, .vs, .mx, .tr].all (s.ringQuiet h)

/-! ## The trap record (R352 to R354) -/

/-- The level record, future and launch identifier of a unit. -/
def Die.unitRefs (x : Die) (u : Nat) : Nat × Nat × Nat :=
  match x.unit? u with
  | none => (0xFFFF, 0, 0)
  | some w => (w.level, w.fut, (x.identOf u).toNat)

/-- R352, every agent of a held ply is quiescent: the record is written once a trap slot is free. -/
def execTrapRecordWrite (die core slot : Nat) (s : State) : Out :=
  let h : Here := ⟨die, core, slot⟩
  let p := s.ply h
  .next (if p.phase = .free ∨ p.phase = .stopping ∨ !p.held ∨ p.trapSlot.isSome ∨ !s.allQuiet h then s
    else match s.pick (fun t => ((s.die die).trap t).used) Config.trapCount with
      | none => s
      | some t =>
        let x := s.die die
        let g := x.trap t
        let r := x.unitRefs p.unit
        let s := (s.mapDie die (fun x => x.setTrap t ⟨true, g.tgen, p.unit, p.vf, false⟩)).tickFresh
        let s := s.mapPly h (fun p => { p with trapSlot := some t })
        s.sendTrap p.vf (trapRecord t g.tgen.toNat die core slot r.1 p.firstHalt r.2.1 r.2.2 p.halts)
          (trapEntry t g.tgen.toNat die r.1 r.2.2))

/-! ## The response (R355, R356, R363) -/

/-- Sets TRSTAT (R355). -/
def State.setTrstat (s : State) (v : Nat) (n : BitVec 2) : State := s.mapVf v (fun f => { f with trstat := n })

/-- Where a trap slot's unit stands: bound at a ply slot, or saved. -/
inductive TrapAt where
  | ply (h : Here)
  | image (u : Nat) (w : WUnit) (v : Saved)
  | gone

/-- The unit of a trap slot. -/
def State.trapAt (s : State) (d u : Nat) : TrapAt :=
  match (s.die d).unit? u with
  | none => .gone
  | some w =>
    match w.saved with
    | some v => .image u w v
    | none => if w.phase = .bound then .ply ⟨d, w.core, w.slot⟩ else .gone

/-- A resume or a skip, of a bound ply or of the image of an evicted one (R356, R361). -/
def State.respondOn (s : State) (d t u : Nat) (skip : Bool) (cap : Option W32) : State :=
  match s.trapAt d u with
  | .ply h => s.resumeTrap h skip cap
  | .image u w v => s.mapDie d (fun x =>
      (x.setTrap t ((x.trap t).freed false)).setUnit u { w with saved := some { v with ply := v.ply.resumed skip cap } })
  | .gone => s.mapDie d (fun x => x.setTrap t ((x.trap t).freed false))

/-- An abandon (R30 step 3, R58, R356), of a bound ply, of one whose image awaits restoring, or of the image of an unbound unit. -/
def State.abandonOn (s : State) (d t u : Nat) : State :=
  let s := s.mapDie d (fun x => x.setTrap t ((x.trap t).freed false))
  match s.trapAt d u with
  | .ply h => (s.mapPly h (fun p => { p with trapSlot := none })).stopFaulted h
  | .image u w v =>
    let s := s.mapDie d (fun x => x.setUnit u { w with saved := some { v with ply := { v.ply with halts := [], trapSlot := none } } })
    if w.phase = .bound then s.stopFaulted ⟨d, w.core, w.slot⟩
    else (s.discardSaved d u).mapDie d (fun x =>
      let x := (x.mapFut w.fut (fun e => { e with pinned := false })).mapUnit u (fun w => { w with holdset := v.ply.holdset })
      { x.failUnit u with chosen := x.chosen.filter (fun n => decide (n ≠ u)) })
  | .gone => s

/-- A TRESP write of function `v` whose action is one of `mine`: refused, stale, dropped, or applied by `k` (R355). A lost
port takes none (R396). -/
def State.respond (s : State) (v : Nat) (resp : BitVec 128) (mine : Nat) (k : State → Nat → Nat → Nat → State) : State :=
  let r := resp.toNat
  let tid := bits r 0 16
  let d := bits r 32 6
  if 192 ≤ v ∨ s.hostOn (v / 48) = false ∨ bits r 38 2 ≠ mine then s
  else if mine = 3 ∨ bits r 41 7 ≠ 0 ∨ bits r 80 48 ≠ 0 then s.setTrstat v 3
  else if Config.trapCount ≤ tid then s.setTrstat v 1
  else
    let t := (s.die d).trap tid
    let g := bits r 16 16
    if t.used ∧ t.tgen.toNat = g then (if t.vf ≠ v then s.setTrstat v 3 else (k s d tid t.unit).setTrstat v 0)
    else if !t.used ∧ t.dropped ∧ t.tgen.toNat = (g + 1) % 2 ^ 16 then s.setTrstat v 2
    else s.setTrstat v 1

/-- The replacement copy of a response (R355). -/
def respCap (resp : BitVec 128) : Option W32 :=
  if bitB resp.toNat 40 then some (BitVec.ofNat 32 (bits resp.toNat 48 32)) else none

/-- R356, resume. -/
def execTrespResume (vf : Nat) (resp : BitVec 128) (s : State) : Out :=
  .next (s.respond vf resp 0 (fun s d t u => s.respondOn d t u false (respCap resp)))

/-- R356, skip. -/
def execTrespSkip (vf : Nat) (resp : BitVec 128) (s : State) : Out :=
  .next (s.respond vf resp 1 (fun s d t u => s.respondOn d t u true none))

/-- R356, abandon. -/
def execTrespAbandon (vf : Nat) (resp : BitVec 128) (s : State) : Out :=
  .next (s.respond vf resp 2 (fun s d t u => s.abandonOn d t u))

/-- R355, a response with `action` 3 is refused. -/
def execTrespRefused (vf : Nat) (resp : BitVec 128) (s : State) : Out := .next (s.respond vf resp 3 (fun s _ _ _ => s))

/-! ## Invalidation (R360) -/

/-- Whether an access of context `v` that carries an earlier translation generation remains: on its way to its home die, to
a peer or to the host, in a row or an instruction under way, or in a matrix command, which is translated whole (R359, R360). -/
def State.oldAccess (s : State) (v : Nat) : Bool :=
  let g := (s.vf v).tgen
  let old := fun (f : Nat) (n : BitVec 16) => decide (f = v) && decide (n ≠ g)
  let row := fun (p : Ply) (i : Option VIssue) => i.any (fun i => decide (i.part ≠ 0) && old p.vf i.tgen)
  s.frames.any (fun f => old f.vf f.tgen) || s.posted.any (fun w => old w.vf w.tgen) ||
    s.links.any (fun l => l.2.queue.any (fun r => old r.vf r.tgen && decide (r.kind ≠ 3))) ||
    s.dies.any (fun e => e.2.links.any (fun l => !l.2.open_.isEmpty && old l.2.vf l.2.tgen) ||
      e.2.plies.any (fun p => decide (p.2.phase ≠ .free) &&
        (row p.2 p.2.vlIss || row p.2 p.2.vsIss || p.2.sqBusy.any (fun b => !b.parts.isEmpty && old p.2.vf b.tgen) ||
          (p.2.mx :: p.2.mxBehind).any (fun m => m.cmd.any (fun c => !c.stale && old p.2.vf c.tgen)))))

/-- R360, a write to INVCTL: its fields are stored, and a `go` that no invalidation in progress holds off raises TGEN. -/
def execInvalidation (value : BitVec 192) (s : State) : Out :=
  .next (
    let v := value.toNat
    let i := { s.invctl with
      vf := BitVec.ofNat 8 v, all := bitB v 8, base := BitVec.ofNat 56 (bits v 64 56), len := BitVec.ofNat 32 (bits v 128 32) }
    if !(bitB v 9 && i.done) then { s with invctl := i }
    else
      let s := { s with invctl := { i with done := false, cur := i.vf } }
      if i.vf.toNat < 192 then s.mapVf i.vf.toNat (fun f => { f with tgen := f.tgen + 1 }) else s)

/-- R360, no access of the context with an earlier generation remains. -/
def execInvalidationDone (s : State) : Out :=
  .next (if s.invctl.done || s.oldAccess s.invctl.cur.toNat then s else { s with invctl := { s.invctl with done := true } })

/-! ## Pre-emption (R209, R361, R362) -/

/-- R361, the collector has what it waits for: the ply is Ready, or it is saved and freed, or no room is left for it. A ply is saved
once its accesses have been acknowledged, so that nothing of a unit is on its way while it is unbound (R58, R59, R112, log 83). -/
def execPreemptCollectDone (die core : Nat) (s : State) : Out :=
  .next (
    let x := s.die die
    let q := (x.core core).prectl
    let h : Here := ⟨die, core, q.cur.toNat⟩
    let p := s.ply h
    let ends := fun (s : State) (st : BitVec 2) (why : BitVec 2) (acks : BitVec 6) =>
      s.mapCore h (fun c => { c with prectl := { q with state := st, why := why, acks := acks } })
    if q.state ≠ 1 then s
    else if !p.preempt ∨ p.phase = .free ∨ p.phase = .stopping then ends s 3 1 q.acks
    else if !p.stopped.contains .sq then s
    else if !q.curEvict then ends (s.mapPly h Ply.unasked) 2 0 q.acks
    else if Ring.all.any (s.engineRuns h) || p.sqBusy.isSome || (x.unit? p.unit).any (fun w => w.saved.isSome) then s
    else if !(x.unit? p.unit).any (fun w => (x.imageRoom w (x.image core h.k)).isSome) then ends (s.mapPly h Ply.goesOn) 3 2 0x3F
    else if !s.unitQuiet die p.unit then s.drainUnit die p.unit
    else
      let s := ends (s.mapDie die (fun x => ((x.stopPly core h.k 5).mapPly core h.k (fun p => { p.unasked with stopWhy := 5 })).freePly
        core h.k s.fresh)) 2 0 0x3F
      s.tickFresh)

/-- R37, an engine of a Stopping ply reaches its stopping unit and acknowledges the stop. -/
def execEngineStopAck (die core slot : Nat) (ring : Ring) (s : State) : Out :=
  let h : Here := ⟨die, core, slot⟩
  let p := s.ply h
  .next (if p.phase = .stopping ∧ ring ≠ .sq ∧ !p.stopped.contains ring ∧ !s.engineRuns h ring then
      s.setPly h { p with stopped := ring :: p.stopped }
    else s)

/-! ## The watchdog (R366) -/

/-- Whether one of the states that the watchdog of a partition times stands. -/
def State.hangs (s : State) (p : Nat) : Bool :=
  ((!s.invctl.done) && decide ((s.vf s.invctl.cur.toNat).part.toNat = p)) ||
    (s.members p).any (fun d =>
      let x := s.die d
      x.cores.any (fun c => c.2.prectl.state == 1) ||
        x.plies.any (fun e => decide (e.2.phase ≠ .free) &&
          ((e.2.held && e.2.trapSlot.isNone && !s.allQuiet (hereOf d e.1)) || (x.unit? e.2.unit).any (fun w => w.saved.isSome))))

/-- R366, one of those states has lasted `elapsed` edge-chiplet cycles, longer than the limit. -/
def execWatchdogExpiry (part elapsed : Nat) (s : State) : Out :=
  .next (if part < 32 ∧ (s.part part).wdog ≠ 0 ∧ (s.part part).wdog.toNat < elapsed ∧ s.hangs part then s.resetPart part 2 0xFF else s)

end Sys2Proof.Machine
end

