-- ==== Sys2Proof/Machine/Fleet.lean ====
section
/-! DEFINITION. Bring-up, firmware, identity, keys and power, and the health of the panel (R386 to R398, R405). -/

namespace Sys2Proof.Machine

open Sys2Proof

/-! ## The firmware image (R388, R389) -/

/-- Whether a range of bytes is zero. -/
def zeroBytes (m : Map Byte) (lo n : Nat) : Bool := (takeRange m lo n).all (fun e => e.2 == 0)

/-- The body size an image header gives. -/
def imageSize (m : Map Byte) : Nat := getLE m 8 8

/-- The SHA-512 digest of an image's body, as `digest` holds it. -/
def imageDigest (m : Map Byte) : BitVec 512 := BitVec.ofNat 512 (getLE m 16 64)

/-- Whether the image in the update window is accepted (R388). -/
def imageOk (m : Map Byte) (svnMin : Nat) : Bool :=
  let n := imageSize m
  decide (getLE m 0 4 = 0x57464D) && decide (getLE m 4 2 = 1) && decide (getByte m 7 = 0) && decide (1 ≤ n) && decide (n ≤ 2 ^ 26 - 4096) &&
    zeroBytes m 80 432 && zeroBytes m 1024 3072 && decide (svnMin ≤ (getByte m 6).toNat) &&
    Config.sigOk (getBytes m 0 512) (getBytes m 512 512) && decide (imageDigest m = Config.sha512 (getBytes m 4096 n))

/-- A bank of the flash: `true` names the second. -/
def Firmware.bank (f : Firmware) (b : Bool) : Option (BitVec 8 × BitVec 512) := if b then f.bank1 else f.bank0

/-- Writes a bank. -/
def Firmware.setBank (f : Firmware) (b : Bool) (x : Option (BitVec 8 × BitVec 512)) : Firmware :=
  if b then { f with bank1 := x } else { f with bank0 := x }

/-- The bank that an update writes: the one other than `run` (R389). In recovery no image runs, and `run` keeps its value. -/
def Firmware.other (f : Firmware) : Bool := !f.run

/-- R389, `upd_go`: an update starts unless one is in progress. -/
def execFirmwareUpdate (s : State) : Out := .next (if s.fw.status = 1 then s else { s with fw := { s.fw with status := 1 } })

/-- R389, the update ends: the image is written to the other bank and selected, or it is refused. -/
def execFirmwareUpdateDone (s : State) : Out :=
  .next (
    let f := s.fw
    if f.status ≠ 1 then s
    else if imageOk f.window f.svnMin.toNat then
      { s with fw := { f.setBank f.other (some (getByte f.window 6, imageDigest f.window)) with sel := f.other, status := 2 } }
    else { s with fw := { f with status := 3 } })

/-- R389, `svn_commit`: the fused minimum rises to the running image's `svn`, and never falls. -/
def execSvnCommit (s : State) : Out :=
  .next (if s.fw.svnMin < s.fw.svn then { s with fw := { s.fw with svnMin := s.fw.svn } } else s)

/-- The panel loses power. A bank being written then fails verification; whether the write of an image that passes its check had
begun is a free value (R389, log 8). -/
def State.losePower (s : State) : State :=
  let f := s.fw
  let writing := decide (f.status = 1) && imageOk f.window f.svnMin.toNat && decide (Config.choice s.fresh % 2 = 1)
  { s.tickFresh with powered := false, fw := if writing then f.setBank f.other none else f }

/-- R389, the panel loses power. -/
def execPowerLoss (s : State) : Out := .next s.losePower

/-! ## Power-on (R386, R387, R390) -/

/-- Whether a bank verifies at power-on: it holds an image, no older than the fused minimum (R388). -/
def Firmware.boots (f : Firmware) (b : Bool) : Bool := ((f.bank b).map (fun x => decide (f.svnMin ≤ x.1))).getD false

/-- The bank that boots (R386 steps 1 and 2). -/
def Firmware.bootBank (f : Firmware) : Option Bool :=
  if f.boots f.sel then some f.sel else if f.boots (!f.sel) then some (!f.sel) else none

/-- FWSTAT `bad` (R389). -/
def badBits (failed : List Nat) : W32 :=
  failed.foldl (fun m b => m ||| BitVec.ofNat 32 (2 ^ min b 31)) 0

/-- Whether a failed block stops the firmware at step 6: a switch die, or an edge chiplet other than E0 (R387). -/
def stopsBoot (b : Nat) : Bool := decide (128 ≤ b) && decide (b ≠ 144)

/-- The panel as power finds it: every register at its power-on value; flash and fuses keep theirs (R5, R386). -/
def State.cold (s : State) : State :=
  { State.reset with
    tick := s.tick, turn := s.turn, fresh := s.fresh, workBase := s.workBase, panelInc := s.panelInc + 1
    hostReads := s.hostReads, msix := s.msix, devStep := s.devStep
    fw := { Firmware.reset with sel := s.fw.sel, svnMin := s.fw.svnMin, bank0 := s.fw.bank0, bank1 := s.fw.bank1 } }

/-- R386, power-on: the firmware is verified, every block released and tested, and the panel made ready; `failed` are the blocks
that fail the self-test. With no bank that verifies the panel is in recovery (R390). -/
def execPowerOn (failed : List Nat) (s : State) : Out :=
  .next (
    let t := s.cold
    match s.fw.bootBank with
    | none => { t with fw := { t.fw with ready := false, recovery := true } }
    | some b =>
      let bad := failed.filter (fun n => decide (n < 148))
      let img := (s.fw.bank b).getD (0, 0)
      let t := { t with
        fw := { t.fw with run := b, svn := img.1, meas1 := img.2, bad := badBits bad, ready := !bad.any stopsBoot } }
      let t := bad.foldl (fun t n => if n < 128 then t.mapDie (n % 64) (fun x => { x with retired := true }) else t) t
      if bad.isEmpty then t else t.setWhy 3)

/-! ## Identity and attestation (R391, R392) -/

/-- The only algorithm, RSASSA-PSS with RSA-4096 over SHA-512, as a request's list names it (R392; the number is the model's own,
log 9). -/
def algRsaPss : Nat := 0

/-- The bytes of DIEPART, VFBIND and the group tables (R392). -/
def State.configBytes (s : State) : List Byte :=
  (List.range 64).flatMap (fun d => leBytes 8 ((s.die d).part.toNat + b2n (s.die d).member * 2 ^ 5)) ++
    ((List.range 192).flatMap (fun v =>
        leBytes 16 ((s.vf v).qmask.toNat + (s.vf v).part.toNat * 2 ^ 64 + b2n (s.vf v).en * 2 ^ 69 + b2n (s.vfBusy v) * 2 ^ 70)) ++
      (List.range 8192).flatMap (fun n =>
        let g := s.group (n / 256) (n % 256)
        leBytes 16 (g.members.toNat + b2n g.valid * 2 ^ 64 + b2n g.enc * 2 ^ 65 + b2n g.swKeys * 2 ^ 66 + g.keySlot.toNat * 2 ^ 72)))

/-- A measurement of the panel (R392). -/
def State.measurement (s : State) (index : Nat) : Option (List Byte) :=
  match index with
  | 0 => some (leBytes 64 Config.romDigest.toNat)
  | 1 => some (leBytes 64 s.fw.meas1.toNat)
  | 2 => some (leBytes 64 (Config.sha512 (leBytes 1 s.fw.svnMin.toNat ++ leBytes 64 Config.fwKeyDigest.toNat)).toNat)
  | 3 => some ((List.range 32).flatMap (fun p => leBytes 8 (s.part p).jseq.toNat) ++ leBytes 64 (Config.sha512 s.configBytes).toNat)
  | _ => none

/-- Changes the responder. -/
def State.mapSpdm (s : State) (f : Spdm → Spdm) : State := { s with spdm := f s.spdm }

/-- Answers a request that the responder's steps so far allow (R392). -/
def State.answerSpdm (s : State) (ok : Spdm → Bool) (f : Spdm → Spdm) : State := if ok s.spdm then s.mapSpdm f else s

/-- R392, GET_VERSION: the responder starts afresh and answers 1.2. -/
def execGetVersion (s : State) : Out :=
  .next (s.mapSpdm (fun _ => { Spdm.reset with version := true, response := [0x12] }))

/-- R392, GET_CAPABILITIES. -/
def execGetCapabilities (s : State) : Out :=
  .next (s.answerSpdm Spdm.version (fun p => { p with caps := true, response := [] }))

/-- R392, NEGOTIATE_ALGORITHMS: the one algorithm, when the requester offers it. -/
def execNegotiateAlgorithms (algs : List Nat) (s : State) : Out :=
  .next (s.answerSpdm Spdm.caps (fun p =>
    if algs.contains algRsaPss then { p with algs := true, response := [BitVec.ofNat 8 algRsaPss] } else { p with response := [] }))

/-- R392, GET_DIGESTS: the digest of slot 0's chain. -/
def execGetDigests (s : State) : Out :=
  .next (s.answerSpdm Spdm.algs (fun p => { p with response := leBytes 64 (Config.sha512 (Config.certChain s.fw.meas1)).toNat }))

/-- R392, GET_CERTIFICATE: the chain of slot 0; another slot holds none. -/
def execGetCertificate (slot : Nat) (s : State) : Out :=
  .next (s.answerSpdm Spdm.algs (fun p => { p with response := if slot = 0 then Config.certChain s.fw.meas1 else [] }))

/-- R392, CHALLENGE: the alias key signs over the nonce (log 9). -/
def execChallenge (slot : Nat) (nonce : BitVec 256) (s : State) : Out :=
  .next (s.answerSpdm Spdm.algs (fun p =>
    { p with response := if slot = 0 then leBytes 512 (Config.aliasSign s.fw.meas1 (leBytes 32 nonce.toNat)).toNat else [] }))

/-- R392, GET_MEASUREMENTS: one measurement, taken at one instant, with the alias key's signature over it and the nonce. -/
def execGetMeasurements (index : Nat) (nonce : BitVec 256) (s : State) : Out :=
  .next (s.answerSpdm Spdm.algs (fun p =>
    match s.measurement index with
    | none => { p with response := [] }
    | some m => { p with response := m ++ leBytes 512 (Config.aliasSign s.fw.meas1 (leBytes 32 nonce.toNat ++ m)).toNat }))

/-- R392, KEY_EXCHANGE: a secured session is set up, to be finished by FINISH. -/
def execKeyExchange (data : BitVec 256) (s : State) : Out :=
  .next ((s.answerSpdm Spdm.algs (fun p =>
    let k := Config.keyExchange data s.fresh
    { p with keyed := some k, secured := false, response := leBytes 32 k.toNat })).tickFresh)

/-- R392, FINISH: the session is secured when the requester's check passes. -/
def execFinish (mac : BitVec 512) (s : State) : Out :=
  .next (s.answerSpdm (fun p => (p.keyed.map (Config.finishOk mac)).getD false) (fun p => { p with secured := true, response := [] }))

/-- Whether an encrypted group that names a key slot has a collective outstanding (R393). -/
def State.keyInUse (s : State) (slot : Nat) : Bool :=
  s.parts.any (fun p => p.2.groups.any (fun g =>
    g.2.valid && g.2.enc && decide (g.2.keySlot.toNat = slot) && s.collOut p.1 g.1))

/-- R393, KEYSET: a key is written or cleared inside a secured session, unless the slot is in use. -/
def execKeyset (slot : Nat) (key : Option (BitVec 256)) (s : State) : Out :=
  .next (if !s.spdm.secured ∨ 256 ≤ slot ∨ s.keyInUse slot then s
    else match key with
      | some k => { s with keys := mput s.keys slot k }
      | none => { s with keys := mdel s.keys slot })

/-! ## Power (R394 to R396) -/

/-- `wfrac` after a control period (R394); `a` is the allotment. -/
def wfracNext (wfrac draw cap a : Nat) : Nat :=
  if cap < draw then min (wfrac + 1) 12 else if 50 * draw + a < 50 * cap then wfrac - 1 else wfrac

/-- R394, a control period of a block ends with its mean draw and its highest temperature; a block without power or held in reset
has none (R387, R396, R401). -/
def execPowerControlPeriod (block draw temp : Nat) (s : State) : Out :=
  .next (if 148 ≤ block ∨ (s.block block).off ∨ (block < 128 ∧ (s.die (block % 64)).retired) then s
    else s.mapBlock block (fun b =>
      let draw := draw % 2 ^ 12
      { b with
        draw := BitVec.ofNat 12 draw, temp := BitVec.ofNat 8 temp, cap := b.capNext, trip := b.tripNext
        wfrac := BitVec.ofNat 4 (wfracNext b.wfrac.toNat draw b.cap.toNat (Block.allot block)) }))

/-- R395, a write of `cap`: held between two fifths of the allotment and the allotment, from the next control period on. -/
def execPwrctlCapWrite (block cap : Nat) (s : State) : Out :=
  .next (if 148 ≤ block then s
    else s.mapBlock block (fun b => { b with
      capNext := BitVec.ofNat 12 (max (2 * Block.allot block / 5) (min (cap % 2 ^ 12) (Block.allot block))) }))

/-- The loss of a compute die or its carder: its partition is reset and a whorl member is spliced (R86, R396). -/
def State.tripDie (s : State) (b : Nat) : State :=
  let d := b % 64
  let p := (s.die d).partNo
  let s := if (s.die d).member then s.resetPart p 4 b else s
  if (s.die d).whorl.isSome then (s.failRequests p d).spliceOut p d else s

/-- R396, a block whose temperature has reached its trip temperature removes its own power. -/
def execThermalTrip (block : Nat) (s : State) : Out :=
  .next (
    let b := s.block block
    if 148 ≤ block ∨ b.off ∨ b.temp < b.trip then s
    else
      let s := s.setBlock block { b with off := true }
      if block < 128 then s.tripDie block
      else if block < 144 then
        ((List.range 32).filter (fun p => s.usesBlock p block)).foldl (fun s p => s.resetPart p 4 block) s
      else if block = 144 then s.losePower
      else (List.range 4).foldl (fun s i => s.linkDown (4 * (block - 144) + i) 0) s)

/-! ## Health (R398, R405) -/

/-- R398, `clr`. -/
def execBhealthClear (block : Nat) (s : State) : Out :=
  .next (if 148 ≤ block then s else s.mapBlock block (fun b => { b with ce := 0, ue := 0, transient := 0 }))

/-- R405, a write of the limits. -/
def execPhealthLimitWrite (retLimit ceLimit : Nat) (s : State) : Out :=
  .next ({ s with phealth := { s.phealth with
    retLimit := BitVec.ofNat 8 retLimit, ceLimit := BitVec.ofNat 32 ceLimit } }.checkLimits)

/-- R398, a soft error is corrected in a block. -/
def execCorrectedSoftError (block : Nat) (s : State) : Out :=
  .next (if 148 ≤ block then s else (s.mapBlock block (fun b => { b with ce := satInc 32 b.ce })).checkLimits)

end Sys2Proof.Machine
end

