-- ==== Sys2Proof/Machine/SqBranch.lean ====
section
/-! DEFINITION. Branches and jumps of the sequencer (R170 to R173). -/

namespace Sys2Proof.Machine

open Sys2Proof

/-- A control transfer to the integer target `t`, taken once `f` has been applied; a target that is not a valid code
address traps with the field code `field` instead (R173). -/
def State.jump (s : State) (h : Here) (t : Int) (field : Nat) (f : Ply → Ply) : State :=
  if (s.ply h).validCode t then s.mapPly h (fun p => (f p).setPco t.toNat) else s.trapSq h 0x12 6 field

/-- A branch: to PCO + 4 × I if `c` holds, else to the next word (R171). -/
def State.branch (s : State) (h : Here) (c : Bool) (imm : BitVec 12) : State :=
  if c then s.jump h ((s.ply h).pco + 4 * imm.toInt) 5 id else s.retire h

/-- The link, Result(PCO + 4) (R172). -/
def Ply.link (p : Ply) (nw : Bool) (dst : Nat) : Ply :=
  { p with regs := p.regs.result nw dst (BitVec.ofNat 64 (p.pco + 4)) }

/-- R171, branches if A = 0. -/
def execBeqz (a : BitVec 7) (imm : BitVec 12) (s : State) : Out :=
  onSq s (fun h => s.withA h a (fun x => s.branch h (decide (x = 0)) imm))

/-- R171, branches if A ≠ 0. -/
def execBnez (a : BitVec 7) (imm : BitVec 12) (s : State) : Out :=
  onSq s (fun h => s.withA h a (fun x => s.branch h (decide (x ≠ 0)) imm))

/-- R171, branches if SA < 0. -/
def execBltz (a : BitVec 7) (imm : BitVec 12) (s : State) : Out :=
  onSq s (fun h => s.withA h a (fun x => s.branch h (decide (x.toInt < 0)) imm))

/-- R171, branches if 0 ≤ SA. -/
def execBgez (a : BitVec 7) (imm : BitVec 12) (s : State) : Out :=
  onSq s (fun h => s.withA h a (fun x => s.branch h (decide (0 ≤ x.toInt)) imm))

/-- R171, branches if 0 < SA. -/
def execBgtz (a : BitVec 7) (imm : BitVec 12) (s : State) : Out :=
  onSq s (fun h => s.withA h a (fun x => s.branch h (decide (0 < x.toInt)) imm))

/-- R171, branches if SA ≤ 0. -/
def execBlez (a : BitVec 7) (imm : BitVec 12) (s : State) : Out :=
  onSq s (fun h => s.withA h a (fun x => s.branch h (decide (x.toInt ≤ 0)) imm))

/-- R171, branches always. -/
def execBra (imm : BitVec 12) (s : State) : Out := onSq s (fun h => s.branch h true imm)

/-- R172, jumps by a word offset from this word and writes the link. -/
def execJal (nw : Bool) (dst : BitVec 6) (off : BitVec 19) (s : State) : Out :=
  onSq s (fun h => s.jump h ((s.ply h).pco + 4 * off.toInt) 5 (fun p => p.link nw dst.toNat))

/-- R172, jumps to A + 4 × I and writes the link; A is read first. -/
def execJalr (nw : Bool) (dst : BitVec 6) (a : BitVec 7) (imm : BitVec 12) (s : State) : Out :=
  onSq s (fun h => s.withA h a (fun x => s.jump h (x.toNat + 4 * imm.toInt) 3 (fun p => p.link nw dst.toNat)))

end Sys2Proof.Machine
end

