-- ==== Sys2Proof/Machine/SqControl.lean ====
section
/-! DEFINITION. The sequencer's waits, flags, tokens, barriers, futures, hanks, engine rings, loop unit and publish
(R192 to R210). -/

namespace Sys2Proof.Machine

open Sys2Proof

/-! ## Waits and flags (R193 to R197) -/

/-- R194, waits until flag f reaches A + the addend. -/
def execFwait (flag : BitVec 6) (a : BitVec 7) (sub : Bool) (imm : BitVec 11) (s : State) : Out :=
  onSq s (fun h => s.atWait h (fun s => s.withA h a (fun x =>
    let t := x.toNat + imm.toNat
    if 2 ^ 32 ≤ t then s.trapSq h 0x12 7 3 else s.issueWait h (.flag flag.toNat t sub))))

/-- R195, waits until a barrier's phase reaches A [15:0]. -/
def execBwait (a : BitVec 7) (bar : BitVec 8) (s : State) : Out :=
  onSq s (fun h => s.atWait h (fun s => s.withA h a (fun x => s.issueWait h (.barrier bar.toNat (x.setWidth 16)))))

/-- The offence of a monitor-and-wait's address: an out-of-range byte, or a shadow view wherever its home is (R196). -/
def watchBad (ls : List (Nat × Loc)) : Option (Nat × Nat) :=
  match firstBad ls with
  | some o => some o
  | none => match ls with
    | (va, l) :: _ => if bitB va 55 && l.away.isSome then some (va, 1) else none
    | [] => none

/-- R196, watches the 8 bytes at A; an in-range address that is not at home here traps with reason 8. -/
def execMwait (a b : BitVec 7) (cond : BitVec 2) (s : State) : Out :=
  onSq s (fun h => s.atWait h (fun s => s.withAB h a b (fun x y => s.aligned h x 8 (
    let ls := State.locateAll (fun va => (s.locate h.d (some h.key) (s.ply h).vf .load none va).1) x.toNat 8
    match firstFault ls with
    | some f => s.faultSq h f
    | none =>
      let bad := watchBad ls
      if bad.isNone && ls.any (fun l => l.2.away.isSome) then s.trapSq h 0x12 8 3
      else (s.offend h 0 false bad).issueWait h (.mem x.toNat cond y)))))

/-- R197, raises a flag. -/
def execFraise (flag : BitVec 6) (imm : BitVec 12) (s : State) : Out :=
  onSq s (fun h => s.mapPly h (fun p => (p.raiseBy 0 flag.toNat imm.toNat).advance))

/-- R197, pushes `cnt` + 1 tokens to a ring, one as room frees; it retires after the last. -/
def execTokPush (cnt : BitVec 4) (ring : BitVec 3) (s : State) : Out :=
  onSq s (fun h =>
    let p := s.ply h
    let r := ring.toNat - 1
    let left := cnt.toNat + 1 - p.tokDone
    let n := min left (16 - p.tok 0 r)
    let p := p.pushTok 0 r n
    if n = left then s.setPly h { p with tokDone := 0 }.advance
    else (s.setPly h { p with tokDone := p.tokDone + n }).stallSq h)

/-- R197, pops one token from a ring, before issue. -/
def execTokPop (ring : BitVec 3) (s : State) : Out :=
  onSq s (fun h =>
    let p := s.ply h
    let r := ring.toNat - 1
    if p.tok r 0 = 0 then s.stallSq h else s.setPly h (p.popTok r 0).advance)

/-- R197, arrives at a barrier; an unconfigured one traps and changes nothing. -/
def execBarr (bar : BitVec 8) (s : State) : Out :=
  onSq s (fun h =>
    let b := (s.die h.d).bar bar.toNat
    if b.participants = 0 then s.trapSq h 0x13 4 0
    else (s.mapDie h.d (fun x => x.setBar bar.toNat b.arrive)).retire h)

/-- R206, advances the stage counter; the entries that this allows are released before the next instruction. -/
def execStage (a : BitVec 7) (imm : BitVec 12) (s : State) : Out :=
  onSq s (fun h => s.withA h a (fun x =>
    (s.mapRegs h (fun r => { r with stage := r.stage + x.setWidth 16 + imm.setWidth 16 })).retire h))

/-! ## Futures (R198 to R201) -/

/-- Whether a handle names a live future of this die that the hold set holds (R50, R51). -/
def State.holds (s : State) (h : Here) (hd : Word) : Bool :=
  let e := (s.die h.d).fut (hd.toNat % 65536)
  decide (hd.toNat / 2 ^ 38 = 0) && decide (bits hd.toNat 32 6 = h.d) && decide (e.state ≠ 3) &&
    decide (e.gen.toNat = bits hd.toNat 16 16) && (slotOf (s.ply h).holdset hd).isSome

/-- Reads a handle operand; one that fails R50 or R51 traps with reason 11 (R198). -/
def State.withHandle (s : State) (h : Here) (a : BitVec 7) (k : Word → State) : State :=
  s.withA h a (fun x => if s.holds h x then k x else s.trapSq h 0x12 11 3)

/-- R198, takes a reference. -/
def execRef (a : BitVec 7) (s : State) : Out :=
  onSq s (fun h => s.withHandle h a (fun x =>
    let f := x.toNat % 65536
    if ((s.die h.d).fut f).reach.toNat = 2 ^ 24 - 1 then s.trapSq h 0x13 3 0
    else match freeSlot (s.ply h).holdset with
      | none => s.trapSq h 0x13 2 0
      | some i =>
        ((s.mapDie h.d (fun x => x.mapFut f (fun e => { e with reach := e.reach + 1 }))).mapPly h
          (fun p => { p with holdset := mput p.holdset i x })).retire h))

/-- Frees the lowest slot that holds a handle (R198). -/
def Ply.dropSlot (p : Ply) (hd : Word) : Ply :=
  match slotOf p.holdset hd with
  | none => p
  | some i => { p with holdset := mdel p.holdset i }

/-- R198, drops a reference through ReachDec (R53). -/
def execDrop (a : BitVec 7) (s : State) : Out :=
  onSq s (fun h => s.withHandle h a (fun x =>
    ((s.mapPly h (fun p => p.dropSlot x)).mapDie h.d (fun y => y.dropRef x)).retire h))

/-- Links a ply at the head of a future's deferred-read list (R60). -/
def Die.link_ (x : Die) (c k f : Nat) : Die :=
  let e := x.fut f
  (x.mapCore c (fun y => { y with dlink := mset 0 y.dlink k e.dhead })).setFut f { e with dhead := BitVec.ofNat 9 (256 + c * 8 + k) }

/-- The read of a future: delivered, or the ply links and waits (R60, R198). -/
def State.readFut (s : State) (h : Here) (dst : BitVec 5) (nw consume : Bool) (hd : Word) : State :=
  let w := Wait.fut hd dst nw consume
  match s.tryWait h w with
  | some _ => s.issueWait h w
  | none => (s.issueWait h w).mapDie h.d (fun x => x.link_ h.c h.k (hd.toNat % 65536))

/-- R198, reads a future into G(`dst`) and G(`dst` + 1). -/
def execGet (nw : Bool) (dst : BitVec 5) (a : BitVec 7) (s : State) : Out :=
  onSq s (fun h => s.atWait h (fun s => s.withHandle h a (fun x => s.readFut h dst nw false x)))

/-- R198, reads a future and drops the reference. -/
def execGetc (nw : Bool) (dst : BitVec 5) (a : BitVec 7) (s : State) : Out :=
  onSq s (fun h => s.atWait h (fun s => s.withHandle h a (fun x => s.readFut h dst nw true x)))

/-- Fills the caller's own future (R61, R200): one already filled or reclaimed traps with reason 12, and a fill of a
doomed entry is discarded (R56). -/
def State.fill (s : State) (h : Here) (result : Nat) (indirect : Bool) : State :=
  match (s.die h.d).unit? (s.ply h).unit with
  | none => s.trapSq h 0x12 12 0
  | some w =>
    let e := (s.die h.d).fut w.fut
    let u := (s.ply h).unit
    if e.state ≠ 0 ∨ w.filled then s.trapSq h 0x12 12 0
    else
      let s := s.mapDie h.d (fun x => x.mapUnit u (fun w => { w with filled := true }))
      if e.doomed then s.retire h
      else (s.mapDie h.d (fun x => x.setFut w.fut { e with
        state := 1, indirect := indirect, dhead := 0, result := BitVec.ofNat 128 result })).retire h

/-- R200, fills with B × 2^64 + A. -/
def execPut (a b : BitVec 7) (s : State) : Out :=
  onSq s (fun h => s.withAB h a b (fun x y => s.fill h (y.toNat * 2 ^ 64 + x.toNat) false))

/-- R200, fills indirectly with an address and a length. -/
def execPuti (a b : BitVec 7) (s : State) : Out :=
  onSq s (fun h => s.withAB h a b (fun x y =>
    if 2 ^ 56 ≤ x.toNat then s.trapSq h 0x12 7 3
    else if 2 ^ 32 ≤ y.toNat then s.trapSq h 0x12 7 4
    else s.fill h (x.toNat + y.toNat * 2 ^ 64) true))

/-- Sets the pin of the caller's own unit (R57). -/
def State.setPin (s : State) (h : Here) (b : Bool) : State :=
  s.mapDie h.d (fun x => match x.unit? (s.ply h).unit with
    | none => x
    | some w => x.mapFut w.fut (fun e => { e with pinned := b }))

/-- R57, pins the unit. -/
def execPin (s : State) : Out := onSq s (fun h => (s.setPin h true).retire h)

/-- R57, unpins the unit; a reclamation point. A unit that is doomed and has an accepted cancel ends cancelled (log 73). -/
def execUnpin (s : State) : Out := onSq s (fun h => ((s.setPin h false).retire h).reclaimOr h id)

/-- R198, a reclamation point and nothing else. -/
def execRcp (s : State) : Out := onSq s (fun h => (s.retire h).reclaimOr h id)

/-- The handle of a ply's own future, formed from PID (R184). -/
def State.ownHandle (s : State) (h : Here) : Word :=
  match (s.die h.d).unit? (s.ply h).unit with
  | none => 0
  | some w => handleOf h.d w.fut w.gen.toNat

/-- R198, bits [63:0] of a future-table entry; the unit's own handle is accepted. -/
def execFins (nw : Bool) (dst : BitVec 6) (a : BitVec 7) (s : State) : Out :=
  onSq s (fun h => s.withA h a (fun x =>
    if s.holds h x || (decide (x = s.ownHandle h) && ((s.die h.d).unit? (s.ply h).unit).isSome) then
      s.result h nw dst.toNat (BitVec.ofNat 64 ((s.die h.d).fut (x.toNat % 65536)).bits)
    else s.trapSq h 0x12 11 3))

/-- Whether a level record belongs to the job of a ply: it is open, or has ended and still stands (R29, R201). -/
def State.sameJob (s : State) (h : Here) (i : Nat) : Bool :=
  let x := s.die h.d
  let own := ((x.unit? (s.ply h).unit).map WUnit.level).getD 0xFFFF
  decide (i < Config.levelCount) && ((x.level i).used || decide ((x.level i).status ≠ 0)) &&
    decide (x.jobOf i 5 = x.jobOf own 5)

/-- R201, cancels a level record of the caller's job; the result is 0, or the status found. -/
def execCancel (nw : Bool) (dst : BitVec 6) (a : BitVec 7) (s : State) : Out :=
  onSq s (fun h => s.withA h a (fun x =>
    if x.toNat < 65536 ∧ s.sameJob h x.toNat then
      let r := s.cancelLevel h.d x.toNat
      r.1.result h nw dst.toNat (BitVec.ofNat 64 r.2)
    else s.trapSq h 0x12 7 3))

/-! ## spawn (R199) -/

/-- The slots a mask names, ascending. -/
def maskSlots (m : Word) : List Nat := (List.range 32).filter (fun i => bitB m.toNat i)

/-- Moves references out of a hold set. -/
def dropSlots (hs : Map Word) (ss : List Nat) : Map Word := ss.foldl mdel hs

/-- A spawn under a cancelling launch: no unit, and a reclaimed future, from the launch's reserved entries first (R312); the
passed references are dropped (R30, R199). No unit exists to own the future: its `owner` is 0xFFFF (log 75). -/
def State.spawnDead (s : State) (h : Here) (nw : Bool) (dst f l : Nat) (ss : List Nat) (slot : Nat) : State :=
  let hs := (s.ply h).holdset
  let e := (s.die h.d).fut f
  let hd := handleOf h.d f e.gen.toNat
  let s := s.mapDie h.d (fun x =>
    let x := x.setFut f { (.reset : Future) with state := 2, cause := 2, reach := 1, gen := e.gen, owner := 0xFFFF, ounit := s.fresh }
    let x := x.mapLaunch l (fun b => { b with resv := b.resv - 1 })
    ss.foldl (fun x i => match mfind hs i with | some r => x.dropRef r | none => x) x)
  (s.tickFresh.mapPly h (fun p => { p with holdset := mput (dropSlots hs ss) slot hd })).result h nw dst hd

/-- The changes of a spawn whose checks have all passed (R199). -/
def State.spawnUnit (s : State) (h : Here) (nw : Bool) (dst l : Nat) (a : Launch) (lr : LaunchRec) (i f area : Nat)
    (ss : List Nat) (slot : Nat) : State :=
  let hs := (s.ply h).holdset
  let u := s.fresh
  let hd := handleOf h.d f ((s.die h.d).fut f).gen.toNat
  let passed := ss.filterMap (fun i => mfind hs i)
  let s := s.newUnit h.d l a lr area i f true passed .queued
  let s := s.mapDie h.d (fun x =>
    let x := x.mapLevel a.level (fun v => { v with outstanding := v.outstanding + 1 })
    let x := x.mapLaunch l (fun b => { b with resv := b.resv - 1 })
    let x := { x with areas := (areaKey a.vf lr.addr, area) :: x.areas }
    x.setLqc a.queue { x.lqc a.queue with items := insertUnit x u (x.lqc a.queue).items })
  (s.mapPly h (fun p => { p with holdset := mput (dropSlots hs ss) slot hd })).result h nw dst hd

/-- The checks of a spawn in their order, then its changes (R199). -/
def State.spawn (s : State) (h : Here) (nw : Bool) (dst : Nat) (lr : LaunchRec) (m : Word) : State :=
  let x := s.die h.d
  let ss := maskSlots m
  let hs := (s.ply h).holdset
  if lr.keyed then s.trapSq h 0x12 7 3
  else if 2 ^ 32 ≤ m.toNat ∨ 8 < ss.length then s.trapSq h 0x12 7 4
  else if ss.any (fun i => (mfind hs i).isNone) then s.trapSq h 0x12 11 4
  else match (x.unit? (s.ply h).unit) with
    | none => s.trapSq h 0x12 9 3
    | some w => match x.launch? w.launch with
      | none => s.trapSq h 0x12 9 3
      | some a =>
        let dead := x.underCancel a.level 5
        match x.freeAreaOf a.vf lr with
        | none => s.trapSq h 0x13 7 0
        | some area => match s.freeLevel h.d with
          | none => s.trapSq h 0x13 6 0
          | some i => match if a.resv = 0 ∧ x.commonFree = 0 then none else s.freeFut h.d with
            | none => s.trapSq h 0x13 1 0
            | some f => match freeSlot (dropSlots hs ss) with
              | none => s.trapSq h 0x13 2 0
              | some slot =>
                if dead then s.spawnDead h nw dst f w.launch ss slot else s.spawnUnit h nw dst w.launch a lr i f area ss slot

/-- R199, creates one unit from the launch record at A. -/
def execSpawn (nw : Bool) (dst : BitVec 6) (a b : BitVec 7) (s : State) : Out :=
  onSq s (fun h => s.withAB h a b (fun x y =>
    match s.nearRead h 0 none x.toNat 256 with
    | .error f => s.faultSq h f
    | .ok (bs, t) =>
      match parseLaunch x.toNat bs with
      | none => s.trapSq h 0x12 9 3
      | some lr => t.spawn h nw dst.toNat lr y))

/-! ## Hanks (R202, R203) -/

/-- R203, waits for a matching retained copy and takes a hold on it. -/
def execHawait (a b : BitVec 7) (s : State) : Out :=
  onSq s (fun h => s.atWait h (fun s => s.withAB h a b (fun x y => s.issueWait h (.hank x y))))

/-- R203, ends one hold on the oldest matching copy the ply holds. -/
def execHarel (a b : BitVec 7) (s : State) : Out :=
  onSq s (fun h => s.withAB h a b (fun x y =>
    (s.mapDie h.d (fun d => match d.oldestHeld (s.ply h).unit x y with
      | none => d
      | some c => { d with holds := endOne d.holds (s.ply h).unit c.serial })).retire h))

/-! ## Engine rings (R204, R205) -/

/-- The words of a command from an address up to its GO, at most `n` (R152). -/
def State.commandAt (s : State) (h : Here) (va n : Nat) : Except (Nat × Nat × Nat) (List Nat × State) :=
  match n with
  | 0 => .ok ([], s)
  | n + 1 =>
    match s.nearRead h 0 none va 4 with
    | .error f => .error f
    | .ok (bs, t) =>
      if isGo (leNat bs) then .ok ([leNat bs], t)
      else match t.commandAt h ((va + 4) % 2 ^ 64) n with
        | .error f => .error f
        | .ok (ws, t) => .ok (leNat bs :: ws, t)

/-- `n` words from an address. -/
def State.wordsAt (s : State) (h : Here) (va n : Nat) : Except (Nat × Nat × Nat) (List Nat × State) :=
  match n with
  | 0 => .ok ([], s)
  | n + 1 =>
    match s.nearRead h 0 none va 4 with
    | .error f => .error f
    | .ok (bs, s) =>
      match s.wordsAt h ((va + 4) % 2 ^ 64) n with
      | .error f => .error f
      | .ok (t, s) => .ok (leNat bs :: t, s)

/-- The next entry for a ring. A zero word where an entry begins is an entry of one word; within a command or a literal it is a
word like any other (R152, R204, log 32). -/
def State.entryAt (s : State) (h : Here) (r : Ring) (va : Nat) : Except (Nat × Nat × Nat) (List Nat × State) :=
  match s.wordsAt h va 1 with
  | .error f => .error f
  | .ok (ws, t) =>
    if (r = .mx ∨ r = .tr) ∧ ws ≠ [0] then s.commandAt h va 32
    else
      let n := if r = .mx ∨ r = .tr then 0 else vecLits (ws.headD 0)
      if n = 0 then .ok (ws, t)
      else match t.wordsAt h ((va + 4) % 2 ^ 64) n with
        | .error f => .error f
        | .ok (ls, t) => .ok (ws ++ ls, t)

/-- The address after `k` entries; the entries already appended are passed over without a new append (R204). -/
def State.skipEntries (s : State) (h : Here) (r : Ring) (va k : Nat) : Except (Nat × Nat × Nat) Nat :=
  match k with
  | 0 => .ok va
  | k + 1 =>
    match s.entryAt h r va with
    | .error f => .error f
    | .ok (ws, _) => s.skipEntries h r ((va + 4 * ws.length) % 2 ^ 64) k

/-- Appends `n` more entries from an address; a full ring stalls, and a translation fault halts at the enq, with the
entries before it appended (R204). -/
def State.enqMore (s : State) (h : Here) (r : Ring) (va n : Nat) : State :=
  match n with
  | 0 => (s.mapRegs h (fun g => { g with enqDone := 0 })).retire h
  | n + 1 =>
    match s.entryAt h r va with
    | .error f => s.faultSq h f
    | .ok (ws, t) =>
      if !(((s.ply h).ring r).room ws.length) then s.stallSq h
      else ((t.append h r ws false).mapRegs h (fun g => { g with enqDone := g.enqDone + 1 })).enqMore h r ((va + 4 * ws.length) % 2 ^ 64) n

/-- R204, appends B entries from A to a ring. -/
def execEnq (a b : BitVec 7) (ring : BitVec 3) (s : State) : Out :=
  onSq s (fun h => s.withAB h a b (fun x y =>
    if x.toNat % 4 ≠ 0 then s.trapSq h 0x12 5 3
    else if 65535 < y.toNat then s.trapSq h 0x12 7 4
    else match ringOfCode ring.toNat with
      | none => s.retire h
      | some r =>
        let k := (s.regs h).enqDone.toNat
        match s.skipEntries h r x.toNat k with
        | .error f => s.faultSq h f
        | .ok va => s.enqMore h r va (y.toNat - k)))

/-- R205, sets the slip depth. -/
def execQdep (imm : BitVec 9) (s : State) : Out :=
  onSq s (fun h => (s.mapRegs h (fun r => { r with slip := imm })).retire h)

/-! ## The loop unit (R208) and publish (R210) -/

/-- R208, starts a loop. -/
def execLbeg (a b : BitVec 7) (s : State) : Out :=
  onSq s (fun h => s.withAB h a b (fun x y =>
    let p := s.ply h
    let t : Int := p.pco + 4 * y.toInt
    if p.regs.loop.active then s.trapSq h 0x12 10 0
    else if 2 ^ 32 ≤ x.toNat then s.trapSq h 0x12 7 3
    else if !p.validCode t then s.trapSq h 0x12 6 4
    else s.setPly h ({ p with regs := { p.regs with loop := { p.regs.loop with
        trip := x.setWidth 32, done := 0, body := BitVec.ofNat 20 (p.pco + 4), epi := BitVec.ofNat 20 t.toNat,
        active := decide (x ≠ 0) } } }.setPco (if x = 0 then t.toNat else p.pco + 4))))

/-- R208, counts an iteration and loops, or leaves for the epilogue. -/
def execLnext (s : State) : Out :=
  onSq s (fun h =>
    let p := s.ply h
    let l := p.regs.loop
    if !l.active then s.trapSq h 0x12 10 0
    else
      let again := decide ((l.done + 1).toNat < l.trip.toNat) && !l.stop
      s.setPly h ({ p with regs := { p.regs with loop := { l with done := l.done + 1, active := again } } }.setPco
        (if again then l.body.toNat else l.epi.toNat)))

/-- R208, the iterations completed. -/
def execLcnt (nw : Bool) (dst : BitVec 6) (s : State) : Out :=
  onSq s (fun h => s.result h nw dst.toNat ((s.regs h).loop.done.zeroExtend 64))

/-- R210, publishes a buffer-map entry; the result is its status. -/
def execFlip (nw : Bool) (dst : BitVec 6) (entry : BitVec 10) (s : State) : Out :=
  onSq s (fun h =>
    let r := (s.die h.d).publish entry.toNat
    (s.setDie h.d r.1).result h nw dst.toNat (BitVec.ofNat 64 r.2))

end Sys2Proof.Machine
end

