-- ==== Sys2Proof/Machine/VecArith.lean ====
section
/-! DEFINITION. Vector arithmetic: element-wise integer and floating forms, the single-operand group, compares, select,
reductions, index registers, shape and format words, copy, and the words of every vector ring (R213 to R228). -/

namespace Sys2Proof.Machine

open Sys2Proof

/-! ## Integer element-wise (R218) -/

/-- The two's-complement low bits of an integer, with no flag. -/
def wrapTo (n : Nat) (x : Int) : Nat × W32 := (uNat x n, 0)

/-- A saturated element and its flag (R135, R218). -/
def satElem (n : Nat) (x : Int) : Nat × W32 :=
  let r := satTo x (-(2 ^ (n - 1) : Nat)) ((2 ^ (n - 1) : Nat) - 1)
  (uNat r.1 n, r.2)

/-- R218, x + y. -/
def execVadd (d a b : BitVec 8) (push pop : Bool) (s : State) : Out :=
  onVec s (fun h r => s.vecInt h r d a b push pop (fun n x y => wrapTo n (sInt x n + sInt y n)))

/-- R218, x − y. -/
def execVsub (d a b : BitVec 8) (push pop : Bool) (s : State) : Out :=
  onVec s (fun h r => s.vecInt h r d a b push pop (fun n x y => wrapTo n (sInt x n - sInt y n)))

/-- R218, the low product. -/
def execVmul (d a b : BitVec 8) (push pop : Bool) (s : State) : Out :=
  onVec s (fun h r => s.vecInt h r d a b push pop (fun n x y => wrapTo n (sInt x n * sInt y n)))

/-- R218, the high signed product. -/
def execVmulh (d a b : BitVec 8) (push pop : Bool) (s : State) : Out :=
  onVec s (fun h r => s.vecInt h r d a b push pop (fun n x y => wrapTo n (sInt x n * sInt y n / (2 ^ n : Nat))))

/-- R218, AND. -/
def execVand (d a b : BitVec 8) (push pop : Bool) (s : State) : Out :=
  onVec s (fun h r => s.vecInt h r d a b push pop (fun n x y => (x &&& y, 0)))

/-- R218, OR. -/
def execVor (d a b : BitVec 8) (push pop : Bool) (s : State) : Out :=
  onVec s (fun h r => s.vecInt h r d a b push pop (fun n x y => (x ||| y, 0)))

/-- R218, XOR. -/
def execVxor (d a b : BitVec 8) (push pop : Bool) (s : State) : Out :=
  onVec s (fun h r => s.vecInt h r d a b push pop (fun n x y => (x ^^^ y, 0)))

/-- R218, ux shifted left by uy mod n. -/
def execVshl (d a b : BitVec 8) (push pop : Bool) (s : State) : Out :=
  onVec s (fun h r => s.vecInt h r d a b push pop (fun n x y => wrapTo n ((x * 2 ^ (y % n) : Nat) : Int)))

/-- R218, ux shifted right. -/
def execVshr (d a b : BitVec 8) (push pop : Bool) (s : State) : Out :=
  onVec s (fun h r => s.vecInt h r d a b push pop (fun n x y => (x / 2 ^ (y % n), 0)))

/-- R218, x shifted right. -/
def execVsar (d a b : BitVec 8) (push pop : Bool) (s : State) : Out :=
  onVec s (fun h r => s.vecInt h r d a b push pop (fun n x y => wrapTo n (sInt x n / (2 ^ (y % n) : Nat))))

/-- R218, the smaller, signed. -/
def execVmin (d a b : BitVec 8) (push pop : Bool) (s : State) : Out :=
  onVec s (fun h r => s.vecInt h r d a b push pop (fun n x y => (if sInt x n ≤ sInt y n then x else y, 0)))

/-- R218, the larger, signed. -/
def execVmax (d a b : BitVec 8) (push pop : Bool) (s : State) : Out :=
  onVec s (fun h r => s.vecInt h r d a b push pop (fun n x y => (if sInt x n ≤ sInt y n then y else x, 0)))

/-- R218, the smaller, unsigned. -/
def execVminu (d a b : BitVec 8) (push pop : Bool) (s : State) : Out :=
  onVec s (fun h r => s.vecInt h r d a b push pop (fun n x y => (min x y, 0)))

/-- R218, the larger, unsigned. -/
def execVmaxu (d a b : BitVec 8) (push pop : Bool) (s : State) : Out :=
  onVec s (fun h r => s.vecInt h r d a b push pop (fun n x y => (max x y, 0)))

/-- R218, x + y saturated. -/
def execVadds (d a b : BitVec 8) (push pop : Bool) (s : State) : Out :=
  onVec s (fun h r => s.vecInt h r d a b push pop (fun n x y => satElem n (sInt x n + sInt y n)))

/-- R218, x − y saturated. -/
def execVsubs (d a b : BitVec 8) (push pop : Bool) (s : State) : Out :=
  onVec s (fun h r => s.vecInt h r d a b push pop (fun n x y => satElem n (sInt x n - sInt y n)))

/-! ## Floating-point element-wise (R219) -/

/-- R219, x + y. -/
def execVfadd (d a b : BitVec 8) (push pop : Bool) (s : State) : Out :=
  onVec s (fun h r => s.vecFloat h r d a (some b) false push pop (fun x y _ => x.add y))

/-- R219, x − y. -/
def execVfsub (d a b : BitVec 8) (push pop : Bool) (s : State) : Out :=
  onVec s (fun h r => s.vecFloat h r d a (some b) false push pop (fun x y _ => x.sub y))

/-- R219, x × y. -/
def execVfmul (d a b : BitVec 8) (push pop : Bool) (s : State) : Out :=
  onVec s (fun h r => s.vecFloat h r d a (some b) false push pop (fun x y _ => x.mul y))

/-- R219, x × y + z, with z from `d`. -/
def execVfma (d a b : BitVec 8) (push pop : Bool) (s : State) : Out :=
  onVec s (fun h r => s.vecFloat h r d a (some b) true push pop (fun x y z => x.fma y z))

/-- R219, the lesser. -/
def execVfmin (d a b : BitVec 8) (push pop : Bool) (s : State) : Out :=
  onVec s (fun h r => s.vecFloat h r d a (some b) false push pop (fun x y _ => (x.min y, 0)))

/-- R219, the greater. -/
def execVfmax (d a b : BitVec 8) (push pop : Bool) (s : State) : Out :=
  onVec s (fun h r => s.vecFloat h r d a (some b) false push pop (fun x y _ => (x.max y, 0)))

/-! ## The single-operand group (R221, R222) -/

/-- R221, −x. -/
def execVfneg (d a : BitVec 8) (push pop : Bool) (s : State) : Out :=
  onVec s (fun h r => s.vecFloat h r d a none false push pop (fun x _ _ => (x.negate, 0)))

/-- R221, |x|. -/
def execVfabs (d a : BitVec 8) (push pop : Bool) (s : State) : Out :=
  onVec s (fun h r => s.vecFloat h r d a none false push pop (fun x _ _ => (x.abs, 0)))

/-- R221, 2^x by R139. -/
def execVexp2 (d a : BitVec 8) (push pop : Bool) (s : State) : Out :=
  onVec s (fun h r => s.vecSpecial h r d a push pop exp2Num)

/-- R221, 1 / x by R140. -/
def execVrcp (d a : BitVec 8) (push pop : Bool) (s : State) : Out :=
  onVec s (fun h r => s.vecSpecial h r d a push pop rcpNum)

/-- R221, 1 / √x by R140. -/
def execVrsqrt (d a : BitVec 8) (push pop : Bool) (s : State) : Out :=
  onVec s (fun h r => s.vecSpecial h r d a push pop rsqrtNum)

/-- The records of vcvt (R222): the source tile in sf's container must not exceed 4,096 bytes, and df's container equals
the element size. -/
def cvtRecs (e : Entry) : List VRec :=
  let sf := fmtOf e.fmt.src
  let fits := vrecOf e.fmt.src e.fmt.srcIx none false
  let big := decide (32768 < e.shape.elems * sf.cbits)
  let bad := (recordReason e.fmt.src).isNone && big
  [if bad then { fits with reason := some 8 } else fits, vrecOf e.fmt.dst e.fmt.dstIx (some e.shape.bits) false]

/-- R222, converts elements from sf's container to the shape's. -/
def execVcvt (d a : BitVec 8) (push pop : Bool) (s : State) : Out :=
  onVec s (fun h r =>
    s.issueVec h r [fieldD d false, fieldA a] 0 [] (cvtRecs ((s.ply h).headE r)) pop (fun s e =>
      let sf := fmtOf e.fmt.src
      let df := fmtOf e.fmt.dst
      let rs := (readTile (s.vsrc h a) sf.cbits e.shape.elems).map (fun x => roundNE (sf.decode x) df)
      let s := s.vaResult h e.tag d (fun v => writeTile v e.shape.bits 0 (rs.map Prod.fst))
      (s.note h r (rs.foldl (fun m x => m ||| x.2) 0)).finishVec h r push none))

/-! ## Compares and select (R223, R224) -/

/-- R223, the mask of x = y, signed. -/
def execVcmpeq (d a b : BitVec 8) (push pop : Bool) (s : State) : Out :=
  onVec s (fun h r => s.vecCmpInt h r d a b push pop (fun x y => decide (x = y)))

/-- R223, the mask of x < y, signed. -/
def execVcmplt (d a b : BitVec 8) (push pop : Bool) (s : State) : Out :=
  onVec s (fun h r => s.vecCmpInt h r d a b push pop (fun x y => decide (x < y)))

/-- R223, the mask of x ≤ y, signed. -/
def execVcmple (d a b : BitVec 8) (push pop : Bool) (s : State) : Out :=
  onVec s (fun h r => s.vecCmpInt h r d a b push pop (fun x y => decide (x ≤ y)))

/-- R223, the mask of x = y, as values. -/
def execVfcmpeq (d a b : BitVec 8) (push pop : Bool) (s : State) : Out :=
  onVec s (fun h r => s.vecCmpFloat h r d a b push pop (fun x y => x.eq y))

/-- R223, the mask of x < y, as values. -/
def execVfcmplt (d a b : BitVec 8) (push pop : Bool) (s : State) : Out :=
  onVec s (fun h r => s.vecCmpFloat h r d a b push pop (fun x y => x.lt false y))

/-- R223, the mask of x ≤ y, as values. -/
def execVfcmple (d a b : BitVec 8) (push pop : Bool) (s : State) : Out :=
  onVec s (fun h r => s.vecCmpFloat h r d a b push pop (fun x y => x.lt false y || x.eq y))

/-- R224, selects a or b by the mask in `d`. -/
def execVsel (d a b : BitVec 8) (push pop : Bool) (s : State) : Out :=
  onVec s (fun h r =>
    s.issueVec h r [fieldD d true, fieldA a, fieldB b] 0 [] [] pop (fun s e =>
      let n := e.shape.bits
      let t := e.shape.elems
      let m := readTile (s.vsrc h d) n t
      let xs := (readTile (s.vsrc h a) n t).zip (readTile (s.vsrc h b) n t)
      let rs := (m.zip xs).map (fun x => if x.1 ≠ 0 then x.2.1 else x.2.2)
      (s.vaResult h e.tag d (fun v => writeTile v n 0 rs)).finishVec h r push none))

/-! ## Reductions (R225) -/

/-- R225, the wrapping integer sum of each row or column. -/
def execVrsum (col : Bool) (d a : BitVec 8) (push pop : Bool) (s : State) : Out :=
  onVec s (fun h r => s.vecRedInt h r col d a push pop (fun xs => xs.foldl (· + ·) 0))

/-- R225, the greatest signed element of each row or column. -/
def execVrmax (col : Bool) (d a : BitVec 8) (push pop : Bool) (s : State) : Out :=
  onVec s (fun h r => s.vecRedInt h r col d a push pop (fun xs => xs.foldl (fun m x => if m < x then x else m) (xs.headD 0)))

/-- R225, the exact sum of each row or column, rounded once. -/
def execVrfsum (col : Bool) (d a : BitVec 8) (push pop : Bool) (s : State) : Out :=
  onVec s (fun h r => s.vecRedFloat h r col d a push pop sumNums)

/-- R225, the greatest value of each row or column. -/
def execVrfmax (col : Bool) (d a : BitVec 8) (push pop : Bool) (s : State) : Out :=
  onVec s (fun h r => s.vecRedFloat h r col d a push pop (fun xs => (xs.foldl ExNum.max (xs.headD .nan), 0)))

/-! ## Index registers (R226) -/

/-- VA writes an index register; no other agent sees it yet (R93). -/
def Ply.setIx (p : Ply) (n : Nat) (x : Byte) : Ply :=
  { p with regs := { p.regs with ix := mset 0 p.regs.ix n x }, knows := mput p.knows 2 ⟨(p.know 2).ver + 1, []⟩ }

/-- R226, sets an index register to an immediate. -/
def execVixset (ix : BitVec 2) (a : BitVec 8) (push pop : Bool) (s : State) : Out :=
  onVec s (fun h r =>
    s.issueVec h r [] 0 [] [] pop (fun s _ => (s.mapPly h (fun p => p.setIx ix.toNat a)).finishVec h r push none))

/-- R226, adds an immediate to an index register. -/
def execVixadd (ix : BitVec 2) (a : BitVec 8) (push pop : Bool) (s : State) : Out :=
  onVec s (fun h r =>
    s.issueVec h r [] 0 [] [] pop (fun s _ =>
      (s.mapPly h (fun p => p.setIx ix.toNat (mget 0 p.regs.ix ix.toNat + a))).finishVec h r push none))

/-- R226, sets an index register from element 0 of a register. -/
def execVixget (ix : BitVec 2) (a : BitVec 8) (push pop : Bool) (s : State) : Out :=
  onVec s (fun h r =>
    s.issueVec h r [fieldA a] 0 [] [] pop (fun s e =>
      let x := uNat (sInt (elemAt (s.vsrc h a) e.shape.bits 0) e.shape.bits) 8
      (s.mapPly h (fun p => p.setIx ix.toNat (BitVec.ofNat 8 x))).finishVec h r push none))

/-! ## Shape, formats, copy (R213, R214, R227) -/

/-- R213, checks the shape it carries; the fields took effect when it was appended (R212). -/
def execVsh (_esz : BitVec 2) (_rowsM1 : BitVec 6) (_colsM1 : BitVec 13) (push pop : Bool) (s : State) : Out :=
  onVec s (fun h r => s.issueVec h r [] 2 [] [] pop (fun s _ => s.finishVec h r push none))

/-- R214, does nothing at issue; the records were copied when it was appended (R212). -/
def execVfmt (_df _sf : BitVec 4) (push pop : Bool) (s : State) : Out :=
  onVec s (fun h r => s.issueVec h r [] 0 [] [] pop (fun s _ => s.finishVec h r push none))

/-- R227, copies a tile. -/
def execVmov (d a : BitVec 8) (push pop : Bool) (s : State) : Out :=
  onVec s (fun h r =>
    s.issueVec h r [fieldD d false, fieldA a] 0 [] [] pop (fun s e =>
      let xs := readTile (s.vsrc h a) e.shape.bits e.shape.elems
      (s.vaResult h e.tag d (fun v => writeTile v e.shape.bits 0 xs)).finishVec h r push none))

/-! ## The words of every vector ring (R228) and retirement (R40) -/

/-- R228, only its token pop and push. -/
def execVnop (push pop : Bool) (s : State) : Out :=
  onVec s (fun h r => s.issueVec h r [] 0 [] [] pop (fun s _ => s.finishVec h r push none))

/-- R228, after its pop, issues only when the flag has reached the threshold. -/
def execVfwait (sub : Bool) (flag : BitVec 6) (thr : BitVec 8) (push pop : Bool) (s : State) : Out :=
  onVec s (fun h r =>
    s.issueVec h r [] 0 [] [] pop (fun s _ =>
      match (s.ply h).entryWait r flag.toNat thr.toNat sub with
      | some p => (s.setPly h p).finishVec h r push none
      | none => s.mapPly h (fun p => p.standWait r flag.toNat thr.toNat sub)))

/-- R228, raises a flag at its retirement, after every earlier entry of its ring. -/
def execVfraise (flag : BitVec 6) (push pop : Bool) (s : State) : Out :=
  onVec s (fun h r => s.issueVec h r [] 0 [] [] pop (fun s _ => s.finishVec h r push (some flag.toNat)))

/-- The retirement of a performed entry: its push to the fixed partner, its flag, and the read pointer passes it. An
entry whose push finds 16 tokens does not retire (R40). -/
def Ply.retireVec (p : Ply) (r : Ring) : Ply :=
  match (p.ring r).done with
  | none => p
  | some (push, raise) =>
    let b := ringPushTo r
    if push && decide (16 ≤ p.tok r.code b) then p
    else
      let p := if push then (p.pushTok r.code b 1).passFlags r.code b else p
      let p := match raise with
        | none => p
        | some f => (p.raiseBy r.code f 1).showFlags r.code
      p.popEntry r

/-- R40, a vector entry retires. -/
def execVectorEntryRetire (die core slot : Nat) (ring : Ring) (s : State) : Out :=
  let h : Here := ⟨die, core, slot⟩
  .next (if ringIsVec ring && (s.ply h).ringGoes ring then s.mapPly h (fun p => p.retireVec ring) else s)

end Sys2Proof.Machine
end

