-- ==== Sys2Proof/Machine/Dispatch.lean ====
section
/-! DEFINITION. The meaning of every instruction and event: one arm per constructor. -/

namespace Sys2Proof.Machine

open Sys2Proof

def exec (i : Instr) (s : State) : Host.Outcome State Fault Refusal :=
  match i with
  | .add nw dst a b => Sys2Proof.Machine.execAdd nw dst a b s
  | .sub nw dst a b => Sys2Proof.Machine.execSub nw dst a b s
  | .and nw dst a b => Sys2Proof.Machine.execAnd nw dst a b s
  | .or nw dst a b => Sys2Proof.Machine.execOr nw dst a b s
  | .xor nw dst a b => Sys2Proof.Machine.execXor nw dst a b s
  | .andn nw dst a b => Sys2Proof.Machine.execAndn nw dst a b s
  | .shl nw dst a b => Sys2Proof.Machine.execShl nw dst a b s
  | .shr nw dst a b => Sys2Proof.Machine.execShr nw dst a b s
  | .sar nw dst a b => Sys2Proof.Machine.execSar nw dst a b s
  | .rol nw dst a b => Sys2Proof.Machine.execRol nw dst a b s
  | .mul nw dst a b => Sys2Proof.Machine.execMul nw dst a b s
  | .mulh nw dst a b => Sys2Proof.Machine.execMulh nw dst a b s
  | .mulhu nw dst a b => Sys2Proof.Machine.execMulhu nw dst a b s
  | .div nw dst a b => Sys2Proof.Machine.execDiv nw dst a b s
  | .divu nw dst a b => Sys2Proof.Machine.execDivu nw dst a b s
  | .rem nw dst a b => Sys2Proof.Machine.execRem nw dst a b s
  | .remu nw dst a b => Sys2Proof.Machine.execRemu nw dst a b s
  | .min nw dst a b => Sys2Proof.Machine.execMin nw dst a b s
  | .max nw dst a b => Sys2Proof.Machine.execMax nw dst a b s
  | .minu nw dst a b => Sys2Proof.Machine.execMinu nw dst a b s
  | .maxu nw dst a b => Sys2Proof.Machine.execMaxu nw dst a b s
  | .clz nw dst a => Sys2Proof.Machine.execClz nw dst a s
  | .ctz nw dst a => Sys2Proof.Machine.execCtz nw dst a s
  | .popc nw dst a => Sys2Proof.Machine.execPopc nw dst a s
  | .adds nw dst a b => Sys2Proof.Machine.execAdds nw dst a b s
  | .subs nw dst a b => Sys2Proof.Machine.execSubs nw dst a b s
  | .seq nw dst a b => Sys2Proof.Machine.execSeq nw dst a b s
  | .sne nw dst a b => Sys2Proof.Machine.execSne nw dst a b s
  | .slt nw dst a b => Sys2Proof.Machine.execSlt nw dst a b s
  | .sltu nw dst a b => Sys2Proof.Machine.execSltu nw dst a b s
  | .sge nw dst a b => Sys2Proof.Machine.execSge nw dst a b s
  | .sgeu nw dst a b => Sys2Proof.Machine.execSgeu nw dst a b s
  | .sli nw dst a imm => Sys2Proof.Machine.execSli nw dst a imm s
  | .addi nw dst a imm => Sys2Proof.Machine.execAddi nw dst a imm s
  | .andi nw dst a imm => Sys2Proof.Machine.execAndi nw dst a imm s
  | .ori nw dst a imm => Sys2Proof.Machine.execOri nw dst a imm s
  | .xori nw dst a imm => Sys2Proof.Machine.execXori nw dst a imm s
  | .shli nw dst a sh => Sys2Proof.Machine.execShli nw dst a sh s
  | .shri nw dst a sh => Sys2Proof.Machine.execShri nw dst a sh s
  | .sari nw dst a sh => Sys2Proof.Machine.execSari nw dst a sh s
  | .slti nw dst a imm => Sys2Proof.Machine.execSlti nw dst a imm s
  | .sltiu nw dst a imm => Sys2Proof.Machine.execSltiu nw dst a imm s
  | .beqz a imm => Sys2Proof.Machine.execBeqz a imm s
  | .bnez a imm => Sys2Proof.Machine.execBnez a imm s
  | .bltz a imm => Sys2Proof.Machine.execBltz a imm s
  | .bgez a imm => Sys2Proof.Machine.execBgez a imm s
  | .bgtz a imm => Sys2Proof.Machine.execBgtz a imm s
  | .blez a imm => Sys2Proof.Machine.execBlez a imm s
  | .bra imm => Sys2Proof.Machine.execBra imm s
  | .jal nw dst off => Sys2Proof.Machine.execJal nw dst off s
  | .jalr nw dst a imm => Sys2Proof.Machine.execJalr nw dst a imm s
  | .ldb nw dst a imm => Sys2Proof.Machine.execLdb nw dst a imm s
  | .ldh nw dst a imm => Sys2Proof.Machine.execLdh nw dst a imm s
  | .ldw nw dst a imm => Sys2Proof.Machine.execLdw nw dst a imm s
  | .ldd nw dst a imm => Sys2Proof.Machine.execLdd nw dst a imm s
  | .ldbs nw dst a imm => Sys2Proof.Machine.execLdbs nw dst a imm s
  | .ldhs nw dst a imm => Sys2Proof.Machine.execLdhs nw dst a imm s
  | .ldws nw dst a imm => Sys2Proof.Machine.execLdws nw dst a imm s
  | .sb dst a imm => Sys2Proof.Machine.execSb dst a imm s
  | .sh dst a imm => Sys2Proof.Machine.execSh dst a imm s
  | .sw dst a imm => Sys2Proof.Machine.execSw dst a imm s
  | .sd dst a imm => Sys2Proof.Machine.execSd dst a imm s
  | .ldo nw dst a acq rel scope => Sys2Proof.Machine.execLdo nw dst a acq rel scope s
  | .ldow nw dst a acq rel scope => Sys2Proof.Machine.execLdow nw dst a acq rel scope s
  | .sto a b acq rel scope => Sys2Proof.Machine.execSto a b acq rel scope s
  | .stow a b acq rel scope => Sys2Proof.Machine.execStow a b acq rel scope s
  | .aadd nw dst a b acq rel scope => Sys2Proof.Machine.execAadd nw dst a b acq rel scope s
  | .aand nw dst a b acq rel scope => Sys2Proof.Machine.execAand nw dst a b acq rel scope s
  | .aor nw dst a b acq rel scope => Sys2Proof.Machine.execAor nw dst a b acq rel scope s
  | .axor nw dst a b acq rel scope => Sys2Proof.Machine.execAxor nw dst a b acq rel scope s
  | .amin nw dst a b acq rel scope => Sys2Proof.Machine.execAmin nw dst a b acq rel scope s
  | .amax nw dst a b acq rel scope => Sys2Proof.Machine.execAmax nw dst a b acq rel scope s
  | .aswap nw dst a b acq rel scope => Sys2Proof.Machine.execAswap nw dst a b acq rel scope s
  | .acas nw dst a b acq rel scope => Sys2Proof.Machine.execAcas nw dst a b acq rel scope s
  | .srd nw dst imm => Sys2Proof.Machine.execSrd nw dst imm s
  | .swr a imm => Sys2Proof.Machine.execSwr a imm s
  | .trap imm => Sys2Proof.Machine.execTrap imm s
  | .nop => Sys2Proof.Machine.execNop s
  | .fence drain scope => Sys2Proof.Machine.execFence drain scope s
  | .yield => Sys2Proof.Machine.execYield s
  | .endUnit => Sys2Proof.Machine.execEndUnit s
  | .fraise flag imm => Sys2Proof.Machine.execFraise flag imm s
  | .fwait flag a sub imm => Sys2Proof.Machine.execFwait flag a sub imm s
  | .tokPush cnt ring => Sys2Proof.Machine.execTokPush cnt ring s
  | .tokPop ring => Sys2Proof.Machine.execTokPop ring s
  | .barr bar => Sys2Proof.Machine.execBarr bar s
  | .bwait a bar => Sys2Proof.Machine.execBwait a bar s
  | .mwait a b cond => Sys2Proof.Machine.execMwait a b cond s
  | .stage a imm => Sys2Proof.Machine.execStage a imm s
  | .spawn nw dst a b => Sys2Proof.Machine.execSpawn nw dst a b s
  | .ref a => Sys2Proof.Machine.execRef a s
  | .drop a => Sys2Proof.Machine.execDrop a s
  | .get nw dst a => Sys2Proof.Machine.execGet nw dst a s
  | .getc nw dst a => Sys2Proof.Machine.execGetc nw dst a s
  | .put a b => Sys2Proof.Machine.execPut a b s
  | .puti a b => Sys2Proof.Machine.execPuti a b s
  | .pin => Sys2Proof.Machine.execPin s
  | .unpin => Sys2Proof.Machine.execUnpin s
  | .rcp => Sys2Proof.Machine.execRcp s
  | .fins nw dst a => Sys2Proof.Machine.execFins nw dst a s
  | .cancel nw dst a => Sys2Proof.Machine.execCancel nw dst a s
  | .hawait a b => Sys2Proof.Machine.execHawait a b s
  | .harel a b => Sys2Proof.Machine.execHarel a b s
  | .enq a b ring => Sys2Proof.Machine.execEnq a b ring s
  | .qdep imm => Sys2Proof.Machine.execQdep imm s
  | .lbeg a b => Sys2Proof.Machine.execLbeg a b s
  | .lnext => Sys2Proof.Machine.execLnext s
  | .lcnt nw dst => Sys2Proof.Machine.execLcnt nw dst s
  | .flip nw dst entry => Sys2Proof.Machine.execFlip nw dst entry s
  | .vad ad lit1 lit2 lit3 push pop => Sys2Proof.Machine.execVad ad lit1 lit2 lit3 push pop s
  | .vld d mode inc ad push pop => Sys2Proof.Machine.execVld d mode inc ad push pop s
  | .vldg d ad b push pop => Sys2Proof.Machine.execVldg d ad b push pop s
  | .vldb d mode inc ad push pop => Sys2Proof.Machine.execVldb d mode inc ad push pop s
  | .vadd d a b push pop => Sys2Proof.Machine.execVadd d a b push pop s
  | .vsub d a b push pop => Sys2Proof.Machine.execVsub d a b push pop s
  | .vmul d a b push pop => Sys2Proof.Machine.execVmul d a b push pop s
  | .vmulh d a b push pop => Sys2Proof.Machine.execVmulh d a b push pop s
  | .vand d a b push pop => Sys2Proof.Machine.execVand d a b push pop s
  | .vor d a b push pop => Sys2Proof.Machine.execVor d a b push pop s
  | .vxor d a b push pop => Sys2Proof.Machine.execVxor d a b push pop s
  | .vshl d a b push pop => Sys2Proof.Machine.execVshl d a b push pop s
  | .vshr d a b push pop => Sys2Proof.Machine.execVshr d a b push pop s
  | .vsar d a b push pop => Sys2Proof.Machine.execVsar d a b push pop s
  | .vmin d a b push pop => Sys2Proof.Machine.execVmin d a b push pop s
  | .vmax d a b push pop => Sys2Proof.Machine.execVmax d a b push pop s
  | .vminu d a b push pop => Sys2Proof.Machine.execVminu d a b push pop s
  | .vmaxu d a b push pop => Sys2Proof.Machine.execVmaxu d a b push pop s
  | .vadds d a b push pop => Sys2Proof.Machine.execVadds d a b push pop s
  | .vsubs d a b push pop => Sys2Proof.Machine.execVsubs d a b push pop s
  | .vfadd d a b push pop => Sys2Proof.Machine.execVfadd d a b push pop s
  | .vfsub d a b push pop => Sys2Proof.Machine.execVfsub d a b push pop s
  | .vfmul d a b push pop => Sys2Proof.Machine.execVfmul d a b push pop s
  | .vfma d a b push pop => Sys2Proof.Machine.execVfma d a b push pop s
  | .vfmin d a b push pop => Sys2Proof.Machine.execVfmin d a b push pop s
  | .vfmax d a b push pop => Sys2Proof.Machine.execVfmax d a b push pop s
  | .vfneg d a push pop => Sys2Proof.Machine.execVfneg d a push pop s
  | .vfabs d a push pop => Sys2Proof.Machine.execVfabs d a push pop s
  | .vexp2 d a push pop => Sys2Proof.Machine.execVexp2 d a push pop s
  | .vrcp d a push pop => Sys2Proof.Machine.execVrcp d a push pop s
  | .vrsqrt d a push pop => Sys2Proof.Machine.execVrsqrt d a push pop s
  | .vcvt d a push pop => Sys2Proof.Machine.execVcvt d a push pop s
  | .vcmpeq d a b push pop => Sys2Proof.Machine.execVcmpeq d a b push pop s
  | .vcmplt d a b push pop => Sys2Proof.Machine.execVcmplt d a b push pop s
  | .vcmple d a b push pop => Sys2Proof.Machine.execVcmple d a b push pop s
  | .vfcmpeq d a b push pop => Sys2Proof.Machine.execVfcmpeq d a b push pop s
  | .vfcmplt d a b push pop => Sys2Proof.Machine.execVfcmplt d a b push pop s
  | .vfcmple d a b push pop => Sys2Proof.Machine.execVfcmple d a b push pop s
  | .vsel d a b push pop => Sys2Proof.Machine.execVsel d a b push pop s
  | .vrsum col d a push pop => Sys2Proof.Machine.execVrsum col d a push pop s
  | .vrmax col d a push pop => Sys2Proof.Machine.execVrmax col d a push pop s
  | .vrfsum col d a push pop => Sys2Proof.Machine.execVrfsum col d a push pop s
  | .vrfmax col d a push pop => Sys2Proof.Machine.execVrfmax col d a push pop s
  | .vixset ix a push pop => Sys2Proof.Machine.execVixset ix a push pop s
  | .vixadd ix a push pop => Sys2Proof.Machine.execVixadd ix a push pop s
  | .vixget ix a push pop => Sys2Proof.Machine.execVixget ix a push pop s
  | .vsh esz rowsM1 colsM1 push pop => Sys2Proof.Machine.execVsh esz rowsM1 colsM1 push pop s
  | .vfmt df sf push pop => Sys2Proof.Machine.execVfmt df sf push pop s
  | .vperm d a pc push pop => Sys2Proof.Machine.execVperm d a pc push pop s
  | .vpset p a push pop => Sys2Proof.Machine.execVpset p a push pop s
  | .vquant d a b push pop => Sys2Proof.Machine.execVquant d a b push pop s
  | .vchain lit1 lit2 ops push pop => Sys2Proof.Machine.execVchain lit1 lit2 ops push pop s
  | .vmov d a push pop => Sys2Proof.Machine.execVmov d a push pop s
  | .vsad ad lit1 lit2 lit3 push pop => Sys2Proof.Machine.execVsad ad lit1 lit2 lit3 push pop s
  | .vst mode inc ad b push pop => Sys2Proof.Machine.execVst mode inc ad b push pop s
  | .vsts d ad b push pop => Sys2Proof.Machine.execVsts d ad b push pop s
  | .vnop push pop => Sys2Proof.Machine.execVnop push pop s
  | .vfwait sub flag thr push pop => Sys2Proof.Machine.execVfwait sub flag thr push pop s
  | .vfraise flag push pop => Sys2Proof.Machine.execVfraise flag push pop s
  | .mclaim slot => Sys2Proof.Machine.execMclaim slot s
  | .mrel slot => Sys2Proof.Machine.execMrel slot s
  | .mfill rowsM1 slot => Sys2Proof.Machine.execMfill rowsM1 slot s
  | .mah tgt bits => Sys2Proof.Machine.execMah tgt bits s
  | .mal tgt bits => Sys2Proof.Machine.execMal tgt bits s
  | .mlatch plane fmt slack slot => Sys2Proof.Machine.execMlatch plane fmt slack slot s
  | .mafmt fmt => Sys2Proof.Machine.execMafmt fmt s
  | .mloop lvl item val => Sys2Proof.Machine.execMloop lvl item val s
  | .mop gang accOff negB negA acc => Sys2Proof.Machine.execMop gang accOff negB negA acc s
  | .mzero acc => Sys2Proof.Machine.execMzero acc s
  | .mdrain rowsM1 fmt acc => Sys2Proof.Machine.execMdrain rowsM1 fmt acc s
  | .mfence => Sys2Proof.Machine.execMfence s
  | .mwin mode => Sys2Proof.Machine.execMwin mode s
  | .goMx wf thr sub re rf pop push => Sys2Proof.Machine.execGoMx wf thr sub re rf pop push s
  | .tah tgt bits => Sys2Proof.Machine.execTah tgt bits s
  | .tal tgt bits => Sys2Proof.Machine.execTal tgt bits s
  | .tlb tgt bits => Sys2Proof.Machine.execTlb tgt bits s
  | .tshape rowsM1 rowbytes => Sys2Proof.Machine.execTshape rowsM1 rowbytes s
  | .tstride side stride => Sys2Proof.Machine.execTstride side stride s
  | .tcopy stamp count host remote die => Sys2Proof.Machine.execTcopy stamp count host remote die s
  | .tenq notify die queue => Sys2Proof.Machine.execTenq notify die queue s
  | .tsend port => Sys2Proof.Machine.execTsend port s
  | .tcoll group => Sys2Proof.Machine.execTcoll group s
  | .tflip entry => Sys2Proof.Machine.execTflip entry s
  | .tsinv all => Sys2Proof.Machine.execTsinv all s
  | .goTr wf thr sub re rf pop push => Sys2Proof.Machine.execGoTr wf thr sub re rf pop push s
  | .mxCommandComplete die core slot => Sys2Proof.Machine.execMxCommandComplete die core slot s
  | .trCommandComplete die core slot => Sys2Proof.Machine.execTrCommandComplete die core slot s
  | .vectorEntryRetire die core slot ring => Sys2Proof.Machine.execVectorEntryRetire die core slot ring s
  | .distributorChoice die => Sys2Proof.Machine.execDistributorChoice die s
  | .unitBind die => Sys2Proof.Machine.execUnitBind die s
  | .hankStart die waited stalls => Sys2Proof.Machine.execHankStart die waited stalls s
  | .dwellTick die => Sys2Proof.Machine.execDwellTick die s
  | .beatArrival die => Sys2Proof.Machine.execBeatArrival die s
  | .linkCredit die => Sys2Proof.Machine.execLinkCredit die s
  | .dieFailure die => Sys2Proof.Machine.execDieFailure die s
  | .whorlDrained whorl => Sys2Proof.Machine.execWhorlDrained whorl s
  | .remoteFrameApply src dst => Sys2Proof.Machine.execRemoteFrameApply src dst s
  | .remoteReply src dst fseq => Sys2Proof.Machine.execRemoteReply src dst fseq s
  | .flushingRead link => Sys2Proof.Machine.execFlushingRead link s
  | .packetHop pkt malformed => Sys2Proof.Machine.execPacketHop pkt malformed s
  | .congestionEcho src dst echo => Sys2Proof.Machine.execCongestionEcho src dst echo s
  | .tenqPlace die => Sys2Proof.Machine.execTenqPlace die s
  | .collForward chunk => Sys2Proof.Machine.execCollForward chunk s
  | .collMerge node group seq chunk => Sys2Proof.Machine.execCollMerge node group seq chunk s
  | .collSum node group seq chunk => Sys2Proof.Machine.execCollSum node group seq chunk s
  | .collDeliver node group seq => Sys2Proof.Machine.execCollDeliver node group seq s
  | .collPublish node group seq => Sys2Proof.Machine.execCollPublish node group seq s
  | .collDeferredReduce die group seq chunk => Sys2Proof.Machine.execCollDeferredReduce die group seq chunk s
  | .collOrderNotice die group seq => Sys2Proof.Machine.execCollOrderNotice die group seq s
  | .tcollComplete die group seq => Sys2Proof.Machine.execTcollComplete die group seq s
  | .trapRecordWrite die core slot => Sys2Proof.Machine.execTrapRecordWrite die core slot s
  | .trespResume vf resp => Sys2Proof.Machine.execTrespResume vf resp s
  | .trespSkip vf resp => Sys2Proof.Machine.execTrespSkip vf resp s
  | .trespAbandon vf resp => Sys2Proof.Machine.execTrespAbandon vf resp s
  | .trespRefused vf resp => Sys2Proof.Machine.execTrespRefused vf resp s
  | .trapqHeadWrite vf head => Sys2Proof.Machine.execTrapqHeadWrite vf head s
  | .invalidation value => Sys2Proof.Machine.execInvalidation value s
  | .invalidationDone => Sys2Proof.Machine.execInvalidationDone s
  | .preemptRequest die core slot => Sys2Proof.Machine.execPreemptRequest die core slot s
  | .preemptEvict die core slot => Sys2Proof.Machine.execPreemptEvict die core slot s
  | .preemptWithdraw die core => Sys2Proof.Machine.execPreemptWithdraw die core s
  | .preemptCollectDone die core => Sys2Proof.Machine.execPreemptCollectDone die core s
  | .partitionReset part => Sys2Proof.Machine.execPartitionReset part s
  | .watchdogExpiry part elapsed => Sys2Proof.Machine.execWatchdogExpiry part elapsed s
  | .uncorrectableSoftError block addr => Sys2Proof.Machine.execUncorrectableSoftError block addr s
  | .carderOrLinkLoss part block => Sys2Proof.Machine.execCarderOrLinkLoss part block s
  | .hostMemWrite port die addr bytes => Sys2Proof.Machine.execHostMemWrite port die addr bytes s
  | .hostMemRead port die addr len => Sys2Proof.Machine.execHostMemRead port die addr len s
  | .cmdDoorbell vf tail => Sys2Proof.Machine.execCmdDoorbell vf tail s
  | .cmdNop vf cmd => Sys2Proof.Machine.execCmdNop vf cmd s
  | .cmdOpen vf cmd => Sys2Proof.Machine.execCmdOpen vf cmd s
  | .cmdLaunch vf cmd => Sys2Proof.Machine.execCmdLaunch vf cmd s
  | .cmdSeal vf cmd => Sys2Proof.Machine.execCmdSeal vf cmd s
  | .cmdCancel vf cmd => Sys2Proof.Machine.execCmdCancel vf cmd s
  | .whorlLoad vf cmd => Sys2Proof.Machine.execWhorlLoad vf cmd s
  | .whorlStart vf cmd => Sys2Proof.Machine.execWhorlStart vf cmd s
  | .whorlDrain vf cmd => Sys2Proof.Machine.execWhorlDrain vf cmd s
  | .whorlFree vf cmd => Sys2Proof.Machine.execWhorlFree vf cmd s
  | .whorlReconfigure vf cmd => Sys2Proof.Machine.execWhorlReconfigure vf cmd s
  | .cplHeadWrite vf head => Sys2Proof.Machine.execCplHeadWrite vf head s
  | .interruptWindowExpiry vf => Sys2Proof.Machine.execInterruptWindowExpiry vf s
  | .lqcWrite die queue value => Sys2Proof.Machine.execLqcWrite die queue value s
  | .bufferMapWrite die entry value => Sys2Proof.Machine.execBufferMapWrite die entry value s
  | .barrierParticipantsWrite die bar value => Sys2Proof.Machine.execBarrierParticipantsWrite die bar value s
  | .diepartWrite die value => Sys2Proof.Machine.execDiepartWrite die value s
  | .vfbindWrite vf value => Sys2Proof.Machine.execVfbindWrite vf value s
  | .ctxwinWrite vf value => Sys2Proof.Machine.execCtxwinWrite vf value s
  | .jbaseWrite part value => Sys2Proof.Machine.execJbaseWrite part value s
  | .groupTableWrite part group value => Sys2Proof.Machine.execGroupTableWrite part group value s
  | .egressLinkEnable link en => Sys2Proof.Machine.execEgressLinkEnable link en s
  | .egressLinkUp link peerInc peerId => Sys2Proof.Machine.execEgressLinkUp link peerInc peerId s
  | .egressLinkDown link => Sys2Proof.Machine.execEgressLinkDown link s
  | .ethSendAcked port => Sys2Proof.Machine.execEthSendAcked port s
  | .ethSendGivenUp port => Sys2Proof.Machine.execEthSendGivenUp port s
  | .ethReceiveSend port payload => Sys2Proof.Machine.execEthReceiveSend port payload s
  | .ethReceiveWrite port rkey raddr payload => Sys2Proof.Machine.execEthReceiveWrite port rkey raddr payload s
  | .powerOn failed => Sys2Proof.Machine.execPowerOn failed s
  | .firmwareUpdate => Sys2Proof.Machine.execFirmwareUpdate s
  | .firmwareUpdateDone => Sys2Proof.Machine.execFirmwareUpdateDone s
  | .svnCommit => Sys2Proof.Machine.execSvnCommit s
  | .getVersion => Sys2Proof.Machine.execGetVersion s
  | .getCapabilities => Sys2Proof.Machine.execGetCapabilities s
  | .negotiateAlgorithms algs => Sys2Proof.Machine.execNegotiateAlgorithms algs s
  | .getDigests => Sys2Proof.Machine.execGetDigests s
  | .getCertificate slot => Sys2Proof.Machine.execGetCertificate slot s
  | .challenge slot nonce => Sys2Proof.Machine.execChallenge slot nonce s
  | .getMeasurements index nonce => Sys2Proof.Machine.execGetMeasurements index nonce s
  | .keyExchange data => Sys2Proof.Machine.execKeyExchange data s
  | .finish mac => Sys2Proof.Machine.execFinish mac s
  | .keyset slot key => Sys2Proof.Machine.execKeyset slot key s
  | .powerControlPeriod block draw temp => Sys2Proof.Machine.execPowerControlPeriod block draw temp s
  | .pwrctlCapWrite block cap => Sys2Proof.Machine.execPwrctlCapWrite block cap s
  | .thermalTrip block => Sys2Proof.Machine.execThermalTrip block s
  | .bhealthClear block => Sys2Proof.Machine.execBhealthClear block s
  | .phealthLimitWrite retLimit ceLimit => Sys2Proof.Machine.execPhealthLimitWrite retLimit ceLimit s
  | .registerWrite reg index value => Sys2Proof.Machine.execRegisterWrite reg index value s
  | .engineStopAck die core slot ring => Sys2Proof.Machine.execEngineStopAck die core slot ring s
  | .correctedSoftError block => Sys2Proof.Machine.execCorrectedSoftError block s
  | .powerLoss => Sys2Proof.Machine.execPowerLoss s
  | .cxlCacheCompletion die core slot data => Sys2Proof.Machine.execCxlCacheCompletion die core slot data s
  | .egressPacketArrival link die addr bytes reply => Sys2Proof.Machine.execEgressPacketArrival link die addr bytes reply s

end Sys2Proof.Machine
end

