-- ==== Sys2Proof/Machine/Loader.lean ====
section
/-! DEFINITION. Placing one instruction where the next step fetches it: a ply on core 0 of die 0 with its rings, its
translation tables and its window, standing for the loads and the launch that bring a program there (R308, R358). -/

namespace Sys2Proof.Machine

open Sys2Proof

/-- Where the placed ply's translation tables lie: level 0, and one level-1 table whose first entry is a 1 GiB leaf that
maps die 0's store onto itself, writable (R358). -/
def loaderRoot : Nat := 0x40000000

/-- Writes those tables. -/
def loaderTables (m : Map Byte) : Map Byte :=
  putLE (putLE m loaderRoot 8 (loaderRoot + 2 ^ 19 + 1)) (loaderRoot + 2 ^ 19) 8 7

/-- The base of a placed ring, 64 KiB apart from 1 MiB up. -/
def loaderBase (r : Ring) : Nat := 0x100000 + r.code * 0x10000

/-- An empty placed ring of 4 KiB. -/
def loaderRing (r : Ring) : RingQ := { (.reset : RingQ) with base := BitVec.ofNat 56 (loaderBase r) }

/-- A captured entry of `n` words as a ply that has only just started would append it. -/
def loaderEntry (n : Nat) : Entry := ⟨n, 0, 0, .reset, .reset, [], none, false, default⟩

/-- A ring that holds one entry of `n` words. -/
def loaderFull (r : Ring) (n : Nat) : RingQ :=
  { loaderRing r with wr := BitVec.ofNat 21 (4 * n), entries := [loaderEntry n] }

/-- A command in progress whose one word still to perform is `w`. -/
def loaderCmd (w : W32) : CmdRun := ⟨[w], false, 0, 0, loaderEntry 1, none, 0, 0, 0, 1, none, false, [], [], false, [], 0, [], [], none, [], [], false⟩

/-- A Running ply with empty rings and the whole register file. -/
def loaderPly : Ply :=
  { Ply.reset with
    phase := .running, vcount := 248, nextSeq := 1
    sq := loaderRing .sq, vl := loaderRing .vl, va := loaderRing .va, vs := loaderRing .vs
    mxq := loaderRing .mx, trq := loaderRing .tr }

/-- The placed ply about to run word `w` on ring `r`, with `n` words in all. -/
def loaderFor (r : Ring) (w n : Nat) : Ply :=
  match r with
  | .sq => { loaderPly with sq := { loaderRing .sq with wr := 4 } }
  | .vl => { loaderPly with vl := loaderFull .vl n }
  | .va => { loaderPly with va := loaderFull .va n }
  | .vs => { loaderPly with vs := loaderFull .vs n }
  | .mx => { loaderPly with
      mxq := loaderFull .mx n
      mx := { loaderPly.mx with cmd := if isGo w then none else some (loaderCmd (BitVec.ofNat 32 w)) } }
  | .tr => { loaderPly with
      trq := loaderFull .tr n
      tr := { loaderPly.tr with cmd := if isGo w then none else some (loaderCmd (BitVec.ofNat 32 w)) } }

/-- Places a ply on slot 0 of core 0 of die 0, with `ws` at the start of ring `r`, and gives the turn to that ring. -/
def State.placeWords (s : State) (r : Ring) (ws : List Nat) : State :=
  let m := loaderTables (s.die 0).mem
  let m := (ws.foldl (fun (t : Map Byte × Nat) w => (putLE t.1 t.2 4 w, t.2 + 4)) (m, loaderBase r)).1
  let x := { s.die 0 with mem := m, member := true }
  let x := (x.setCore 0 { x.core 0 with running := some 0 }).setPly 0 0 (loaderFor r (ws.headD 0) ws.length)
  let s := (s.setDie 0 x).mapVf 0 (fun v => { v with winLimit := 0x40000000, ptRoot := BitVec.ofNat 56 loaderRoot, part := x.part, en := true })
  { s with turn := if r = .sq then .sq 0 0 else .ring 0 0 0 r }

end Sys2Proof.Machine
end

