-- ==== Sys2Proof/Machine/Step.lean ====
section
/-! DEFINITION. One step of the panel: the agent of the turn acts, then follows what the manual makes follow at once. -/

namespace Sys2Proof.Machine

open Sys2Proof

/-- One step. -/
def step (s : State) : Host.Outcome State Fault Refusal :=
  match s.nextAct with
  | .to t => .next t.afterStep
  | .run i t =>
    match exec i t with
    | .next u => .next u.afterStep
    | .fault f => .fault f
    | .refused r => .refused r

/-- The state in which the next step fetches and runs the instruction with bits `w`: its word at the start of the ring
whose map holds it, later words zero (log 12). -/
def State.withFetchWord (s : State) (nbits w : Nat) : State :=
  let w := w % 2 ^ min nbits 32
  s.placeWords (tableRing w) (w :: List.replicate (vecLits w) 0)

end Sys2Proof.Machine
end

