-- ==== Sys2Proof/Safety.lean ====
section
/-! DEFINITION. The terms the claims use: the structural invariants that every step keeps, and what it means that an
instruction completes, traps or waits, said over the accessors of the state. -/

namespace Sys2Proof.Machine

open Sys2Proof

/-- A die's store is in its canonical form: addresses rise, and no zero byte is listed. -/
def Die.memOk (x : Die) : Bool := Memory.wf x.mem

/-- Every die's store is in its canonical form. -/
def State.memOk (s : State) : Bool := s.dies.all (fun e => e.2.memOk)

end Sys2Proof.Machine

namespace Sys2Proof.Claims

open Sys2Proof Sys2Proof.Machine

/-! ## The sequencer -/

/-- What a source field of SQ reads: g0 to g63, or a latch that is valid (R145, R147). -/
abbrev SrcIs (r : PlyRegs) (a : BitVec 7) (x : Word) : Prop :=
  (a.toNat < 64 ∧ r.rdG a.toNat = x) ∨ (a.toNat = 64 ∧ r.y0 = some x) ∨ (a.toNat = 65 ∧ r.y1 = some x) ∨
    (a.toNat = 66 ∧ r.y2 = some x) ∨ (a.toNat = 67 ∧ r.y3 = some x)

/-- `s` with the registers `r` and the program counter `o` in ply `h`, no access in flight, and nothing else changed. -/
def sqTo (s : State) (h : Here) (r : PlyRegs) (o : Nat) : State :=
  s.setPly h { s.ply h with
    regs := r, sq := { (s.ply h).sq with rd := BitVec.ofNat 21 (o % 2 ^ 20) }, sqBusy := none }

/-- `r'` is `r` after a result `v`: the latches have shifted, `dst` holds `v` unless `nw` is set or it is g0, the AFLAGS
bits `m` are set, and every other register is as before (R145, R146). -/
structure Result (r r' : PlyRegs) (nw : Bool) (dst : Nat) (v : Word) (m : W32) : Prop where
  newest : r'.y0 = some v
  shifted : r'.y1 = r.y0 ∧ r'.y2 = r.y1 ∧ r'.y3 = r.y2
  dest : ∀ n, r'.rdG n = if n = dst ∧ n ≠ 0 ∧ nw = false then v else r.rdG n
  flags : r'.aflags = r.aflags ||| m
  others : r' = { r with g := r'.g, y0 := r'.y0, y1 := r'.y1, y2 := r'.y2, y3 := r'.y3, aflags := r'.aflags }

/-- The word completes with the result `v` and the flags `m`, and goes on at the next word. -/
def Gives (i : Instr) (s : State) (h : Here) (nw : Bool) (dst : Nat) (v : Word) (m : W32) : Prop :=
  ∃ r, exec i s = .next (sqTo s h r ((s.ply h).pco + 4)) ∧ Result (s.regs h) r nw dst v m

/-- `s` after SQ of ply `h` has taken a trap with a status word at its present word: it is halted there, the ply is held
and Waiting, its sequencer is free, and the y latches are invalid (R147, R350, R352). -/
def sqTrapped (s : State) (h : Here) (status : W32) (addr : BitVec 56) (kind : Nat) : State :=
  let p := s.ply h
  (s.mapCore h (fun y => { y with running := none, last := h.k })).setPly h { p with
    phase := .waiting
    firstHalt := if p.halts = [] then 0 else p.firstHalt
    halts := mput p.halts 0 ⟨status, p.pco, addr, 0, 0, kind⟩
    sqBusy := none
    regs := { p.regs with y0 := none, y1 := none, y2 := none, y3 := none } }

/-- `s` with ply h now `p` and its sequencer at the next word, nothing in flight. -/
def sqNext (s : State) (h : Here) (p : Ply) : State :=
  s.setPly h { p with sq := { p.sq with rd := BitVec.ofNat 21 (((s.ply h).pco + 4) % 2 ^ 20) }, sqBusy := none }

/-- A ply whose switch point has retired: the y latches are invalid and the switch points counted (R147, R150). -/
def switched (p : Ply) : Ply :=
  { p with regs := { p.regs with y0 := none, y1 := none, y2 := none, y3 := none }, swpts := p.swpts + 1 }

/-- `s` after SQ of ply h has left the sequencer for the phase `ph`, with the ply `p` before that (R37, R38, R39). -/
def sqLeft (s : State) (h : Here) (p : Ply) (ph : PlyPhase) : State :=
  (s.mapCore h (fun y => { y with running := none, last := h.k })).setPly h { p with
    phase := ph, regs := { p.regs with y0 := none, y1 := none, y2 := none, y3 := none } }

/-- Nothing stops a switch point of ply h: its unit is not to be reclaimed, the ply is not held, no earlier wait of it has
been satisfied, and no pre-emption wants its sequencer (R54, R57, R193, R209). -/
structure Unstopped (s : State) (h : Here) : Prop where
  kept : ((s.die h.d).ownFut (s.ply h)).doomed = false ∨ ((s.die h.d).ownFut (s.ply h)).pinned = true
  notHeld : (s.ply h).halts = []
  notDone : (s.ply h).waitDone = false
  unwanted : (s.ply h).preempt = false ∨ Ring.sq ∈ (s.ply h).stopped

/-! ## Storage -/

/-- The bytes of an access of SQ lie in frames of the issuing die's own store, byte `i` at `pa i`, on no HT page. -/
abbrev Local (s : State) (h : Here) (m : Mode) (va n : Nat) (pa : Nat → Nat) : Prop :=
  ∀ i < n, s.locate h.d (some h.key) (s.ply h).vf m none ((va + i) % 2 ^ 64) = (.here (.mem (pa i)), false)

/-- The little-endian value of the `n` bytes at `pa 0` to `pa (n - 1)` of a die's store. -/
def valueAt (x : Die) (pa : Nat → Nat) (n : Nat) : Nat :=
  match n with
  | 0 => 0
  | n + 1 => valueAt x pa n + (getByte x.mem (pa n)).toNat * 2 ^ (8 * n)

/-- `m'` is `m` with the `n` low bytes of `v` written at `pa 0` to `pa (n - 1)`: every other byte reads as before. -/
def Wrote (m m' : Map Byte) (pa : Nat → Nat) (n : Nat) (v : Word) : Prop :=
  (∀ q, (∀ i < n, pa i ≠ q) → getByte m' q = getByte m q) ∧
  (∀ i < n, (∀ j, i < j → j < n → pa j ≠ pa i) → getByte m' (pa i) = v.extractLsb' (8 * i) 8)

/-- The status word of a trap with no detail: class in [15:8], reason in [7:4], field in [3:0] (R161). -/
def status (cls reason field : Nat) : W32 := BitVec.ofNat 32 (cls * 256 + reason * 16 + field)

end Sys2Proof.Claims
end

