-- ==== Sys2Proof/Certificates/Slice0/Obligations.lean ====
section
/-! DEFINITION. The claims for the provers, written from the numbered rules of the spec over the terms of Safety and those
defined here beside them: each says that the word completes, under hypotheses on the state and the operands alone, and with
what next state; an equation for the next state is its frame. -/

namespace Sys2Proof.Claims
open Sys2Proof Sys2Proof.Machine

/-- A form of SQ with two sources and a result. -/
abbrev Form2 := Bool → BitVec 6 → BitVec 7 → BitVec 7 → Instr
/-- A form of SQ with one source and a 12-bit immediate. -/
abbrev FormI := Bool → BitVec 6 → BitVec 7 → BitVec 12 → Instr

/-- A saturated signed sum of 65 bits with its clamp flag (R135). -/
def sat65 (t : BitVec 65) : Word × W32 :=
  if t.toInt < -2 ^ 63 then (BitVec.intMin 64, 32) else if 2 ^ 63 ≤ t.toInt then (BitVec.intMax 64, 32) else (t.setWidth 64, 0)

/-- The two-source forms of the alu group with their result and flags (R166). -/
def aluForms : List (Form2 × (Word → Word → Word × W32)) :=
  [(.add, fun x y => (x + y, 0)), (.sub, fun x y => (x - y, 0)), (.and, fun x y => (x &&& y, 0)),
   (.or, fun x y => (x ||| y, 0)), (.xor, fun x y => (x ^^^ y, 0)), (.andn, fun x y => (x &&& ~~~y, 0)),
   (.shl, fun x y => (x <<< (y &&& 63), 0)), (.shr, fun x y => (x >>> (y &&& 63), 0)),
   (.sar, fun x y => (x.sshiftRight' (y &&& 63), 0)), (.rol, fun x y => (x.rotateLeft (y &&& 63).toNat, 0)),
   (.mul, fun x y => (x * y, 0)),
   (.mulh, fun x y => ((x.signExtend 128 * y.signExtend 128).extractLsb' 64 64, 0)),
   (.mulhu, fun x y => ((x.zeroExtend 128 * y.zeroExtend 128).extractLsb' 64 64, 0)),
   (.min, fun x y => (if x.slt y then x else y, 0)), (.max, fun x y => (if x.slt y then y else x, 0)),
   (.minu, fun x y => (if x.ult y then x else y, 0)), (.maxu, fun x y => (if x.ult y then y else x, 0)),
   (.adds, fun x y => sat65 (x.signExtend 65 + y.signExtend 65)),
   (.subs, fun x y => sat65 (x.signExtend 65 - y.signExtend 65))]

/-- The division forms (R167). -/
def divForms : List (Form2 × (Word → Word → Word)) :=
  [(.div, fun x y => if y = 0 then -1 else x.sdiv y), (.rem, fun x y => if y = 0 then x else x.srem y),
   (.divu, fun x y => if y = 0 then -1 else x / y), (.remu, fun x y => if y = 0 then x else x % y)]

/-- The immediate forms (R168). -/
def immForms : List (FormI × (Word → BitVec 12 → Word)) :=
  [(.sli, fun x i => x <<< 12 ||| i.zeroExtend 64), (.addi, fun x i => x + i.signExtend 64),
   (.andi, fun x i => x &&& i.zeroExtend 64), (.ori, fun x i => x ||| i.zeroExtend 64),
   (.xori, fun x i => x ^^^ i.zeroExtend 64), (.slti, fun x i => if x.slt (i.signExtend 64) then 1 else 0),
   (.sltiu, fun x i => if x.ult (i.signExtend 64) then 1 else 0)]

/-- The immediate shifts (R168). -/
def shiftForms : List ((Bool → BitVec 6 → BitVec 7 → BitVec 6 → Instr) × (Word → BitVec 6 → Word)) :=
  [(.shli, fun x k => x <<< k), (.shri, fun x k => x >>> k), (.sari, fun x k => x.sshiftRight' k)]

/-- The cmp group (R169). -/
def cmpForms : List (Form2 × (Word → Word → Bool)) :=
  [(.seq, fun x y => x == y), (.sne, fun x y => x != y), (.slt, fun x y => x.slt y), (.sltu, fun x y => x.ult y),
   (.sge, fun x y => y.sle x), (.sgeu, fun x y => y.ule x)]

end Sys2Proof.Claims
open Sys2Proof Sys2Proof.Machine Sys2Proof.Claims

/-- R166: each alu form gives its table's value from its two sources, with the flags of R135. clz, ctz: the zeros before
the first one bit. -/
def Sys2Proof.Claims.aluWordsGiveTheirResult : Prop :=
  (∀ f ∈ aluForms, ∀ nw dst a b s h x y, s.sqHere = some h → SrcIs (s.regs h) a x → SrcIs (s.regs h) b y →
    Gives (f.1 nw dst a b) s h nw dst.toNat (f.2 x y).1 (f.2 x y).2) ∧
  (∀ nw dst a s h x n, s.sqHere = some h → SrcIs (s.regs h) a x → n ≤ 64 →
    (∀ i < n, x.getLsbD (63 - i) = false) → (n < 64 → x.getLsbD (63 - n) = true) →
    Gives (.clz nw dst a) s h nw dst.toNat (BitVec.ofNat 64 n) 0) ∧
  (∀ nw dst a s h x n, s.sqHere = some h → SrcIs (s.regs h) a x → n ≤ 64 →
    (∀ i < n, x.getLsbD i = false) → (n < 64 → x.getLsbD n = true) →
    Gives (.ctz nw dst a) s h nw dst.toNat (BitVec.ofNat 64 n) 0) ∧
  (∀ nw dst a s h x, s.sqHere = some h → SrcIs (s.regs h) a x →
    Gives (.popc nw dst a) s h nw dst.toNat (BitVec.ofNat 64 ((List.range 64).countP x.getLsbD)) 0)

/-- R167. -/
def Sys2Proof.Claims.divisionNeverTraps : Prop :=
  ∀ f ∈ divForms, ∀ nw dst a b s h x y, s.sqHere = some h → SrcIs (s.regs h) a x → SrcIs (s.regs h) b y →
    Gives (f.1 nw dst a b) s h nw dst.toNat (f.2 x y) 0

/-- R168. -/
def Obligations.ImmediateWordsGiveTheirResult : Prop :=
  (∀ f ∈ immForms, ∀ nw dst a imm s h x, s.sqHere = some h → SrcIs (s.regs h) a x →
    Gives (f.1 nw dst a imm) s h nw dst.toNat (f.2 x imm) 0) ∧
  (∀ f ∈ shiftForms, ∀ nw dst a k s h x, s.sqHere = some h → SrcIs (s.regs h) a x →
    Gives (f.1 nw dst a k) s h nw dst.toNat (f.2 x k) 0)

/-- R169. -/
def Obligations.CompareWordsGiveOneOrZero : Prop :=
  ∀ f ∈ cmpForms, ∀ nw dst a b s h x y, s.sqHere = some h → SrcIs (s.regs h) a x → SrcIs (s.regs h) b y →
    Gives (f.1 nw dst a b) s h nw dst.toNat (if f.2 x y then 1 else 0) 0

/-- R166, R167: the alu group. Each form gives its table's value from its two sources, with the flags of R135; division never
traps and sets no flag. -/
def Obligations.AluAndDivisionWordsGiveTheirResult : Prop :=
  Sys2Proof.Claims.aluWordsGiveTheirResult ∧ Sys2Proof.Claims.divisionNeverTraps

namespace Sys2Proof.Claims
open Sys2Proof Sys2Proof.Machine

/-- The branches with their conditions (R171). -/
def branchForms : List ((BitVec 7 → BitVec 12 → Instr) × (Word → Bool)) :=
  [(.beqz, fun x => x == 0), (.bnez, fun x => x != 0), (.bltz, fun x => x.slt 0), (.bgez, fun x => !x.slt 0),
   (.bgtz, fun x => BitVec.slt 0 x), (.blez, fun x => !BitVec.slt 0 x)]

/-- The plain loads with their bytes and whether they extend the sign (R175). -/
def loadForms : List (FormI × Nat × Bool) :=
  [(.ldb, 1, false), (.ldh, 2, false), (.ldw, 4, false), (.ldd, 8, false), (.ldbs, 1, true), (.ldhs, 2, true), (.ldws, 4, true)]

/-- The plain stores with their bytes (R176). -/
def storeForms : List ((BitVec 6 → BitVec 7 → BitVec 12 → Instr) × Nat) := [(.sb, 1), (.sh, 2), (.sw, 4), (.sd, 8)]

/-- An ordered form or an atomic. -/
abbrev FormOrd := BitVec 6 → BitVec 7 → Bool → Bool → BitVec 3 → Instr

/-- The atomics with the value they write, from the old value, B and G(`dst`); `none` writes nothing (R181). -/
def atomicForms : List ((Bool → BitVec 6 → BitVec 7 → BitVec 7 → Bool → Bool → BitVec 3 → Instr) × (Word → Word → Word → Option Word)) :=
  [(.aadd, fun o b _ => some (o + b)), (.aand, fun o b _ => some (o &&& b)), (.aor, fun o b _ => some (o ||| b)),
   (.axor, fun o b _ => some (o ^^^ b)), (.amin, fun o b _ => some (if o.slt b then o else b)),
   (.amax, fun o b _ => some (if o.slt b then b else o)), (.aswap, fun _ b _ => some b),
   (.acas, fun o b e => if o = e then some b else none)]

/-- A loaded value of `n` bytes, extended to 64 bits (R175). -/
def extended (signed : Bool) (n v : Nat) : Word :=
  if signed then (BitVec.ofNat (8 * n) v).signExtend 64 else BitVec.ofNat 64 v

/-- An access of SQ with the effective acquire and release bits `acq` and `rel` at a scope: `done t u` says that `u` is `t` once the
access has been performed. A release at panel scope closes the die's frames before it, and an acquire after it. At system scope
either bit closes them and issues the flushing reads first, and the access is performed once everything earlier has met its
condition; until then it has not retired (R110, R114, R118). -/
def Ordered (i : Instr) (s : State) (h : Here) (acq rel : Bool) (scope : BitVec 3) (done : State → State → Prop) : Prop :=
  let u := (s.ply h).unit
  let waits := scope = 4 ∧ (acq = true ∨ rel = true)
  let pre := if scope = 4 ∧ (acq = true ∨ rel = true) then (s.closeFrames h.d).flushEgress h.d u
    else if scope = 3 ∧ rel = true then s.closeFrames h.d else s
  let shut := fun (t : State) => if acq = true ∧ (scope = 3 ∨ (scope = 4 ∧ rel = true)) then t.closeFrames h.d else t
  ((waits → (s.ply h).sqBusy = none ∧ pre.unitQuiet h.d u = true) → ∃ t, done pre t ∧ exec i s = .next (shut t)) ∧
  (waits → (s.ply h).sqBusy = none → pre.unitQuiet h.d u = false →
    exec i s = .next (pre.setPly h { s.ply h with sqBusy := some { SqBusy.none_ with gate := true } })) ∧
  (waits → (s.ply h).sqBusy ≠ none → s.unitQuiet h.d u = true → ∃ t, done s t ∧ exec i s = .next (shut t)) ∧
  (waits → (s.ply h).sqBusy ≠ none → s.unitQuiet h.d u = false → exec i s = .next (s.drainUnit h.d u))

end Sys2Proof.Claims

/-- R171. -/
def Sys2Proof.Claims.branchesTestTheirCondition : Prop :=
  (∀ f ∈ branchForms, ∀ a imm s h x, s.sqHere = some h → SrcIs (s.regs h) a x →
    let t : Int := (s.ply h).pco + 4 * imm.toInt
    (f.2 x = false → exec (f.1 a imm) s = .next (sqTo s h (s.regs h) ((s.ply h).pco + 4))) ∧
    (f.2 x = true → 0 ≤ t → t < (s.ply h).codeLen → t % 4 = 0 →
      exec (f.1 a imm) s = .next (sqTo s h (s.regs h) t.toNat))) ∧
  (∀ imm s h, s.sqHere = some h →
    let t : Int := (s.ply h).pco + 4 * imm.toInt
    0 ≤ t → t < (s.ply h).codeLen → t % 4 = 0 → exec (.bra imm) s = .next (sqTo s h (s.regs h) t.toNat))

/-- R172. -/
def Sys2Proof.Claims.jumpsWriteTheLink : Prop :=
  (∀ nw dst off s h, s.sqHere = some h →
    let t : Int := (s.ply h).pco + 4 * off.toInt
    0 ≤ t → t < (s.ply h).codeLen → t % 4 = 0 →
    ∃ r, exec (.jal nw dst off) s = .next (sqTo s h r t.toNat) ∧
      Result (s.regs h) r nw dst.toNat (BitVec.ofNat 64 ((s.ply h).pco + 4)) 0) ∧
  (∀ nw dst a imm s h x, s.sqHere = some h → SrcIs (s.regs h) a x →
    let t : Int := x.toNat + 4 * imm.toInt
    0 ≤ t → t < (s.ply h).codeLen → t % 4 = 0 →
    ∃ r, exec (.jalr nw dst a imm) s = .next (sqTo s h r t.toNat) ∧
      Result (s.regs h) r nw dst.toNat (BitVec.ofNat 64 ((s.ply h).pco + 4)) 0)

/-- R173: a target that is no valid code address traps with reason 6 and changes nothing else; so does PCO at L, where
nothing is fetched. -/
def Sys2Proof.Claims.invalidTargetsTrap : Prop :=
  let bad := fun (p : Ply) (t : Int) => t < 0 ∨ p.codeLen ≤ t ∨ t % 4 ≠ 0
  (∀ f ∈ branchForms, ∀ a imm s h x, s.sqHere = some h → SrcIs (s.regs h) a x → f.2 x = true →
    bad (s.ply h) ((s.ply h).pco + 4 * imm.toInt) → exec (f.1 a imm) s = .next (sqTrapped s h (status 0x12 6 5) 0 0)) ∧
  (∀ imm s h, s.sqHere = some h → bad (s.ply h) ((s.ply h).pco + 4 * imm.toInt) →
    exec (.bra imm) s = .next (sqTrapped s h (status 0x12 6 5) 0 0)) ∧
  (∀ nw dst off s h, s.sqHere = some h → bad (s.ply h) ((s.ply h).pco + 4 * off.toInt) →
    exec (.jal nw dst off) s = .next (sqTrapped s h (status 0x12 6 5) 0 0)) ∧
  (∀ nw dst a imm s h x, s.sqHere = some h → SrcIs (s.regs h) a x → bad (s.ply h) (x.toNat + 4 * imm.toInt) →
    exec (.jalr nw dst a imm) s = .next (sqTrapped s h (status 0x12 6 3) 0 0)) ∧
  (∀ (s : State) (h : Here), s.sqHere = some h → (s.ply h).codeLen ≤ (s.ply h).pco →
    s.fetchSq h = .to (sqTrapped s h (status 0x12 6 0) 0 0))

/-- R175. -/
def Sys2Proof.Claims.plainLoadsExtendTheirBytes : Prop :=
  ∀ f ∈ loadForms, ∀ nw dst a imm s h x pa, s.sqHere = some h → SrcIs (s.regs h) a x →
    Local s h .load (x + imm.signExtend 64).toNat f.2.1 pa →
    Gives (f.1 nw dst a imm) s h nw dst.toNat (extended f.2.2 f.2.1 (valueAt (s.die h.d) pa f.2.1)) 0

/-- R176. -/
def Sys2Proof.Claims.plainStoresWriteTheirBytes : Prop :=
  ∀ f ∈ storeForms, ∀ dst a imm s h x pa, s.sqHere = some h → SrcIs (s.regs h) a x →
    Local s h .store (x + imm.signExtend 64).toNat f.2 pa →
    ∃ m, exec (f.1 dst a imm) s =
        .next (sqTo (s.mapDie h.d (fun y => { y with mem := m })) h (s.regs h) ((s.ply h).pco + 4)) ∧
      Wrote (s.die h.d).mem m pa f.2 ((s.regs h).rdG dst.toNat)

/-- R177 with R110, R114, R118, R178: naturally aligned ordered accesses at every scope; the release bit of a load and the acquire
bit of a store have no effect. -/
def Obligations.OrderedAccessesMoveTheirBytes : Prop :=
  (∀ f ∈ [((.ldo : Bool → BitVec 6 → BitVec 7 → Bool → Bool → BitVec 3 → Instr), 8), (.ldow, 4)],
    ∀ nw dst a acq rel scope s h x pa, s.sqHere = some h → SrcIs (s.regs h) a x → x.toNat % f.2 = 0 →
    Local s h .load x.toNat f.2 pa →
    Ordered (f.1 nw dst a acq rel scope) s h acq false scope (fun t u => ∃ r, u = sqTo t h r ((s.ply h).pco + 4) ∧
      Result (s.regs h) r nw dst.toNat (BitVec.ofNat 64 (valueAt (s.die h.d) pa f.2)) 0)) ∧
  (∀ f ∈ [((.sto : BitVec 7 → BitVec 7 → Bool → Bool → BitVec 3 → Instr), 8), (.stow, 4)],
    ∀ a b acq rel scope s h x y pa, s.sqHere = some h → SrcIs (s.regs h) a x → SrcIs (s.regs h) b y →
    x.toNat % f.2 = 0 → Local s h .store x.toNat f.2 pa →
    Ordered (f.1 a b acq rel scope) s h false rel scope (fun t u => ∃ m,
      u = sqTo (t.mapDie h.d (fun y => { y with mem := m })) h (s.regs h) ((s.ply h).pco + 4) ∧
      Wrote (s.die h.d).mem m pa f.2 y))

/-- R181 with R110, R114, R118, at every scope. -/
def Obligations.AtomicsReturnTheOldValue : Prop :=
  ∀ f ∈ atomicForms, ∀ nw dst a b acq rel scope s h x y pa, s.sqHere = some h → SrcIs (s.regs h) a x →
    SrcIs (s.regs h) b y → x.toNat % 8 = 0 → Local s h .atomic x.toNat 8 pa →
    let old := BitVec.ofNat 64 (valueAt (s.die h.d) pa 8)
    Ordered (f.1 nw dst a b acq rel scope) s h acq rel scope (fun t u => ∃ r m,
      u = sqTo (t.mapDie h.d (fun y => { y with mem := m })) h r ((s.ply h).pco + 4) ∧
      Result (s.regs h) r nw dst.toNat old 0 ∧
      (match f.2 old y ((s.regs h).rdG dst.toNat) with
        | some v => Wrote (s.die h.d).mem m pa 8 v
        | none => m = (s.die h.d).mem))

/-- R171 to R173: branches test their condition, jal and jalr write the link, and a transfer to no valid code address traps and
changes nothing else. That the A + 4 × I of jalr is an unbounded integer, which never wraps modulo 2^64, is the model's reading (log
34): R172 does not say so, and it shows for an A near 2^64. -/
def Obligations.ControlTransfersGoToTheirTarget : Prop :=
  Sys2Proof.Claims.branchesTestTheirCondition ∧ Sys2Proof.Claims.jumpsWriteTheLink ∧ Sys2Proof.Claims.invalidTargetsTrap

/-- R175, R176: plain loads and stores of bytes of the issuing die's own store. -/
def Obligations.PlainAccessesMoveTheirBytes : Prop :=
  Sys2Proof.Claims.plainLoadsExtendTheirBytes ∧ Sys2Proof.Claims.plainStoresWriteTheirBytes

namespace Sys2Proof.Claims
open Sys2Proof Sys2Proof.Machine

/-- The readable system registers of R183, by number, with what each reads: the layouts of R42, R76, R99, R114, R129,
R131, R184 and R185. -/
def SysReads (s : State) (h : Here) (n : BitVec 12) (v : Word) : Prop :=
  let p := s.ply h
  let x := s.die h.d
  let w := x.unit? p.unit
  let dsrec : BitVec 128 := (0 : BitVec 32) ++ p.dsrec.count ++ (if p.dsrec.valid then 1 else 0 : BitVec 1) ++
    (if p.dsrec.more then 1 else 0 : BitVec 1) ++ p.dsrec.cause ++ (if p.dsrec.write then 1 else 0 : BitVec 1) ++
    p.dsrec.agent ++ p.dsrec.addr
  (n = 0 ∧ v.extractLsb' 0 6 = BitVec.ofNat 6 h.d ∧ v.extractLsb' 6 5 = BitVec.ofNat 5 h.c ∧
    v.extractLsb' 11 3 = BitVec.ofNat 3 h.k ∧ v.extractLsb' 14 2 = 0 ∧
    v.extractLsb' 16 16 = BitVec.ofNat 16 ((w.map WUnit.level).getD 0) ∧
    v.extractLsb' 32 16 = BitVec.ofNat 16 ((w.map WUnit.fut).getD 0) ∧ v.extractLsb' 48 16 = (w.map WUnit.gen).getD 0) ∨
  (n = 1 ∧ v = p.regs.aflags.zeroExtend 64) ∨
  (n = 2 ∧ v = dsrec.extractLsb' 0 64) ∨
  (n = 3 ∧ v = dsrec.extractLsb' 64 64) ∨
  (n = 4 ∧ v = p.regs.enqDone ++ p.regs.stage ++ (0 : BitVec 7) ++ p.regs.slip ++ (0 : BitVec 15) ++
    (if p.regs.flagOvf then 1 else 0 : BitVec 1)) ∨
  (∃ k < 16, n = BitVec.ofNat 12 (0x10 + k) ∧ v = (mget 0 p.ft k).zeroExtend 64) ∨
  ((n = 0x20 ∨ n = 0x21) ∧ x.whorl = none ∧ v = 0) ∨
  (n = 0x20 ∧ ∃ w, x.whorl = some w ∧ v = (0 : BitVec 16) ++ BitVec.ofNat 16 w.floor ++ w.needDecl ++ BitVec.ofNat 16 w.interval) ∨
  (n = 0x21 ∧ ∃ w, x.whorl = some w ∧ v = w.stretchCycles ++ w.stretches) ∨
  (∃ d < 64, n = BitVec.ofNat 12 (0x40 + d) ∧ v = (mget 0 x.vclk d).zeroExtend 64) ∨
  (∃ b < 256, n = BitVec.ofNat 12 (0x100 + b) ∧
    v = (0 : BitVec 16) ++ (x.bar b).arrived ++ (x.bar b).participants ++ (x.bar b).phase)

end Sys2Proof.Claims

/-- R183 to R185: srd gives the register its number names. -/
def Obligations.SrdReadsTheNamedRegister : Prop :=
  ∀ nw dst n s h v, s.sqHere = some h → h.d < 64 → h.c < 32 → h.k < 8 → SysReads s h n v →
    Gives (.srd nw dst n) s h nw dst.toNat v 0

/-- R183: swr writes each writable register by its access codes, and nothing else. -/
def Obligations.SwrWritesByAccessCode : Prop :=
  ∀ a s h x, s.sqHere = some h → SrcIs (s.regs h) a x →
    let p := s.ply h
    exec (.swr a 1) s = .next (sqNext s h { p with regs := { p.regs with aflags := p.regs.aflags &&& ~~~x.setWidth 32 } }) ∧
    exec (.swr a 2) s = .next (sqNext s h { p with dsrec := if x.getLsbD 63 then .reset else p.dsrec }) ∧
    exec (.swr a 4) s = .next (sqNext s h { p with regs := { p.regs with flagOvf := p.regs.flagOvf && !x.getLsbD 0 } }) ∧
    (∀ k < 16, exec (.swr a (BitVec.ofNat 12 (0x10 + k))) s =
      .next (sqNext s h { p with ft := mset 0 p.ft k (x.setWidth 32) })) ∧
    ((s.die h.d).whorl = none → exec (.swr a 0x20) s = .next (sqNext s h p)) ∧
    (∀ w, (s.die h.d).whorl = some w → let n := x.extractLsb' 16 16
      exec (.swr a 0x20) s = .next (sqNext (s.mapDie h.d (fun y => { y with whorl := some { w with
        needDecl := n, needs := mset 0 w.needs h.d n.toNat, paceOut := w.paceOut ++ [⟨h.d, n.toNat⟩] } })) h p)) ∧
    (∀ b < 256, ∃ t, exec (.swr a (BitVec.ofNat 12 (0x100 + b))) s = .next (sqNext t h p) ∧
      (∃ y, t = s.setDie h.d y ∧ y = { s.die h.d with bars := y.bars } ∧
        (∀ c ≠ b, y.bar c = (s.die h.d).bar c) ∧
        (let o := (s.die h.d).bar b
         let n := x.extractLsb' 16 16
         y.bar b = if n ≠ 0 ∧ n ≤ o.arrived then ⟨o.phase + 1, n, 0⟩ else ⟨o.phase, n, o.arrived⟩)))

/-- R187: trap takes the software trap with its immediate in [31:20]; the ply is held at the trap word. nop only goes on. -/
def Obligations.TrapTakesTheSoftwareTrap : Prop :=
  (∀ imm s h, s.sqHere = some h →
    exec (.trap imm) s = .next (sqTrapped s h (imm ++ (0 : BitVec 4) ++ (0x3000 : BitVec 16)) 0 1)) ∧
  (∀ s h, s.sqHere = some h → exec .nop s = .next (sqTo s h (s.regs h) ((s.ply h).pco + 4)))

/-- R111, R188, R114, R118: a fence below panel scope only goes on; at panel scope it closes a frame; at system scope it closes one,
issues the flushing reads and retires once everything earlier has met its condition; with drain it waits until every engine command of
the ply has completed, and the flags those set are then in AFLAGS (R132). -/
def Sys2Proof.Claims.fencesDrainAndClose : Prop :=
  ∀ drain (scope : BitVec 3) s h, s.sqHere = some h →
    (drain = true → (s.die h.d).plyIdle (s.ply h) = false → exec (.fence drain scope) s = .next s) ∧
    ((drain = true → (s.die h.d).plyIdle (s.ply h) = true) →
      let p := s.ply h
      let q := if drain then { p with
          regs := { p.regs with aflags := p.pend.foldl (fun a e => a ||| e.2.2) p.regs.aflags }, pend := [] } else p
      let sys := (s.closeFrames h.d).flushEgress h.d p.unit
      (scope.toNat < 3 → exec (.fence drain scope) s = .next (sqNext s h q)) ∧
      (scope = 3 → exec (.fence drain scope) s = .next (sqNext (s.closeFrames h.d) h q)) ∧
      (scope = 4 → p.sqBusy = none →
        exec (.fence drain scope) s = .next (if sys.unitQuiet h.d p.unit then sqNext sys h q
          else sys.setPly h { q with sqBusy := some { SqBusy.none_ with gate := true } })) ∧
      (scope = 4 → p.sqBusy ≠ none →
        exec (.fence drain scope) s = .next (if s.unitQuiet h.d p.unit then sqNext s h q
          else (s.setPly h q).drainUnit h.d p.unit)))

/-- R114: closing the open frames of a die adds exactly 1 to its own clock entry, whatever it has open, and sends every
open record it held. -/
def Sys2Proof.Claims.closingAddsOneToTheClock : Prop :=
  ∀ (s : State) (d : Nat),
    ((s.closeFrames d).die d).clock d = (s.die d).clock d + 1 ∧
    (∀ j ≠ d, ((s.closeFrames d).die d).clock j = (s.die d).clock j) ∧
    (∀ e ≠ d, (s.closeFrames d).die e = s.die e) ∧
    (∀ t l, mfind (s.die d).links t = some l → (((s.closeFrames d).die d).link t).open_ = [])

/-- R189, R190: yield and end, when nothing stops them: yield leaves a Ready ply at the next word; end leaves an Ended one
with no hold set. -/
def Obligations.YieldAndEndLeaveTheSequencer : Prop :=
  (∀ s h, s.sqHere = some h → Unstopped s h →
    exec .yield s = .next (sqLeft s h (switched { s.ply h with
      sq := { (s.ply h).sq with rd := BitVec.ofNat 21 (((s.ply h).pco + 4) % 2 ^ 20) }, sqBusy := none }) .ready)) ∧
  (∀ s h, s.sqHere = some h → Unstopped s h → ∃ t, exec .endUnit s = .next t ∧
    (t.ply h).phase = .ended ∧ (t.ply h).holdset = [] ∧ (t.ply h).sqEnd = true ∧ (t.core h).running = none ∧
    (∀ w, (s.die h.d).unit? (s.ply h).unit = some w →
      ((t.die h.d).fut w.fut).pinned = false ∧
      (((s.die h.d).fut w.fut).state = 0 →
        ((t.die h.d).fut w.fut).state = 2 ∧ ((t.die h.d).fut w.fut).cause = 3)) ∧
    (∀ o ∈ (t.die h.d).holds, o.unit = (s.ply h).unit → o.ended = true))

/-- R111, R188, R114, R118: fences at every scope, and what closing a die's frames does. That a FENCE with nothing open still adds 1
to the clock is the model's reading (log 14). -/
def Obligations.FencesDrainAndCloseFrames : Prop :=
  Sys2Proof.Claims.fencesDrainAndClose ∧ Sys2Proof.Claims.closingAddsOneToTheClock

namespace Sys2Proof.Claims
open Sys2Proof Sys2Proof.Machine

/-- A wait of SQ with the condition and effect that R193 gives it: `w` parks the ply, `c` is the condition, and `p` the ply
once the effect has been performed. -/
def Waits (i : Instr) (s : State) (h : Here) (w : Wait) (c : Bool) (p : Ply) : Prop :=
  (c = true → exec i s = .next (sqNext s h (switched p))) ∧
  (c = false → exec i s = .next (sqLeft s h { s.ply h with wait := some w } .waiting))

/-- The handle of entry `f` of die `d` with generation `gen` (R50). -/
def handle (d : Nat) (gen : BitVec 16) (f : BitVec 16) : Word := (0 : BitVec 26) ++ BitVec.ofNat 6 d ++ gen ++ f

/-- Slot `i` is the lowest that holds the handle of the live entry `f`, whose handle is `x` (R50, R51). -/
structure Held (s : State) (h : Here) (x : Word) (f : BitVec 16) (i : Nat) : Prop where
  die : h.d < 64
  named : x = handle h.d ((s.die h.d).fut f.toNat).gen f
  live : ((s.die h.d).fut f.toNat).state ≠ 3
  slot : slotOf (s.ply h).holdset x = some i

/-- `r'` is `r` once a future's value has been delivered to the pair at `dst`: g0 and the registers outside the pair keep
their values (R198). -/
def Delivered (r r' : PlyRegs) (dst : Nat) (v : BitVec 128) : Prop :=
  (∀ n, r'.rdG n = if n = 0 then 0 else if n = 2 * dst then v.extractLsb' 0 64 else if n = 2 * dst + 1 then v.extractLsb' 64 64 else r.rdG n) ∧
  r' = { r with g := r'.g }

end Sys2Proof.Claims

/-- R193 to R196, R41, R42: fwait, bwait and mwait pass when their condition holds and else leave the ply Waiting; a
threshold above 32 bits traps. -/
def Sys2Proof.Claims.waitsPassOrPark : Prop :=
  (∀ f a sub (imm : BitVec 11) s h x, s.sqHere = some h → Unstopped s h → SrcIs (s.regs h) a x →
    let t := x.toNat + imm.toNat
    let v := mget 0 (s.ply h).flags f.toNat
    (t < 2 ^ 32 → Waits (.fwait f a sub imm) s h (.flag f.toNat t sub) (decide (t ≤ v))
      { s.ply h with
        flags := if sub then mset 0 (s.ply h).flags f.toNat (v - t) else (s.ply h).flags
        knows := ((s.ply h).told 0 ((s.ply h).know (flagKey f.toNat))).knows }) ∧
    (2 ^ 32 ≤ t → exec (.fwait f a sub imm) s = .next (sqTrapped s h (status 0x12 7 3) 0 0))) ∧
  (∀ a b s h x, s.sqHere = some h → Unstopped s h → SrcIs (s.regs h) a x →
    Waits (.bwait a b) s h (.barrier b.toNat (x.setWidth 16))
      (((s.die h.d).bar b.toNat).phase - x.setWidth 16 < 32768) (s.ply h)) ∧
  (∀ a b (cond : BitVec 2) s h x y pa, s.sqHere = some h → Unstopped s h → SrcIs (s.regs h) a x →
    SrcIs (s.regs h) b y → x.toNat % 8 = 0 → Local s h .load x.toNat 8 pa →
    let v := BitVec.ofNat 64 (valueAt (s.die h.d) pa 8)
    Waits (.mwait a b cond) s h (.mem x.toNat cond y)
      (if cond = 0 then v = y else if cond = 1 then v ≠ y else if cond = 2 then y ≤ v else y < v) (s.ply h))

/-- R203: hawait takes one hold on the youngest matching copy, or waits; harel ends one hold on the oldest matching copy
held, or does nothing. -/
def Sys2Proof.Claims.hankHoldsAreTakenAndEnded : Prop :=
  (∀ a b s h x y, s.sqHere = some h → Unstopped s h → SrcIs (s.regs h) a x → SrcIs (s.regs h) b y →
    ((s.die h.d).youngest x y = none →
      exec (.hawait a b) s = .next (sqLeft s h { s.ply h with wait := some (.hank x y) } .waiting)) ∧
    (∀ c, (s.die h.d).youngest x y = some c → (s.die h.d).holdCount (s.ply h).unit < 16 →
      ∃ t, exec (.hawait a b) s = .next t ∧ t.ply h = (sqNext s h (switched (s.ply h))).ply h ∧
        (t.die h.d).holds = (s.die h.d).holds ++ [⟨(s.ply h).unit, c.serial, s.fresh, false⟩])) ∧
  (∀ a b s h x y, s.sqHere = some h → SrcIs (s.regs h) a x → SrcIs (s.regs h) b y →
    ∃ o, exec (.harel a b) s = .next (sqNext (s.mapDie h.d (fun z => { z with holds := o })) h (s.ply h)) ∧
      (match (s.die h.d).oldestHeld (s.ply h).unit x y with
        | none => o = (s.die h.d).holds
        | some c => ∃ l m r, (s.die h.d).holds = l ++ m :: r ∧ o = l ++ { m with ended := true } :: r ∧
            m.unit = (s.ply h).unit ∧ m.copy = c.serial ∧ m.ended = false))

/-- R41, R197: fraise adds to a flag and holds it at its bound with the sticky overflow bit. What the flag carries of VA's writes to the
index registers (R93) is `told`. -/
def Sys2Proof.Claims.fraiseHoldsAtTheBound : Prop :=
  ∀ f imm s h, s.sqHere = some h →
    let v := mget 0 (s.ply h).flags f.toNat
    let p := { s.ply h with
      flags := mset 0 (s.ply h).flags f.toNat (min (v + imm.toNat) (2 ^ 32 - 1))
      knows := ((s.ply h).told (flagKey f.toNat) ((s.ply h).know 0)).knows }
    exec (.fraise f imm) s = .next (sqNext s h
      (if v + imm.toNat < 2 ^ 32 then p else { p with regs := { p.regs with flagOvf := true } }))

/-- R40, R197: a tok pushes its tokens into a FIFO that has room, waits where it has not, and pops one token or waits. What a token
carries of VA's writes to the index registers (R93) goes with it. -/
def Sys2Proof.Claims.tokensPushAndPop : Prop :=
  (∀ (cnt : BitVec 4) (ring : BitVec 3) s h, s.sqHere = some h → (s.ply h).halts = [] →
    let p := s.ply h
    let n := cnt.toNat + 1 - p.tokDone
    let q := p.tok 0 (ring.toNat - 1)
    (q + n ≤ 16 → exec (.tokPush cnt ring) s = .next (sqNext s h { p with
      toks := mset 0 p.toks (ring.toNat - 1) (q + n), knows := (p.pushTok 0 (ring.toNat - 1) n).knows, tokDone := 0 })) ∧
    (16 < q + n → q ≤ 16 → exec (.tokPush cnt ring) s = .next (s.setPly h { p with
      toks := mset 0 p.toks (ring.toNat - 1) 16, knows := (p.pushTok 0 (ring.toNat - 1) (16 - q)).knows, tokDone := p.tokDone + (16 - q) }))) ∧
  (∀ (ring : BitVec 3) s h, s.sqHere = some h → (s.ply h).halts = [] →
    let p := s.ply h
    let q := p.tok (ring.toNat - 1) 0
    (q ≠ 0 → exec (.tokPop ring) s = .next (sqNext s h { p with
      toks := mset 0 p.toks ((ring.toNat - 1) * 6) (q - 1), knows := (p.popTok (ring.toNat - 1) 0).knows })) ∧
    (q = 0 → exec (.tokPop ring) s = .next s))

/-- R42, R197: barr arrives once at a configured barrier, and traps at an unconfigured one; the trap's field code 0 is the model's
(log 24). -/
def Sys2Proof.Claims.barrArrivesOnce : Prop :=
  ∀ b s h, s.sqHere = some h →
    let o := (s.die h.d).bar b.toNat
    (o.participants ≠ 0 → exec (.barr b) s = .next (sqNext (s.setDie h.d ((s.die h.d).setBar b.toNat
      (if o.participants.toNat ≤ o.arrived.toNat + 1 then ⟨o.phase + 1, o.participants, 0⟩
        else ⟨o.phase, o.participants, o.arrived + 1⟩))) h (s.ply h))) ∧
    (o.participants = 0 → exec (.barr b) s = .next (sqTrapped s h (status 0x13 4 0) 0 0))

namespace Sys2Proof.Claims
open Sys2Proof Sys2Proof.Machine

/-- Bytes of the issuing die's store that a device reads or fetches for ply h lie in frames there (R97, R359). -/
abbrev Fetches (s : State) (h : Here) (va n w : Nat) : Prop :=
  ∃ pa, Local s h .load va n pa ∧ valueAt (s.die h.d) pa n = w

/-- A ply's sequencer does not stop between instructions: the ply is not held, or neither its SQ has halted nor its trap record is
written, and no pre-emption wants its sequencer (R352, R361). -/
def OnlyRuns (p : Ply) : Prop := p.held = true → mfind p.halts 0 = none ∧ p.trapSlot = none ∧ p.wanted = false

/-- What a step makes of the outcome of an instruction: everything that follows at once, and the next turn. -/
def followed (o : Out) : Out :=
  match o with
  | .next u => .next u.afterStep
  | .fault f => .fault f
  | .refused r => .refused r

end Sys2Proof.Claims

/-- R103, R206: before SQ's next word the entries of the static copy schedule that have come due are appended to TR in schedule order
(that it is done there is log 25); an entry not yet due ends the releases, and a full TR ring stalls SQ. -/
def Sys2Proof.Claims.schedulesReleaseInOrder : Prop :=
  (∀ (s t : State) d c k w i, s.turn = .sq d c → ((s.die d).core c).running = some k → s.powered = true → s.dieOn d = true →
    let h : Here := ⟨d, c, k⟩
    (s.ply h).sqBusy = none → (s.ply h).sqEnd = false → OnlyRuns (s.ply h) →
    s.releaseSched h (s.schedCount h) (s.schedCount h - (s.ply h).schedAt) = .go t → (t.ply h).pco < (t.ply h).codeLen →
    Fetches t h ((t.ply h).sq.base.toNat + (t.ply h).pco) 4 w → decodeSq w = .ok i → step s = followed (exec i t)) ∧
  (∀ (s : State) h n m hd ws, let p := s.ply h
    p.schedAt < n → (s.die h.d).sched.find? (fun e => e.1 == p.schedPtr) = some (p.schedPtr, hd :: ws) →
    ((p.regs.stage - hd.setWidth 16).toNat ≥ 32768 → s.releaseSched h n (m + 1) = .go s) ∧
    ((p.regs.stage - hd.setWidth 16).toNat < 32768 → p.trq.room ((hd.extractLsb' 16 5).toNat + 1) = false →
      s.releaseSched h n (m + 1) = .stall s) ∧
    ((p.regs.stage - hd.setWidth 16).toNat < 32768 → p.trq.room ((hd.extractLsb' 16 5).toNat + 1) = true →
      ∃ (t : State) (e : Entry), s.releaseSched h n (m + 1) = t.releaseSched h n m ∧ (t.ply h).schedAt = p.schedAt + 1 ∧
        (t.ply h).trq.entries = p.trq.entries ++ [e] ∧ e.words = ws.length ∧ (t.ply h).sq = p.sq))

/-- R103, R205, R206, R208: the slip depth, the stage counter and what it releases, and the loop unit. That lbeg and lnext trap with
field code 0 is the model's (log 24). -/
def Obligations.LoopUnitCountsIterations : Prop :=
  Sys2Proof.Claims.schedulesReleaseInOrder ∧
  (∀ d s h, s.sqHere = some h →
    exec (.qdep d) s = .next (sqTo s h { s.regs h with slip := d } ((s.ply h).pco + 4))) ∧
  (∀ a (imm : BitVec 12) s h x, s.sqHere = some h → SrcIs (s.regs h) a x →
    exec (.stage a imm) s = .next (sqTo s h
      { s.regs h with stage := (s.regs h).stage + x.setWidth 16 + imm.setWidth 16 } ((s.ply h).pco + 4))) ∧
  (∀ a b s h x y, s.sqHere = some h → SrcIs (s.regs h) a x → SrcIs (s.regs h) b y →
    let l := (s.regs h).loop
    let t : Int := (s.ply h).pco + 4 * y.toInt
    (l.active = true → exec (.lbeg a b) s = .next (sqTrapped s h (status 0x12 10 0) 0 0)) ∧
    (l.active = false → 2 ^ 32 ≤ x.toNat → exec (.lbeg a b) s = .next (sqTrapped s h (status 0x12 7 3) 0 0)) ∧
    (l.active = false → x.toNat < 2 ^ 32 → (t < 0 ∨ (s.ply h).codeLen ≤ t ∨ t % 4 ≠ 0) →
      exec (.lbeg a b) s = .next (sqTrapped s h (status 0x12 6 4) 0 0)) ∧
    (l.active = false → x.toNat < 2 ^ 32 → 0 ≤ t → t < (s.ply h).codeLen → t % 4 = 0 →
      let m := { l with trip := x.setWidth 32, done := 0, body := BitVec.ofNat 20 ((s.ply h).pco + 4), epi := BitVec.ofNat 20 t.toNat }
      exec (.lbeg a b) s = .next (if x = 0 then sqTo s h { s.regs h with loop := { m with active := false } } t.toNat
        else sqTo s h { s.regs h with loop := { m with active := true } } ((s.ply h).pco + 4)))) ∧
  (∀ s h, s.sqHere = some h →
    let l := (s.regs h).loop
    (l.active = false → exec .lnext s = .next (sqTrapped s h (status 0x12 10 0) 0 0)) ∧
    (l.active = true → (l.done + 1 < l.trip ∧ l.stop = false) →
      exec .lnext s = .next (sqTo s h { s.regs h with loop := { l with done := l.done + 1 } } l.body.toNat)) ∧
    (l.active = true → ¬(l.done + 1 < l.trip ∧ l.stop = false) →
      exec .lnext s = .next (sqTo s h { s.regs h with loop := { l with done := l.done + 1, active := false } } l.epi.toNat))) ∧
  (∀ nw dst s h, s.sqHere = some h → Gives (.lcnt nw dst) s h nw dst.toNat ((s.regs h).loop.done.zeroExtend 64) 0)

/-- R52, R53, R198: ref takes a reference in the lowest free slot, drop gives one up, fins reads an entry, the unit's own too. The
field code 0 of the work traps is the model's (log 24), and so is the order of ref's checks (log 26). -/
def Sys2Proof.Claims.referencesCountReach : Prop :=
  (∀ a s h x f i j, s.sqHere = some h → SrcIs (s.regs h) a x → Held s h x f i →
    let e := (s.die h.d).fut f.toNat
    (e.reach ≠ 0xFFFFFF → freeSlot (s.ply h).holdset = some j →
      exec (.ref a) s = .next (sqNext (s.setDie h.d ((s.die h.d).setFut f.toNat { e with reach := e.reach + 1 })) h
        { s.ply h with holdset := mput (s.ply h).holdset j x })) ∧
    (e.reach ≠ 0xFFFFFF → freeSlot (s.ply h).holdset = none →
      exec (.ref a) s = .next (sqTrapped s h (status 0x13 2 0) 0 0)) ∧
    (e.reach = 0xFFFFFF → exec (.ref a) s = .next (sqTrapped s h (status 0x13 3 0) 0 0))) ∧
  (∀ a s h x f i, s.sqHere = some h → SrcIs (s.regs h) a x → Held s h x f i →
    let e := (s.die h.d).fut f.toNat
    exec (.drop a) s = .next (sqNext (s.setDie h.d ((s.die h.d).setFut f.toNat
        { e with reach := e.reach - 1, doomed := e.doomed || decide (e.reach = 1) })) h
      { s.ply h with holdset := mdel (s.ply h).holdset i })) ∧
  (∀ nw dst a s h x f i, s.sqHere = some h → SrcIs (s.regs h) a x → Held s h x f i →
    let e := (s.die h.d).fut f.toNat
    Gives (.fins nw dst a) s h nw dst.toNat (e.gen ++ e.owner ++ e.reach ++ (0 : BitVec 1) ++
      (if e.doomed then 1 else 0 : BitVec 1) ++ (if e.indirect then 1 else 0 : BitVec 1) ++
      (if e.pinned then 1 else 0 : BitVec 1) ++ e.cause ++ e.state) 0) ∧
  (∀ nw dst a s h x w, s.sqHere = some h → SrcIs (s.regs h) a x → (s.die h.d).unit? (s.ply h).unit = some w → w.fut < 2 ^ 16 →
    x = handle h.d w.gen (BitVec.ofNat 16 w.fut) →
    let e := (s.die h.d).fut w.fut
    Gives (.fins nw dst a) s h nw dst.toNat (e.gen ++ e.owner ++ e.reach ++ (0 : BitVec 1) ++
      (if e.doomed then 1 else 0 : BitVec 1) ++ (if e.indirect then 1 else 0 : BitVec 1) ++
      (if e.pinned then 1 else 0 : BitVec 1) ++ e.cause ++ e.state) 0) ∧
  (∀ i ∈ [Instr.ref, Instr.drop], ∀ a s h x, s.sqHere = some h → SrcIs (s.regs h) a x → s.holds h x = false →
    exec (i a) s = .next (sqTrapped s h (status 0x12 11 3) 0 0))

/-- R60, R198: get and getc deliver a full or reclaimed future, and leave the ply Waiting on an empty one, at the head of
its deferred-read list. -/
def Sys2Proof.Claims.readsOfFuturesDeliverOrPark : Prop :=
  ∀ consume nw dst a s h x f i, s.sqHere = some h → Unstopped s h → SrcIs (s.regs h) a x → Held s h x f i →
    let e := (s.die h.d).fut f.toNat
    let w := if consume then Instr.getc nw dst a else Instr.get nw dst a
    (e.state = 1 ∨ e.state = 2 → ∃ t r, exec w s = .next t ∧
      (if nw then r = s.regs h else Delivered (s.regs h) r dst.toNat (if e.state = 1 then e.result else 0)) ∧
      t.ply h = (sqNext s h (switched { s.ply h with
        regs := r, holdset := if consume then mdel (s.ply h).holdset i else (s.ply h).holdset })).ply h ∧
      ((t.die h.d).fut f.toNat).reach = if consume then e.reach - 1 else e.reach) ∧
    (e.state = 0 → ∃ t, exec w s = .next t ∧ (t.ply h).phase = .waiting ∧ (t.ply h).wait = some (.fut x dst nw consume) ∧
      (t.ply h).sq = (s.ply h).sq ∧ (t.core h).running = none ∧
      ((t.die h.d).fut f.toNat).dhead = BitVec.ofNat 9 (256 + h.c * 8 + h.k) ∧
      mget 0 (t.core h).dlink h.k = e.dhead)

/-- R51, R198: a get or getc of a value that is not held traps. -/
def Sys2Proof.Claims.readsOfOtherValuesTrap : Prop :=
  ∀ (consume : Bool) nw dst a s h x, s.sqHere = some h → Unstopped s h → SrcIs (s.regs h) a x → s.holds h x = false →
    exec (if consume then Instr.getc nw dst a else Instr.get nw dst a) s = .next (sqTrapped s h (status 0x12 11 3) 0 0)

/-- R57, R61, R200: put and puti fill the caller's own empty future once; pin and unpin set its pinned bit; rcp only goes
on. A second fill traps, and a fill of a doomed future is discarded (R56). That a discarded fill counts as the unit's one fill, so that
the next one traps with reason 12, is the model's reading (log 27), and so is the field code 0 of reason 12 (log 24). -/
def Obligations.FillsAreOnce : Prop :=
  ∀ s h w, s.sqHere = some h → (s.die h.d).unit? (s.ply h).unit = some w →
    let e := (s.die h.d).fut w.fut
    let go := fun (g : Future) => sqNext (s.setDie h.d ((s.die h.d).setFut w.fut g)) h (s.ply h)
    let filled := (s.die h.d).setUnit (s.ply h).unit { w with filled := true }
    let fill := fun (g : Future) => sqNext (s.setDie h.d (filled.setFut w.fut g)) h (s.ply h)
    (∀ a b x y, SrcIs (s.regs h) a x → SrcIs (s.regs h) b y →
      (e.state = 0 → w.filled = false → e.doomed = false →
        exec (.put a b) s = .next (fill { e with state := 1, indirect := false, dhead := 0, result := y ++ x })) ∧
      (e.state = 0 → w.filled = false → e.doomed = true →
        exec (.put a b) s = .next (sqNext (s.setDie h.d filled) h (s.ply h))) ∧
      (e.state ≠ 0 ∨ w.filled = true → exec (.put a b) s = .next (sqTrapped s h (status 0x12 12 0) 0 0)) ∧
      (x.toNat < 2 ^ 56 → y.toNat < 2 ^ 32 → e.state = 0 → w.filled = false → e.doomed = false →
        exec (.puti a b) s = .next (fill { e with
          state := 1, indirect := true, dhead := 0, result := (0 : BitVec 32) ++ y.setWidth 32 ++ x })) ∧
      (x.toNat < 2 ^ 56 → y.toNat < 2 ^ 32 → e.state = 0 → w.filled = false → e.doomed = true →
        exec (.puti a b) s = .next (sqNext (s.setDie h.d filled) h (s.ply h))) ∧
      (x.toNat < 2 ^ 56 → y.toNat < 2 ^ 32 → (e.state ≠ 0 ∨ w.filled = true) →
        exec (.puti a b) s = .next (sqTrapped s h (status 0x12 12 0) 0 0)) ∧
      (2 ^ 56 ≤ x.toNat → exec (.puti a b) s = .next (sqTrapped s h (status 0x12 7 3) 0 0)) ∧
      (x.toNat < 2 ^ 56 → 2 ^ 32 ≤ y.toNat → exec (.puti a b) s = .next (sqTrapped s h (status 0x12 7 4) 0 0))) ∧
    exec .pin s = .next (go { e with pinned := true }) ∧
    (e.doomed = false → exec .unpin s = .next (go { e with pinned := false })) ∧
    (e.doomed = false ∨ e.pinned = true → exec .rcp s = .next (sqNext s h (s.ply h)))

/-- R54, R57, R65: at a reclamation point a doomed unit that is not pinned is stopped: its future is reclaimed with cause 1, or 2 when
an accepted cancel has reached it (log 73), its hold set dropped, and its ply is Stopping. -/
def Obligations.ReclamationPointsStopTheDoomed : Prop :=
  ∀ i ∈ [Instr.rcp, Instr.unpin, Instr.yield, Instr.endUnit], ∀ s h w, s.sqHere = some h →
    (s.die h.d).unit? (s.ply h).unit = some w → ((s.die h.d).fut w.fut).doomed = true →
    (i = Instr.unpin ∨ ((s.die h.d).fut w.fut).pinned = false) →
    ∃ t, exec i s = .next t ∧ (t.ply h).phase = .stopping ∧ (t.ply h).stopWhy = (if w.cancelled then 1 else 2) ∧
      (t.ply h).holdset = [] ∧ (t.core h).running = none ∧ ((t.die h.d).fut w.fut).state = 2 ∧
      ((t.die h.d).fut w.fut).cause = (if w.cancelled then 2 else 1)

/-- R201: cancel returns the status of a level record that is not open to a cancel, and otherwise acts and returns 0. -/
def Obligations.CancelReturnsTheStatusFound : Prop :=
  ∀ nw dst a s h x, s.sqHere = some h → SrcIs (s.regs h) a x →
    let l := (s.die h.d).level x.toNat
    (x.toNat < 65536 → s.sameJob h x.toNat = true → l.status ≠ 0 →
      Gives (.cancel nw dst a) s h nw dst.toNat (l.status.zeroExtend 64) 0) ∧
    (x.toNat < 65536 → s.sameJob h x.toNat = true → l.status = 0 → ∃ t r,
      exec (.cancel nw dst a) s = .next (sqTo t h r ((t.ply h).pco + 4)) ∧ t = (s.cancelLevel h.d x.toNat).1 ∧
      Result (t.regs h) r nw dst.toNat 0 0) ∧
    ((65536 ≤ x.toNat ∨ s.sameJob h x.toNat = false) →
      exec (.cancel nw dst a) s = .next (sqTrapped s h (status 0x12 7 3) 0 0))

/-- R102, R210: flip publishes: the status by the entry's state, and a flip turns the live bit of every dirty chunk. -/
def Obligations.FlipPublishesTheDirtyChunks : Prop :=
  ∀ nw dst (n : BitVec 10) s h, s.sqHere = some h →
    let b := (s.die h.d).buf n.toNat
    (b.valid = false → Gives (.flip nw dst n) s h nw dst.toNat 3 0) ∧
    (b.valid = true → b.discarded = true → Gives (.flip nw dst n) s h nw dst.toNat 2 0) ∧
    (b.valid = true → b.discarded = false → b.written = false → Gives (.flip nw dst n) s h nw dst.toNat 1 0) ∧
    (b.valid = true → b.discarded = false → b.written = true → ∃ r m,
      exec (.flip nw dst n) s = .next (sqTo (s.setDie h.d { s.die h.d with
        mem := m, bufs := mput (s.die h.d).bufs n.toNat { b with written := false, epoch := b.epoch + 1, writers := [] } })
        h r ((s.ply h).pco + 4)) ∧
      Result (s.regs h) r nw dst.toNat 0 0 ∧
      (∀ c < b.chunks.toNat, b.dirty m c = false ∧
        b.live m c = (b.live (s.die h.d).mem c != b.dirty (s.die h.d).mem c)) ∧
      (∀ q, (∀ c < b.chunks.toNat, b.bitAddr c ≠ q) → getByte m q = getByte (s.die h.d).mem q))

/-- R193 to R196, R203: the waits of SQ and the holds on hanks. -/
def Obligations.WaitsPassOrParkAndHankHolds : Prop :=
  Sys2Proof.Claims.waitsPassOrPark ∧ Sys2Proof.Claims.hankHoldsAreTakenAndEnded

/-- R40 to R42, R197: fraise, tok and barr. That barr's trap has field code 0 is the model's (log 24). -/
def Obligations.FlagsTokensAndBarriersAreRaised : Prop :=
  Sys2Proof.Claims.fraiseHoldsAtTheBound ∧ Sys2Proof.Claims.tokensPushAndPop ∧ Sys2Proof.Claims.barrArrivesOnce

/-- R51 to R53, R60, R198: references and reads of futures. The field code 0 of the work traps (log 24) and the order of ref's checks
(log 26) are the model's. -/
def Obligations.ReferencesAndReadsOfFutures : Prop :=
  Sys2Proof.Claims.referencesCountReach ∧ Sys2Proof.Claims.readsOfFuturesDeliverOrPark ∧ Sys2Proof.Claims.readsOfOtherValuesTrap

namespace Sys2Proof.Claims
open Sys2Proof Sys2Proof.Machine

/-- The words `ws` lie at the read pointer of ring `r`, one after the other (R32, R33). -/
def EntryHolds (s : State) (h : Here) (r : Ring) (ws : List Nat) : Prop :=
  ((s.ply h).ring r).entries ≠ [] ∧ ((s.ply h).headE r).words = ws.length ∧
  ∀ i w, ws[i]? = some w → Fetches s h (((s.ply h).ring r).addr (4 * i)) 4 w

/-- The parts of a state that a word writing only registers of its own ply leaves alone: every byte of every die's
store, every other ply, and everything outside the plies and the sequencer of the core. -/
structure OnlyOwnPly (s t : State) (h : Here) : Prop where
  panel : t = { s with dies := t.dies }
  otherDies : ∀ d ≠ h.d, t.die d = s.die d
  die : t.die h.d = { s.die h.d with plies := (t.die h.d).plies, cores := (t.die h.d).cores }
  bytes : ∀ d q, getByte (t.die d).mem q = getByte (s.die d).mem q
  otherPlies : ∀ k ≠ h.key, mget .reset (t.die h.d).plies k = mget .reset (s.die h.d).plies k
  otherCores : ∀ c ≠ h.c, (t.die h.d).core c = (s.die h.d).core c
  core : ∃ r l, t.core h = { s.core h with running := r, last := l }
  ply : ∃ p : Ply, t.ply h = { s.ply h with
    regs := p.regs, sq := { (s.ply h).sq with rd := p.sq.rd }, sqBusy := none, phase := p.phase, halts := p.halts, firstHalt := p.firstHalt }
  regs : t.regs h = { s.regs h with
    g := (t.regs h).g, y0 := (t.regs h).y0, y1 := (t.regs h).y1, y2 := (t.regs h).y2, y3 := (t.regs h).y3,
    aflags := (t.regs h).aflags }

/-- The destination of the words that write at most one scalar register: `none` for one that writes none. -/
def scalarDst (i : Instr) : Option (Option (BitVec 6)) :=
  match i with
  | .add _ d _ _ => some (some d) | .sub _ d _ _ => some (some d) | .and _ d _ _ => some (some d)
  | .or _ d _ _ => some (some d) | .xor _ d _ _ => some (some d) | .andn _ d _ _ => some (some d)
  | .shl _ d _ _ => some (some d) | .shr _ d _ _ => some (some d) | .sar _ d _ _ => some (some d)
  | .rol _ d _ _ => some (some d) | .mul _ d _ _ => some (some d) | .mulh _ d _ _ => some (some d)
  | .mulhu _ d _ _ => some (some d) | .div _ d _ _ => some (some d) | .divu _ d _ _ => some (some d)
  | .rem _ d _ _ => some (some d) | .remu _ d _ _ => some (some d) | .min _ d _ _ => some (some d)
  | .max _ d _ _ => some (some d) | .minu _ d _ _ => some (some d) | .maxu _ d _ _ => some (some d)
  | .clz _ d _ => some (some d) | .ctz _ d _ => some (some d) | .popc _ d _ => some (some d)
  | .adds _ d _ _ => some (some d) | .subs _ d _ _ => some (some d) | .seq _ d _ _ => some (some d)
  | .sne _ d _ _ => some (some d) | .slt _ d _ _ => some (some d) | .sltu _ d _ _ => some (some d)
  | .sge _ d _ _ => some (some d) | .sgeu _ d _ _ => some (some d) | .sli _ d _ _ => some (some d)
  | .addi _ d _ _ => some (some d) | .andi _ d _ _ => some (some d) | .ori _ d _ _ => some (some d)
  | .xori _ d _ _ => some (some d) | .shli _ d _ _ => some (some d) | .shri _ d _ _ => some (some d)
  | .sari _ d _ _ => some (some d) | .slti _ d _ _ => some (some d) | .sltiu _ d _ _ => some (some d)
  | .jal _ d _ => some (some d) | .jalr _ d _ _ => some (some d) | .srd _ d _ => some (some d)
  | .lcnt _ d => some (some d) | .beqz _ _ => some none | .bnez _ _ => some none | .bltz _ _ => some none
  | .bgez _ _ => some none | .bgtz _ _ => some none | .blez _ _ => some none | .bra _ => some none
  | .nop => some none | .trap _ => some none
  | _ => none

end Sys2Proof.Claims

/-- The frame of the words that write at most one scalar register, whatever they end in, a trap included: no byte of any
die's store, no other ply, core or register changes, and AFLAGS change only in `clamp` and only for adds and subs
(R131, R145, R146, R166 to R173). -/
def Obligations.ScalarWordsTouchOnlyTheirPly : Prop :=
  ∀ i o s h t, scalarDst i = some o → s.sqHere = some h → exec i s = .next t →
    OnlyOwnPly s t h ∧ (t.regs h).rdG 0 = 0 ∧
    (∀ n, n ≠ 0 → (∀ d, o = some d → n ≠ d.toNat) → (t.regs h).rdG n = (s.regs h).rdG n) ∧
    ((t.regs h).aflags = (s.regs h).aflags ∨ (t.regs h).aflags = (s.regs h).aflags ||| 32) ∧
    ((∀ nw d a b, i ≠ .adds nw d a b) → (∀ nw d a b, i ≠ .subs nw d a b) → (t.regs h).aflags = (s.regs h).aflags)

namespace Sys2Proof.Claims
open Sys2Proof Sys2Proof.Machine

/-- The constructors whose effect can reach a byte of some die's store: stores, atomics, entries written to rings and chunks
published, drains and copies; what a device writes (the journal, a message, a frame, a chunk, a beat, a command's record, the image
of an evicted unit); and
what can end a unit or a partition, which the journal records. -/
def mayStore (i : Instr) : Bool :=
  match i with
  | .sb .. | .sh .. | .sw .. | .sd .. | .sto .. | .stow .. | .aadd .. | .aand .. | .aor .. | .axor .. | .amin .. | .amax ..
  | .aswap .. | .acas .. | .yield .. | .endUnit .. | .fwait .. | .bwait .. | .mwait .. | .get .. | .getc .. | .unpin ..
  | .rcp .. | .cancel .. | .hawait .. | .enq .. | .flip .. | .vchain .. | .vst .. | .vsts .. | .mop .. | .mdrain .. | .tcopy ..
  | .tflip .. | .unitBind .. | .hankStart .. | .beatArrival .. | .linkCredit .. | .dieFailure .. | .remoteFrameApply .. | .tenqPlace ..
  | .collDeliver .. | .collPublish .. | .trespAbandon .. | .preemptCollectDone .. | .partitionReset .. | .watchdogExpiry ..
  | .uncorrectableSoftError .. | .carderOrLinkLoss .. | .hostMemWrite .. | .cmdNop .. | .cmdOpen .. | .cmdLaunch ..
  | .cmdSeal .. | .cmdCancel .. | .whorlLoad .. | .whorlStart .. | .whorlDrain .. | .whorlFree .. | .whorlReconfigure ..
  | .bufferMapWrite .. | .diepartWrite .. | .vfbindWrite .. | .ctxwinWrite .. | .groupTableWrite .. | .egressLinkEnable ..
  | .egressLinkDown .. | .ethSendAcked .. | .ethSendGivenUp .. | .ethReceiveSend .. | .ethReceiveWrite .. | .powerOn ..
  | .thermalTrip .. | .egressPacketArrival .. => true
  | _ => false

end Sys2Proof.Claims

/-- The frame of every word and event outside `mayStore`, whatever it ends in, a trap included: every byte of every die's store
reads as before. -/
def Obligations.OnlyStoringWordsChangeAByte : Prop :=
  ∀ i s t, mayStore i = false → exec i s = .next t → ∀ d q, getByte (t.die d).mem q = getByte (s.die d).mem q

namespace Sys2Proof.Claims
open Sys2Proof Sys2Proof.Machine

/-- A spawn reaches its checks: its record lies whole in the die's own store, and the spawner's unit and launch stand (R199). -/
structure Spawns (s : State) (h : Here) (a b : BitVec 7) (x m : Word) (bs : List Byte) (w : WUnit) (l : Launch) : Prop where
  here : s.sqHere = some h
  srcA : SrcIs (s.regs h) a x
  srcB : SrcIs (s.regs h) b m
  die : h.d < 64
  record : ∃ pa, Local s h .load x.toNat 256 pa ∧ bs = (List.range 256).map (fun i => getByte (s.die h.d).mem (pa i))
  unit : (s.die h.d).unit? (s.ply h).unit = some w
  launch : (s.die h.d).launch? w.launch = some l

/-- The first check of a spawn of record `lr` that fails, by its class and reason and its field code (R199): the record's key, the
mask, a slot it names, the ring areas, the work table, the future table and the hold set. The field code 0 of the work traps is the
model's (log 24). -/
def spawnRefused (s : State) (h : Here) (l : Launch) (lr : LaunchRec) (m : Word) : Option (Nat × Nat × Nat) :=
  let x := s.die h.d
  let hs := (s.ply h).holdset
  if lr.keyed = true then some (0x12, 7, 3)
  else if 2 ^ 32 ≤ m.toNat ∨ 8 < (maskSlots m).length then some (0x12, 7, 4)
  else if (maskSlots m).any (fun i => (mfind hs i).isNone) then some (0x12, 11, 4)
  else if x.freeAreaOf l.vf lr = none then some (0x13, 7, 0)
  else if (List.range Config.levelCount).all (fun i => (x.level i).used) then some (0x13, 6, 0)
  else if (l.resv = 0 ∧ x.commonFree = 0) ∨ (List.range Config.futCount).all (fun f => decide ((x.fut f).state ≠ 3)) then some (0x13, 1, 0)
  else if freeSlot (dropSlots hs (maskSlots m)) = none then some (0x13, 2, 0)
  else none

end Sys2Proof.Claims

/-- R27, R30, R199: a refused spawn traps with its first failing check and changes nothing. One whose checks pass creates one unit of
the spawner's launch, queued, with the references its mask names and a new future of reach 1, raises the launch's counter, and
returns that future's handle, which is in the lowest slot free after those it passed. Under a cancelling launch there is no unit: the
future is reclaimed with cause 2, and the references that the mask names are dropped; that no unit owns that future is the model's
(log 75). -/
def Obligations.SpawnCreatesOneUnit : Prop :=
  ∀ nw dst a b s h x (m : Word) bs w l, Spawns s h a b x m bs w l →
    let hs := (s.ply h).holdset
    let i : Instr := .spawn nw dst a b
    let at_ := fun f => handle h.d ((s.die h.d).fut f).gen (BitVec.ofNat 16 f)
    (parseLaunch x.toNat bs = none → exec i s = .next (sqTrapped s h (status 0x12 9 3) 0 0)) ∧
    (∀ lr, parseLaunch x.toNat bs = some lr →
      (∀ c, spawnRefused s h l lr m = some c → exec i s = .next (sqTrapped s h (status c.1 c.2.1 c.2.2) 0 0)) ∧
      (spawnRefused s h l lr m = none → ∀ j, freeSlot (dropSlots hs (maskSlots m)) = some j → ∃ t f, exec i s = .next t ∧
        ((s.die h.d).fut f).state = 3 ∧ ((t.die h.d).fut f).gen = ((s.die h.d).fut f).gen ∧
        Result (s.regs h) (t.regs h) nw dst.toNat (at_ f) 0 ∧ (t.ply h).holdset = mput (dropSlots hs (maskSlots m)) j (at_ f) ∧
        (t.ply h).pco = ((s.ply h).pco + 4) % 2 ^ 20 ∧
        (t.die h.d).launch? w.launch = some { l with resv := l.resv - 1 } ∧
        ((s.die h.d).underCancel l.level 5 = false →
          ((t.die h.d).fut f).state = 0 ∧ ((t.die h.d).fut f).reach = 1 ∧
          (((s.die h.d).level l.level).used = true →
            ((t.die h.d).level l.level).outstanding = ((s.die h.d).level l.level).outstanding + 1) ∧
          ∃ u, (t.die h.d).unit? s.fresh = some u ∧ u.launch = w.launch ∧ u.fut = f ∧ u.phase = .queued ∧ u.spawned = true ∧
            u.passed = (maskSlots m).filterMap (mfind hs) ∧
            (s.die h.d).areaUsed l.vf lr.addr u.k = false ∧ (∀ k < u.k, (s.die h.d).areaUsed l.vf lr.addr k = true) ∧
            (t.die h.d).areas = (areaKey l.vf lr.addr, u.k) :: (s.die h.d).areas ∧
            .unit s.fresh ∈ ((t.die h.d).lqc l.queue).items) ∧
        ((s.die h.d).underCancel l.level 5 = true →
          ((t.die h.d).fut f).state = 2 ∧ ((t.die h.d).fut f).cause = 2 ∧ (t.die h.d).units = (s.die h.d).units ∧
          (t.die h.d).levels = (s.die h.d).levels ∧
          ∀ g, ((t.die h.d).fut g).reach = (if g = f then 1 else ((s.die h.d).fut g).reach) -
            BitVec.ofNat 24 ((maskSlots m).countP (fun i => (mfind hs i).any (fun r => decide (r.toNat % 65536 = g)))))))

namespace Sys2Proof.Claims
open Sys2Proof Sys2Proof.Machine

/-- `ws` is a whole entry of ring `r`: a vector word with its literals, a command up to its GO, or 32 words without one; or a zero word
where an entry begins (R33, R152, R204; log 32). -/
def WholeEntry (r : Ring) (ws : List Nat) : Prop :=
  if ringIsVec r then ∃ w lits, ws = w :: lits ∧ lits.length = vecLits w
  else ws = [0] ∨ (ws ≠ [] ∧ ws.headD 0 ≠ 0 ∧ ws.dropLast.any isGo = false ∧
    ((isGo (ws.getLastD 0) = true ∧ ws.length ≤ 32) ∨ ws.length = 32))

/-- The words of an entry lie at `a`. -/
def WordsAt (s : State) (h : Here) (a : Nat) (ws : List Nat) : Prop := ∀ i w, ws[i]? = some w → Fetches s h (a + 4 * i) 4 w

/-- The entries `es` lie one after the other from `a`, each as it is when those before it have been appended, and if `room` is set, each
finds room then (R33, R204). -/
def EntriesAt (s : State) (h : Here) (r : Ring) (room : Bool) (a : Nat) (es : List (List Nat)) : Prop :=
  match es with
  | [] => True
  | ws :: rest => WholeEntry r ws ∧ WordsAt s h a ws ∧ (room = true → ((s.ply h).ring r).room ws.length = true) ∧
      EntriesAt (if room then s.append h r ws false else s) h r room (a + 4 * ws.length) rest

/-- `s` with the entries `es` appended to ring `r`. -/
def appended (s : State) (h : Here) (r : Ring) (es : List (List Nat)) : State := es.foldl (fun t ws => t.append h r ws false) s

/-- R33, R35, R129, R150, R212: what appending one entry of the words `ws` does: the entry with the copies it captures, the write
pointer, and the bytes of the ring. A vsh or vfmt appended to VA sets the shape or the formats that it and every later entry
capture. -/
def appendsOneEntry : Prop :=
  ∀ (s : State) h r ws bad, r ≠ .sq → let p := s.ply h
    let t := s.append h r ws bad
    let q := t.ply h
    (∃ e, (q.ring r).entries = (p.ring r).entries ++ [e] ∧ e.words = ws.length ∧ e.seq = p.nextSeq ∧ e.tag = p.swpts ∧ e.ft = p.ft ∧
      e.bad = bad ∧ e.view = p.know 0 ∧ e.shape = q.regs.vsh ∧ e.fmt = q.regs.vfmt) ∧
    (q.ring r).wr = (p.ring r).move (p.ring r).wr (4 * ws.length) ∧ (q.ring r).rd = (p.ring r).rd ∧
    q.nextSeq = p.nextSeq + (if ringIsVec r then 1 else 0) ∧ (∀ r' ≠ r, q.ring r' = p.ring r') ∧
    q.regs = { p.regs with vsh := q.regs.vsh, vfmt := q.regs.vfmt } ∧
    (∀ esz rows cols push pop, r = .va → ws = encode (.vsh esz rows cols push pop) →
      q.regs.vsh = ⟨rows, esz, cols⟩ ∧ q.regs.vfmt = p.regs.vfmt) ∧
    (∀ df sf push pop, r = .va → ws = encode (.vfmt df sf push pop) →
      q.regs.vsh = p.regs.vsh ∧ q.regs.vfmt = ⟨mget 0 p.ft sf.toNat, mget 0 p.ft df.toNat, sf, df⟩) ∧
    (r ≠ .va ∨ (ws.headD 0 / 2 ^ 26 ≠ 0x29 ∧ ws.headD 0 / 2 ^ 26 ≠ 0x2A) → q.regs = p.regs) ∧
    (∀ pa : Nat → Nat, (∀ i < 4 * ws.length, ∀ j < 4 * ws.length, pa i = pa j → i = j) →
      (∀ mem : Map Byte, (∀ a, (∀ k < 4 * ws.length, pa k ≠ a) → getByte mem a = getByte (s.die h.d).mem a) →
        ∀ i < ws.length, Local (s.mapDie h.d (fun x => { x with mem := mem })) h .store ((p.ring r).wrAddr (4 * i)) 4 (fun j => pa (4 * i + j))) →
      (∀ a, (∀ k < 4 * ws.length, pa k ≠ a) → getByte (t.die h.d).mem a = getByte (s.die h.d).mem a) ∧
      ∀ i w, ws[i]? = some w → valueAt (t.die h.d) (fun j => pa (4 * i + j)) 4 = w % 2 ^ 32)

end Sys2Proof.Claims

/-- R33, R204, R211, R212: enq appends B whole entries from A to any engine ring, those it has appended already passed over; a full ring
stalls it with the entries before appended. More than 65,535 entries or a misaligned address trap. -/
def Obligations.EnqAppendsWholeEntries : Prop :=
  Sys2Proof.Claims.appendsOneEntry ∧
  ∀ a b (ring : BitVec 3) s h x y, s.sqHere = some h → SrcIs (s.regs h) a x → SrcIs (s.regs h) b y →
    (x.toNat % 4 ≠ 0 → exec (.enq a b ring) s = .next (sqTrapped s h (status 0x12 5 3) 0 0)) ∧
    (x.toNat % 4 = 0 → 65535 < y.toNat → exec (.enq a b ring) s = .next (sqTrapped s h (status 0x12 7 4) 0 0)) ∧
    (∀ r ds es, x.toNat % 4 = 0 → y.toNat ≤ 65535 → ringOfCode ring.toNat = some r → r ≠ .sq →
      ds.length = (s.regs h).enqDone.toNat → EntriesAt s h r false x.toNat ds →
      EntriesAt s h r true (x.toNat + 4 * ds.flatten.length) es →
      let t := appended s h r es
      (ds.length + es.length = y.toNat →
        exec (.enq a b ring) s = .next (sqTo t h { t.regs h with enqDone := 0 } ((s.ply h).pco + 4))) ∧
      (∀ ws, ds.length + es.length < y.toNat → WholeEntry r ws →
        WordsAt t h (x.toNat + 4 * (ds ++ es).flatten.length) ws → ((t.ply h).ring r).room ws.length = false → (s.ply h).halts = [] →
        exec (.enq a b ring) s = .next (t.mapRegs h (fun g => { g with enqDone := BitVec.ofNat 16 (ds.length + es.length) }))))

/-- A step runs the instruction its agent's next word decodes to (R32, R34, R142, R161, R206), on a ring once its engine serves
the ply (R38), and then everything that follows at once; a vector entry that has issued goes on with the words it was read with
(R93, R237); an event of the turn runs as itself. -/
def Obligations.StepRunsTheDecodedInstruction : Prop :=
  (∀ (s : State) d c k w i, s.turn = .sq d c → ((s.die d).core c).running = some k → s.powered = true → s.dieOn d = true →
    let h : Here := ⟨d, c, k⟩
    (s.ply h).sqBusy = none → (s.ply h).sqEnd = false → OnlyRuns (s.ply h) →
    s.schedCount h ≤ (s.ply h).schedAt → (s.ply h).pco < (s.ply h).codeLen →
    Fetches s h ((s.ply h).sq.base.toNat + (s.ply h).pco) 4 w → decodeSq w = .ok i → step s = followed (exec i s)) ∧
  (∀ (s : State) d c k r w lits i, s.turn = .ring d c k r ∨ s.turn = .piece d c k r → s.powered = true → s.dieOn d = true →
    ringIsVec r = true → s.engineSlot d c r = some k →
    let h : Here := ⟨d, c, k⟩
    (s.ply h).ringGoes r = true → ((s.ply h).ring r).done = none →
    (if (s.ply h).begun r then ((s.ply h).ring r).issued = w :: lits
      else (s.ply h).slipOk ((s.ply h).headE r) = true ∧ EntryHolds s h r (w :: lits)) → decode r w lits = .ok i →
    step s = followed (exec i ((s.serve h r).mapPly h (fun p => p.mapRing r (fun q => { q with issued := w :: lits }))))) ∧
  (∀ (s : State) d c k r (u : CmdRun) w ws i, s.turn = .ring d c k r → s.powered = true → s.dieOn d = true →
    s.engineSlot d c r = some k →
    let h : Here := ⟨d, c, k⟩
    (s.ply h).ringGoes r = true → ((r = .mx ∧ (s.ply h).mx.cmd = some u) ∨ (r = .tr ∧ (s.ply h).tr.cmd = some u)) →
    (r = .mx → u.stale = false ∧ ((s.ply h).mustStop = false ∨ (s.ply h).mx.mid = true)) →
    u.todo = w :: ws → decode r w.toNat [] = .ok i → step s = followed (exec i (s.serve h r))) ∧
  (∀ (s : State) d c k r ws go i, s.turn = .ring d c k r → s.powered = true → s.dieOn d = true →
    s.engineSlot d c r = some k →
    let h : Here := ⟨d, c, k⟩
    (s.ply h).ringGoes r = true → (r = .mx → (s.ply h).mustStop = false) →
    ((r = .mx ∧ (s.ply h).mx.cmd = none) ∨ (r = .tr ∧ (s.ply h).tr.cmd = none)) →
    EntryHolds s h r (ws ++ [go]) → (∀ w ∈ ws, isGo w = false ∧ ∃ j, decode r w [] = .ok j) →
    isGo go = true → decode r go [] = .ok i → step s = followed (exec i (s.serve h r))) ∧
  (∀ (s : State) i, s.turn = .event i → encode i = [] → s.admits i = true → step s = followed (exec i s))

/-- R142, R161: a word of SQ that is not legal, or its translation fault, traps and performs nothing. -/
def Obligations.IllegalSqWordsTrap : Prop :=
  ∀ (s : State) (h : Here), s.sqHere = some h → (s.ply h).pco < (s.ply h).codeLen →
    (∀ w e, Fetches s h ((s.ply h).sq.base.toNat + (s.ply h).pco) 4 w → decodeSq w = .error e →
      s.fetchSq h = .to (sqTrapped s h (statusWord 0 0x11 e.reason e.field) 0 0)) ∧
    (∀ reason level, s.locate h.d (some h.key) (s.ply h).vf .load none ((s.ply h).sq.base.toNat + (s.ply h).pco) =
        (.fault reason level, false) →
      s.fetchSq h = .to (sqTrapped s h (statusWord 0 0x14 reason level)
        (BitVec.ofNat 56 ((s.ply h).sq.base.toNat + (s.ply h).pco)) 0))

/-- Every step answers a next state: the spec gives every word and every event an effect, and a step runs a word only where
its turn names an agent that can run it. -/
def Obligations.StepNeverStops : Prop := ∀ s, ∃ t, step s = .next t

/-- R142 to R160: decoding the words of a well-formed instruction gives it back, every operand at every value the encoding
admits. -/
def Obligations.DecodeOfEncodeIsTheInstruction : Prop :=
  ∀ i w lits, WellFormed i = true → encode i = w :: lits → ∃ r, decode r w lits = .ok i

/-- R142, R155 to R161: a word that decodes is the encoding of what it decodes to, which is well-formed: no bit is dropped
and no reserved bit accepted. -/
def Obligations.DecodedWordsAreTheirEncoding : Prop :=
  (∀ w i, w < 2 ^ 32 → decodeSq w = .ok i → encode i = [w] ∧ WellFormed i = true) ∧
  (∀ w i, w < 2 ^ 32 → decodeMx w = .ok i → encode i = [w] ∧ WellFormed i = true) ∧
  (∀ w i, w < 2 ^ 32 → decodeTr w = .ok i → encode i = [w] ∧ WellFormed i = true) ∧
  (∀ r w lits i, ringIsVec r = true → w < 2 ^ 32 → lits.length = vecLits w → (∀ l ∈ lits, l < 2 ^ 32) →
    decodeVec r w lits = .ok i → encode i = w :: lits ∧ WellFormed i = true)

/-- The store of every die stays in its canonical form: addresses rise and no zero byte is listed (log 20). -/
def Obligations.StepKeepsMemoryCanonical : Prop := ∀ s t, s.memOk = true → step s = .next t → t.memOk = true

/-- The panel after reset has memory in its canonical form, and the values R386, R211, R252, R333, R349, R395 and R405 give. -/
def Obligations.ResetHoldsTheStatedValues : Prop :=
  let s := State.reset
  s.memOk = true ∧ s.powered = true ∧ (∀ d q, getByte (s.die d).mem q = 0) ∧ (∀ d, (s.die d).dage = 64) ∧
  (∀ d c k, (s.die d).ply c k = Ply.reset) ∧ (Ply.reset.regs.vsh = ⟨63, 3, 15⟩) ∧ (Ply.reset.regs.vfmt.src = 3) ∧
  (∀ v, (s.vf v).en = false ∧ (s.vf v).coCount = 1) ∧ (∀ p, (s.part p).jseq = 1) ∧
  (∀ d f, ((s.die d).fut f).state = 3) ∧ (∀ d b, (s.die d).bar b = ⟨0, 0, 0⟩) ∧
  s.phealth.retLimit = 4 ∧ s.phealth.ceLimit = 65536 ∧ s.invctl.done = true ∧
  s.devGen = 1 ∧ s.devDies = 64 ∧
  (∀ b, (s.block b).trip = 105 ∧ (s.block b).cap = (s.block b).capNext)

namespace Sys2Proof.Claims
open Sys2Proof Sys2Proof.Machine

/-! ## Vector entries -/

/-- A register field of the entry at a ring's read pointer is good under the registers `g` that its agent sees: a latch that is read is
valid with the entry's switch-point tag; a register lies below the ply's count, and is no index value of 248 or more (R93, R149,
R150, R161). -/
def FieldOk (g : PlyRegs) (count tag : Nat) (v : BitVec 8) (reads : Bool) : Prop :=
  if 248 ≤ v.toNat ∧ v.toNat ≤ 251 then reads = true → ∃ w, g.wLatch (v.toNat - 248) = some w ∧ w.tag = tag
  else g.vnum v < count ∧ g.vnum v < 248

/-- The agent of the turn is vector ring `r` of ply h, and the entry at its read pointer, which has not issued, may issue: its fields
are good, its shape fits a register, and its token is there (R40, R93, R149, R213). -/
structure Issues (s : State) (h : Here) (r : Ring) (fs : List (BitVec 8 × Bool)) (pop : Bool) : Prop where
  here : s.vecHere = some (h, r)
  fresh : (s.ply h).begun r = false
  fields : ∀ f ∈ fs, FieldOk ((s.ply h).regsAt r pop) (s.ply h).vcount ((s.ply h).headE r).tag f.1 f.2
  fits : ((s.ply h).headE r).shape.elems * ((s.ply h).headE r).shape.bits ≤ 32768
  token : pop = true → ((s.ply h).ring r).popped = true ∨ (s.ply h).tok (ringPopFrom r) r.code ≠ 0

/-- What a ply knows of VA's writes to the index registers once the entry at the read pointer of ring `r` has started, with the token
that it pops from agent `a`, if it pops one (R93). -/
def learns (p : Ply) (r : Ring) (a : Option Nat) : Map IxView :=
  ((match a with
    | some a => if (p.ring r).popped then p else p.popTok a r.code
    | none => p).told r.code (p.headE r).view).knows

/-- Ply h after the entry of ring `r` has made its pop, with its performance recorded: it awaits retirement (R40). -/
def performed (p : Ply) (r : Ring) (push pop : Bool) (raise : Option Nat) : Ply :=
  let q := p.ring r
  let take := pop && !q.popped
  ({ p with
    toks := if take then mset 0 p.toks (ringPopFrom r * 6 + r.code) (p.tok (ringPopFrom r) r.code - 1) else p.toks
    knows := learns p r (if pop then some (ringPopFrom r) else none) }).setRing r
    { q with popped := q.popped || pop, done := some (push, raise) }

/-- Element `i` of `n` bits of what a source field names. -/
def srcElem (s : State) (h : Here) (v : BitVec 8) (n i : Nat) : Nat := elemAt (s.vsrc h v) n i

/-- `t` is `s` once a result entry of ring `r` has been performed: the destination tile of `k` elements of `n` bits holds
`f`, the rest of the register is kept, the latches have shifted, the flags `m` wait for a release, and the entry awaits its
retirement; what the register held is kept for a ring that nothing orders behind the write, but for no later entry of VA (R216, R215);
nothing else has changed (R92, R94, R132, R215). -/
structure VaResult (s t : State) (h : Here) (r : Ring) (d : BitVec 8) (push pop : Bool) (n k : Nat) (f : Nat → Nat)
    (m : W32) : Prop where
  tile : ∃ v : VReg, (∀ i < k, elemAt v n i = f i % 2 ^ n) ∧
    (∀ q, k * n ≤ 8 * q → getByte v q = if d = 248 then 0 else getByte (s.rdV h ((s.regs h).vnum d)) q) ∧
    (d ≠ 248 → t.rdV h ((s.regs h).vnum d) = v) ∧ (t.regs h).w0 = some ⟨v, ((s.ply h).headE r).tag⟩
  others : ∀ j, (d = 248 ∨ j ≠ (s.regs h).vnum d) → t.rdV h j = s.rdV h j
  shifted : (t.regs h).w1 = (s.regs h).w0 ∧ (t.regs h).w2 = (s.regs h).w1 ∧ (t.regs h).w3 = (s.regs h).w2
  flags : (m = 0 ∧ (t.ply h).pend = (s.ply h).pend) ∨ (m ≠ 0 ∧ ∃ j, (t.ply h).pend = (r.code, j, m) :: (s.ply h).pend)
  ply : t.ply h = { performed (s.ply h) r push pop none with
    regs := (t.ply h).regs, pend := (t.ply h).pend, vaOld := (t.ply h).vaOld, vlOldVa := (t.ply h).vlOldVa }
  seen : (t.ply h).vlOldVa = if d ≠ 248 ∧ (mfind (s.ply h).vlOldVa ((s.regs h).vnum d)).isSome = true
    then mput (s.ply h).vlOldVa ((s.regs h).vnum d) (t.rdV h ((s.regs h).vnum d)) else (s.ply h).vlOldVa
  old : (t.ply h).vaOld = if d = 248 then (s.ply h).vaOld
    else keepOld (s.ply h).vaOld ((s.regs h).vnum d) (s.rdV h ((s.regs h).vnum d))
  regs : t.regs h = { s.regs h with w0 := (t.regs h).w0, w1 := (t.regs h).w1, w2 := (t.regs h).w2, w3 := (t.regs h).w3 }
  panel : t = { s with dies := t.dies }
  dies : ∀ e ≠ h.d, t.die e = s.die e
  die : t.die h.d = { s.die h.d with plies := (t.die h.d).plies, cores := (t.die h.d).cores }

/-- The entry completes with the elements `f` and the flags `m`. -/
def Fills (i : Instr) (s : State) (h : Here) (r : Ring) (d : BitVec 8) (push pop : Bool) (f : Nat → Nat → Nat × W32) : Prop :=
  let e := (s.ply h).headE r
  ∃ t, exec i s = .next t ∧ VaResult s t h r d push pop e.shape.bits e.shape.elems (fun j => (f e.shape.bits j).1)
    ((List.range e.shape.elems).foldl (fun m j => m ||| (f e.shape.bits j).2) 0)

/-- A two-source vector form. -/
abbrev FormV := BitVec 8 → BitVec 8 → BitVec 8 → Bool → Bool → Instr

/-- A saturated element with its flag (R135). -/
def satN {n : Nat} (t : BitVec (n + 1)) : BitVec n × W32 :=
  if t.toInt < -2 ^ (n - 1) then (BitVec.intMin n, 32) else if 2 ^ (n - 1) ≤ t.toInt then (BitVec.intMax n, 32) else (t.setWidth n, 0)

/-- The element-wise integer forms (R218). -/
def vintForms : List (FormV × ((n : Nat) → BitVec n → BitVec n → BitVec n × W32)) :=
  [(.vadd, fun _ x y => (x + y, 0)), (.vsub, fun _ x y => (x - y, 0)), (.vmul, fun _ x y => (x * y, 0)),
   (.vmulh, fun n x y => ((x.signExtend (2 * n) * y.signExtend (2 * n)).extractLsb' n n, 0)),
   (.vand, fun _ x y => (x &&& y, 0)), (.vor, fun _ x y => (x ||| y, 0)), (.vxor, fun _ x y => (x ^^^ y, 0)),
   (.vshl, fun n x y => (x <<< (y.toNat % n), 0)), (.vshr, fun n x y => (x >>> (y.toNat % n), 0)),
   (.vsar, fun n x y => (x.sshiftRight (y.toNat % n), 0)), (.vmin, fun _ x y => (if x.slt y then x else y, 0)),
   (.vmax, fun _ x y => (if x.slt y then y else x, 0)), (.vminu, fun _ x y => (if x.ult y then x else y, 0)),
   (.vmaxu, fun _ x y => (if x.ult y then y else x, 0)),
   (.vadds, fun n x y => satN (x.signExtend (n + 1) + y.signExtend (n + 1))),
   (.vsubs, fun n x y => satN (x.signExtend (n + 1) - y.signExtend (n + 1))),
   (.vcmpeq, fun _ x y => (if x == y then -1 else 0, 0)), (.vcmplt, fun _ x y => (if x.slt y then -1 else 0, 0)),
   (.vcmple, fun _ x y => (if x.sle y then -1 else 0, 0))]

/-- The record a floating form reads with is good: well-formed, in a container of the element size, with no scale byte
(R130, R220). -/
abbrev RecOk (c : W32) (n : Nat) : Prop := recordReason c = none ∧ (fmtOf c).cbits = n ∧ (fmtOf c).scale ≠ 1

/-- The element-wise floating forms: the exact value and its flags before the one rounding (R219, R221). -/
def vfloatForms : List (FormV × (ExNum → ExNum → ExNum × W32)) :=
  [(.vfadd, fun x y => x.add y), (.vfsub, fun x y => x.sub y), (.vfmul, fun x y => x.mul y),
   (.vfmin, fun x y => (x.min y, 0)), (.vfmax, fun x y => (x.max y, 0))]

/-- The floating compares (R223). -/
def vfcmpForms : List (FormV × (ExNum → ExNum → Bool)) :=
  [(.vfcmpeq, fun x y => x.eq y), (.vfcmplt, fun x y => x.lt false y), (.vfcmple, fun x y => x.lt false y || x.eq y)]

/-- A form with one source. -/
abbrev FormU := BitVec 8 → BitVec 8 → Bool → Bool → Instr

end Sys2Proof.Claims

/-- R215, R218, R223: the element-wise integer forms and compares. -/
def Obligations.VectorIntegersAreElementwise : Prop :=
  ∀ f ∈ vintForms, ∀ d a b push pop s h r, Issues s h r [(d, false), (a, true), (b, true)] pop →
    Fills (f.1 d a b push pop) s h r d push pop (fun n j =>
      let x := f.2 n (BitVec.ofNat n (srcElem s h a n j)) (BitVec.ofNat n (srcElem s h b n j))
      (x.1.toNat, x.2))

/-- R219, R221: the element-wise floating forms, one rounding each; the fused form reads its addend from `d`. -/
def Sys2Proof.Claims.vectorFloats : Prop :=
  (∀ f ∈ vfloatForms, ∀ d a b push pop s h r, Issues s h r [(d, false), (a, true), (b, true)] pop →
    let e := (s.ply h).headE r
    RecOk e.fmt.src e.shape.bits → RecOk e.fmt.dst e.shape.bits →
    Fills (f.1 d a b push pop) s h r d push pop (fun n j =>
      let y := f.2 ((fmtOf e.fmt.src).decode (srcElem s h a n j)) ((fmtOf e.fmt.src).decode (srcElem s h b n j))
      let q := roundNE y.1 (fmtOf e.fmt.dst)
      (q.1, y.2 ||| q.2))) ∧
  (∀ d a b push pop s h r, Issues s h r [(d, true), (a, true), (b, true)] pop →
    let e := (s.ply h).headE r
    RecOk e.fmt.src e.shape.bits → RecOk e.fmt.dst e.shape.bits →
    Fills (.vfma d a b push pop) s h r d push pop (fun n j =>
      let g := (fmtOf e.fmt.src).decode
      let y := (g (srcElem s h a n j)).fma (g (srcElem s h b n j)) (g (srcElem s h d n j))
      let q := roundNE y.1 (fmtOf e.fmt.dst)
      (q.1, y.2 ||| q.2))) ∧
  (∀ f ∈ [((.vfneg : FormU), ExNum.negate), (.vfabs, ExNum.abs)], ∀ d a push pop s h r,
    Issues s h r [(d, false), (a, true)] pop →
    let e := (s.ply h).headE r
    RecOk e.fmt.src e.shape.bits → RecOk e.fmt.dst e.shape.bits →
    Fills (f.1 d a push pop) s h r d push pop (fun n j =>
      roundNE (f.2 ((fmtOf e.fmt.src).decode (srcElem s h a n j))) (fmtOf e.fmt.dst)))

/-- R139, R140, R221, R222: the special functions on FP32, and conversion from sf's container to the shape's. -/
def Sys2Proof.Claims.vectorSpecialsAndConversions : Prop :=
  (∀ f ∈ [((.vexp2 : FormU), exp2Num), (.vrcp, rcpNum), (.vrsqrt, rsqrtNum)], ∀ d a push pop s h r,
    Issues s h r [(d, false), (a, true)] pop →
    let e := (s.ply h).headE r
    RecOk e.fmt.src e.shape.bits → RecOk e.fmt.dst e.shape.bits → (fmtOf e.fmt.src).cls = 3 → (fmtOf e.fmt.dst).cls = 3 →
    Fills (f.1 d a push pop) s h r d push pop (fun n j =>
      let y := f.2 (fp32.decode (srcElem s h a n j))
      (y.1.toNat, y.2))) ∧
  (∀ d a push pop s h r, Issues s h r [(d, false), (a, true)] pop →
    let e := (s.ply h).headE r
    recordReason e.fmt.src = none → (fmtOf e.fmt.src).scale ≠ 1 → RecOk e.fmt.dst e.shape.bits →
    e.shape.elems * (fmtOf e.fmt.src).cbits ≤ 32768 →
    Fills (.vcvt d a push pop) s h r d push pop (fun _ j =>
      roundNE ((fmtOf e.fmt.src).decode (srcElem s h a (fmtOf e.fmt.src).cbits j)) (fmtOf e.fmt.dst)))

/-- R139, R140: the bounds, the exact cases, the order and the flags of exp2 on an FP32 operand, and the bounds and the special cases of the
reciprocal and of the reciprocal square root; `value` is the real number that a code stands for. -/
def Sys2Proof.Claims.specialFunctionsKeepTheirBounds : Prop :=
  let real := fun (d : Dy) => (d.m : ℝ) * (2 : ℝ) ^ d.e
  let value := fun (c : W32) => real (fp32.decode c.toNat).dy
  let ulp := fun (n : ℤ) => (2 : ℝ) ^ max (n - 23) (-149)
  (∀ (c : W32) d, fp32.decode c.toNat = .fin d → -149 ≤ real d → real d < 128 →
    let r := exp2Num (.fin d)
    let y := (2 : ℝ) ^ real d
    |value r.1 - y| ≤ 3 / 2 * ulp ⌊real d⌋ ∧ ((∃ n : ℤ, real d = n) → value r.1 = y ∧ r.2 = 0) ∧
    (value r.1 ≠ y → r.2.getLsbD 4 = true) ∧
    ∀ (c' : W32) d', fp32.decode c'.toNat = .fin d' → real d ≤ real d' → real d' < 128 → value r.1 ≤ value (exp2Num (.fin d')).1) ∧
  (∀ d, real d < -149 → exp2Num (.fin d) = (0, 0x18)) ∧ (∀ d, 128 ≤ real d → exp2Num (.fin d) = (0x7F800000, 0x14)) ∧
  (∀ neg, exp2Num (.zero neg) = (0x3F800000, 0)) ∧ exp2Num (.inf true) = (0, 0) ∧ exp2Num (.inf false) = (0x7F800000, 0) ∧
  exp2Num .nan = (0x7FC00000, 0) ∧
  (∀ (c : W32) d, fp32.decode c.toNat = .fin d → let y := (real d)⁻¹
    (|y| < 2 ^ 128 - 2 ^ 103 → |value (rcpNum (.fin d)).1 - y| ≤ ulp (Int.log 2 |y|)) ∧
    (2 ^ 128 - 2 ^ 103 ≤ |y| → (rcpNum (.fin d)).1 = (if d.m < 0 then 0xFF800000 else 0x7F800000) ∧ (rcpNum (.fin d)).2.getLsbD 2 = true)) ∧
  (∀ neg, rcpNum (.zero neg) = (if neg then 0xFF800000 else 0x7F800000, 2) ∧ rcpNum (.inf neg) = (if neg then 0x80000000 else 0, 0)) ∧
  rcpNum .nan = (0x7FC00000, 0) ∧
  (∀ (c : W32) d, fp32.decode c.toNat = .fin d → 0 < real d → let y := (Real.sqrt (real d))⁻¹
    |value (rsqrtNum (.fin d)).1 - y| ≤ ulp (Int.log 2 y)) ∧
  (∀ d, real d < 0 → rsqrtNum (.fin d) = (0x7FC00000, 1)) ∧ rsqrtNum (.inf true) = (0x7FC00000, 1) ∧ rsqrtNum (.inf false) = (0, 0) ∧
  (∀ neg, rsqrtNum (.zero neg) = (if neg then 0xFF800000 else 0x7F800000, 2)) ∧ rsqrtNum .nan = (0x7FC00000, 0)

/-- R223, R224, R227: the floating compares, select and copy. -/
def Sys2Proof.Claims.vectorComparesSelectAndCopy : Prop :=
  (∀ f ∈ vfcmpForms, ∀ d a b push pop s h r, Issues s h r [(d, false), (a, true), (b, true)] pop →
    let e := (s.ply h).headE r
    RecOk e.fmt.src e.shape.bits →
    Fills (f.1 d a b push pop) s h r d push pop (fun n j =>
      (if f.2 ((fmtOf e.fmt.src).decode (srcElem s h a n j)) ((fmtOf e.fmt.src).decode (srcElem s h b n j)) then 2 ^ n - 1 else 0, 0))) ∧
  (∀ d a b push pop s h r, Issues s h r [(d, true), (a, true), (b, true)] pop →
    Fills (.vsel d a b push pop) s h r d push pop (fun n j =>
      (if srcElem s h d n j ≠ 0 then srcElem s h a n j else srcElem s h b n j, 0))) ∧
  (∀ d a push pop s h r, Issues s h r [(d, false), (a, true)] pop →
    Fills (.vmov d a push pop) s h r d push pop (fun n j => (srcElem s h a n j, 0)))

/-- R225: each reduction writes to every element of a row, or of a column, what its elements give. -/
def Sys2Proof.Claims.reductionsFillTheirRowOrColumn : Prop :=
  ∀ col d a push pop s h r, Issues s h r [(d, false), (a, true)] pop →
    let e := (s.ply h).headE r
    let group := fun j => if col then (List.range e.shape.rows).map (fun i => i * e.shape.cols + j % e.shape.cols)
      else (List.range e.shape.cols).map (fun i => j / e.shape.cols * e.shape.cols + i)
    let ints := fun n j => (group j).map (fun i => BitVec.ofNat n (srcElem s h a n i))
    let nums := fun n j => (group j).map (fun i => (fmtOf e.fmt.src).decode (srcElem s h a n i))
    Fills (.vrsum col d a push pop) s h r d push pop (fun n j => ((ints n j).sum.toNat, 0)) ∧
    Fills (.vrmax col d a push pop) s h r d push pop (fun n j =>
      (((ints n j).foldl (fun m x => if m.slt x then x else m) ((ints n j).headD 0)).toNat, 0)) ∧
    (RecOk e.fmt.src e.shape.bits → RecOk e.fmt.dst e.shape.bits →
      Fills (.vrfsum col d a push pop) s h r d push pop (fun n j =>
        let y := sumNums (nums n j)
        let q := roundNE y.1 (fmtOf e.fmt.dst)
        (q.1, y.2 ||| q.2)) ∧
      Fills (.vrfmax col d a push pop) s h r d push pop (fun n j =>
        roundNE ((nums n j).foldl ExNum.max ((nums n j).headD .nan)) (fmtOf e.fmt.dst)))

/-- R139, R140, R219, R221, R222: the floating, special and conversion entries. -/
def Obligations.VectorFloatsRoundOnce : Prop :=
  Sys2Proof.Claims.vectorFloats ∧ Sys2Proof.Claims.vectorSpecialsAndConversions ∧ Sys2Proof.Claims.specialFunctionsKeepTheirBounds

/-- R223 to R225, R227: floating compares, select, copy and the reductions. -/
def Obligations.VectorComparesSelectCopyAndReduce : Prop :=
  Sys2Proof.Claims.vectorComparesSelectAndCopy ∧ Sys2Proof.Claims.reductionsFillTheirRowOrColumn

namespace Sys2Proof.Claims
open Sys2Proof Sys2Proof.Machine

/-! ## Vector entries that write no tile, and memory rows -/

/-- `s` with vector register `n` of ply h holding `v`. -/
def withV (s : State) (h : Here) (n : Nat) (v : VReg) : State := s.wrV h n v

/-- The ply h of `s` becomes `p`. -/
def Turns (i : Instr) (s : State) (h : Here) (p : Ply) : Prop := exec i s = .next (s.setPly h p)

/-- The address of row `i` of a load or store (R234): dense, strided, or at a signed offset of a register. -/
def rowAt (d : AddrDesc) (strided : Bool) (offs : Option VReg) (rb : Nat) (i : Nat) : Int :=
  (d.base.toNat : Int) + match offs with
    | some v => sInt (getLE v (4 * i) 4) 32
    | none => if strided then (i : Int) * d.stride.toInt else ((i * rb : Nat) : Int)

/-- The `n` bytes of a row lie in frames of the issuing die's own store, byte `j` at `pa j`, on no HT page. -/
def RowAt (s : State) (h : Here) (m : Mode) (snap : Snap) (a : Int) (n : Nat) (pa : Nat → Nat) : Prop :=
  s.htRow h m a n = false ∧ (s.locateRow h m snap a n).map Prod.snd = (List.range n).map (fun j => Loc.here (.mem (pa j)))

/-- The bytes of a run of rows of `rb` bytes, row `i` at `at_ i`, lie there, byte `k` at `pa k`. -/
def RowsAt (s : State) (h : Here) (m : Mode) (at_ : Nat → Int) (rb rows : Nat) (pa : Nat → Nat) : Prop :=
  ∀ i < rows, RowAt s h m none (at_ i) rb (fun j => pa (i * rb + j))

/-- The same, and no byte written there moves any of them (no translation table or chunk table lies under the run). -/
def RowsStand (s : State) (h : Here) (m : Mode) (at_ : Nat → Int) (rb rows : Nat) (pa : Nat → Nat) : Prop :=
  ∀ mem : Map Byte, (∀ q, (∀ k < rows * rb, pa k ≠ q) → getByte mem q = getByte (s.die h.d).mem q) →
    RowsAt (s.mapDie h.d (fun x => { x with mem := mem })) h m at_ rb rows pa

/-- The lane whose content lane `l` holds after the first `n` stages of the network under the control word `p` (R239,
R241). -/
def laneFrom (p : Nat) (n l : Nat) : Nat :=
  match n with
  | 0 => l
  | s + 1 =>
    let b := if s ≤ 5 then 5 - s else s - 5
    laneFrom p s (if p.testBit (32 * s + (l / 2 ^ (b + 1) * 2 ^ b + l % 2 ^ b)) then l ^^^ 2 ^ b else l)

/-- Element `i` of `c` bits in the `n` bytes at `pa`. -/
def elemIn (x : Die) (pa : Nat → Nat) (n c i : Nat) : Nat := valueAt x pa n / 2 ^ (c * i) % 2 ^ c

end Sys2Proof.Claims

/-- R213, R214, R226, R228, R231, R240: the vector words that write no tile. No agent but VA sees a write to an index register until it
learns of it (R93, log 84). -/
def Obligations.VectorWordsThatWriteNoTile : Prop :=
  ∀ push pop s h r,
    let p := performed (s.ply h) r push pop none
    let ixSet := fun (n : Nat) (x : Byte) => { p with
      regs := { p.regs with ix := mset 0 p.regs.ix n x }, knows := mput p.knows 2 ⟨(p.know 2).ver + 1, []⟩ }
    (Issues s h r [] pop →
      Turns (.vnop push pop) s h p ∧
      (∀ esz rows cols, Turns (.vsh esz rows cols push pop) s h p) ∧
      (∀ df sf, Turns (.vfmt df sf push pop) s h p) ∧
      (∀ ix a, Turns (.vixset ix a push pop) s h (ixSet ix.toNat a)) ∧
      (∀ ix a, Turns (.vixadd ix a push pop) s h (ixSet ix.toNat (mget 0 p.regs.ix ix.toNat + a))) ∧
      (∀ ad x y z, Turns (.vad ad x y z push pop) s h { p with regs := { p.regs with
        adl := mset .reset p.regs.adl ad.toNat ⟨BitVec.ofNat 56 (x.toNat + y.toNat % 2 ^ 24 * 2 ^ 32), z⟩ } }) ∧
      (∀ ad x y z, Turns (.vsad ad x y z push pop) s h { p with regs := { p.regs with
        ads := mset .reset p.regs.ads ad.toNat ⟨BitVec.ofNat 56 (x.toNat + y.toNat % 2 ^ 24 * 2 ^ 32), z⟩ } }) ∧
      (∀ f, Turns (.vfraise f push pop) s h (performed (s.ply h) r push pop (some f.toNat)))) ∧
    (∀ ix a, Issues s h r [(a, true)] pop →
      Turns (.vixget ix a push pop) s h (ixSet ix.toNat ((BitVec.ofNat (((s.ply h).headE r).shape.bits)
        (srcElem s h a ((s.ply h).headE r).shape.bits 0)).signExtend 8))) ∧
    (∀ q a, Issues s h r [(a, true)] pop →
      Turns (.vpset q a push pop) s h { p with regs := { p.regs with
        p := mset 0 p.regs.p q.toNat (BitVec.ofNat 352 (getLE (s.vsrc h a) 0 44)) } })

/-- R228: a vfwait that is met, one that was granted while it stood, and one that is not met, which blocks only its own ring. -/
def Sys2Proof.Claims.vectorFlagWaitsPassOrStand : Prop :=
  ∀ sub flag thr push pop s h r, Issues s h r [] pop →
    let i : Instr := .vfwait sub flag thr push pop
    let p := performed (s.ply h) r push pop none
    let q := (s.ply h).ring r
    let v := (s.ply h).flag flag.toNat
    (q.granted = false → q.await = none → thr.toNat ≤ v →
      Turns i s h { p with
        flags := if sub then mset 0 p.flags flag.toNat (v - thr.toNat) else p.flags
        knows := (p.told r.code (p.know (flagKey flag.toNat))).knows }) ∧
    (q.granted = true → Turns i s h p) ∧
    (q.granted = false → q.await = none → v < thr.toNat →
      Turns i s h (p.setRing r { q with popped := q.popped || pop, await := some (flag.toNat, thr.toNat, sub) }))

/-- R40: a performed entry retires with its push, or waits while its partner's FIFO holds 16 tokens. -/
def Sys2Proof.Claims.vectorEntriesRetireWithTheirPush : Prop :=
  ∀ d c k r s push raise, let h : Here := ⟨d, c, k⟩
    let p := s.ply h
    ringIsVec r = true → p.ringGoes r = true → (p.ring r).done = some (push, raise) →
    (push = true → 16 ≤ p.tok r.code (ringPushTo r) → exec (.vectorEntryRetire d c k r) s = .next (s.setPly h p)) ∧
    ((push = true → p.tok r.code (ringPushTo r) < 16) →
      ∃ q, exec (.vectorEntryRetire d c k r) s = .next (s.setPly h q) ∧
        (q.ring r).entries = (p.ring r).entries.tail ∧ (q.ring r).done = none ∧ (q.ring r).popped = false ∧
        (q.ring r).rd = (p.ring r).move (p.ring r).rd (4 * (p.headE r).words) ∧
        (∀ a < 6, ∀ b < 6, q.tok a b = p.tok a b + if push = true ∧ a = r.code ∧ b = ringPushTo r then 1 else 0) ∧
        (∀ f, q.flag f = if raise = some f then min (p.flag f + 1) (2 ^ 32 - 1) else p.flag f) ∧
        (∀ r', r' ≠ r → q.ring r' = p.ring r') ∧ q.regs.g = p.regs.g ∧ q.phase = p.phase ∧ q.halts = p.halts)

/-- R93, R216, R232, R234: the loads of a tile, whose rows lie in the die's own store, in a turn that does the whole entry. -/
def Sys2Proof.Claims.vectorLoadsReadTheirRows : Prop :=
  ∀ d ad push pop s h r pa,
    let e := (s.ply h).headE r
    let rb := e.shape.cols * e.shape.bits / 8
    let rows := e.shape.rows
    let desc := mget .reset (s.regs h).adl ad.toNat
    let p := performed (s.ply h) r push pop none
    let g := p.regsAt r false
    let n := g.vnum d
    let done := fun (a : Map AddrDesc) => { p with
      regs := { p.regs with adl := a }, vlIss := none, vlRow := 0
      vlOld := keepOld (s.ply h).vlOld n (s.rdV h n), vlOldVa := keepOld (s.ply h).vlOldVa n (s.rdV h n) }
    let moved := fun (inc strided : Bool) (rows : Nat) => if inc then mset .reset (s.regs h).adl ad.toNat
      { desc with base := desc.base +
        (if strided then (BitVec.ofNat 56 rows) * desc.stride.signExtend 56 else BitVec.ofNat 56 (rows * rb)) }
      else (s.regs h).adl
    (e.shape.bits = 4 → e.shape.cols % 2 = 0) → (s.ply h).vlIss = none → (s.ply h).vlRow = 0 → s.inPieces = false →
    (∀ mode inc, Issues s h r [(d, false)] pop → RowsAt s h .load (rowAt desc (mode ≠ 0) none rb) rb rows pa →
      ∃ v, exec (.vld d mode inc ad push pop) s = .next ((s.wrV h n v).setPly h (done (moved inc (mode ≠ 0) rows))) ∧
        ∀ k, getByte v k = if k < rows * rb then getByte (s.die h.d).mem (pa k) else getByte (s.rdV h n) k) ∧
    (∀ b, Issues s h r [(d, false), (b, true)] pop → RowsAt s h .load (rowAt desc false (some (s.rdRace h [(s.ply h).vaOld] (g.vnum b))) rb) rb rows pa →
      ∃ v, exec (.vldg d ad b push pop) s = .next ((s.wrV h n v).setPly h (done (s.regs h).adl)) ∧
        ∀ k, getByte v k = if k < rows * rb then getByte (s.die h.d).mem (pa k) else getByte (s.rdV h n) k) ∧
    (∀ mode inc, Issues s h r [(d, false)] pop → RowsAt s h .load (rowAt desc false none rb) rb 1 pa →
      ∃ v, exec (.vldb d mode inc ad push pop) s = .next ((s.wrV h n v).setPly h (done (moved inc (mode ≠ 0) 1))) ∧
        ∀ k, getByte v k = if k < rows * rb then getByte (s.die h.d).mem (pa (k % rb)) else getByte (s.rdV h n) k)

/-- R93, R216, R232, R234: the stores of a tile write exactly its rows, in the die's own store, in a turn that does the whole entry. -/
def Sys2Proof.Claims.vectorStoresWriteTheirRows : Prop :=
  ∀ b ad push pop s h r pa,
    let e := (s.ply h).headE r
    let rb := e.shape.cols * e.shape.bits / 8
    let rows := e.shape.rows
    let desc := mget .reset (s.regs h).ads ad.toNat
    let p := performed (s.ply h) r push pop none
    let g := p.regsAt r false
    let wrote := fun (m : Map Byte) => (∀ q, (∀ k < rows * rb, pa k ≠ q) → getByte m q = getByte (s.die h.d).mem q) ∧
      ((∀ i < rows * rb, ∀ j < rows * rb, pa i = pa j → i = j) → ∀ k < rows * rb, getByte m (pa k) = getByte (s.vsRead h (g.vnum b)) k)
    (e.shape.bits = 4 → e.shape.cols % 2 = 0) → (s.ply h).vsIss = none → (s.ply h).rowAt = 0 → s.inPieces = false →
    (∀ mode inc, Issues s h r [(b, true)] pop → RowsStand s h .store (rowAt desc (mode ≠ 0) none rb) rb rows pa →
      ∃ m, wrote m ∧ exec (.vst mode inc ad b push pop) s =
        .next ((s.mapDie h.d (fun x => { x with mem := m })).setPly h { p with
          regs := { p.regs with ads := if inc then mset .reset (s.regs h).ads ad.toNat { desc with base := desc.base +
            (if mode ≠ 0 then (BitVec.ofNat 56 rows) * desc.stride.signExtend 56 else BitVec.ofNat 56 (rows * rb)) }
            else (s.regs h).ads } })) ∧
    (∀ d, Issues s h r [(d, true), (b, true)] pop → RowsStand s h .store (rowAt desc false (some (s.vsRead h (g.vnum d))) rb) rb rows pa →
      ∃ m, wrote m ∧ exec (.vsts d ad b push pop) s = .next ((s.mapDie h.d (fun x => { x with mem := m })).setPly h p))

/-- R239, R241, R242: the permute network moves whole lanes; the quantiser writes the codes and scales of R138. -/
def Obligations.PermuteAndQuantise : Prop :=
  (∀ d a pc push pop s h r, Issues s h r [(d, false), (a, true)] pop →
    let p := (mget 0 (s.regs h).p pc.toNat).toNat
    ∃ t v, exec (.vperm d a pc push pop) s = .next t ∧
      (t.regs h).w0 = some ⟨v, ((s.ply h).headE r).tag⟩ ∧ (t.regs h).w1 = (s.regs h).w0 ∧
      (d ≠ 248 → t.rdV h ((s.regs h).vnum d) = v) ∧
      (∀ j, (d = 248 ∨ j ≠ (s.regs h).vnum d) → t.rdV h j = s.rdV h j) ∧
      t.ply h = { performed (s.ply h) r push pop none with
        regs := (t.ply h).regs, vaOld := (t.ply h).vaOld, vlOldVa := (t.ply h).vlOldVa } ∧
      ∀ l < 64, ∀ j < 64, getByte v (64 * l + j) = getByte (s.vsrc h a) (64 * laneFrom p 11 l + j)) ∧
  (∀ d a b push pop s h r, Issues s h r [(d, false), (a, true), (b, false)] pop → ¬(248 ≤ b.toNat ∧ b.toNat ≤ 251) →
    let e := (s.ply h).headE r
    let n := (fmtOf e.fmt.dst).cbits
    let nb := (s.regs h).vnum b
    e.shape.elems % 32 = 0 → (d = 248 ∨ nb ≠ (s.regs h).vnum d) →
    RecOk e.fmt.src e.shape.bits → recordReason e.fmt.dst = none → e.shape.elems * n ≤ 32768 →
    (fmtOf e.fmt.dst).cls = 0 → (fmtOf e.fmt.dst).scale = 1 →
    let block := fun k => quantBlock e.fmt.dst ((List.range 32).map (fun j =>
      (fmtOf e.fmt.src).decode (srcElem s h a e.shape.bits (32 * k + j))))
    ∃ t v, exec (.vquant d a b push pop) s = .next t ∧
      (t.regs h).w0 = some ⟨v, e.tag⟩ ∧ (d ≠ 248 → t.rdV h ((s.regs h).vnum d) = v) ∧
      (∀ i < e.shape.elems, elemAt v n i = (block (i / 32)).2.1.getD (i % 32) 0 % 2 ^ n) ∧
      (∀ k, getByte (t.rdV h nb) k = if k < e.shape.elems / 32 then BitVec.ofNat 8 (block k).1 else getByte (s.rdV h nb) k) ∧
      (∀ j, j ≠ nb → (d = 248 ∨ j ≠ (s.regs h).vnum d) → t.rdV h j = s.rdV h j) ∧
      t.ply h = { performed (s.ply h) r push pop none with
        regs := (t.ply h).regs, pend := (t.ply h).pend, vaOld := (t.ply h).vaOld, vlOldVa := (t.ply h).vlOldVa })

/-- R243 to R246: a chain reads its descriptor once it issues, runs block after block, and retires when every element is written. -/
def Obligations.ChainsRunInBlocks : Prop :=
  ∀ lit1 lit2 ops push pop s h, s.vecHere = some (h, .va) →
    let e := (s.ply h).headE .va
    let i : Instr := .vchain lit1 lit2 ops push pop
    let p := performed (s.ply h) .va push pop none
    let sf := fmtOf e.fmt.src
    let df := fmtOf e.fmt.dst
    recordReason e.fmt.src = none → sf.scale ≠ 1 → recordReason e.fmt.dst = none → df.scale ≠ 1 →
    (∀ pa, Issues s h .va [] pop → Local s h .load (lit1.toNat + lit2.toNat % 2 ^ 24 * 2 ^ 32) 64 pa →
      let v := valueAt (s.die h.d) pa 64
      (v / 2 ^ 56 % 2 ^ 8 = 0 ∧ v / 2 ^ 120 % 2 ^ 8 = 0 ∧ v / 2 ^ 184 % 2 ^ 8 = 0 ∧ v / 2 ^ 248 % 2 ^ 8 = 0 ∧
        v / 2 ^ 288 % 2 ^ 32 = 0 ∧ v / 2 ^ 448 = 0) →
      Turns i s h { (p.setRing .va { p.ring .va with done := (s.ply h).va.done }) with
        chain := some ⟨BitVec.ofNat 512 v, 0, some (s.die h.d).sample, 0⟩ }) ∧
    (∀ c, (s.ply h).chain = some c → c.desc.toNat / 2 ^ 256 % 2 ^ 32 ≤ c.blocks * 1024 →
      Turns i s h ((({ s.ply h with chain := none }).noteFlags 2 c.flags).mapRing .va (fun q => { q with done := some (push, none) }))) ∧
    (∀ c snap (pa : Nat → Nat → Nat), (s.ply h).chain = some c → c.snap = some snap →
      let v := c.desc.toNat
      let count := v / 2 ^ 256 % 2 ^ 32
      let i0 := c.blocks * 1024
      let n := min 1024 (count - i0)
      let span := fun k => (n * (if k = 3 then df.cbits else sf.cbits) + 7) / 8
      i0 < count →
      (∀ k < 3, chainUses ops k = true →
        RowAt s h .load (some snap) ((v / 2 ^ (64 * k) % 2 ^ 56 + i0 * sf.cbits / 8 : Nat) : Int) (span k) (pa k)) →
      RowAt s h .store none ((v / 2 ^ 192 % 2 ^ 56 + i0 * df.cbits / 8 : Nat) : Int) (span 3) (pa 3) →
      (∀ i < span 3, ∀ j < span 3, pa 3 i = pa 3 j → i = j) →
      ∃ t, exec i s = .next t ∧ (t.ply h).chain.map (·.blocks) = some (c.blocks + 1) ∧
        (∀ q, (∀ j < span 3, pa 3 j ≠ q) → getByte (t.die h.d).mem q = getByte (s.die h.d).mem q) ∧
        ∀ j < n,
          let xs := (List.range 3).map (fun k => if chainUses ops k then sf.decode (elemIn (s.die h.d) (pa k) (span k) sf.cbits j)
            else .zero false)
          let ks := (List.range 4).map (fun k => fp32.decode (v / 2 ^ (320 + 32 * k) % 2 ^ 32))
          elemIn (t.die h.d) (pa 3) (span 3) df.cbits j = (roundNE (chainElem ops xs ks).1 df).1 % 2 ^ df.cbits)

/-- R40, R228: flag waits of the vector rings, and the retirement of a performed entry. -/
def Obligations.VectorWaitsAndRetirement : Prop :=
  Sys2Proof.Claims.vectorFlagWaitsPassOrStand ∧ Sys2Proof.Claims.vectorEntriesRetireWithTheirPush

/-- R232, R234: the tile loads and stores. -/
def Obligations.TileLoadsAndStoresMoveTheirRows : Prop :=
  Sys2Proof.Claims.vectorLoadsReadTheirRows ∧ Sys2Proof.Claims.vectorStoresWriteTheirRows

namespace Sys2Proof.Claims
open Sys2Proof Sys2Proof.Machine

/-! ## Commands of MX and TR -/

/-- The agent of the turn is command ring `r` of ply h, and `c` is the command in progress there. -/
structure Runs (s : State) (h : Here) (r : Ring) (c : CmdRun) : Prop where
  here : s.ringHere r = some h
  cmd : (s.ply h).cmd r = some c

/-- The command once its first word is done. -/
def stepped (c : CmdRun) : CmdRun := { c with todo := c.todo.drop 1, iter := 0, early := [], rows := [] }

/-- Ply h after a word of MX that leaves the MX state `m`: the shadow loop table becomes the active one after the last state
word (R254 step 4). -/
def mxSet (p : Ply) (c : CmdRun) (m : MxState) : Ply :=
  { p with mx := { m with
      active := if (c.todo.drop 1).any (fun w => decide (4 ≤ w.toNat / 2 ^ 27) && decide (w.toNat / 2 ^ 27 ≤ 8)) then m.active else m.shadow
      cmd := some (stepped c) } }

/-- Ply h after a word of TR that leaves the TR state `m`. -/
def trSet (p : Ply) (c : CmdRun) (m : TrState) : Ply := { p with tr := { m with cmd := some (stepped c) } }

/-- The four address registers of MX by `tgt` (R255). -/
def mxAddrs : List (BitVec 2 × (MxState → BitVec 56) × (MxState → BitVec 56 → MxState)) :=
  [(0, (·.aAddr), fun m a => { m with aAddr := a }), (1, (·.fillAddr), fun m a => { m with fillAddr := a }),
   (2, (·.drainAddr), fun m a => { m with drainAddr := a }), (3, (·.scaleAddr), fun m a => { m with scaleAddr := a })]

/-- The four address registers of TR by `tgt` (R277). -/
def trAddrs : List (BitVec 2 × (TrState → BitVec 56) × (TrState → BitVec 56 → TrState)) :=
  [(0, (·.saddr), fun m a => { m with saddr := a }), (1, (·.daddr), fun m a => { m with daddr := a }),
   (2, (·.stampAddr), fun m a => { m with stampAddr := a }), (3, (·.ctrAddr), fun m a => { m with ctrAddr := a })]

/-- Ply h after a word of ring `r`. -/
def wordOver (p : Ply) (r : Ring) (c : CmdRun) : Ply := p.setCmd r (some (stepped c))

/-- Ply h after one of `n` rows or iterations of a word. -/
def rowOver (p : Ply) (r : Ring) (c : CmdRun) (n : Nat) : Ply :=
  p.setCmd r (some (if n ≤ c.iter + 1 then stepped c else { c with iter := c.iter + 1 }))

/-- Only the lathes `ns` and ply h have changed, and the fresh counter. -/
structure OnlyLathes (s t : State) (h : Here) (ns : List Nat) : Prop where
  panel : t = { s with dies := t.dies, fresh := t.fresh }
  otherDies : ∀ d ≠ h.d, t.die d = s.die d
  die : t.die h.d = { s.die h.d with plies := (t.die h.d).plies, lathes := (t.die h.d).lathes }
  otherPlies : ∀ k ≠ h.key, mget .reset (t.die h.d).plies k = mget .reset (s.die h.d).plies k
  others : ∀ n, n ∉ ns → (t.die h.d).lathe n = (s.die h.d).lathe n

/-- Element `k` of the 512 code bytes at `co`, with its block scale behind `so` (R125, R127, R263). -/
def passElemAt (f : Fmt) (codes scales : Map Byte) (co so k : Nat) : ExNum :=
  let v := f.decode (elemAt codes f.cbits (co * 8 / f.cbits + k))
  if f.scale = 1 then scaled v (getByte scales (so + k / 32)) else v

/-- What a GO word's pop and wait need to pass (R40, R41, R154). -/
structure GoPasses (p : Ply) (r : Ring) (pop : BitVec 3) (wf : BitVec 6) (thr : BitVec 7) : Prop where
  token : ∀ q, ringOfCode pop.toNat = some q → (p.ring r).popped = true ∨ p.tok q.code r.code ≠ 0
  flag : thr = 0 ∨ (p.ring r).granted = true ∨ ((p.ring r).await = none ∧ thr.toNat ≤ p.flag wf.toNat)

/-- Ply h once they have passed. -/
def goPassed (p : Ply) (r : Ring) (pop : BitVec 3) (wf : BitVec 6) (thr : BitVec 7) (sub : Bool) : Ply :=
  let q := p.ring r
  let p0 := { p with knows := learns p r ((ringOfCode pop.toNat).map Ring.code) }
  let p1 := match ringOfCode pop.toNat with
    | none => p0
    | some a => if q.popped then p0 else
        { p0 with toks := mset 0 p.toks (a.code * 6 + r.code) (p.tok a.code r.code - 1) }.setRing r { q with popped := true }
  if thr = 0 then p1
  else { p1 with
    flags := if sub && !q.granted then mset 0 p1.flags wf.toNat (p.flag wf.toNat - thr.toNat) else p1.flags
    knows := if q.granted then p1.knows else (p1.told r.code (p1.know (flagKey wf.toNat))).knows }.setRing r
    { p1.ring r with granted := true }

end Sys2Proof.Claims

/-- R255 to R257, R277, R278: each state word writes the field it names and nothing else. -/
def Obligations.StateWordsWriteTheirField : Prop :=
  (∀ s h c, Runs s h .mx c →
    let p := s.ply h
    let m := p.mx
    let sets := fun (i : Instr) (m' : MxState) => exec i s = .next (s.setPly h (mxSet p c m'))
    (∀ e ∈ mxAddrs, ∀ b, sets (.mah e.1 b) (e.2.2 m (b ++ (e.2.1 m).extractLsb' 0 31)) ∧
      sets (.mal e.1 b) (e.2.2 m ((e.2.1 m).extractLsb' 31 25 ++ b ++ 0#6))) ∧
    (∀ f, sets (.mafmt f) { m with aRec := mget 0 c.entry.ft f.toNat, aIx := f }) ∧
    (∀ pl f slot, sets (.mlatch pl f false slot)
      { m with wRec := mget 0 c.entry.ft f.toNat, wIx := f, wSlot := slot, wSlack := false, wPlane := pl, bound := none }) ∧
    (∀ pl f slot, sets (.mlatch pl f true slot)
      { m with wRec := mget 0 c.entry.ft f.toNat, wIx := f, wSlot := slot, wSlack := true, wPlane := pl, bound := c.entry.bind }) ∧
    (∀ l v, let x := mget .reset m.shadow l.toNat
      sets (.mloop l 0 v) { m with shadow := mset .reset m.shadow l.toNat { x with count := v } } ∧
      sets (.mloop l 1 v) { m with shadow := mset .reset m.shadow l.toNat { x with astr := v } } ∧
      sets (.mloop l 2 v) { m with shadow := mset .reset m.shadow l.toNat { x with sstr := v } } ∧
      sets (.mloop l 3 v) { m with shadow := mset .reset m.shadow l.toNat { x with rstr := v } })) ∧
  (∀ s h c, Runs s h .tr c →
    let p := s.ply h
    let m := p.tr
    let sets := fun (i : Instr) (m' : TrState) => exec i s = .next (s.setPly h (trSet p c m'))
    (∀ e ∈ trAddrs, ∀ b, sets (.tah e.1 b) (e.2.2 m (b ++ (e.2.1 m).extractLsb' 0 31)) ∧
      sets (.tal e.1 b) (e.2.2 m ((e.2.1 m).extractLsb' 31 25 ++ b ++ 0#6))) ∧
    (∀ e ∈ trAddrs, ∀ b, sets (.tlb e.1 b) (e.2.2 m ((e.2.1 m).extractLsb' 6 50 ++ b))) ∧
    (∀ rows rb, sets (.tshape rows rb) { m with rowbytes := rb, rowsM1 := rows }) ∧
    (∀ st, sets (.tstride false st) { m with sstr := st } ∧ sets (.tstride true st) { m with dstr := st }))

/-- R258, R265, R267, R270: claiming and releasing a slot, zeroing an accumulator, the fence and the window. -/
def Sys2Proof.Claims.controlWordsClaimAndRelease : Prop :=
  ∀ s h c, Runs s h .mx c →
    let p := wordOver (s.ply h) .mx c
    let l := (s.die h.d).lathe h.lathe
    (exec .mfence s = .next (s.setPly h p)) ∧
    (∀ n, mfind l.slots n.toNat = none →
      ∃ t, exec (.mclaim n) s = .next t ∧ OnlyLathes s t h [h.lathe] ∧ t.ply h = p ∧ t.fresh = s.fresh + 1 ∧
        (t.die h.d).lathe h.lathe = { l with slots := mput l.slots n.toNat ⟨h.c, h.k, s.fresh, []⟩ }) ∧
    (∀ n o, mfind l.slots n.toNat = some o →
      exec (.mclaim n) s = .next (if o.core = h.c ∧ o.slot = h.k then s.setPly h p else s)) ∧
    (∀ n o, mfind l.slots n.toNat = some o → o.core = h.c → o.slot = h.k →
      (∀ b ∈ (s.ply h).mxBehind, b.before (s.ply h).mx = true → b.usesSlot n.toNat = false) →
      ∃ t, exec (.mrel n) s = .next t ∧ OnlyLathes s t h [h.lathe] ∧ t.ply h = p ∧ t.fresh = s.fresh ∧
        (t.die h.d).lathe h.lathe = { l with slots := mdel l.slots n.toNat }) ∧
    (∀ n, (∀ o, mfind l.slots n.toNat = some o → ¬(o.core = h.c ∧ o.slot = h.k)) →
      (∀ b ∈ (s.ply h).mxBehind, b.before (s.ply h).mx = true → b.usesSlot n.toNat = false) →
      exec (.mrel n) s = .next (s.setPly h p)) ∧
    (∀ mode, ∃ t, exec (.mwin mode) s = .next t ∧ OnlyLathes s t h [h.lathe] ∧ t.ply h = p ∧ t.fresh = s.fresh ∧
      (t.die h.d).lathe h.lathe = { l with winMode := decide (mode = 1) }) ∧
    (∀ n, (∃ b ∈ (s.ply h).mxBehind, b.before (s.ply h).mx = true ∧ b.usesSlot n.toNat = true) → exec (.mrel n) s = .next s) ∧
    (∀ a, c.early = [] → ∃ t, exec (.mzero a) s = .next t ∧ OnlyLathes s t h c.group ∧ t.ply h = p ∧
      (∀ n ∈ c.group,
        (t.die h.d).tileOf h n a.toNat = ((s.die h.d).tileOf h n a.toNat).map (fun u => { u with acc := [], valid := true }) ∧
        ∀ k ≠ h.sideKey a.toNat, mfind ((t.die h.d).lathe n).tiles k = mfind ((s.die h.d).lathe n).tiles k))

/-- The `n` bytes that a command accesses from `a` lie in frames of the issuing die's own store, byte `j` at `pa j`. -/
def MxAt (s : State) (h : Here) (c : CmdRun) (m : Mode) (snap : Snap) (a n : Nat) (pa : Nat → Nat) : Prop :=
  (s.mxRow h c m snap (a : Int) n).map Prod.snd = (List.range n).map (fun j => Loc.here (.mem (pa j)))

/-- R119, R259, R266: a row of a fill and a row of a drain, no unit of which has been performed out of its order; a byte of an HT page
has been read at the issue of its command. -/
def Sys2Proof.Claims.fillsAndDrainsMoveTheirRows : Prop :=
  (∀ s h c rows slot (pa : Nat → Nat) o, Runs s h .mx c → (s.die h.d).slotOf h slot.toNat = some o →
    c.early = [] → MxAt s h c .load c.snap ((s.ply h).mx.fillAddr.toNat + 512 * c.iter) 512 pa →
    ∃ t d, exec (.mfill rows slot) s = .next t ∧ OnlyLathes s t h [h.lathe] ∧
      t.ply h = rowOver (s.ply h) .mx c (rows.toNat + 1) ∧
      (t.die h.d).slotOf h slot.toNat = some { o with data := d } ∧
      (∀ n ≠ slot.toNat, mfind ((t.die h.d).lathe h.lathe).slots n = mfind ((s.die h.d).lathe h.lathe).slots n) ∧
      ∀ a, mfind d a = if 512 * c.iter ≤ a ∧ a < 512 * c.iter + 512 then
          some ((mfind c.pre (((s.ply h).mx.fillAddr.toNat + a) % 2 ^ 56)).getD (getByte (s.die h.d).mem (pa (a - 512 * c.iter))))
        else mfind o.data a) ∧
  (∀ s h c rows fmt acc (pa : Nat → Nat), Runs s h .mx c →
    let f := fmtOf (mget 0 c.entry.ft fmt.toNat)
    let gs := c.group
    let n := gs.length * 128 * f.cbits / 8
    c.early = [] → MxAt s h c .engine none ((s.ply h).mx.drainAddr.toNat + c.iter * n) n pa →
    (∀ i < n, ∀ j < n, pa i = pa j → i = j) →
    ∃ m fl, exec (.mdrain rows fmt acc) s = .next ((s.mapDie h.d (fun x => { x with mem := m })).setPly h
        (rowOver (s.ply h) .mx { c with flags := fl } (rows.toNat + 1))) ∧
      (∀ q, (∀ j < n, pa j ≠ q) → getByte m q = getByte (s.die h.d).mem q) ∧
      ∀ k g, gs[k]? = some g → ∀ col < 128,
        elemIn { s.die h.d with mem := m } pa n f.cbits (128 * k + col) =
          (roundNE (fp32.decode (mget 0 (((s.die h.d).tileOf h g acc.toNat).getD default).acc (128 * c.iter + col)).toNat) f).1 % 2 ^ f.cbits)

/-- R137, R260, R264: one pass of a mop: into each element of the row, in each lathe of the group, goes the exact sum of
the products and the accumulator, rounded once; and what a latch from slots puts into the planes. -/
def Obligations.PassesAccumulateTheExactSum : Prop :=
  (∀ s h c gang accOff negB negA acc held t1 t2 bs, Runs s h .mx c → c.early = [] → c.rows = [] →
    let m := (s.ply h).mx
    let ls := if gang = 1 then gangOf h.lathe else [h.lathe]
    let w := m.wSlot.toNat + m.coord LoopLevel.sstr c.iter
    let row := (m.coord LoopLevel.rstr c.iter).toNat
    let plane := if c.prev = some w then c.plane else if c.prev = none then m.wPlane else !c.plane
    (if c.prev = some w then Latched.ok c.held s
      else match c.next with
        | some p => Latched.ok p s
        | none => s.latch h c (b2n plane) w ls []) = Latched.ok held t1 →
    t1.aRow h c (m.aAddr.toNat + m.coord LoopLevel.astr c.iter) (512 + scaleBytes (fmtOf m.aRec)) = (bs, t2) →
    (∀ n ∈ ls, (t2.die h.d).tileOf h n acc.toNat ≠ none) →
    ∃ t, exec (.mop gang accOff negB negA acc) s = .next t ∧
      (∃ fl, t.ply h = rowOver (t2.ply h) .mx { c with
        prev := some w, plane := plane, held := held, latching := false, flags := fl, next := if c.prev = some w then c.next else none,
        seen := if c.seen.contains row then c.seen else row :: c.seen } (m.below 6)) ∧
      ∀ n ∈ ls, ∀ u, (t2.die h.d).tileOf h n acc.toNat = some u →
        ∃ u', (t.die h.d).tileOf h n acc.toNat = some u' ∧ u'.valid = u.valid ∧
          (∀ k, k / 128 ≠ row → mget 0 u'.acc k = mget 0 u.acc k) ∧
          ∀ col < 128,
            let base := if accOff ∧ row ∉ c.seen then 0x80000000 else mget 0 u.acc (128 * row + col)
            let af := fmtOf m.aRec
            let wf := fmtOf m.wRec
            let raw := putBytes [] 0 bs
            let pl := mget default held n
            let sgn := fun (neg : Bool) (x : ExNum) => if neg then x.negate else x
            let prod := fun k => (sgn negA (passElemAt af raw raw 0 512 k)).mul
              (sgn negB (passElemAt wf pl.data pl.scales (512 * col) (32 * col) k))
            mget 0 u'.acc (128 * row + col) = BitVec.ofNat 32
              (roundNE (lathSum (fp32.decode base.toNat) ((List.range (min (4096 / af.cbits) (4096 / wf.cbits))).map prod)).1 fp32).1) ∧
  (∀ s h c plane w ls held (o : Nat → OpSlot), (s.ply h).mx.wSlack = false → (fmtOf (s.ply h).mx.wRec).scale ≠ 1 → ls.Nodup →
    (∀ i < ls.length, (s.die h.d).slotOf h (w + (i : Int)).toNat = some (o i)) →
    ∃ t held', s.latch h c plane w ls held = .ok held' t ∧ OnlyLathes s t h ls ∧ t.ply h = s.ply h ∧
      ∀ i n, ls[i]? = some n → ∃ pl, mfind held' n = some pl ∧ mfind ((t.die h.d).lathe n).planes (h.sideKey plane) = some pl ∧
        (t.die h.d).lathe n = { (s.die h.d).lathe n with planes := mput ((s.die h.d).lathe n).planes (h.sideKey plane) pl } ∧
        ∀ a < 65536, getByte pl.data a = (o i).byte a)

/-- R254, R276: a GO word makes its pop and its wait once, then its command starts, state words first; an ill-formed command
halts its ring with the reason. That the fault of a descriptor comes before the cases of R297 is the model's (log 86). -/
def Obligations.GoWordsStartTheirCommand : Prop :=
  ∀ wf thr sub re rf pop push s h,
    (s.ringHere .mx = some h → (s.ply h).mx.cmd = none →
      let i : Instr := .goMx wf thr sub re rf pop push
      (∀ q, ringOfCode pop.toNat = some q → ((s.ply h).ring .mx).popped = false → (s.ply h).tok q.code 4 = 0 → exec i s = .next s) ∧
      (GoPasses (s.ply h) .mx pop wf thr →
        let p := goPassed (s.ply h) .mx pop wf thr sub
        let s1 := s.setPly h p
        let e := p.headE .mx
        let ws := (s1.entryWords h .mx).dropLast
        let m := p.mx.after e ws
        let s2 := s1.mapDie h.d (fun x => ws.foldl (fun x w => match accNamed w with
          | none => x
          | some a => x.bindTile h h.lathe a false) x)
        ((s1.die h.d).namedTiles h ws).any ((s1.die h.d).tileTaken h) = false →
        firstRec (mxRecs m e ws) = none →
        (∀ reason field, p.mxBehind = [] → s2.mxIll h m e ws = some (reason, field) →
          ∃ t x, exec i s = .next t ∧ mfind (t.ply h).halts 4 = some x ∧ x.status = statusWord 0 0x22 reason field ∧
            (t.ply h).mx = p.mx) ∧
        (p.mayOverlap m ws = true → s2.mxIll h m e ws = none → s2.mxFault h (s2.mxRanges h m e ws) = none →
          (s2.mxPages h (s2.mxRanges h m e ws)).any (fun e => e.2.ht) = false → mfind p.halts 4 = none →
          ∃ t c, exec i s = .next t ∧ t.ply h = { p with mx := { p.mx with cmd := some c } } ∧
            c.todo = (ws.filter isMxState ++ ws.filter (fun w => !isMxState w)).map (BitVec.ofNat 32) ∧
            c.re = re ∧ c.rf = rf ∧ c.push = push ∧ c.entry = e ∧ c.iter = 0 ∧ c.prev = none ∧ c.seen = [] ∧ c.flags = 0 ∧
            c.early = [] ∧ c.rows = [] ∧ c.next = none ∧ c.pre = [] ∧ c.stale = false))) ∧
    (s.ringHere .tr = some h → (s.ply h).tr.cmd = none →
      let i : Instr := .goTr wf thr sub re rf pop push
      (∀ q, ringOfCode pop.toNat = some q → ((s.ply h).ring .tr).popped = false → (s.ply h).tok q.code 5 = 0 → exec i s = .next s) ∧
      (GoPasses (s.ply h) .tr pop wf thr →
        let p := goPassed (s.ply h) .tr pop wf thr sub
        let s1 := s.setPly h p
        let ws := (s1.entryWords h .tr).dropLast
        let m := p.tr.after ws
        let coll := (trOps ws).any isTcoll
        (coll = true → 4 ≤ (s1.die h.d).collsOut p.unit → exec i s = .next s1) ∧
        ((coll = true → (s1.die h.d).collsOut p.unit < 4) →
        (∀ f, coll = true → s1.trFetch h (some (s1.die h.d).sample) m.saddr.toNat 64 = .error f →
          ∃ t x, exec i s = .next t ∧ mfind (t.ply h).halts 5 = some x ∧ x.status = statusWord 0 0x14 f.2.1 f.2.2 ∧
            x.addr = BitVec.ofNat 56 f.1 ∧ (t.ply h).tr = p.tr) ∧
        ∀ bs t1,
        (if coll then s1.trFetch h (some (s1.die h.d).sample) m.saddr.toNat 64 else .ok ([], s1)) = .ok (bs, t1) →
        (coll = true → ∀ i < 64, s1.trHt h h.d .load ((m.saddr.toNat + i : Nat) : Int) = false) →
        ((p.headE .tr).bad = true →
          ∃ t x, exec i s = .next t ∧ mfind (t.ply h).halts 5 = some x ∧ x.status = statusWord 0 0x23 1 0 ∧ (t.ply h).tr = p.tr) ∧
        ((p.headE .tr).bad = false → 1 < (trOps ws).length →
          ∃ t x, exec i s = .next t ∧ mfind (t.ply h).halts 5 = some x ∧ x.status = statusWord 0 0x23 2 0 ∧ (t.ply h).tr = p.tr) ∧
        (∀ reason, (p.headE .tr).bad = false → (trOps ws).length ≤ 1 → ((trOps ws).filterMap (fun i => t1.trIll h m i (leNat bs))).head? = some reason →
          ∃ t x, exec i s = .next t ∧ mfind (t.ply h).halts 5 = some x ∧ x.status = statusWord 0 0x23 reason 0 ∧ (t.ply h).tr = p.tr) ∧
        ((p.headE .tr).bad = false → (trOps ws).length ≤ 1 → (trOps ws).filterMap (fun i => t1.trIll h m i (leNat bs)) = [] →
          ∃ t c, exec i s = .next t ∧ (t.ply h).tr = { p.tr with cmd := some c } ∧
            c.todo = (ws.filter isTrState ++ ws.filter (fun w => !isTrState w)).map (BitVec.ofNat 32) ∧
            c.re = re ∧ c.rf = rf ∧ c.push = push ∧ c.desc = BitVec.ofNat 512 (leNat bs)))))

/-- R40, R254, R276: a command whose words are all done completes: GO raises, pushes, and the entry retires. -/
def Obligations.CommandsCompleteWithRaiseAndPush : Prop :=
  ∀ e ∈ [(Ring.mx, Instr.mxCommandComplete), (Ring.tr, Instr.trCommandComplete)], ∀ s d k slot c,
    let h : Here := ⟨d, k, slot⟩
    let p := s.ply h
    p.cmd e.1 = some c → c.todo = [] → p.ringGoes e.1 = true → (e.1 = .mx → p.mxBehind = [] ∧ p.mx.late = false) →
    let raised := fun (q : Ply) => ∀ f, q.flag f = if c.re ∧ f = c.rf.toNat then min (p.flag f + 1) (2 ^ 32 - 1) else p.flag f
    ((∀ r, ringOfCode c.push.toNat = some r → p.tok e.1.code r.code < 16) →
      ∃ q, exec (e.2 d k slot) s = .next (s.setPly h q) ∧ raised q ∧ q.cmd e.1 = none ∧
        (q.ring e.1).entries = (p.ring e.1).entries.tail ∧
        (q.ring e.1).rd = (p.ring e.1).move (p.ring e.1).rd (4 * (p.headE e.1).words) ∧
        (∀ a < 6, ∀ b < 6, q.tok a b = p.tok a b + if a = e.1.code ∧ (ringOfCode c.push.toNat).map Ring.code = some b then 1 else 0) ∧
        (c.re = true → q.regs.aflags &&& c.flags = c.flags)) ∧
    (∀ r, ringOfCode c.push.toNat = some r → 16 ≤ p.tok e.1.code r.code →
      ∃ q, exec (e.2 d k slot) s = .next (s.setPly h q) ∧ raised q ∧
        q.cmd e.1 = some (if c.re then { c with re := false, flags := 0 } else c) ∧ (∀ x, q.ring x = p.ring x) ∧ q.toks = p.toks)

/-- The `n` bytes of a TR stream from byte `i0`, at the addresses `at_`, lie in frames of the issuing die's own store, on no HT page. -/
def Sys2Proof.Claims.StreamAt (s : State) (h : Here) (m : Mode) (snap : Snap) (keep : Loc → Bool) (at_ : Nat → Int) (n : Nat) (pa : Nat → Nat) :
    Prop :=
  ∀ j < n, (s.trByte h m snap keep (at_ j)).2 = .here (.mem (pa j)) ∧ s.trHt h h.d m (at_ j) = false

/-- What a chunk of a local copy of ply h needs to be performed: no tcoll of its unit is outstanding, the copy does not run down
through an HT page, and its bytes are the die's own (R119, R279, R288). -/
structure Sys2Proof.Claims.ChunkHere (s : State) (h : Here) (c : CmdRun) (ps pd : Nat → Nat) : Prop where
  run : Runs s h .tr c
  alone : (s.die h.d).collsOut (s.ply h).unit = 0
  up : s.copyDown h .local_ = false
  some_ : 4096 * (s.ply h).tr.doneChunks < (s.ply h).tr.bytes
  source : Sys2Proof.Claims.StreamAt s h .load (some (c.snap.getD (s.die h.d).sample)) (fun l => l.isHere || l.isHost)
    (fun j => (s.ply h).tr.source (4096 * (s.ply h).tr.doneChunks + j)) (min 4096 ((s.ply h).tr.bytes - 4096 * (s.ply h).tr.doneChunks)) ps
  dest : Sys2Proof.Claims.StreamAt s h .engine none Loc.isHere
    (fun j => (s.ply h).tr.dest (4096 * (s.ply h).tr.doneChunks + j)) (min 4096 ((s.ply h).tr.bytes - 4096 * (s.ply h).tr.doneChunks)) pd
  apart : ∀ i < min 4096 ((s.ply h).tr.bytes - 4096 * (s.ply h).tr.doneChunks),
    ∀ j < min 4096 ((s.ply h).tr.bytes - 4096 * (s.ply h).tr.doneChunks), pd i = pd j → i = j

/-- R279 to R281: a chunk of a local copy off HT pages whose bytes translate moves its bytes, reads before writes; the last one also
counts and stamps, and ends the copy. The model's own: the counter and the stamp are written in the step of the last chunk (log 40), and
a counter in a registered buffer is that of its live frame (log 77). -/
def Obligations.CopiesMoveTheirChunks : Prop :=
  ∀ s h c stamp count die ps pd, Sys2Proof.Claims.ChunkHere s h c ps pd →
    let m := (s.ply h).tr
    let n := min 4096 (m.bytes - 4096 * m.doneChunks)
    (4096 * m.doneChunks + 4096 < m.bytes →
      ∃ mem, exec (.tcopy stamp count false false die) s = .next ((s.mapDie h.d (fun x => { x with mem := mem })).setPly h
          { s.ply h with tr := { m with doneChunks := m.doneChunks + 1, cmd := some { c with snap := some (c.snap.getD (s.die h.d).sample) } } }) ∧
        (∀ q, (∀ j < n, pd j ≠ q) → getByte mem q = getByte (s.die h.d).mem q) ∧
        ∀ j < n, getByte mem (pd j) = getByte (s.die h.d).mem (ps j)) ∧
    (∀ pc pt : Nat → Nat, m.bytes ≤ 4096 * m.doneChunks + 4096 →
      (count = true → Sys2Proof.Claims.StreamAt s h .stamp none Loc.isHere (fun j => ((m.ctrAddr.toNat + j : Nat) : Int)) 8 pc) →
      (stamp = true → Sys2Proof.Claims.StreamAt s h .stamp none Loc.isHere (fun j => ((m.stampAddr.toNat + j : Nat) : Int)) 8 pt) →
      (∀ i < 8, ∀ j < 8, (pc i = pc j → i = j) ∧ (pt i = pt j → i = j) ∧ pc i ≠ pt j) →
      (∀ i < 8, ∀ j < n, pc i ≠ pd j ∧ pt i ≠ pd j) →
      ∃ mem, exec (.tcopy stamp count false false die) s = .next ((s.mapDie h.d (fun x => { x with mem := mem })).setPly h
          (trSet (s.ply h) c { m with doneChunks := 0, tseq := if stamp then m.tseq + 1 else m.tseq })) ∧
        (∀ q, (∀ j < n, pd j ≠ q) → (count = true → ∀ j < 8, pc j ≠ q) → (stamp = true → ∀ j < 8, pt j ≠ q) →
          getByte mem q = getByte (s.die h.d).mem q) ∧
        (∀ j < n, getByte mem (pd j) = getByte (s.die h.d).mem (ps j)) ∧
        (count = true → valueAt { s.die h.d with mem := mem } pc 8 = (valueAt (s.die h.d) pc 8 + m.bytes) % 2 ^ 64) ∧
        (stamp = true → ∀ j < 8, getByte mem (pt j) = (m.tseq + 1).extractLsb' (8 * j) 8))

/-- R283 to R287, R379: the other operation words reach their unit. -/
def Obligations.TransferWordsReachTheirUnit : Prop :=
  ∀ s h c, Runs s h .tr c →
    let m := (s.ply h).tr
    (∀ notify die queue bs t, c.iter = 0 → (s.die die.toNat).member = true → (s.die die.toNat).part = (s.vf (s.ply h).vf).part →
      (∀ i < m.rowbytes.toNat, s.trHt h h.d .load ((m.saddr.toNat + i : Nat) : Int) = false ∧
        s.trHt h die.toNat .store ((m.daddr.toNat + i : Nat) : Int) = false) →
      s.trFetch h (c.map (s.die h.d)) m.saddr.toNat m.rowbytes.toNat = .ok (bs, t) →
      ∃ u, exec (.tenq notify die queue) s = .next u ∧ (u.ply h).cmd .tr = some { c with iter := 1 } ∧
        (u.die die.toNat).tenqs = (t.die die.toNat).tenqs ++ [⟨h.d, h.c, h.k, (s.ply h).unit, (s.ply h).vf,
          (s.die h.d).identOf (s.ply h).unit, queue.toNat, notify, m.daddr.toNat, bs, (s.die h.d).inc, (s.die die.toNat).inc, false, 0⟩]) ∧
    (∀ (port : BitVec 3), lowFault (s.message h (c.map (s.die h.d)) m) = none →
      (∀ i < m.bytes, s.trHt h h.d .load (m.source i) = false) →
      let bs := s.trRead h (s.message h (c.map (s.die h.d)) m)
      let hd := leNat (bs.take 64)
      ∃ u, exec (.tsend port) s = .next u ∧ (u.ply h).cmd .tr = some (stepped c) ∧
        (u.port port.toNat).sending = (s.port port.toNat).sending ++
          [⟨h.d, (s.ply h).vf, (s.vf (s.ply h).vf).part.toNat, hd / 2 ^ 288 % 2 ^ 56, BitVec.ofNat 512 hd, bs.drop 64⟩]) ∧
    (∀ entry, (s.die h.d).collsOut (s.ply h).unit = 0 → m.stampAddr = 0 →
      exec (.tflip entry) s = .next ((s.setDie h.d ((s.die h.d).publish entry.toNat).1).setPly h (wordOver (s.ply h) .tr c))) ∧
    (exec (.tsinv true) s = .next ((s.mapDie h.d (fun x => { x with sched := [] })).setPly h (wordOver (s.ply h) .tr c))) ∧
    (∃ t, exec (.tsinv false) s = .next t ∧ (t.ply h).cmd .tr = some (stepped c) ∧
      ∀ k, mfind (t.die h.d).sched k = if k = m.saddr.toNat then none else mfind (s.die h.d).sched k) ∧
    (∀ group bs t, s.trFetch h (c.map (s.die h.d)) (bits c.desc.toNat 0 56) (inputBytes c.desc.toNat) = .ok (bs, t) →
      (∀ i < inputBytes c.desc.toNat, s.trHt h h.d .load ((bits c.desc.toNat 0 56 + i : Nat) : Int) = false) →
      let part := (s.vf (s.ply h).vf).part.toNat
      let key := groupKey part group.toNat
      let seq := mget 0 (s.die h.d).collSeq key
      let cs := buildChunks part group.toNat seq c.desc.toNat bs
      ∃ u q, exec (.tcoll group) s = .next u ∧ (u.ply h).cmd .tr = none ∧
        ((u.ply h).ring .tr).entries = ((s.ply h).ring .tr).entries.tail ∧
        mget 0 (u.die h.d).collSeq key = seq + 1 ∧
        (u.die h.d).tcolls = (s.die h.d).tcolls ++ [q] ∧ q.part = part ∧ q.group = group.toNat ∧ q.seq = seq ∧ q.unit = (s.ply h).unit ∧
        q.nchunks = bits c.desc.toNat 160 16 ∧ q.disorderAt = cs.2 ∧
        ((s.die h.d).deadSeqs.any (fun e => decide (e.1 = key) && decide (e.2.1 = seq.toNat)) = false →
          u.chunks = s.chunks ++ cs.1.map (s.sentBy h.d)))

/-- R258, R259, R265 to R267, R270: the control words of MX, fills and drains. -/
def Obligations.MatrixSlotsAccumulatorsAndRows : Prop :=
  Sys2Proof.Claims.controlWordsClaimAndRelease ∧ Sys2Proof.Claims.fillsAndDrainsMoveTheirRows

namespace Sys2Proof.Claims
open Sys2Proof Sys2Proof.Machine

/-! ## Events -/

/-- What a chunk needs to be at a deliver or publish hop of node `node` for a group's sequence number (R292, R296). -/
def AtHop (c : Chunk) (op node g seq : Nat) : Prop :=
  c.group = g ∧ c.seq.toNat = seq ∧ c.route ≠ [] ∧ hopOp c.head = op ∧
    (c.deliver = some node ∨ (c.deliver = none ∧ hopAt c.head = node))

/-- The values that chunks hold at an index, in their order. -/
def heldAt (cs : List Chunk) (i : Nat) : List W32 := cs.flatMap (fun c => (c.body.filter (fun e => decide (e.1 = i))).map Prod.snd)

/-- The load or atomic in flight `b` of ply h has come back whole with `bs`: it retires with its value (R179, R180). -/
def Answered (s t : State) (h : Here) (b : SqBusy) (at_ : Nat) (bs : List Byte) : Prop :=
  Result (s.regs h) (t.regs h) b.nw b.dst.toNat (extendTo b.signed b.width (leNat (getBytes (putBytes b.got at_ bs) 0 b.width))) 0 ∧
    (t.ply h).pco = ((s.ply h).pco + 4) % 2 ^ 20 ∧ (t.ply h).sqBusy = none

/-- `m'` is `m` with the bytes `bs` written from `a` up. -/
def Placed (m m' : Map Byte) (a : Nat) (bs : List Byte) : Prop :=
  ∀ q, getByte m' q = if a ≤ q ∧ q < a + bs.length then bs.getD (q - a) 0 else getByte m q

/-- Ply h of die d is bound and held by one trap `x` of agent `a`, recorded in trap slot `tid` of function `v` with the
generation `g` (R352 to R355). -/
structure Trapped (s : State) (h : Here) (v tid g a : Nat) (x : Halt) : Prop where
  range : tid < Config.trapCount
  slot : (s.die h.d).trap tid = ⟨true, BitVec.ofNat 16 g, (s.ply h).unit, v, false⟩
  unit : ∃ w, (s.die h.d).unit? (s.ply h).unit = some w ∧ w.saved = none ∧ w.phase = .bound ∧ w.core = h.c ∧ w.slot = h.k
  held : (s.ply h).halts = [(a, x)]
  bound : (s.ply h).trapSlot = some tid

/-- A trap response with its fields, reserved bits zero (R355). -/
def respOf (tid g d action : Nat) (cap : Option W32) : BitVec 128 :=
  BitVec.ofNat 128 (tid + g * 2 ^ 16 + d * 2 ^ 32 + action * 2 ^ 38 + (match cap with
    | none => 0
    | some c => 2 ^ 40 + c.toNat * 2 ^ 48))

end Sys2Proof.Claims

/-- R45 to R47, R36: the distributor chooses the head of a queue of the highest effective priority; the oldest chosen unit binds
to the qualifying core with the fewest resident plies and starts as R36 says. -/
def Obligations.DistributorChoosesAndBinds : Prop :=
  (∀ s d, let s1 := s.mapDie d (fun x => { x with lqs := x.lqs.map (fun e => (e.1, e.2.refresh)) })
    let x := s1.die d
    let ready := (List.range 64).filter (s1.queueReady d)
    d < 64 → s.dieOn d = true → (s.die d).chosen.length < 4 → ready ≠ [] →
    ∃ n ∈ ready, (∀ k ∈ ready, (x.lqc k).effPrio.toNat ≤ (x.lqc n).effPrio.toNat) ∧
      ∃ t, exec (.distributorChoice d) s = .next t ∧
        match x.headItem (x.lqc n) with
        | some (.unit u) => (t.die d).chosen = (s.die d).chosen ++ [u]
        | some (.launch l) => (t.die d).chosen = (s.die d).chosen ++ [s.fresh] ∧
            ((t.die d).launch? l).map Launch.next = ((s.die d).launch? l).map (fun a => a.next + 1) ∧
            ∃ w, (t.die d).unit? s.fresh = some w ∧ w.launch = l ∧ w.phase = .chosen ∧
              some w.k = ((s.die d).launch? l).map Launch.next ∧ ((t.die d).fut w.fut).state = 0 ∧ ((t.die d).fut w.fut).reach = 1
        | none => False) ∧
  (∀ s d u rest w c k b, let x := s.die d
    s.dieOn d = true → x.chosen = u :: rest → x.unit? u = some w → w.phase = .chosen → w.saved = none →
    ((x.fut w.fut).pinned = true ∨ ((x.fut w.fut).doomed = false ∧ x.underCancel w.level 5 = false)) →
    (w.startsAfresh = true → x.areaUsed (x.level w.level).vf w.lr.addr w.k = false) →
    x.bindCore w = some c → x.openSlot c = some k → x.openRun c w.lr.vregs = some b →
    (s.ctxRead d (x.level w.level).vf w.lr.code w.lr.codeLen).isSome = true →
    (x.coreFits w c = true ∧ ∀ e < 32, x.coreFits w e = true → (x.plyOn c).length ≤ (x.plyOn e).length) ∧
    ∃ t, exec (.unitBind d) s = .next t ∧ (t.die d).chosen = (u :: rest).filter (fun n => decide (n ≠ u)) ∧
      let p := t.ply ⟨d, c, k⟩
      p.phase = .ready ∧ p.unit = u ∧ p.vf = (x.level w.level).vf ∧ p.vbase = b ∧ p.vcount = w.lr.vregs ∧ p.pco = 0 ∧
      p.sq.wr = BitVec.ofNat 21 w.lr.codeLen ∧ p.toks = [] ∧ p.flags = [] ∧ p.halts = [] ∧ p.regs.aflags = 0 ∧
      p.regs.y0 = none ∧ p.regs.y1 = none ∧ p.regs.y2 = none ∧ p.regs.y3 = none ∧ p.regs.w0 = none ∧
      (∀ j, 8 < j → p.regs.rdG j = 0) ∧
      (w.passed = [] → p.regs.rdG 1 = w.lr.args.getD 0 0 + BitVec.ofNat 64 w.k * w.lr.ustride ∧
        ∀ j, 1 ≤ j → j < 7 → p.regs.rdG (j + 1) = w.lr.args.getD j 0) ∧
      (∀ j < w.lr.vregs, t.rdV ⟨d, c, k⟩ j = []))

namespace Sys2Proof.Claims
open Sys2Proof Sys2Proof.Machine

/-- R290, R292, R369, R377: a forward hop passes its chunk on unchanged; at a switch die with a copy mask it sends one copy for each bit, whose
next entry names that switch die. A chunk that may not go on, being stale or on its way to a carder outside its partition, is dropped,
and a switch die counts one that is stale. -/
def forwardsPassChunksOn : Prop :=
  ∀ (s : State) i c, s.chunks[i]? = some c → c.deliver = none → c.route ≠ [] → hopOp c.head = 0 →
    let node := hopAt c.head
    (s.barred c = true → ∃ t, exec (.collForward i) s = .next t ∧ t.chunks = s.chunks.filter (fun k => decide (k ≠ c)) ∧ t.dies = s.dies ∧
      t.parts = s.parts ∧ (64 ≤ node → s.staleChunk c = true →
        (t.switch (node - 64)).stale.toNat = min ((s.switch (node - 64)).stale.toNat + s.chunks.count c) (2 ^ 32 - 1))) ∧
    (s.barred c = false → exec (.collForward i) s = .next { s with
      chunks := s.chunks.take i ++ (if hopSw c.head = true ∧ hopCopy c.head ≠ 0 then
          ((List.range 16).filter (fun k => bitB (hopCopy c.head) k)).map (fun k => s.headed node { c with
            route := match c.route.drop 1 with
              | [] => []
              | n :: r => BitVec.ofNat 32 (n.toNat / 1024 * 1024 + k * 16 + n.toNat % 16) :: r })
        else [s.headed node { c with route := c.route.drop 1 }]) ++ s.chunks.drop (i + 1) })

/-- R292, R379, R380: a merge or sum node of an unencrypted group forms one chunk from its first `fan` inputs by rank once they have
arrived; a hash that differs fails the sequence number; without the key of an encrypted group an input is deferred. Inputs that
may not go on are dropped first (R377). -/
def mergesAndSumsFormOneChunk : Prop :=
  ∀ e ∈ [((.collMerge : Nat → Nat → Nat → Nat → Instr), 1, false), (.collSum, 2, true)], ∀ (s : State) node g seq j,
    let here := fun (c : Chunk) => c.standsAt e.2.1 node g seq j
    (exec (e.1 node g seq j) s = exec (e.1 node g seq j) (s.sweep node here)) ∧
    ∀ c rest, (∀ k ∈ s.chunks, here k = true → s.barred k = false) → s.standing e.2.1 node g seq j = c :: rest →
    let ins := c.peers (c :: rest)
    (s.hashDiffers node c = true → exec (e.1 node g seq j) s = .next (s.failSeq c 2 node)) ∧
    (s.hashDiffers node c = false → (s.group c.part c.group).enc = false → (∀ k ∈ ins, k.deferList = []) → hopFan c.head ≤ ins.length →
      let use := (ins.foldr byRank []).take (hopFan c.head)
      exec (e.1 node g seq j) s = .next { s with
        chunks := s.chunks.filter (fun k => !use.contains k) ++ [s.headed node (mergeChunks e.2.2 use)] }) ∧
    (s.hashDiffers node c = false → s.holdsKey c.part c.group node = false → ∃ i, s.chunks[i]? = some c ∧
      let late := s.headed node { c with route := c.route.drop 1, deferred := true, deferList := c.deferList ++ [(c.head, c.rank)] }
      exec (e.1 node g seq j) s = .next { s with chunks := s.chunks.take i ++ [late] ++ s.chunks.drop (i + 1) })

/-- R292 to R294: the chunk of a merge or a sum. One input in disorder makes it a disorder chunk without pairs. Else a sum is dense, and so
is a merge with a dense input or, unless it is off, one that holds more indices than its threshold allows; a dense chunk holds every
index, a sparse one those that some input holds, ascending; each value is the exact sum of those its inputs hold there, rounded once, or
for INT32 clamped, which sets `ovf`. -/
def mergedChunksHoldTheirFolds : Prop :=
  ∀ isSum use (held : List Nat), use ≠ [] → held.Nodup → (∀ i, i ∈ held ↔ ∃ c ∈ use, i ∈ c.body.map Prod.fst) →
    let m := mergeChunks isSum use
    let total := fun (i : Nat) => ((heldAt use i).map BitVec.toInt).sum
    ((∃ c ∈ use, c.disorder = true) → m.disorder = true ∧ m.dense = false ∧ m.body = []) ∧
    ((∀ c ∈ use, c.disorder = false) →
      (m.dense = true ↔ isSum = true ∨ (∃ c ∈ use, c.dense = true) ∨ (m.denseOff = false ∧ m.dthresh * m.span < 256 * held.length)) ∧
      (m.dense = true → m.body.map Prod.fst = (List.range m.span).map (m.j * m.span + ·)) ∧
      (m.dense = false → (m.body.map Prod.fst).Pairwise (· < ·) ∧ ∀ i, i ∈ m.body.map Prod.fst ↔ i ∈ held) ∧
      (∀ e ∈ m.body, heldAt use e.1 = [] → e.2 = 0) ∧
      (∀ e ∈ m.body, heldAt use e.1 ≠ [] →
        if m.vtype = 1 then e.2.toInt = max (-2 ^ 31) (min (2 ^ 31 - 1) (total e.1))
        else e.2 = BitVec.ofNat 32 (roundNE (sumNums ((heldAt use e.1).map (fun x => fp32.decode x.toNat))).1 fp32).1) ∧
      (m.ovf = true ↔ (∃ c ∈ use, c.ovf = true) ∨ (m.vtype = 1 ∧ ∃ i ∈ held, total i < -2 ^ 31 ∨ 2 ^ 31 - 1 < total i)))

/-- R380: the carder that receives performs one deferred merge or sum whose inputs have all arrived, for the chunk it meets first; with
none, nothing. -/
def deferredReductionsAreRebuilt : Prop :=
  ∀ (s : State) d g seq j,
    let cs := (s.receivedAt d g seq j).filter (fun c => !c.deferList.isEmpty)
    let due := cs.find? (fun c => decide (hopFan ((c.deferList.headD (0, 0)).1) ≤ (deferGroup cs c).length))
    (due = none → exec (.collDeferredReduce d g seq j) s = .next s) ∧
    (∀ c, due = some c →
      let e := (c.deferList.headD (0, 0)).1
      let use := ((deferGroup cs c).foldr byRank []).take (hopFan e)
      exec (.collDeferredReduce d g seq j) s = .next { s with chunks := s.chunks.filter (fun k => !use.contains k) ++
        [{ (s.headed d { mergeChunks (decide (hopOp e = 2)) use with
          route := (use.headD default).route, deferList := (use.headD default).deferList.drop 1, deferred := true }) with hop := 2 }] })

/-- R292, R296, R378: a deliver or publish hop of an unencrypted group at the carder of a member writes the member's next chunk behind those
it has written, in the die's own store off HT pages, and after the last one a publish flips the member's buffer; at the carder of a die
that is no member the first such chunk is dropped and recorded; at a switch die the chunk goes to the carders of its mask. -/
def deliveriesWriteTheirChunks : Prop :=
  (∀ e ∈ [((.collDeliver : Nat → Nat → Nat → Instr), 3), (.collPublish, 4)], ∀ (s : State) node g seq q pre c post (pa : Nat → Nat),
    node < 64 → s.chunks = pre ++ c :: post → AtHop c e.2 node g seq → c.part = q.part → c.deferList = [] → c.j = q.written →
    (∀ k ∈ pre, AtHop k e.2 node g seq → k.part = q.part → k.j = q.written → k.deferList ≠ []) →
    (∀ k ∈ s.chunks, AtHop k e.2 node g seq → s.staleChunk k = false ∧ node ∈ s.collMembers k.part k.group ∧
      ∀ i < k.bytes.length, (s.locate node ((s.die node).unitKey q.unit) q.vf .engine none ((q.output + q.outAt + i) % 2 ^ 64)).2 = false) →
    (s.die node).tcoll? g seq = some q → q.complete = false → q.retired = false → q.notice = 0 → q.mixed = [] →
    (s.group c.part c.group).enc = false →
    (∀ i < c.bytes.length, (s.locate node ((s.die node).unitKey q.unit) q.vf .engine none ((q.output + q.outAt + i) % 2 ^ 64)).1 =
      .here (.mem (pa i))) →
    (∀ i < c.bytes.length, ∀ j < c.bytes.length, pa i = pa j → i = j) →
    ∃ t m, exec (e.1 node g seq) s = .next t ∧ t.chunks = pre ++ post ∧
      (t.die node).tcoll? g seq = some { q with
        outAt := q.outAt + c.bytes.length, written := q.written + 1, complete := decide (q.written + 1 = q.nchunks) } ∧
      (∀ a, (∀ i < c.bytes.length, pa i ≠ a) → getByte m a = getByte (s.die node).mem a) ∧
      (∀ i < c.bytes.length, getByte m (pa i) = c.bytes.getD i 0) ∧
      (let x := { s.die node with mem := m }
        if e.2 = 4 ∧ q.written + 1 = q.nchunks then
          (t.die node).mem = (x.publish q.pubEntry).1.mem ∧ (t.die node).bufs = (x.publish q.pubEntry).1.bufs
        else (t.die node).mem = m ∧ (t.die node).bufs = x.bufs)) ∧
  (∀ e ∈ [((.collDeliver : Nat → Nat → Nat → Instr), 3), (.collPublish, 4)], ∀ (s : State) node g seq pre c post,
    node < 64 → s.chunks = pre ++ c :: post → AtHop c e.2 node g seq → s.staleChunk c = false → node ∉ s.collMembers c.part c.group →
    (∀ k ∈ pre, AtHop k e.2 node g seq → s.staleChunk k = true ∨ node ∈ s.collMembers k.part k.group) →
    ∃ t, exec (e.1 node g seq) s = .next t ∧ t.chunks = pre ++ post ∧ (t.part c.part).ferr.valid = true ∧
      (t.part c.part).ferr.count.toNat = min ((s.part c.part).ferr.count.toNat + 1) (2 ^ 32 - 1)) ∧
  (∀ e ∈ [((.collDeliver : Nat → Nat → Nat → Instr), 3), (.collPublish, 4)], ∀ (s : State) n g seq pre c post,
    s.chunks = pre ++ c :: post → c.deliver = none → AtHop c e.2 (64 + n) g seq →
    (∀ k ∈ s.chunks, k.deliver = none → AtHop k e.2 (64 + n) g seq → s.staleChunk k = false) →
    (∀ k ∈ pre, k.deliver = none → ¬AtHop k e.2 (64 + n) g seq) →
    exec (e.1 (64 + n) g seq) s = .next { s with chunks := pre ++
      ((List.range 4).filter (fun k => bitB (hopCopy c.head) k)).map (fun k => s.headed (64 + n) { c with deliver := some (4 * n + k) }) ++ post })

/-- R287, R295, R296, R379: a notice completes a member's tcoll with nothing delivered, and a completed one raises and pushes. -/
def noticesAndCompletions : Prop :=
  (∀ (s : State) d g seq q e, (s.die d).tcoll? g seq = some q → q.notice = 0 →
    (s.die d).deadSeqs.find? (fun e => decide (e.1 = groupKey (s.die d).part.toNat g) && decide (e.2.1 = seq)) = some e →
    ∃ t, exec (.collOrderNotice d g seq) s = .next t ∧ (t.die d).tcoll? g seq = some { q with notice := e.2.2, retired := false }) ∧
  (∀ (s : State) d g seq q w, let h : Here := ⟨d, w.core, w.slot⟩
    let p := s.ply h
    (s.die d).tcoll? g seq = some q → q.retired = false → q.complete = true → q.notice = 0 → q.disorderAt = none → q.faultAt = none →
    (s.die d).unit? q.unit = some w → w.phase = .bound → p.phase ≠ .stopping → p.pushRoom .tr q.push = true →
    (∀ q' ∈ (s.die d).tcolls, q'.group = g → q'.seq.toNat = seq → q' = q) →
    ∃ t, exec (.tcollComplete d g seq) s = .next t ∧ (∀ q', (t.die d).tcoll? g seq = some q' → q'.retired = true) ∧
      (∀ f, (t.ply h).flag f = if q.re ∧ f = q.rf.toNat then min (p.flag f + 1) (2 ^ 32 - 1) else p.flag f) ∧
      ∀ a < 6, ∀ b < 6, (t.ply h).tok a b = p.tok a b + if a = 5 ∧ (ringOfCode q.push.toNat).map Ring.code = some b then 1 else 0)

/-- R114 to R116, R377: the next frame of a source waits for those its clock shows to precede it; one that its target does not take is
dropped; another is applied, with its clock, and answered. -/
def framesWaitAndApply : Prop :=
  ∀ (s : State) src dst f, s.frames.find? (fun f => decide (f.src = src) && decide (f.dst = dst)) = some f →
    (s.frames.any (fun g => g.precedes f) = true → exec (.remoteFrameApply src dst) s = .next s) ∧
    (s.frames.any (fun g => g.precedes f) = false →
      (s.takes f.src f.dst f.srcInc f.dstInc = false →
        exec (.remoteFrameApply src dst) s = .next { s with frames := s.frames.erase f }) ∧
      (s.takes f.src f.dst f.srcInc f.dstInc = true →
        ∃ t r, exec (.remoteFrameApply src dst) s = .next t ∧ t.frames = s.frames.erase f ∧ t.replies = s.replies ++ [r] ∧
          r.src = dst ∧ r.dst = src ∧ r.fseq = f.fseq ∧ r.echo = f.mark ∧ r.srcInc = (s.die dst).inc ∧ r.dstInc = f.srcInc ∧
          (t.die dst).vclk = f.clk.foldl (fun m e => mput m e.1 (clockMax e.2 (mget 0 m e.1))) (s.die dst).vclk ∧
          (∀ q (pa : Nat → Nat), f.recs = [q] → q.kind = 0 → f.ctr = 0 → q.data.length = q.len →
            (∀ i < q.len, q.va + i < 2 ^ 56 ∧
              (s.die dst).place s.workBase (s.ringAt dst none) q.mode none (q.va + i) (q.pa + i) = .mem (pa i)) →
            (∀ i < q.len, ∀ j < q.len, pa i = pa j → i = j) →
            (∀ a, (∀ i < q.len, pa i ≠ a) → getByte (t.die dst).mem a = getByte (s.die dst).mem a) ∧
            ∀ i < q.len, getByte (t.die dst).mem (pa i) = q.data.getD i 0)))

/-- R114, R115, R179, R180, R182: the answers that retire the access SQ waits for, and a posted write that completes. -/
def answersRetireTheirAccess : Prop :=
  (∀ (s : State) r q bs b, let h : Here := ⟨q.die, q.core, q.slot⟩
    s.replies.find? (fun k => decide (k.src = r.src) && decide (k.dst = r.dst) && decide (k.fseq.toNat = r.fseq.toNat)) = some r →
    (s.takes r.src r.dst r.srcInc r.dstInc = false →
      exec (.remoteReply r.src r.dst r.fseq.toNat) s = .next { s with replies := s.replies.erase r }) ∧
    (s.takes r.src r.dst r.srcInc r.dstInc = true → s.frames.any (fun g => g.precedesReply r) = true →
      exec (.remoteReply r.src r.dst r.fseq.toNat) s = .next s) ∧
    (s.takes r.src r.dst r.srcInc r.dstInc = true → s.frames.any (fun g => g.precedesReply r) = false →
      r.offences = [] → r.recs = [(q, bs)] → q.kind ≠ 0 →
      (s.ply h).sqBusy = some b → b.parts = [⟨r.src, q.at_, q.len⟩] → (s.ply h).unit = q.unit → (s.ply h).phase ≠ .free →
      ∃ t, exec (.remoteReply r.src r.dst r.fseq.toNat) s = .next t ∧ Answered s t h b q.at_ (bs.take q.len))) ∧
  (∀ (s : State) h b data q, (s.ply h).sqBusy = some b → b.parts = [q] → q.dest = 64 → (s.ply h).phase ≠ .free →
    ∃ t, exec (.cxlCacheCompletion h.d h.c h.k data) s = .next t ∧ Answered s t h b q.at_ (leBytes q.len data.toNat) ∧
      t.posted = s.posted ++ (match b.rmw with
        | none => []
        | some m => match atomicNew m.op data m.b m.expect with
          | none => []
          | some v => [⟨h.d, (s.ply h).unit, (s.ply h).vf, (s.vf (s.ply h).vf).tgen, m.addr, leBytes 8 v.toNat⟩])) ∧
  (∀ (s : State) h w, (s.ply h).sqBusy = none →
    s.posted.find? (fun w => decide (w.die = h.d) && (decide (w.unit = (s.ply h).unit) ||
      !(s.die h.d).plies.any (fun e => decide (e.2.phase ≠ .free) && decide (e.2.unit = w.unit)))) = some w →
    ∀ data, exec (.cxlCacheCompletion h.d h.c h.k data) s = .next { s with posted := s.posted.erase w })

/-- What a packet at switch die `k` comes to: without it and counted when it is malformed or stale, else gone on with the mark `m` (R369,
R373, R377). `without` and `with_ m` are what the panel holds of its kind then. -/
def Crosses {α : Type} (s : State) (pkt k : Nat) (stale mark : Bool) (held : State → List α) (without : List α) (with_ : Bool → List α) : Prop :=
  (∃ t, exec (.packetHop pkt true) s = .next t ∧ held t = without ∧
    (t.switch k).malformed.toNat = min ((s.switch k).malformed.toNat + 1) (2 ^ 32 - 1)) ∧
  (stale = true → ∃ t, exec (.packetHop pkt false) s = .next t ∧ held t = without ∧
    (t.switch k).stale.toNat = min ((s.switch k).stale.toNat + 1) (2 ^ 32 - 1)) ∧
  (stale = false → ∃ t m, exec (.packetHop pkt false) s = .next t ∧ held t = with_ m ∧ (mark = true → m = true) ∧
    (m = mark → t.sws = s.sws) ∧
    (m ≠ mark → (t.switch k).marked.toNat = min ((s.switch k).marked.toNat + 1) (2 ^ 32 - 1)))

/-- The switch die of a node: its own, or the one its carder is joined to (R367). -/
def switchOfNode (n : Nat) : Nat := if n < 64 then n / 4 else (n - 64) % 16

/-- R367, R369, R373, R377: frames, replies and chunks cross the switch die of their source, and then that of their target if it is
another. -/
def packetsCrossSwitchDies : Prop :=
  (∀ (s : State) n f k, s.frames[n]? = some f →
    (f.hop = 0 ∧ k = f.src / 4 ∨ f.hop = 1 ∧ f.src / 4 ≠ f.dst / 4 ∧ k = f.dst / 4) →
    Crosses s n k (s.stalePkt f.src f.dst f.srcInc f.dstInc) f.mark State.frames (s.frames.eraseIdx n)
      (fun m => s.frames.set n { f with mark := m, hop := f.hop + 1 })) ∧
  (∀ (s : State) n r k, s.replies[n]? = some r →
    (r.hop = 0 ∧ k = r.src / 4 ∨ r.hop = 1 ∧ r.src / 4 ≠ r.dst / 4 ∧ k = r.dst / 4) →
    Crosses s (s.frames.length + n) k (s.stalePkt r.src r.dst r.srcInc r.dstInc) r.mark State.replies (s.replies.eraseIdx n)
      (fun m => s.replies.set n { r with mark := m, hop := r.hop + 1 })) ∧
  (∀ (s : State) n c k, s.chunks[n]? = some c → let a := switchOfNode c.left
    let b := switchOfNode (c.target.getD (hopAt c.head))
    (c.hop = 0 ∧ k = a ∨ c.hop = 1 ∧ a ≠ b ∧ k = b) →
    Crosses s (s.frames.length + s.replies.length + n) k (s.staleChunk c) c.mark State.chunks (s.chunks.eraseIdx n)
      (fun m => s.chunks.set n { c with mark := m, hop := c.hop + 1 }))

/-- R373: an echo of 0 or 1 acts on the rate towards the die it comes from: a marked one, at the sixteenth echo or later, takes a quarter of
it off, rounded up. That `rmin` is that of the source's switch die is the model's (log 48). -/
def echoesMoveTheRate : Prop :=
  ∀ (s : State) src dst e rest, let l := (s.die src).link dst
    l.owed = e :: rest →
    ∃ l', exec (.congestionEcho src dst e) s = .next (s.mapDie src (fun x => x.setLink dst l')) ∧ l'.owed = rest ∧
      (e = true → 16 ≤ l.echoes → l'.quiet = 0 → l'.rate = max (max (s.switch (src / 4)).rmin.toNat 1) (l.rate - (l.rate + 3) / 4)) ∧
      (e = true → l.echoes < 16 → l.quiet ≠ 64 → l'.rate = l.rate) ∧
      (e = false → l'.rate = if l.quiet + 1 = 64 then min 256 (l.rate + 8) else l.rate)

end Sys2Proof.Claims

/-- R290, R292 to R296, R380: what each hop of a collective does, and how a member's tcoll completes. -/
def Obligations.CollectivesCombineAndDeliver : Prop :=
  Sys2Proof.Claims.forwardsPassChunksOn ∧ Sys2Proof.Claims.mergesAndSumsFormOneChunk ∧
  Sys2Proof.Claims.mergedChunksHoldTheirFolds ∧ Sys2Proof.Claims.deferredReductionsAreRebuilt ∧
  Sys2Proof.Claims.deliveriesWriteTheirChunks ∧ Sys2Proof.Claims.noticesAndCompletions

/-- R114 to R116, R179, R180, R367, R369, R373, R377: frames are applied in causal order, answers retire the accesses that wait, and
packets cross the switch dies; an echo moves the rate, whose `rmin` is by the model's choice that of the source's switch die (log 48). -/
def Obligations.FramesApplyInCausalOrder : Prop :=
  Sys2Proof.Claims.framesWaitAndApply ∧ Sys2Proof.Claims.answersRetireTheirAccess ∧ Sys2Proof.Claims.packetsCrossSwitchDies ∧
  Sys2Proof.Claims.echoesMoveTheRate

/-- R117, R375, R377: egress links of a chiplet with power train and fail, flushing reads answer for every earlier write, and what
arrives from the peer is applied, or dropped and counted. -/
def Obligations.EgressLinksCarryPeerTraffic : Prop :=
  ∀ (s : State) n, n < 16 → s.edgeOn (n / 4) = true → let l := s.egress n
    exec (.egressLinkEnable n true) s = .next (s.setEgress n { l with en := true, state := if l.state = 0 then 1 else l.state }) ∧
    (l.state ≠ 0 → s.linkUsers n = [] → exec (.egressLinkEnable n false) s =
      .next (s.setEgress n { l with en := false, state := 0, use := 0, queue := [], parts := [] })) ∧
    (∀ inc id, l.en = true → l.state ≠ 2 →
      exec (.egressLinkUp n inc id) s = .next (s.setEgress n { l with state := 2, peerInc := inc, peerId := id })) ∧
    (l.state ≠ 0 → s.linkUsers n = [] → exec (.egressLinkDown n) s =
      .next (s.setEgress n { l with state := if l.en then 1 else 0, use := 0, queue := [], parts := [] })) ∧
    (∀ pre r post, l.state = 2 → l.use ≠ 2 → l.queue = pre ++ r :: post → r.kind = 3 → (∀ q ∈ pre, q.kind ≠ 3) →
      exec (.flushingRead n) s = .next (s.setEgress n { l with queue := pre.filter (fun r => decide (r.kind ≠ 0)) ++ post })) ∧
    (l.state = 2 → l.use ≠ 2 →
      (∀ d a bs reply, packetBad a = true → exec (.egressPacketArrival n d a bs reply) s = .next (s.setEgress n { l with
        malformed := BitVec.ofNat 32 (min (l.malformed.toNat + 1) (2 ^ 32 - 1)) })) ∧
      (∀ d a bs reply, packetBad a = false → packetInc a ≠ l.peerInc → exec (.egressPacketArrival n d a bs reply) s = .next (s.setEgress n { l with
        stale := BitVec.ofNat 32 (min (l.stale.toNat + 1) (2 ^ 32 - 1)) })) ∧
      (∀ d h bs, packetBad h = false → packetInc h = l.peerInc → let a := packetAddr h
        d < 64 → s.dieOn d = true → a + bs.length ≤ Config.futBase →
        (∀ i < bs.length, ¬(s.workBase ≤ a + i ∧ a + i < s.workBase + 16 * Config.levelCount)) →
        ∃ m, exec (.egressPacketArrival n d h bs none) s = .next (s.mapDie d (fun x => { x with mem := m })) ∧
          Placed (s.die d).mem m a bs) ∧
      (∀ d a bs v r b, packetBad a = false → packetInc a = l.peerInc → l.queue.find? (fun r => decide (r.kind = 1) || decide (r.kind = 2)) = some r →
        let h : Here := ⟨r.die, r.core, r.slot⟩
        (s.ply h).sqBusy = some b → b.parts = [⟨65 + n, r.at_, r.len⟩] → (s.ply h).unit = r.unit → (s.ply h).phase ≠ .free →
          ∃ t, exec (.egressPacketArrival n d a bs (some v)) s = .next t ∧ (t.egress n).queue = l.queue.erase r ∧
            Answered s t h b r.at_ (leBytes r.len v.toNat)))

/-- R382 to R385: Ethernet ports finish the messages they hold, place and count what arrives and refuse what has no place. The model's own:
which message finishes next (log 8), the count of `msgs` (log 49), that a receive counter of 0 is none (log 46), and that `rxdie` is not
checked against the port's partition (log 82). -/
def Obligations.EthernetPortsSendAndReceive : Prop :=
  ∀ s n, s.portOn n = true → let e := s.port n
    (e.sending ≠ [] → ∃ i m t u, e.sending[i]? = some m ∧ (m.ordered = true → ∀ k < i, ∀ q, e.sending[k]? = some q → q.ordered = false) ∧
      exec (.ethSendAcked n) s = .next t ∧ (t.port n).sending = e.sending.eraseIdx i ∧ (t.port n).msgs = e.msgs + 1 ∧
      t.parts = s.parts ∧
      exec (.ethSendGivenUp n) s = .next u ∧ (u.port n).sending = e.sending.eraseIdx i ∧
      (let p := m.part;
        (u.part p).ferr.valid = true ∧ (u.part p).ferr.count.toNat = min ((s.part p).ferr.count.toNat + 1) (2 ^ 32 - 1) ∧
        ((s.part p).ferr.valid = false → (u.part p).ferr.code = 4)) ∧
      ∀ pa : Nat → Nat, m.ctr ≠ 0 → m.ctr + 8 ≤ 2 ^ 56 →
        (∀ j < 8, (s.locate m.die none m.vf .stamp none (m.ctr + j)).1 = .here (.mem (pa j))) →
        (∀ i < 8, ∀ j < 8, pa i = pa j → i = j) →
        valueAt (t.die m.die) pa 8 = (valueAt (s.die m.die) pa 8 + m.payload.length) % 2 ^ 64) ∧
    (∀ bs, let a := e.rxbase.toNat + e.rxcount.toNat % 2 ^ e.rxslots.toNat * 2 ^ 20
      let c := e.rxctr.toNat
      e.en = true → s.dieOn e.rxdie.toNat = true → bs.length ≤ 2 ^ 20 - 64 → (e.rxcount - e.rxhead).toNat ≠ 2 ^ e.rxslots.toNat →
      (∀ i < 64 + bs.length, (s.die e.rxdie.toNat).rxPlace s.workBase (a + i) = .mem (a + i)) →
      (c ≠ 0 → ∀ i < 8, hostPlace s.workBase true (c + i) = .mem (c + i)) →
      ∃ m m1 m2, exec (.ethReceiveSend n bs) s = .next ((s.setPort n { e with rxcount := e.rxcount + 1 }).mapDie e.rxdie.toNat
          (fun x => { x with mem := m })) ∧
        Placed (s.die e.rxdie.toNat).mem m1 a (leBytes 8 bs.length) ∧ Placed m1 m2 (a + 64) bs ∧
        (c = 0 → m = m2) ∧ (c ≠ 0 → Placed m2 m c (leBytes 8 (getLE m2 c 8 + (bs.length + 64))))) ∧
    (∀ bs, (e.en = false ∨ s.dieOn e.rxdie.toNat = false ∨ 2 ^ 20 - 64 < bs.length ∨ (e.rxcount - e.rxhead).toNat = 2 ^ e.rxslots.toNat) →
      exec (.ethReceiveSend n bs) s = .next s) ∧
    (∀ rkey a bs k, e.en = true → e.window rkey = some k → s.dieOn k.die.toNat = true → s.keyAllows e k a bs.length = true →
      ∃ m, exec (.ethReceiveWrite n rkey a bs) s = .next (s.mapDie k.die.toNat (fun x => { x with mem := m })) ∧
        Placed (s.die k.die.toNat).mem m (k.wbase.toNat + a) bs) ∧
    (∀ rkey a bs, e.window rkey = none → exec (.ethReceiveWrite n rkey a bs) s = .next s)

/-- R352 to R356: the record of a quiescent held ply, the responses to it, and the ring of records. That a response with `action` 3 is refused
before its slot and its generation are looked at is the model's (log 55). -/
def Obligations.TrapsAreReportedAndAnswered : Prop :=
  (∀ s h n, let p := s.ply h
    p.phase ≠ .free → p.phase ≠ .stopping → p.held = true → p.trapSlot = none → s.allQuiet h = true →
    s.pick (fun t => ((s.die h.d).trap t).used) Config.trapCount = some n →
    (s.vf p.vf).trapFull = false → (s.vf p.vf).trapHeld = [] → s.hostOn (p.vf / 48) = true →
    let f := s.vf p.vf
    ∃ t r, exec (.trapRecordWrite h.d h.c h.k) s = .next t ∧ ((s.die h.d).trap n).used = false ∧
      (t.ply h).trapSlot = some n ∧ (t.die h.d).trap n = ⟨true, ((s.die h.d).trap n).tgen, p.unit, p.vf, false⟩ ∧
      (t.vf p.vf).trapTail = f.trapTail + 1 ∧ mfind (t.vf p.vf).trapRing (f.trapTail.toNat % 2 ^ (4 + f.trapSize.toNat)) = some r ∧
      r.toNat % 2 ^ 16 = n % 2 ^ 16 ∧ r.toNat / 2 ^ 16 % 2 ^ 16 = ((s.die h.d).trap n).tgen.toNat ∧ r.toNat / 2 ^ 32 % 2 ^ 6 = h.d % 2 ^ 6 ∧
      r.toNat / 2 ^ 38 % 2 ^ 5 = h.c % 2 ^ 5 ∧ r.toNat / 2 ^ 43 % 2 ^ 3 = h.k % 2 ^ 3) ∧
  (∀ s h v tid g a x cap, v < 192 → s.hostOn (v / 48) = true → h.d < 64 → tid < 2 ^ 16 → g < 2 ^ 16 → Trapped s h v tid g a x →
    let p := s.ply h
    let freed := fun (t : State) => (t.die h.d).trap tid = ⟨false, BitVec.ofNat 16 g + 1, p.unit, v, false⟩ ∧ (t.vf v).trstat = 0
    let back := fun (t : State) => freed t ∧ (t.ply h).halts = [] ∧ (t.ply h).trapSlot = none ∧
      (t.ply h).phase = (if p.phase = .waiting then .ready else p.phase) ∧ (t.ply h).regs.g = p.regs.g
    (∃ t, exec (.trespResume v (respOf tid g h.d 0 cap)) s = .next t ∧ back t ∧
      (t.ply h).pco = if a = 0 ∧ x.kind = 1 then (p.pco + 4) % 2 ^ 20 else p.pco) ∧
    (∃ t, exec (.trespSkip v (respOf tid g h.d 1 none)) s = .next t ∧ back t ∧
      ((t.ply h).pco = if a = 0 then (p.pco + 4) % 2 ^ 20 else p.pco) ∧
      (∀ r, r.code = a → r ≠ .sq → x.kind ≠ 2 → ((t.ply h).ring r).entries = (p.ring r).entries.tail)) ∧
    (∃ t, exec (.trespAbandon v (respOf tid g h.d 2 none)) s = .next t ∧ freed t ∧ (t.ply h).phase = .stopping ∧
      (t.ply h).stopWhy = 4 ∧ (t.ply h).halts = [(a, x)] ∧ (t.ply h).trapSlot = none ∧ (t.ply h).holdset = [])) ∧
  (∀ s v tid g d, v < 192 → s.hostOn (v / 48) = true → tid < 2 ^ 16 → g < 2 ^ 16 → d < 64 →
    exec (.trespRefused v (respOf tid g d 3 none)) s = .next (s.setVf v { s.vf v with trstat := 3 }) ∧
    ((Config.trapCount ≤ tid ∨ (((s.die d).trap tid).used = false ∧ ((s.die d).trap tid).dropped = false)) →
      exec (.trespResume v (respOf tid g d 0 none)) s = .next (s.setVf v { s.vf v with trstat := 1 }) ∧
      exec (.trespSkip v (respOf tid g d 1 none)) s = .next (s.setVf v { s.vf v with trstat := 1 }) ∧
      exec (.trespAbandon v (respOf tid g d 2 none)) s = .next (s.setVf v { s.vf v with trstat := 1 }))) ∧
  (∀ s v head, v < 192 → s.hostOn (v / 48) = true →
    ((s.vf v).trapHeld = [] → exec (.trapqHeadWrite v head) s = .next (s.setVf v { s.vf v with trapHead := BitVec.ofNat 16 head })) ∧
    (∀ r e, (s.vf v).trapHeld = [(r, e)] → ({ s.vf v with trapHead := BitVec.ofNat 16 head } : VFn).trapFull = false →
      ∃ t, exec (.trapqHeadWrite v head) s = .next t ∧ (t.vf v).trapHeld = [] ∧ (t.vf v).trapTail = (s.vf v).trapTail + 1 ∧
        mfind (t.vf v).trapRing ((s.vf v).trapTail.toNat % 2 ^ (4 + (s.vf v).trapSize.toNat)) = some r)) ∧
  (∀ s v r, v < 192 → s.hostOn (v / 48) = false → exec (.trespResume v r) s = .next s ∧ exec (.trespSkip v r) s = .next s ∧
    exec (.trespAbandon v r) s = .next s ∧ exec (.trespRefused v r) s = .next s)

/-- R360, R361, R37: invalidation raises the translation generation and waits for older accesses; a pre-emption request, its
acknowledgement, its withdrawal and its end; an engine's stop. The model's own: a request on a Stopping ply is refused with `why` 1, as one
on a Free slot is (log 93), and a ply is saved once its accesses have been acknowledged (log 83). -/
def Obligations.InvalidationAndPreemption : Prop :=
  (∀ (s : State) (v : BitVec 192), s.invctl.done = true → bitB v.toNat 9 = true → bits v.toNat 0 8 < 192 →
    ∃ c : Invctl, exec (.invalidation v) s = .next { s.mapVf (bits v.toNat 0 8) (fun f => { f with tgen := f.tgen + 1 }) with invctl := c } ∧
      c.done = false ∧ c.vf.toNat = bits v.toNat 0 8 ∧ c.cur = c.vf ∧ c.all = bitB v.toNat 8 ∧ c.base.toNat = bits v.toNat 64 56 ∧
      c.len.toNat = bits v.toNat 128 32) ∧
  (∀ (s : State), s.invctl.done = false → exec .invalidationDone s =
    .next (if s.oldAccess s.invctl.cur.toNat then s else { s with invctl := { s.invctl with done := true } })) ∧
  (∀ e ∈ [((.preemptRequest : Nat → Nat → Nat → Instr), false), (.preemptEvict, true)], ∀ (s : State) h,
    h.d < 64 → s.dieOn h.d = true → h.c < 32 → h.k < 8 → (s.core h).prectl.state ≠ 1 → let p := s.ply h
    let k := BitVec.ofNat 3 h.k
    ((p.phase = .free ∨ p.phase = .stopping) → ∃ t, exec (e.1 h.d h.c h.k) s = .next t ∧
      (t.core h).prectl = ⟨k, e.2, k, e.2, 3, 0, 1⟩ ∧ t.ply h = p) ∧
    (p.phase ≠ .free → p.phase ≠ .stopping → ∃ t, exec (e.1 h.d h.c h.k) s = .next t ∧
      (t.core h).prectl = ⟨k, e.2, k, e.2, 1, 0, 0⟩ ∧
      t.ply h = { p with preempt := true, evict := e.2, stopped := [], regs := { p.regs with loop := { p.regs.loop with stop := true } } })) ∧
  (∀ (s : State) h, let p := s.ply h
    p.preempt = true → Ring.sq ∉ p.stopped → p.phase = .waiting → p.halts = [] →
    (∀ w, (s.die h.d).unit? p.unit = some w → w.saved = none) →
    bitB ((s.ackIf h).core h).prectl.acks.toNat 0 = true ∧ Ring.sq ∈ ((s.ackIf h).ply h).stopped ∧
      ((s.ackIf h).ply h).regs.loop.stop = false ∧ ((s.ackIf h).ply h).phase = (if p.evict then .waiting else .ready) ∧ ((s.ackIf h).ply h).wait = none) ∧
  (∀ (s : State) d c, d < 64 → s.dieOn d = true → c < 32 → let q := ((s.die d).core c).prectl
    let h : Here := ⟨d, c, q.cur.toNat⟩
    let p := s.ply h
    let plain := { p with preempt := false, evict := false, stopped := [], regs := { p.regs with loop := { p.regs.loop with stop := false } } }
    q.state = 1 →
    (bitB q.acks.toNat 0 = false → ∃ t, exec (.preemptWithdraw d c) s = .next t ∧ (p.evict = false → t.ply h = plain) ∧
      (t.ply h).preempt = false ∧ (t.ply h).evict = false ∧ (t.ply h).stopped = [] ∧ (t.ply h).regs = plain.regs ∧
      (t.core h).prectl = { q with state := 3, why := 3 }) ∧
    (bitB q.acks.toNat 0 = true → exec (.preemptWithdraw d c) s = .next s) ∧
    (p.preempt = true → p.phase ≠ .free → p.phase ≠ .stopping → Ring.sq ∈ p.stopped →
      (q.curEvict = false → ∃ t, exec (.preemptCollectDone d c) s = .next t ∧ t.ply h = plain ∧ (t.core h).prectl = { q with state := 2, why := 0 }) ∧
      (q.curEvict = true → Ring.all.any (s.engineRuns h) = false → p.sqBusy = none →
        ∀ w, (s.die d).unit? p.unit = some w → w.saved = none →
        ((s.die d).imageRoom w ((s.die d).image c h.k) = none → ∃ t, exec (.preemptCollectDone d c) s = .next t ∧
          (t.core h).prectl.state = 3 ∧ (t.core h).prectl.why = 2 ∧ (t.ply h).preempt = false) ∧
        (s.unitQuiet d p.unit = true → (s.die d).imageRoom w ((s.die d).image c h.k) ≠ none → ∃ t w' v, exec (.preemptCollectDone d c) s = .next t ∧
          (t.core h).prectl.state = 2 ∧ (t.ply h).phase = .free ∧ (t.die d).unit? p.unit = some w' ∧ w'.phase = .queued ∧
          w'.saved = some v ∧ v.ply.pco = p.pco ∧ v.ply.regs.g = p.regs.g ∧ v.ply.flags = p.flags ∧ v.ply.toks = p.toks)))) ∧
  (∀ (s : State) h r, (s.ply h).phase = .stopping → r ≠ .sq → r ∉ (s.ply h).stopped → s.engineRuns h r = false →
    exec (.engineStopAck h.d h.c h.k r) s = .next (s.setPly h { s.ply h with stopped := r :: (s.ply h).stopped }))

namespace Sys2Proof.Claims
open Sys2Proof Sys2Proof.Machine

/-! ## Host commands -/

/-- Function `v` can consume `cmd`, a well-formed command of a kind for a member die (R338, R339, R341). -/
structure Takes (s : State) (v : Nat) (cmd : BitVec 256) (kind : Nat) : Prop where
  ready : s.cmdReady v = true
  kind : cmd.toNat % 2 ^ 4 = kind
  formed : cmdFormed cmd.toNat = true
  member : s.inPart v (bits cmd.toNat 8 6) = true

/-- The state once the device has consumed a function's command. -/
def consumed (s : State) (v : Nat) : State := s.mapVf v (fun f => { f with cmdHead := f.cmdHead + 1 })

/-- The command has been consumed and the completion entry `e` written, if there is one (R338, R343). -/
def Consumed (s t : State) (v : Nat) (e : Option (BitVec 128)) : Prop :=
  let f := s.vf v
  (t.vf v).cmdHead = f.cmdHead + 1 ∧
    match e with
    | none => (t.vf v).cplTail = f.cplTail ∧ (t.vf v).cplRing = f.cplRing
    | some e => (t.vf v).cplTail = f.cplTail + 1 ∧ mfind (t.vf v).cplRing (f.cplTail.toNat % 2 ^ (6 + f.cplSize.toNat)) = some e

/-- The entry at acceptance, when the command asks for one (R342, R343). -/
def acceptEntry (cmd : BitVec 256) (i found : Nat) : Option (BitVec 128) :=
  if bitB cmd.toNat 4 then some (cplEntry (cmd.toNat % 16) 0 (bits cmd.toNat 8 6) i (bits cmd.toNat 32 32) found 0) else none

/-- A whorl command that stands: its record is `n`, its die is on the route, and the whorl is in the state its operation asks
for (R341, R345). -/
structure WhorlTakes (s : State) (v : Nat) (cmd : BitVec 256) (sub from_ n : Nat) : Prop where
  takes : Takes s v cmd 5
  sub : bits cmd.toNat 64 3 = sub
  record : (consumed s v).readWhorl v cmd.toNat = some n
  id : (whorlRecOf n).id ≤ 31
  state : (s.whorl (whorlRecOf n).id).state = from_
  onRoute : (bits cmd.toNat 8 6) ∈ (if from_ = 0 then (whorlRecOf n).route.take (whorlRecOf n).n else (s.whorl (whorlRecOf n).id).cfg.route)

/-- The one completion entry of a whorl command that stands (R345). -/
def whorlDone (cmd : BitVec 256) : BitVec 128 := cplEntry 5 1 (bits cmd.toNat 8 6) 0xFFFF (bits cmd.toNat 32 32) 0 0

end Sys2Proof.Claims

/-- R364, R396, R386: what a partition reset clears, the events that make one, and the loss and return of power. The model's own: a reset is
one step (log 21), and an uncorrectable error of a carder resets its die's partition with cause 3 (log 58). -/
def Obligations.ResetsClearTheirPartition : Prop :=
  (∀ (s : State) p cause block, let t := s.resetPart p cause block
    (t.part p).busy = false ∧ (t.part p).cause = BitVec.ofNat 3 cause ∧ (t.part p).groups = [] ∧ (t.part p).ferr = .reset ∧
    (∀ f ∈ t.frames, f.src ∉ s.members p ∧ f.dst ∉ s.members p) ∧ (∀ c ∈ t.chunks, c.part ≠ p) ∧
    ∀ d ∈ s.members p, (t.die d).plies = [] ∧ (t.die d).lathes = [] ∧ (t.die d).vclk = [] ∧ (t.die d).links = [] ∧
      (t.die d).collSeq = [] ∧ (t.die d).inc = (s.die d).inc + 1 ∧ (t.die d).futs = [] ∧ (t.die d).member = false ∧
      ((s.part p).replay = false → (t.die d).units = [] ∧ (t.die d).launches = [])) ∧
  (∀ (s : State) p, p < 32 → exec (.partitionReset p) s = .next (s.resetPart p 1 0xFF) ∧
    (∀ b, 64 ≤ b → s.usesBlock p b = true → exec (.carderOrLinkLoss p b) s = .next (s.resetPart p 4 b)) ∧
    (∀ n, (s.part p).wdog ≠ 0 → (s.part p).wdog.toNat < n → s.hangs p = true →
      exec (.watchdogExpiry p n) s = .next (s.resetPart p 2 0xFF))) ∧
  (∀ (s : State) b addr, b < 128 → (s.block b).retired = false →
    ∃ t, exec (.uncorrectableSoftError b addr) s = .next t ∧
      (t.block b).ue.toNat = min ((s.block b).ue.toNat + 1) (2 ^ 16 - 1) ∧
      ((s.die (b % 64)).member = true → (t.part (s.die (b % 64)).part.toNat).cause = 3)) ∧
  (∀ (s : State) b, b < 148 → (s.block b).off = false → (s.block b).trip.toNat ≤ (s.block b).temp.toNat →
    ∃ t, exec (.thermalTrip b) s = .next t ∧ (t.block b).off = true ∧ (b = 144 → t.powered = false) ∧
      (b < 128 → (s.die (b % 64)).member = true → (t.part (s.die (b % 64)).part.toNat).cause = 4)) ∧
  (∀ (s : State), ∃ t, exec .powerLoss s = .next t ∧ t.powered = false ∧ t.dies = s.dies ∧ (t.fw.bank t.fw.run) = (s.fw.bank s.fw.run)) ∧
  (∀ (s : State), (∀ b, s.fw.bootBank = some b →
      ∃ t, exec (.powerOn []) s = .next t ∧ t.powered = true ∧ t.dies = [] ∧ t.parts = [] ∧ t.vfs = [] ∧ t.blocks = [] ∧ t.keys = [] ∧
        t.panelInc = s.panelInc + 1 ∧ t.fw.ready = true ∧ t.fw.recovery = false ∧ t.fw.run = b ∧
        some (t.fw.svn, t.fw.meas1) = s.fw.bank b ∧ t.fw.svnMin = s.fw.svnMin) ∧
    (∀ b d, s.fw.bootBank = some b → d < 64 → ∃ t, exec (.powerOn [d]) s = .next t ∧ t.fw.ready = true ∧ (t.die d).retired = true ∧
      t.phealth.why = 4) ∧
    (∀ failed, s.fw.bootBank = none →
      ∃ t, exec (.powerOn failed) s = .next t ∧ t.fw.ready = false ∧ t.fw.recovery = true ∧ t.dies = []))

/-- R388, R389, R392, R393: updates, the fused minimum, the responder's steps in their order, and the key slots. The model's own: the contents
of the responses (log 9) and the order in which the requests are answered (log 92). -/
def Obligations.FirmwareAttestationAndKeys : Prop :=
  (∀ (s : State), exec .firmwareUpdate s = .next { s with fw := { s.fw with status := 1 } } ∨
    (s.fw.status = 1 ∧ exec .firmwareUpdate s = .next s)) ∧
  (∀ (s : State), s.fw.status = 1 → let f := s.fw
    ∃ t, exec .firmwareUpdateDone s = .next t ∧ t = { s with fw := t.fw } ∧ t.fw.bank f.run = f.bank f.run ∧
      (imageOk f.window f.svnMin.toNat = true → t.fw.status = 2 ∧ t.fw.sel = !f.run ∧
        t.fw.bank (!f.run) = some (getByte f.window 6, BitVec.ofNat 512 (getLE f.window 16 64)) ∧
        f.svnMin ≤ getByte f.window 6 ∧ getLE f.window 0 4 = 0x57464D ∧ getLE f.window 4 2 = 1 ∧ 1 ≤ getLE f.window 8 8) ∧
      (imageOk f.window f.svnMin.toNat = false → t.fw = { f with status := 3 })) ∧
  (∀ (s : State), exec .svnCommit s = .next { s with fw := { s.fw with svnMin := if s.fw.svnMin < s.fw.svn then s.fw.svn else s.fw.svnMin } }) ∧
  (∀ (s : State), let p := s.spdm
    let gives := fun (i : Instr) (ok : Bool) (q : Spdm) => exec i s = .next (if ok then { s with spdm := q } else s)
    gives .getVersion true { Spdm.reset with version := true, response := [0x12] } ∧
    gives .getCapabilities p.version { p with caps := true, response := [] } ∧
    (∀ algs, gives (.negotiateAlgorithms algs) p.caps
      (if algs.contains algRsaPss then { p with algs := true, response := [0] } else { p with response := [] })) ∧
    gives .getDigests p.algs { p with response := leBytes 64 (Config.sha512 (Config.certChain s.fw.meas1)).toNat } ∧
    gives (.getCertificate 0) p.algs { p with response := Config.certChain s.fw.meas1 } ∧
    (∀ n, gives (.getCertificate (n + 1)) p.algs { p with response := [] }) ∧
    (∀ nonce, gives (.challenge 0 nonce) p.algs
      { p with response := leBytes 512 (Config.aliasSign s.fw.meas1 (leBytes 32 nonce.toNat)).toNat }) ∧
    (∀ n m nonce, s.measurement n = some m → gives (.getMeasurements n nonce) p.algs
      { p with response := m ++ leBytes 512 (Config.aliasSign s.fw.meas1 (leBytes 32 nonce.toNat ++ m)).toNat }) ∧
    (∀ n nonce, 4 ≤ n → gives (.getMeasurements n nonce) p.algs { p with response := [] }) ∧
    (p.algs = true → ∀ data, ∃ k, exec (.keyExchange data) s = .next { s with
      fresh := s.fresh + 1, spdm := { p with keyed := some k, secured := false, response := leBytes 32 k.toNat } }) ∧
    (∀ mac, exec (.finish mac) s = .next (match p.keyed with
      | none => s
      | some k => if Config.finishOk mac k then { s with spdm := { p with secured := true, response := [] } } else s))) ∧
  (∀ (s : State) n k, s.spdm.secured = true → n < 256 → s.keyInUse n = false →
    exec (.keyset n (some k)) s = .next { s with keys := mput s.keys n k } ∧
    exec (.keyset n none) s = .next { s with keys := mdel s.keys n }) ∧
  (∀ (s : State) n key, (s.spdm.secured = false ∨ s.keyInUse n = true) → exec (.keyset n key) s = .next s)

/-- R394, R395, R398, R405: control periods, power limits, and the health counters. -/
def Obligations.PowerAndHealthFollowTheirRules : Prop :=
  ∀ (s : State) b, b < 148 → let k := s.block b
    (∀ draw temp, draw < 2 ^ 12 → k.off = false → (b < 128 → (s.die (b % 64)).retired = false) →
      ∃ w, exec (.powerControlPeriod b draw temp) s = .next (s.setBlock b { k with
        draw := BitVec.ofNat 12 draw, temp := BitVec.ofNat 8 temp, cap := k.capNext, trip := k.tripNext, wfrac := BitVec.ofNat 4 w }) ∧
      (k.cap.toNat < draw → w = min (k.wfrac.toNat + 1) 12) ∧
      (draw ≤ k.cap.toNat → 50 * draw + Block.allot b < 50 * k.cap.toNat → w = k.wfrac.toNat - 1) ∧
      (draw ≤ k.cap.toNat → 50 * k.cap.toNat ≤ 50 * draw + Block.allot b → w = k.wfrac.toNat)) ∧
    (∀ cap, cap < 2 ^ 12 → let a := Block.allot b
      exec (.pwrctlCapWrite b cap) s = .next (s.setBlock b { k with
        capNext := BitVec.ofNat 12 (if a < cap then a else if cap < 2 * a / 5 then 2 * a / 5 else cap) })) ∧
    exec (.bhealthClear b) s = .next (s.setBlock b { k with ce := 0, ue := 0, transient := 0 }) ∧
    (∃ t, exec (.correctedSoftError b) s = .next t ∧ t = { s with blocks := t.blocks, phealth := t.phealth } ∧
      (t.block b).ce.toNat = min (k.ce.toNat + 1) (2 ^ 32 - 1) ∧
      (s.phealth.ceLimit ≤ (t.block b).ce → bitB t.phealth.why.toNat 3 = true)) ∧
    (∀ ret ce, ret < 2 ^ 8 → ce < 2 ^ 32 → ∃ t, exec (.phealthLimitWrite ret ce) s = .next t ∧ t = { s with phealth := t.phealth } ∧
      t.phealth.retLimit.toNat = ret ∧ t.phealth.ceLimit.toNat = ce ∧
      (ret < s.phealth.retired.toNat → bitB t.phealth.why.toNat 1 = true) ∧
      (s.phealth.retired.toNat ≤ ret → bitB t.phealth.why.toNat 1 = bitB s.phealth.why.toNat 1))

/-- R70, R74 to R77, R83, R86 to R89, R345: the stream of a whorl, and the commands that load, start, drain, free and renew it. -/
def Obligations.WhorlsRotateAndObeyTheirCommands : Prop :=
  (∀ (s : State) d x h rest waited stalls, let w := s.whorl x.id
    (s.die d).whorl = some x → w.state = 2 → w.hstate ≠ 3 → x.sending = false → x.credits ≠ 0 → x.interval ≤ waited →
    w.lostPos = [] → x.queue = h :: rest → h.sent = 0 → h.arrived ≠ 0 → (s.die d).candidates h.tag = [] →
    (s.die d).awaited h.tag = false → x.slack = [] → w.cfg.egress = false → nextOn w.route d ≠ d →
    let needs := (h.paces.filter (fun p => decide (p.die ≠ d))).foldl (fun m p => mset 0 m p.die p.need) x.needs
    ∃ t y, exec (.hankStart d waited stalls) s = .next t ∧ (t.die d).whorl = some y ∧ y.needs = needs ∧ y.paceOut = [] ∧
      y.interval = needs.foldl (fun m e => max m e.2) w.cfg.floorOf ∧ y.sending = true ∧ y.credits = x.credits - 1 ∧
      y.queue.map (fun k => (k.pos, k.sent)) = (h.pos, 1) :: rest.map (fun k => (k.pos, k.sent)) ∧
      ∀ z, (s.die (nextOn w.route d)).whorl = some z → ∃ b n, ((t.die (nextOn w.route d)).whorl.map (·.elastic)) = some (z.elastic ++ [b]) ∧
        b.first = some n ∧ n.pos = h.pos ∧ n.paces = h.paces.filter (fun p => decide (p.die ≠ d)) ++ x.paceOut ∧
        n.tag = if w.route.headD d = d ∧ w.cfg.origin ∧ h.counted = false then nextRot h.tag else h.tag) ∧
  (∀ (s : State) d x, (s.die d).whorl = some x → ((s.whorl x.id).state = 2 ∨ (s.whorl x.id).state = 3) →
    (∀ c ∈ x.slack, ∃ o ∈ (s.die d).holds, o.copy = c.serial ∧ o.ended = false) →
    ∃ t y, exec (.dwellTick d) s = .next t ∧ (t.die d).whorl = some y ∧
      y.slack = (x.slack.map (fun c => { c with age := c.age + 1 })).filter (fun c => decide (c.age ≠ (s.whorl x.id).cfg.dwell))) ∧
  (∀ (s : State) d e x y h rest last, let w := s.whorl x.id
    (s.die d).whorl = some x → prevOn w.route d = e → e ≠ d → (s.die e).whorl = some y → y.id = x.id → nextOn w.route e = d →
    (w.state = 2 ∨ w.state = 3) → w.hstate ≠ 3 → w.cfg.egress = false → y.sending = true → y.credits ≠ 0 → y.queue = h :: rest → h.sent ≠ 0 →
    h.sent < h.arrived → x.elastic = [] → x.queue.getLast? = some last →
    (∀ g ∈ x.queue.dropLast, g.slot = last.slot → last.arrived < g.sent) → Memory.wf (s.die e).mem = true →
    ∃ t z, exec (.beatArrival d) s = .next t ∧ (t.die d).whorl = some z ∧ z.elastic = [] ∧ z.freed = x.freed + 1 ∧
      z.queue = x.queue.dropLast ++ [{ last with arrived := last.arrived + 1 }] ∧
      ∀ o < 4096, getByte (t.die d).mem (w.cfg.beatAt last.slot last.arrived + o) =
        getByte (s.die e).mem (w.cfg.beatAt h.slot h.sent + o)) ∧
  (∀ (s : State) d e x y, let w := s.whorl x.id
    (s.die d).whorl = some x → prevOn w.route d = e → e ≠ d → (s.die e).whorl = some y → w.hstate ≠ 3 → x.freed ≠ 0 → w.cfg.egress = false →
    ∃ t, exec (.linkCredit d) s = .next t ∧ (t.die d).whorl = some { x with freed := x.freed - 1 } ∧
      (t.die e).whorl = some { y with credits := y.credits + 1 }) ∧
  (∀ (s : State) d x, (s.die d).whorl = some x → (s.whorl x.id).hstate = 3 → exec (.beatArrival d) s = .next s ∧ exec (.linkCredit d) s = .next s) ∧
  (∀ (s : State) n, (s.whorl n).state = 3 → s.whorlAtRest (s.whorl n) = true →
    exec (.whorlDrained n) s = .next ((s.setWhorl n { s.whorl n with state := 4 }).complete (s.whorl n).vf (whorlDone (s.whorl n).cmd))) ∧
  (∀ (s : State) d x, d < 64 → (s.die d).whorl = some x → let w := s.whorl x.id
    ∃ t, exec (.dieFailure d) s = .next t ∧ (t.die d).whorl = none ∧ (t.die d).plies = [] ∧ (t.die d).units = [] ∧
      (t.whorl x.id).route = w.route.filter (fun e => decide (e ≠ d)) ∧ (t.whorl x.id).spliced = true ∧
      (t.whorl x.id).hdie = BitVec.ofNat 6 d ∧
      (w.hstate ≠ 3 → (w.cfg.parityOn = false ∨ w.spliceLost ≠ [] ∨
        (w.cfg.share + w.cfg.spare) * (w.route.filter (fun e => decide (e ≠ d))).length < w.cfg.hanks) → (t.whorl x.id).hstate = 3)) ∧
  (∀ (s : State) v cmd n, let r := whorlRecOf n
    let w := s.whorl r.id
    (WhorlTakes s v cmd 0 0 n → (consumed s v).whorlBad (s.vf v).part.toNat n r = false →
      ∀ tags, (consumed s v).tagTable (bits cmd.toNat 8 6) v (bits cmd.toNat 144 56) r = some tags →
      ∃ t, exec (.whorlLoad v cmd) s = .next t ∧ Consumed s t v (some (whorlDone cmd)) ∧ (t.whorl r.id).state = 1 ∧
        (t.whorl r.id).route = r.route.take r.n ∧ (t.whorl r.id).tags = tags ∧
        ∀ k d, (r.route.take r.n)[k]? = some d → ∃ x, (t.die d).whorl = some x ∧ x.pos = k ∧ x.credits = 64 ∧ x.slack = [] ∧
          x.queue.map (·.pos) = (List.range r.share).map (fun i => (r.n - k) % r.n * r.share + i)) ∧
    (WhorlTakes s v cmd 1 1 n → ∃ t, exec (.whorlStart v cmd) s = .next t ∧ Consumed s t v (some (whorlDone cmd)) ∧
      (t.whorl r.id).state = 2 ∧ ∀ d ∈ w.route, ∀ x, (s.die d).whorl = some x → (t.die d).whorl = some { x with run := true }) ∧
    (WhorlTakes s v cmd 2 2 n → ∃ t, exec (.whorlDrain v cmd) s = .next t ∧ Consumed s t v none ∧ (t.whorl r.id).state = 3) ∧
    (WhorlTakes s v cmd 3 4 n → w.route.any (consumed s v).dieBusy = false → w.route.any s.moving = false →
      ∃ t, exec (.whorlFree v cmd) s = .next t ∧ Consumed s t v (some (whorlDone cmd)) ∧ t.whorl r.id = w.freed ∧
        ∀ d ∈ w.route, (t.die d).whorl = none) ∧
    (WhorlTakes s v cmd 4 4 n → (consumed s v).reconfigureOk (s.vf v).part.toNat n r w = true →
      ∃ t, exec (.whorlReconfigure v cmd) s = .next t ∧ Consumed s t v (some (whorlDone cmd)) ∧
        t.whorl r.id = { w with cfg := r.trimmed, state := 2, cmd := cmd, paceAway := [] } ∧
        ∀ d ∈ w.route, ∀ x, (s.die d).whorl = some x → ∃ y, (t.die d).whorl = some y ∧ y.slack = [] ∧ y.run = true ∧
          y.credits = 64 ∧ y.interval = max r.floorOf r.needInit ∧ y.queue.map (·.pos) = x.queue.map (·.pos)))

/-- R283, R338 to R344: commands are consumed in order, accepted or refused, and their entries and interrupts follow. That a command which meets
several reasons of R341 is refused with the lowest of them is the model's (log 43). -/
def Obligations.CommandsAreAcceptedOrRefused : Prop :=
  (∀ (s : State) v n, v < 192 → s.hostOn (v / 48) = true → exec (.cmdDoorbell v n) s = .next (s.setVf v { s.vf v with cmdTail := BitVec.ofNat 16 n })) ∧
  (∀ (s : State) v cmd, let c := cmd.toNat
    let d := bits c 8 6
    let ident := bits c 32 32
    (Takes s v cmd 0 → ∃ t, exec (.cmdNop v cmd) s = .next t ∧ Consumed s t v (acceptEntry cmd 0xFFFF 0)) ∧
    (s.cmdReady v = true → 6 ≤ c % 16 → ∃ t, exec (.cmdNop v cmd) s = .next t ∧
      Consumed s t v (some (cplEntry (c % 16) 4 d 0xFFFF ident 1 0))) ∧
    (s.cmdReady v = true → c % 16 = 1 → cmdFormed c = true → s.inPart v d = false → ∃ t, exec (.cmdOpen v cmd) s = .next t ∧
      Consumed s t v (some (cplEntry 1 4 d 0xFFFF ident 2 0))) ∧
    (Takes s v cmd 1 → (s.freeLevel d).isSome = true →
      let sub := bits c 64 3
      let n := bits c 16 16
      (sub = 4 → n = 0xFFFF) → (sub ≠ 4 → (s.openLevel v d n (sub + 1)).isSome = true) →
      ∃ t i, exec (.cmdOpen v cmd) s = .next t ∧ Consumed s t v (acceptEntry cmd i 0) ∧ ((s.die d).level i).used = false ∧
        let l := (t.die d).level i
        (t.vf v).created = (d, i, l.serial) :: (s.vf v).created ∧
        l.used = true ∧ l.status = 0 ∧ l.level = BitVec.ofNat 3 sub ∧ l.outstanding = 1 ∧ l.unitsDone = 0 ∧ l.vf = v ∧ l.sealed = false ∧
        l.ident = BitVec.ofNat 32 ident ∧
        (sub = 4 → l.parent = 0xFFFF) ∧ (∀ p < 0x4000, sub ≠ 4 → s.openLevel v d n (sub + 1) = some p →
          l.parent = BitVec.ofNat 16 p ∧ ((t.die d).level p).outstanding = ((s.die d).level p).outstanding + 1)) ∧
    (∀ lr g deps, Takes s v cmd 2 → let q := bits c 72 6
      bitB (s.vf v).qmask.toNat q = true → (consumed s v).readLaunch d v (bits c 80 56) = some lr →
      s.openLevel v d (bits c 16 16) 2 = some g → s.cmdDeps v d g c = some deps → (s.freeLevel d).isSome = true →
      lr.futResv ≤ (s.die d).commonFree →
      ∃ t i l a, exec (.cmdLaunch v cmd) s = .next t ∧ Consumed s t v (acceptEntry cmd i 0) ∧ (t.die d).launch? l = some a ∧
        a.lr = lr ∧ a.vf = v ∧ a.queue = q ∧ a.level = i ∧ a.deps = deps ∧ a.next = 0 ∧
        ((t.die d).lqc q).items = ((s.die d).lqc q).items ++ [.launch l] ∧
        ((t.die d).level i).outstanding = lr.units ∧ ((t.die d).level i).status = 0 ∧
        ((t.die d).level g).outstanding = ((s.die d).level g).outstanding + 1) ∧
    (∀ i, Takes s v cmd 3 → s.levelRef v d (bits c 16 16) = some i → let l := (s.die d).level i
      l.used = true → l.status = 0 → 2 ≤ l.level.toNat → l.vf = v → l.sealed = false →
      ∃ t, exec (.cmdSeal v cmd) s = .next t ∧ Consumed s t v (acceptEntry cmd i 0) ∧
        (t.die d).level i = { l with
          sealed := true, outstanding := l.outstanding - 1, ends := l.ends ++ [((s.part (s.vf v).part.toNat).jseq, 3)] }) ∧
    (∀ i, Takes s v cmd 4 → s.levelRef v d (bits c 16 16) = some i → let l := (s.die d).level i
      l.vf = v →
      (l.used = true → l.status = 0 → 2 ≤ l.level.toNat → (∀ e ∈ (s.die d).units, e.2.level ≠ i) → ∃ t, exec (.cmdCancel v cmd) s = .next t ∧
        Consumed s t v (acceptEntry cmd i 0) ∧ ((t.die d).level i).status = 2 ∧ ((t.die d).level i).sealed = true) ∧
      (l.status ≠ 0 → ∃ t, exec (.cmdCancel v cmd) s = .next t ∧
        Consumed s t v (acceptEntry cmd i l.status.toNat) ∧ (∀ j ≠ i, (t.die d).level j = (s.die d).level j) ∧
        (t.die d).level i = { l with ends := ((t.die d).level i).ends }))) ∧
  (∀ (s : State) v head, v < 192 → s.hostOn (v / 48) = true → (s.vf v).held = [] →
    ∃ f, exec (.cplHeadWrite v head) s = .next (s.setVf v f) ∧ f = { s.vf v with cplHead := BitVec.ofNat 16 head, stalled := f.stalled } ∧
      f.stalled = f.cplFull) ∧
  (∀ (s : State) v, v < 192 → (s.vf v).pendWindow = true → (s.vf v).intEn = false → exec (.interruptWindowExpiry v) s = .next s) ∧
  (∀ (s : State) v, v < 192 → s.hostOn (v / 48) = true → (s.vf v).pendWindow = true → (s.vf v).intEn = true →
    exec (.interruptWindowExpiry v) s = .next { s.setVf v { s.vf v with pendCount := 0, pendWindow := false } with msix := s.msix ++ [v] }) ∧
  (∀ (s : State) d q rest, (s.die d).tenqs = q :: rest →
    let s1 := s.mapDie d (fun x => { x with tenqs := rest })
    let h : Here := ⟨q.src, q.core, q.slot⟩
    let takes := s.dieOn d && !s.stalePkt q.src d q.srcInc q.dstInc
    (takes = false → exec (.tenqPlace d) s = .next s1) ∧
    (∀ c, takes = true → (s.ply h).unit = q.unit → (s.ply h).phase ≠ .free → (s.ply h).tr.cmd = some c → (c.todo.headD 0).toNat / 2 ^ 27 = 7 →
      c.iter = 1 →
      (s1.tenqFault d q = none → ∃ t, exec (.tenqPlace d) s = .next t ∧ (t.die d).tenqs = rest ∧
        (t.ply h).tr.cmd = some (stepped c) ∧ (t.ply h).halts = (s.ply h).halts) ∧
      (∀ f, s1.tenqFault d q = some f → ∃ t x, exec (.tenqPlace d) s = .next t ∧ (t.die d).tenqs = rest ∧
        (∀ e, (t.die e).mem = (s.die e).mem) ∧ (t.ply h).tr.cmd = some { c with iter := 0, snap := none } ∧ mfind (t.ply h).halts 5 = some x ∧
        x.status = statusWord 0 0x14 f.2.1 f.2.2 ∧ x.addr = BitVec.ofNat 56 f.1)) ∧
    (∀ lr, takes = true → s1.tenqFault d q = none → bitB (s.vf q.vf).qmask.toNat q.queue = true → 256 ≤ q.bytes.length →
      parseLaunch q.daddr (q.bytes.take 256) = some lr → lr.futResv ≤ (s.die d).commonFree → (s.fourLevels d).isSome = true →
      ∃ t l a, exec (.tenqPlace d) s = .next t ∧ (t.die d).launch? l = some a ∧ a.lr = lr ∧ a.vf = q.vf ∧ a.queue = q.queue ∧
        ((t.die d).lqc q.queue).items = ((s.die d).lqc q.queue).items ++ [.launch l] ∧
        ((t.die d).level a.level).outstanding = lr.units ∧ ((t.die d).level a.level).ident = q.ident))

/-- R4, R19, R42, R46, R77, R100, R270, R311, R334, R336, R338, R347, R349, R354, R361, R378, R382, R385: host accesses to die store, and
writes of the management window. The event of the loader's write of a barrier, number 256 + n, is the model's (log 53). -/
def Obligations.HostWritesSetTheirRegisters : Prop :=
  (∀ (s : State) port d a bs, s.hostOn port = true → d < 64 → s.dieOn d = true → a + bs.length ≤ Config.futBase →
    (∀ i < bs.length, ¬(s.workBase ≤ a + i ∧ a + i < s.workBase + 16 * Config.levelCount)) →
    (∃ m, exec (.hostMemWrite port d a bs) s = .next (s.mapDie d (fun x => { x with mem := m })) ∧ Placed (s.die d).mem m a bs) ∧
    ∃ t, exec (.hostMemRead port d a bs.length) s = .next t ∧ t = { s with hostReads := t.hostReads } ∧
      t.hostReads = (List.range bs.length).map (fun i => getByte (s.die d).mem (a + i))) ∧
  (∀ (s : State) d q (v : BitVec 32), d < 64 → s.dieOn d = true → q < 64 → let k := (s.die d).lqc q
    let prio := v.extractLsb' 0 3
    let weight := v.extractLsb' 3 8
    exec (.lqcWrite d q v) s = .next (s.mapDie d (fun x => x.setLqc q { k with
      prio := prio, weight := weight, enable := v.getLsbD 11,
      fresh := k.fresh || decide (prio ≠ k.prio) || decide (weight ≠ k.weight) }))) ∧
  (∀ (s : State) d i (v : BitVec 256), d < 64 → s.dieOn d = true → i < 1024 → let b := (s.die d).buf i
    let w := bufWritten b v.toNat
    (w.valid = true → (s.die d).bufBad i v.toNat w = true → ∃ t, exec (.bufferMapWrite d i v) s = .next t ∧ (t.die d).bufs = (s.die d).bufs) ∧
    (w.valid = true → (s.die d).bufBad i v.toNat w = false → b.valid = false →
      ∃ m, exec (.bufferMapWrite d i v) s = .next (s.mapDie d (fun x => { x.setBuf i { w with
        written := false, discarded := false, epoch := 0, writers := [] } with mem := m })) ∧
        ∀ c < w.chunks.toNat, w.dirty m c = false) ∧
    (w.valid = false → exec (.bufferMapWrite d i v) s = .next (s.mapDie d (fun x => x.setBuf i w)))) ∧
  (∀ (s : State) d n (v : BitVec 64), d < 64 → s.dieOn d = true → n < 256 → let b := (s.die d).bar n
    let k := v.extractLsb' 16 16
    exec (.barrierParticipantsWrite d n v) s = .next (s.mapDie d (fun x => x.setBar n
      (if k ≠ 0 ∧ k ≤ b.arrived then ⟨b.phase + 1, k, 0⟩ else { b with participants := k }))) ∧
    exec (.barrierParticipantsWrite d (256 + n) v) s = .next (s.mapDie d (fun x => x.setBar n ⟨0, k, 0⟩))) ∧
  (∀ (s : State) d (v : BitVec 64), d < 64 → let x := s.die d
    let p := bits v.toNat 0 5
    let member := bitB v.toNat 5
    (x.member = false → member = true → x.retired = false → s.dieBusy d = false → s.undrained d = false →
      s.moving d = false →
      ∃ t, exec (.diepartWrite d v) s = .next t ∧ (t.die d).member = true ∧ (t.die d).part.toNat = p ∧ (t.die d).inc = x.inc + 1) ∧
    (member = true → x.retired = true → ∃ t, exec (.diepartWrite d v) s = .next t ∧ (t.die d).member = x.member ∧ (t.die d).part = x.part) ∧
    (x.member = true → member = false → (s.dieBusy d = true ∨ s.undrained d = true ∨ s.moving d = true) →
      ∃ t, exec (.diepartWrite d v) s = .next t ∧ (t.die d).member = true ∧ (t.die d).part = x.part)) ∧
  (∀ (s : State) n (v : BitVec 128), n < 192 → let p := bits v.toNat 64 5
    let en := bitB v.toNat 69
    let q := bits v.toNat 0 64
    s.vfBusy n = false → s.vfs.any (fun e => decide (e.1 ≠ n) && e.2.en && decide (e.2.part.toNat = p) &&
      decide (bits e.2.qmask.toNat 0 64 &&& q ≠ 0)) = false →
    ((en = false ∨ 2 ≤ (s.members p).length) → ∃ t, exec (.vfbindWrite n v) s = .next t ∧
      t.vf n = { s.vf n with qmask := BitVec.ofNat 64 q, part := BitVec.ofNat 5 p, fence := BitVec.ofNat 5 p, en := en }) ∧
    (en = true → (s.members p).length < 2 → ∃ t, exec (.vfbindWrite n v) s = .next t ∧ t.vf n = s.vf n)) ∧
  (∀ (s : State) n (v : BitVec 256), n < 192 →
    ∃ t, exec (.ctxwinWrite n v) s = .next t ∧ t.vf n = if s.vfBusy n then s.vf n else { s.vf n with
      winBase := v.extractLsb' 0 56, winLimit := v.extractLsb' 64 56, ptRoot := v.extractLsb' 128 56 }) ∧
  (∀ (s : State) p (v : BitVec 64), p < 32 → s.members p ≠ [] →
    exec (.jbaseWrite p v) s = .next (s.setPart p { s.part p with
      jbase := v.extractLsb' 0 56, jsize := v.extractLsb' 56 4, jset := true, jdie := BitVec.ofNat 6 ((s.members p).headD 0),
      jstopped := false })) ∧
  (∀ (s : State) p g (v : BitVec 128), p < 32 → g < 256 →
    (s.collOut p g = false → ∃ t, exec (.groupTableWrite p g v) s = .next t ∧
      t.group p g = ⟨v.extractLsb' 0 64, v.getLsbD 64, v.getLsbD 65, v.getLsbD 66, v.extractLsb' 72 16, s.fresh⟩ ∧
      ∀ d, mget 0 (t.die d).collSeq (groupKey p g) = 0) ∧
    (s.collOut p g = true → ∃ t, exec (.groupTableWrite p g v) s = .next t ∧ t.group p g = s.group p g)) ∧
  (∀ (s : State) i v, let writes := fun (r : Reg) (t : State) => exec (.registerWrite r i v) s = .next t
    (i < 64 → s.dieOn i = true → writes .dage (s.mapDie i (fun x => { x with dage := BitVec.ofNat 16 v })) ∧
      writes .cstore (s.mapDie i (fun x => { x with cstoreBase := BitVec.ofNat 56 v, cstoreUnits := BitVec.ofNat 24 (v / 2 ^ 64 % 2 ^ 24) })) ∧
      ∀ w, (s.die i).whorl = some w → let need := v / 2 ^ 16 % 2 ^ 16
        writes .wpaceNeed (s.mapDie i (fun x => { x with whorl := some { w with
          needDecl := BitVec.ofNat 16 need, needs := mset 0 w.needs i need, paceOut := w.paceOut ++ [⟨i, need⟩] } }))) ∧
    (i < 1024 → s.dieOn (i / 16) = true → writes .lwinMode (s.mapDie (i / 16) (fun x => x.mapLathe (i % 16) (fun l => { l with winMode := bitB v 0 })))) ∧
    (i < 2048 → s.dieOn (i / 32) = true →
      (bitB v 4 = false → bitB v 5 = false → writes .prectl (s.mapCore ⟨i / 32, i % 32, 0⟩ (fun y => { y with prectl := { y.prectl with
        slot := BitVec.ofNat 3 v, evict := bitB v 3 } }))) ∧
      (bitB v 4 = true → bitB v 5 = false → exec (.registerWrite .prectl i v) s =
        exec (if bitB v 3 then .preemptEvict (i / 32) (i % 32) (v % 8) else .preemptRequest (i / 32) (i % 32) (v % 8)) s)) ∧
    (i < 32 → writes .pwdog (s.setPart i { s.part i with wdog := BitVec.ofNat 32 v }) ∧
      writes .presetReplay (s.setPart i { s.part i with replay := bitB v 2 }) ∧
      (bitB v 96 = true → writes .ferr (s.setPart i { s.part i with ferr := .reset })) ∧ (bitB v 96 = false → writes .ferr s)) ∧
    (i < 16 → (s.block (128 + i)).off = false →
      writes .ccfg (s.setSwitch i { s.switch i with kmin := BitVec.ofNat 16 v, rmin := BitVec.ofNat 8 (v / 2 ^ 16 % 2 ^ 8) })) ∧
    (i < 148 → writes .pwrTrip (s.setBlock i { s.block i with tripNext := BitVec.ofNat 8 (v / 2 ^ 32 % 2 ^ 8) })) ∧
    (s.portOn i = true → writes .rxhead (s.setPort i { s.port i with rxhead := BitVec.ofNat 32 v }) ∧
      writes .ethcfg (s.setPort i { s.port i with
        part := BitVec.ofNat 5 v, en := bitB v 5, mac := BitVec.ofNat 48 (v / 2 ^ 16), ip := BitVec.ofNat 128 (v / 2 ^ 64)
        rxdie := BitVec.ofNat 6 (v / 2 ^ 192), rxslots := BitVec.ofNat 4 (v / 2 ^ 198), rxbase := BitVec.ofNat 56 (v / 2 ^ 256)
        rxctr := BitVec.ofNat 56 (v / 2 ^ 320), rxhead := BitVec.ofNat 32 (v / 2 ^ 384) })) ∧
    (s.portOn (i / 16) = true → let q := s.port (i / 16)
      ∃ k : EthKey, writes .ethkey (s.setPort (i / 16) { q with keys := mput q.keys (i % 16) k }) ∧ k.rkey = BitVec.ofNat 32 v ∧
        k.valid = bitB v 32 ∧ k.die = BitVec.ofNat 6 (v / 2 ^ 33) ∧ k.wbase = BitVec.ofNat 31 (v / 2 ^ 64) ∧ k.wpages = BitVec.ofNat 20 (v / 2 ^ 128)) ∧
    writes .fwstatSel { s with fw := { s.fw with sel := bitB v 1 } } ∧
    (s.fw.status ≠ 1 → i < 2 ^ 26 → writes .updWindow { s with fw := { s.fw with window := putByte s.fw.window i (BitVec.ofNat 8 v) } }) ∧
    (s.fw.status = 1 → writes .updWindow s) ∧
    (i < 192 → s.hostOn (i / 48) = true → let f := s.vf i
      writes .cmdBase (s.setVf i { f with cmdBase := BitVec.ofNat 56 v }) ∧
      writes .cmdSize (s.setVf i { f with cmdSize := BitVec.ofNat 4 v }) ∧
      writes .cplBase (s.setVf i { f with cplBase := BitVec.ofNat 56 v }) ∧
      writes .coCount (s.setVf i { f with coCount := BitVec.ofNat 16 v }) ∧
      writes .coCycles (s.setVf i { f with coCycles := BitVec.ofNat 32 v }) ∧
      writes .intEn (s.setVf i { f with intEn := bitB v 0 }) ∧
      writes .trapqBase (s.setVf i { f with trapBase := BitVec.ofNat 56 v }) ∧
      (f.trapHeld = [] → writes .trapqSize (s.setVf i { f with trapSize := BitVec.ofNat 4 v })) ∧
      (f.held = [] → ∃ t, writes .cplSize t ∧ let g := { f with cplSize := BitVec.ofNat 4 v }
        t.vf i = { g with stalled := g.cplFull } ∧ t = { s with vfs := t.vfs })) ∧
    ∀ r, s.regOn r i = false → writes r s)


/-- The worked encodings that the spec writes out (R142, R148, R153, R154, and the example tables of chapters 8 to 14). -/
def Obligations.WrittenOutWordsDecode : Prop :=
  (∀ e ∈ [(0x042860E0, Instr.add false 5 6 7), (0x06006820, .add true 0 6 65), (0x10180FFC, .addi false 3 0 (-4)),
      (0x20440002, .shli false 8 64 2), (0x34007FFD, .beqz 7 (-3)), (0x58581000, .ldws false 11 1 0),
      (0x6C503000, .sd 10 3 0), (0x8060414B, .aadd false 12 4 10 false true 3), (0x9C0040B3, .acas false 0 4 5 true false 3),
      (0xAC000000, .nop), (0xB000000B, .fence true 3), (0xB8000000, .endUnit), (0xC4100801, .fwait 2 0 true 1),
      (0xC8000015, .tokPush 1 5), (0xC800000D, .tokPop 5), (0xD40040A2, .mwait 4 5 2), (0xE0A152C0, .spawn false 20 21 22),
      (0xE4A15002, .get false 10 21), (0xF00142A3, .enq 20 21 3), (0xF8700002, .lcnt false 14), (0xFC38000C, .flip false 7 12)],
    decodeSq e.1 = .ok e.2) ∧
  (∀ e ∈ [(0x6C2BE3F5, Instr.vfma 10 248 253 false true), (0xA7FC3C00, .vsh 3 63 15 false false),
      (0xA8C00000, .vfmt 3 0 false false), (0x9C08040D, .vrfmax false 2 1 false true), (0x9C100C18, .vrfsum true 4 3 false false),
      (0x780C0C08, .vexp2 3 3 false false), (0xB0083000, .vpset 2 12 false false), (0xAC343808, .vperm 13 14 2 false false),
      (0xB4500454, .vquant 20 1 21 false false)],
    decodeVec .va e.1 [] = .ok e.2) ∧
  decodeVec .vl 0x0814C801 [] = .ok (.vld 5 1 true 2 false true) ∧
  decodeVec .vs 0xC4001016 [] = .ok (.vst 0 false 4 5 true false) ∧
  decodeVec .vl 0x04040000 [0x00400000, 0, 0x100] = .ok (.vad 1 0x00400000 0 0x100 false false) ∧
  decodeVec .va 0xB8080000 [0x00600000, 0, 0x11160000, 0x82000000, 0x24380000] =
    .ok (.vchain 0x00600000 0 [0x11160000, 0x82000000, 0x24380000] false false) ∧
  (∀ e ∈ [(0x08000000, Instr.mclaim 0), (0x2A01C000, .mal 1 0x1C000), (0x18000FE0, .mfill 127 0), (0x38000003, .mafmt 3),
      (0x300000C0, .mlatch false 3 false 0), (0x40400200, .mloop 0 1 512), (0x48000000, .mop 0 false false false 0),
      (0x58000020, .mdrain 1 0 0), (0xF8A0B191, .goMx 5 2 true true 6 2 1)],
    decodeMx e.1 = .ok e.2) ∧
  (∀ e ∈ [(0x0A000201, Instr.tah 1 0x201), (0x30000149, .tcopy false true false true 9), (0x38000C03, .tenq false 12 3),
      (0x40000005, .tsend 5), (0x48000007, .tcoll 7), (0x58000001, .tsinv true)],
    decodeTr e.1 = .ok e.2)
end

