-- ==== Sys2Proof/Laws/Maps.lean ====
section
/-! SUPPORT. Reading after writing in a sparse map, and the canonical form of memory under every memory operation. -/

namespace Sys2Proof.Machine

open Sys2Proof

/-! ## Reading after writing -/

theorem mfind_mput {α : Type} (m : Map α) (k : Nat) (v : α) (j : Nat) :
    mfind (mput m k v) j = if j = k then some v else mfind m j := by
  induction m with
  | nil => simp [mput, mfind, eq_comm]
  | cons e t ih =>
    obtain ⟨i, x⟩ := e
    simp only [mput]
    split
    · simp only [mfind, eq_comm]
    · split
      · subst_vars; simp only [mfind]; split <;> simp_all [eq_comm]
      · simp only [mfind, ih]; split <;> split <;> simp_all

theorem mget_mput {α : Type} (d : α) (m : Map α) (k : Nat) (v : α) (j : Nat) :
    mget d (mput m k v) j = if j = k then v else mget d m j := by
  simp only [mget, mfind_mput]; split <;> simp

theorem mfind_mdel {α : Type} (m : Map α) (k j : Nat) : mfind (mdel m k) j = if j = k then none else mfind m j := by
  induction m with
  | nil => simp [mdel, mfind]
  | cons e t ih =>
    obtain ⟨i, x⟩ := e
    simp only [mdel, mfind]
    split
    · rename_i h; subst h; rw [ih]; by_cases hj : j = i
      · simp [hj]
      · rw [if_neg hj, if_neg hj, if_neg (fun e => hj e.symm)]
    · rename_i h; simp only [mfind, ih]; by_cases hj : j = i
      · subst hj; rw [if_pos rfl, if_neg h, if_pos rfl]
      · simp [eq_comm, hj]

theorem mget_mset {α : Type} [DecidableEq α] (d : α) (m : Map α) (k : Nat) (v : α) (j : Nat) :
    mget d (mset d m k v) j = if j = k then v else mget d m j := by
  unfold mset
  split
  · subst_vars; simp only [mget, mfind_mdel]; split <;> simp
  · exact mget_mput ..

/-- Reading a byte after writing one. -/
theorem getByte_putByte (m : Map Byte) (a : Nat) (b : Byte) (p : Nat) :
    getByte (putByte m a b) p = if p = a then b else getByte m p := mget_mset ..

/-- Reading a byte after writing a run of them. -/
theorem getByte_putBytes (m : Map Byte) (a : Nat) (bs : List Byte) (p : Nat) :
    getByte (putBytes m a bs) p = if a ≤ p ∧ p < a + bs.length then bs.getD (p - a) 0 else getByte m p := by
  induction bs generalizing m a with
  | nil => simp only [putBytes, List.length_nil, Nat.add_zero]; rw [if_neg (by omega)]
  | cons b t ih =>
    simp only [putBytes, ih, getByte_putByte, List.length_cons]
    by_cases h1 : a + 1 ≤ p
    · obtain ⟨k, rfl⟩ : ∃ k, p = a + 1 + k := ⟨p - (a + 1), by omega⟩
      have e1 : a + 1 + k - (a + 1) = k := by omega
      have e2 : a + 1 + k - a = k + 1 := by omega
      by_cases h2 : k < t.length
      · rw [if_pos (by omega), if_pos (by omega), e1, e2]; simp
      · rw [if_neg (by omega), if_neg (by omega), if_neg (by omega)]
    · rw [if_neg (by omega)]
      by_cases h2 : p = a
      · subst h2; simp
      · rw [if_neg h2, if_neg (by omega)]

theorem getBytes_length (m : Map Byte) (a n : Nat) : (getBytes m a n).length = n := by
  induction n generalizing a with
  | zero => rfl
  | succ n ih => simp [getBytes, ih]

theorem leBytes_length (n v : Nat) : (leBytes n v).length = n := by
  induction n generalizing v with
  | zero => rfl
  | succ n ih => simp [leBytes, ih]

/-- A little-endian value written as bytes and read again is the value, within its width (R3). -/
theorem leNat_leBytes (n v : Nat) : leNat (leBytes n v) = v % 256 ^ n := by
  induction n generalizing v with
  | zero => simp [leBytes, leNat, Nat.mod_one]
  | succ n ih =>
    have h : v % 256 ^ (n + 1) = v % 256 + 256 * (v / 256 % 256 ^ n) := by
      rw [Nat.pow_succ, Nat.mul_comm, Nat.mod_mul]
    simp [leBytes, leNat, ih, h]

/-! ## The canonical form (R3, log 20) -/

theorem mwfFrom_weaken {α : Type} [DecidableEq α] (d : α) (l : Nat) (m : Map α) (h : mwfFrom d (some l) m = true) :
    mwfFrom d none m = true := by
  cases m with
  | nil => rfl
  | cons e t => simp only [mwfFrom, Bool.and_eq_true] at h ⊢; exact ⟨⟨trivial, h.1.2⟩, h.2⟩

theorem mwfFrom_lower {α : Type} [DecidableEq α] (d : α) (l k : Nat) (m : Map α) (hk : k ≤ l)
    (h : mwfFrom d (some l) m = true) : mwfFrom d (some k) m = true := by
  cases m with
  | nil => rfl
  | cons e t =>
    simp only [mwfFrom, Bool.and_eq_true, decide_eq_true_eq] at h ⊢
    exact ⟨⟨by omega, h.1.2⟩, h.2⟩

/-- Whether a map's bound lies below a key. -/
def under (lo : Option Nat) (k : Nat) : Prop := ∀ l, lo = some l → l < k

theorem mwfFrom_cons {α : Type} [DecidableEq α] (d : α) (lo : Option Nat) (k : Nat) (v : α) (t : Map α) :
    mwfFrom d lo ((k, v) :: t) = true ↔ under lo k ∧ v ≠ d ∧ mwfFrom d (some k) t = true := by
  cases lo <;> simp [mwfFrom, under, and_assoc]

theorem mwfFrom_mput {α : Type} [DecidableEq α] (d : α) (lo : Option Nat) (m : Map α) (k : Nat) (v : α)
    (hm : mwfFrom d lo m = true) (hk : under lo k) (hv : v ≠ d) : mwfFrom d lo (mput m k v) = true := by
  induction m generalizing lo with
  | nil => simp only [mput]; rw [mwfFrom_cons]; exact ⟨hk, hv, rfl⟩
  | cons e t ih =>
    obtain ⟨j, x⟩ := e
    rw [mwfFrom_cons] at hm
    simp only [mput]
    split
    · rw [mwfFrom_cons, mwfFrom_cons]
      exact ⟨hk, hv, fun l hl => by cases hl; assumption, hm.2.1, hm.2.2⟩
    · split
      · subst_vars; rw [mwfFrom_cons]; exact ⟨hk, hv, hm.2.2⟩
      · rw [mwfFrom_cons]
        exact ⟨hm.1, hm.2.1, ih (some j) hm.2.2 (fun l hl => by cases hl; omega)⟩

theorem mwfFrom_under {α : Type} [DecidableEq α] (d : α) (l : Nat) (lo : Option Nat) (m : Map α)
    (h : mwfFrom d (some l) m = true) (hl : under lo l) : mwfFrom d lo m = true := by
  cases lo with
  | none => exact mwfFrom_weaken d l m h
  | some k => exact mwfFrom_lower d l k m (Nat.le_of_lt (hl k rfl)) h

theorem mwfFrom_mdel {α : Type} [DecidableEq α] (d : α) (lo : Option Nat) (m : Map α) (k : Nat)
    (hm : mwfFrom d lo m = true) : mwfFrom d lo (mdel m k) = true := by
  induction m generalizing lo with
  | nil => rfl
  | cons e t ih =>
    obtain ⟨j, x⟩ := e
    rw [mwfFrom_cons] at hm
    simp only [mdel]
    split
    · exact mwfFrom_under d j lo _ (ih (some j) hm.2.2) hm.1
    · rw [mwfFrom_cons]; exact ⟨hm.1, hm.2.1, ih (some j) hm.2.2⟩

theorem mwfFrom_mset {α : Type} [DecidableEq α] (d : α) (m : Map α) (k : Nat) (v : α)
    (hm : mwfFrom d none m = true) : mwfFrom d none (mset d m k v) = true := by
  unfold mset
  split
  · exact mwfFrom_mdel d none m k hm
  · exact mwfFrom_mput d none m k v hm (fun l hl => by cases hl) ‹_›

theorem wf_nil : Memory.wf [] = true := rfl

theorem wf_putByte (m : Map Byte) (a : Nat) (b : Byte) (h : Memory.wf m = true) : Memory.wf (putByte m a b) = true :=
  mwfFrom_mset 0 m a b h

theorem wf_putBytes (m : Map Byte) (a : Nat) (bs : List Byte) (h : Memory.wf m = true) :
    Memory.wf (putBytes m a bs) = true := by
  induction bs generalizing m a with
  | nil => exact h
  | cons b t ih => exact ih _ _ (wf_putByte m a b h)

theorem wf_putLE (m : Map Byte) (a n v : Nat) (h : Memory.wf m = true) : Memory.wf (putLE m a n v) = true :=
  wf_putBytes m a _ h

theorem mwfFrom_filter {α : Type} [DecidableEq α] (d : α) (lo : Option Nat) (m : Map α) (f : Nat × α → Bool)
    (hm : mwfFrom d lo m = true) : mwfFrom d lo (m.filter f) = true := by
  induction m generalizing lo with
  | nil => rfl
  | cons e t ih =>
    obtain ⟨j, x⟩ := e
    rw [mwfFrom_cons] at hm
    simp only [List.filter_cons]
    split
    · rw [mwfFrom_cons]; exact ⟨hm.1, hm.2.1, ih (some j) hm.2.2⟩
    · exact mwfFrom_under d j lo _ (ih (some j) hm.2.2) hm.1

theorem wf_clearRange (m : Map Byte) (lo n : Nat) (h : Memory.wf m = true) : Memory.wf (clearRange m lo n) = true :=
  mwfFrom_filter 0 none m _ h

theorem wf_pasteRange (m : Map Byte) (lo : Nat) (x : Map Byte) (h : Memory.wf m = true) :
    Memory.wf (pasteRange m lo x) = true := by
  unfold pasteRange
  induction x generalizing m with
  | nil => exact h
  | cons e t ih => exact ih _ (wf_putByte m _ _ h)

theorem wf_copyRange (src : Map Byte) (a : Nat) (m : Map Byte) (dst n : Nat) (h : Memory.wf m = true) :
    Memory.wf (copyRange src a m dst n) = true := wf_pasteRange _ _ _ (wf_clearRange m dst n h)

/-- Two memories in canonical form that read alike at every address are equal data. -/
theorem wf_ext (lo : Option Nat) (m n : Map Byte) (hm : mwfFrom 0 lo m = true) (hn : mwfFrom 0 lo n = true)
    (h : ∀ a, getByte m a = getByte n a) : m = n := by
  have low : ∀ (l j : Nat) (m : Map Byte), mwfFrom 0 (some l) m = true → j ≤ l → mfind m j = none := by
    intro l j m
    induction m generalizing l with
    | nil => intros; rfl
    | cons e t ih =>
      obtain ⟨k, x⟩ := e
      intro hw hj
      rw [mwfFrom_cons] at hw
      have hk := hw.1 l rfl
      rw [mfind, if_neg (by omega)]
      exact ih k hw.2.2 (by omega)
  induction m generalizing lo n with
  | nil =>
    cases n with
    | nil => rfl
    | cons e t =>
      obtain ⟨k, x⟩ := e
      rw [mwfFrom_cons] at hn
      have := h k
      simp [getByte, mget, mfind] at this
      exact absurd this.symm hn.2.1
  | cons e t ih =>
    obtain ⟨k, x⟩ := e
    rw [mwfFrom_cons] at hm
    cases n with
    | nil =>
      have := h k
      simp [getByte, mget, mfind] at this
      exact absurd this hm.2.1
    | cons e2 u =>
      obtain ⟨j, y⟩ := e2
      rw [mwfFrom_cons] at hn
      have hkj : k = j := by
        rcases Nat.lt_trichotomy k j with hlt | heq | hgt
        · have := h k
          simp [getByte, mget, mfind, Nat.ne_of_gt hlt, low j k u hn.2.2 (by omega)] at this
          exact absurd this hm.2.1
        · exact heq
        · have := h j
          simp [getByte, mget, mfind, Nat.ne_of_gt hgt, low k j t hm.2.2 (by omega)] at this
          exact absurd this.symm hn.2.1
      subst hkj
      have hxy : x = y := by simpa [getByte, mget, mfind] using h k
      subst hxy
      congr 1
      refine ih (some k) u hm.2.2 hn.2.2 (fun a => ?_)
      by_cases ha : k = a
      · subst ha; simp [getByte, mget, low k k t hm.2.2 (by omega), low k k u hn.2.2 (by omega)]
      · have := h a
        simpa [getByte, mget, mfind, ha] using this

end Sys2Proof.Machine
end

