-- ==== Sys2Proof/Laws/State.lean ====
section
/-! SUPPORT. What each named update of the state leaves alone, field by field, and what reading back after an update
gives. -/

namespace Sys2Proof.Machine

open Sys2Proof

/-! ## Updates of the panel -/

@[simp] theorem State.setDie_tick (s : State) (d : Nat) (x : Die) : (s.setDie d x).tick = s.tick := rfl
@[simp] theorem State.setDie_turn (s : State) (d : Nat) (x : Die) : (s.setDie d x).turn = s.turn := rfl
@[simp] theorem State.setDie_fresh (s : State) (d : Nat) (x : Die) : (s.setDie d x).fresh = s.fresh := rfl
@[simp] theorem State.setDie_workBase (s : State) (d : Nat) (x : Die) : (s.setDie d x).workBase = s.workBase := rfl
@[simp] theorem State.setDie_vfs (s : State) (d : Nat) (x : Die) : (s.setDie d x).vfs = s.vfs := rfl
@[simp] theorem State.setDie_parts (s : State) (d : Nat) (x : Die) : (s.setDie d x).parts = s.parts := rfl
@[simp] theorem State.setDie_whorls (s : State) (d : Nat) (x : Die) : (s.setDie d x).whorls = s.whorls := rfl
@[simp] theorem State.setDie_links (s : State) (d : Nat) (x : Die) : (s.setDie d x).links = s.links := rfl
@[simp] theorem State.setDie_ports (s : State) (d : Nat) (x : Die) : (s.setDie d x).ports = s.ports := rfl
@[simp] theorem State.setDie_sws (s : State) (d : Nat) (x : Die) : (s.setDie d x).sws = s.sws := rfl
@[simp] theorem State.setDie_blocks (s : State) (d : Nat) (x : Die) : (s.setDie d x).blocks = s.blocks := rfl
@[simp] theorem State.setDie_frames (s : State) (d : Nat) (x : Die) : (s.setDie d x).frames = s.frames := rfl
@[simp] theorem State.setDie_replies (s : State) (d : Nat) (x : Die) : (s.setDie d x).replies = s.replies := rfl
@[simp] theorem State.setDie_chunks (s : State) (d : Nat) (x : Die) : (s.setDie d x).chunks = s.chunks := rfl
@[simp] theorem State.setDie_posted (s : State) (d : Nat) (x : Die) : (s.setDie d x).posted = s.posted := rfl
@[simp] theorem State.setDie_hostReads (s : State) (d : Nat) (x : Die) : (s.setDie d x).hostReads = s.hostReads := rfl
@[simp] theorem State.setDie_msix (s : State) (d : Nat) (x : Die) : (s.setDie d x).msix = s.msix := rfl
@[simp] theorem State.setDie_invctl (s : State) (d : Nat) (x : Die) : (s.setDie d x).invctl = s.invctl := rfl
@[simp] theorem State.setDie_fw (s : State) (d : Nat) (x : Die) : (s.setDie d x).fw = s.fw := rfl
@[simp] theorem State.setDie_spdm (s : State) (d : Nat) (x : Die) : (s.setDie d x).spdm = s.spdm := rfl
@[simp] theorem State.setDie_keys (s : State) (d : Nat) (x : Die) : (s.setDie d x).keys = s.keys := rfl
@[simp] theorem State.setDie_phealth (s : State) (d : Nat) (x : Die) : (s.setDie d x).phealth = s.phealth := rfl
@[simp] theorem State.setDie_powered (s : State) (d : Nat) (x : Die) : (s.setDie d x).powered = s.powered := rfl
@[simp] theorem State.setDie_panelInc (s : State) (d : Nat) (x : Die) : (s.setDie d x).panelInc = s.panelInc := rfl
@[simp] theorem State.setDie_devGen (s : State) (d : Nat) (x : Die) : (s.setDie d x).devGen = s.devGen := rfl
@[simp] theorem State.setDie_devStep (s : State) (d : Nat) (x : Die) : (s.setDie d x).devStep = s.devStep := rfl
@[simp] theorem State.setDie_devDies (s : State) (d : Nat) (x : Die) : (s.setDie d x).devDies = s.devDies := rfl
@[simp] theorem State.setVf_tick (s : State) (v : Nat) (x : VFn) : (s.setVf v x).tick = s.tick := rfl
@[simp] theorem State.setVf_turn (s : State) (v : Nat) (x : VFn) : (s.setVf v x).turn = s.turn := rfl
@[simp] theorem State.setVf_fresh (s : State) (v : Nat) (x : VFn) : (s.setVf v x).fresh = s.fresh := rfl
@[simp] theorem State.setVf_workBase (s : State) (v : Nat) (x : VFn) : (s.setVf v x).workBase = s.workBase := rfl
@[simp] theorem State.setVf_dies (s : State) (v : Nat) (x : VFn) : (s.setVf v x).dies = s.dies := rfl
@[simp] theorem State.setVf_parts (s : State) (v : Nat) (x : VFn) : (s.setVf v x).parts = s.parts := rfl
@[simp] theorem State.setVf_whorls (s : State) (v : Nat) (x : VFn) : (s.setVf v x).whorls = s.whorls := rfl
@[simp] theorem State.setVf_links (s : State) (v : Nat) (x : VFn) : (s.setVf v x).links = s.links := rfl
@[simp] theorem State.setVf_ports (s : State) (v : Nat) (x : VFn) : (s.setVf v x).ports = s.ports := rfl
@[simp] theorem State.setVf_sws (s : State) (v : Nat) (x : VFn) : (s.setVf v x).sws = s.sws := rfl
@[simp] theorem State.setVf_blocks (s : State) (v : Nat) (x : VFn) : (s.setVf v x).blocks = s.blocks := rfl
@[simp] theorem State.setVf_frames (s : State) (v : Nat) (x : VFn) : (s.setVf v x).frames = s.frames := rfl
@[simp] theorem State.setVf_replies (s : State) (v : Nat) (x : VFn) : (s.setVf v x).replies = s.replies := rfl
@[simp] theorem State.setVf_chunks (s : State) (v : Nat) (x : VFn) : (s.setVf v x).chunks = s.chunks := rfl
@[simp] theorem State.setVf_posted (s : State) (v : Nat) (x : VFn) : (s.setVf v x).posted = s.posted := rfl
@[simp] theorem State.setVf_hostReads (s : State) (v : Nat) (x : VFn) : (s.setVf v x).hostReads = s.hostReads := rfl
@[simp] theorem State.setVf_msix (s : State) (v : Nat) (x : VFn) : (s.setVf v x).msix = s.msix := rfl
@[simp] theorem State.setVf_invctl (s : State) (v : Nat) (x : VFn) : (s.setVf v x).invctl = s.invctl := rfl
@[simp] theorem State.setVf_fw (s : State) (v : Nat) (x : VFn) : (s.setVf v x).fw = s.fw := rfl
@[simp] theorem State.setVf_spdm (s : State) (v : Nat) (x : VFn) : (s.setVf v x).spdm = s.spdm := rfl
@[simp] theorem State.setVf_keys (s : State) (v : Nat) (x : VFn) : (s.setVf v x).keys = s.keys := rfl
@[simp] theorem State.setVf_phealth (s : State) (v : Nat) (x : VFn) : (s.setVf v x).phealth = s.phealth := rfl
@[simp] theorem State.setVf_powered (s : State) (v : Nat) (x : VFn) : (s.setVf v x).powered = s.powered := rfl
@[simp] theorem State.setVf_panelInc (s : State) (v : Nat) (x : VFn) : (s.setVf v x).panelInc = s.panelInc := rfl
@[simp] theorem State.setVf_devGen (s : State) (v : Nat) (x : VFn) : (s.setVf v x).devGen = s.devGen := rfl
@[simp] theorem State.setVf_devStep (s : State) (v : Nat) (x : VFn) : (s.setVf v x).devStep = s.devStep := rfl
@[simp] theorem State.setVf_devDies (s : State) (v : Nat) (x : VFn) : (s.setVf v x).devDies = s.devDies := rfl
@[simp] theorem State.setPart_tick (s : State) (p : Nat) (x : Part) : (s.setPart p x).tick = s.tick := rfl
@[simp] theorem State.setPart_turn (s : State) (p : Nat) (x : Part) : (s.setPart p x).turn = s.turn := rfl
@[simp] theorem State.setPart_fresh (s : State) (p : Nat) (x : Part) : (s.setPart p x).fresh = s.fresh := rfl
@[simp] theorem State.setPart_workBase (s : State) (p : Nat) (x : Part) : (s.setPart p x).workBase = s.workBase := rfl
@[simp] theorem State.setPart_dies (s : State) (p : Nat) (x : Part) : (s.setPart p x).dies = s.dies := rfl
@[simp] theorem State.setPart_vfs (s : State) (p : Nat) (x : Part) : (s.setPart p x).vfs = s.vfs := rfl
@[simp] theorem State.setPart_whorls (s : State) (p : Nat) (x : Part) : (s.setPart p x).whorls = s.whorls := rfl
@[simp] theorem State.setPart_links (s : State) (p : Nat) (x : Part) : (s.setPart p x).links = s.links := rfl
@[simp] theorem State.setPart_ports (s : State) (p : Nat) (x : Part) : (s.setPart p x).ports = s.ports := rfl
@[simp] theorem State.setPart_sws (s : State) (p : Nat) (x : Part) : (s.setPart p x).sws = s.sws := rfl
@[simp] theorem State.setPart_blocks (s : State) (p : Nat) (x : Part) : (s.setPart p x).blocks = s.blocks := rfl
@[simp] theorem State.setPart_frames (s : State) (p : Nat) (x : Part) : (s.setPart p x).frames = s.frames := rfl
@[simp] theorem State.setPart_replies (s : State) (p : Nat) (x : Part) : (s.setPart p x).replies = s.replies := rfl
@[simp] theorem State.setPart_chunks (s : State) (p : Nat) (x : Part) : (s.setPart p x).chunks = s.chunks := rfl
@[simp] theorem State.setPart_posted (s : State) (p : Nat) (x : Part) : (s.setPart p x).posted = s.posted := rfl
@[simp] theorem State.setPart_hostReads (s : State) (p : Nat) (x : Part) : (s.setPart p x).hostReads = s.hostReads := rfl
@[simp] theorem State.setPart_msix (s : State) (p : Nat) (x : Part) : (s.setPart p x).msix = s.msix := rfl
@[simp] theorem State.setPart_invctl (s : State) (p : Nat) (x : Part) : (s.setPart p x).invctl = s.invctl := rfl
@[simp] theorem State.setPart_fw (s : State) (p : Nat) (x : Part) : (s.setPart p x).fw = s.fw := rfl
@[simp] theorem State.setPart_spdm (s : State) (p : Nat) (x : Part) : (s.setPart p x).spdm = s.spdm := rfl
@[simp] theorem State.setPart_keys (s : State) (p : Nat) (x : Part) : (s.setPart p x).keys = s.keys := rfl
@[simp] theorem State.setPart_phealth (s : State) (p : Nat) (x : Part) : (s.setPart p x).phealth = s.phealth := rfl
@[simp] theorem State.setPart_powered (s : State) (p : Nat) (x : Part) : (s.setPart p x).powered = s.powered := rfl
@[simp] theorem State.setPart_panelInc (s : State) (p : Nat) (x : Part) : (s.setPart p x).panelInc = s.panelInc := rfl
@[simp] theorem State.setPart_devGen (s : State) (p : Nat) (x : Part) : (s.setPart p x).devGen = s.devGen := rfl
@[simp] theorem State.setPart_devStep (s : State) (p : Nat) (x : Part) : (s.setPart p x).devStep = s.devStep := rfl
@[simp] theorem State.setPart_devDies (s : State) (p : Nat) (x : Part) : (s.setPart p x).devDies = s.devDies := rfl
@[simp] theorem State.setWhorl_tick (s : State) (w : Nat) (x : Whorl) : (s.setWhorl w x).tick = s.tick := rfl
@[simp] theorem State.setWhorl_turn (s : State) (w : Nat) (x : Whorl) : (s.setWhorl w x).turn = s.turn := rfl
@[simp] theorem State.setWhorl_fresh (s : State) (w : Nat) (x : Whorl) : (s.setWhorl w x).fresh = s.fresh := rfl
@[simp] theorem State.setWhorl_workBase (s : State) (w : Nat) (x : Whorl) : (s.setWhorl w x).workBase = s.workBase := rfl
@[simp] theorem State.setWhorl_dies (s : State) (w : Nat) (x : Whorl) : (s.setWhorl w x).dies = s.dies := rfl
@[simp] theorem State.setWhorl_vfs (s : State) (w : Nat) (x : Whorl) : (s.setWhorl w x).vfs = s.vfs := rfl
@[simp] theorem State.setWhorl_parts (s : State) (w : Nat) (x : Whorl) : (s.setWhorl w x).parts = s.parts := rfl
@[simp] theorem State.setWhorl_links (s : State) (w : Nat) (x : Whorl) : (s.setWhorl w x).links = s.links := rfl
@[simp] theorem State.setWhorl_ports (s : State) (w : Nat) (x : Whorl) : (s.setWhorl w x).ports = s.ports := rfl
@[simp] theorem State.setWhorl_sws (s : State) (w : Nat) (x : Whorl) : (s.setWhorl w x).sws = s.sws := rfl
@[simp] theorem State.setWhorl_blocks (s : State) (w : Nat) (x : Whorl) : (s.setWhorl w x).blocks = s.blocks := rfl
@[simp] theorem State.setWhorl_frames (s : State) (w : Nat) (x : Whorl) : (s.setWhorl w x).frames = s.frames := rfl
@[simp] theorem State.setWhorl_replies (s : State) (w : Nat) (x : Whorl) : (s.setWhorl w x).replies = s.replies := rfl
@[simp] theorem State.setWhorl_chunks (s : State) (w : Nat) (x : Whorl) : (s.setWhorl w x).chunks = s.chunks := rfl
@[simp] theorem State.setWhorl_posted (s : State) (w : Nat) (x : Whorl) : (s.setWhorl w x).posted = s.posted := rfl
@[simp] theorem State.setWhorl_hostReads (s : State) (w : Nat) (x : Whorl) : (s.setWhorl w x).hostReads = s.hostReads := rfl
@[simp] theorem State.setWhorl_msix (s : State) (w : Nat) (x : Whorl) : (s.setWhorl w x).msix = s.msix := rfl
@[simp] theorem State.setWhorl_invctl (s : State) (w : Nat) (x : Whorl) : (s.setWhorl w x).invctl = s.invctl := rfl
@[simp] theorem State.setWhorl_fw (s : State) (w : Nat) (x : Whorl) : (s.setWhorl w x).fw = s.fw := rfl
@[simp] theorem State.setWhorl_spdm (s : State) (w : Nat) (x : Whorl) : (s.setWhorl w x).spdm = s.spdm := rfl
@[simp] theorem State.setWhorl_keys (s : State) (w : Nat) (x : Whorl) : (s.setWhorl w x).keys = s.keys := rfl
@[simp] theorem State.setWhorl_phealth (s : State) (w : Nat) (x : Whorl) : (s.setWhorl w x).phealth = s.phealth := rfl
@[simp] theorem State.setWhorl_powered (s : State) (w : Nat) (x : Whorl) : (s.setWhorl w x).powered = s.powered := rfl
@[simp] theorem State.setWhorl_panelInc (s : State) (w : Nat) (x : Whorl) : (s.setWhorl w x).panelInc = s.panelInc := rfl
@[simp] theorem State.setWhorl_devGen (s : State) (w : Nat) (x : Whorl) : (s.setWhorl w x).devGen = s.devGen := rfl
@[simp] theorem State.setWhorl_devStep (s : State) (w : Nat) (x : Whorl) : (s.setWhorl w x).devStep = s.devStep := rfl
@[simp] theorem State.setWhorl_devDies (s : State) (w : Nat) (x : Whorl) : (s.setWhorl w x).devDies = s.devDies := rfl
@[simp] theorem State.setEgress_tick (s : State) (l : Nat) (x : Egress) : (s.setEgress l x).tick = s.tick := rfl
@[simp] theorem State.setEgress_turn (s : State) (l : Nat) (x : Egress) : (s.setEgress l x).turn = s.turn := rfl
@[simp] theorem State.setEgress_fresh (s : State) (l : Nat) (x : Egress) : (s.setEgress l x).fresh = s.fresh := rfl
@[simp] theorem State.setEgress_workBase (s : State) (l : Nat) (x : Egress) : (s.setEgress l x).workBase = s.workBase := rfl
@[simp] theorem State.setEgress_dies (s : State) (l : Nat) (x : Egress) : (s.setEgress l x).dies = s.dies := rfl
@[simp] theorem State.setEgress_vfs (s : State) (l : Nat) (x : Egress) : (s.setEgress l x).vfs = s.vfs := rfl
@[simp] theorem State.setEgress_parts (s : State) (l : Nat) (x : Egress) : (s.setEgress l x).parts = s.parts := rfl
@[simp] theorem State.setEgress_whorls (s : State) (l : Nat) (x : Egress) : (s.setEgress l x).whorls = s.whorls := rfl
@[simp] theorem State.setEgress_ports (s : State) (l : Nat) (x : Egress) : (s.setEgress l x).ports = s.ports := rfl
@[simp] theorem State.setEgress_sws (s : State) (l : Nat) (x : Egress) : (s.setEgress l x).sws = s.sws := rfl
@[simp] theorem State.setEgress_blocks (s : State) (l : Nat) (x : Egress) : (s.setEgress l x).blocks = s.blocks := rfl
@[simp] theorem State.setEgress_frames (s : State) (l : Nat) (x : Egress) : (s.setEgress l x).frames = s.frames := rfl
@[simp] theorem State.setEgress_replies (s : State) (l : Nat) (x : Egress) : (s.setEgress l x).replies = s.replies := rfl
@[simp] theorem State.setEgress_chunks (s : State) (l : Nat) (x : Egress) : (s.setEgress l x).chunks = s.chunks := rfl
@[simp] theorem State.setEgress_posted (s : State) (l : Nat) (x : Egress) : (s.setEgress l x).posted = s.posted := rfl
@[simp] theorem State.setEgress_hostReads (s : State) (l : Nat) (x : Egress) : (s.setEgress l x).hostReads = s.hostReads := rfl
@[simp] theorem State.setEgress_msix (s : State) (l : Nat) (x : Egress) : (s.setEgress l x).msix = s.msix := rfl
@[simp] theorem State.setEgress_invctl (s : State) (l : Nat) (x : Egress) : (s.setEgress l x).invctl = s.invctl := rfl
@[simp] theorem State.setEgress_fw (s : State) (l : Nat) (x : Egress) : (s.setEgress l x).fw = s.fw := rfl
@[simp] theorem State.setEgress_spdm (s : State) (l : Nat) (x : Egress) : (s.setEgress l x).spdm = s.spdm := rfl
@[simp] theorem State.setEgress_keys (s : State) (l : Nat) (x : Egress) : (s.setEgress l x).keys = s.keys := rfl
@[simp] theorem State.setEgress_phealth (s : State) (l : Nat) (x : Egress) : (s.setEgress l x).phealth = s.phealth := rfl
@[simp] theorem State.setEgress_powered (s : State) (l : Nat) (x : Egress) : (s.setEgress l x).powered = s.powered := rfl
@[simp] theorem State.setEgress_panelInc (s : State) (l : Nat) (x : Egress) : (s.setEgress l x).panelInc = s.panelInc := rfl
@[simp] theorem State.setEgress_devGen (s : State) (l : Nat) (x : Egress) : (s.setEgress l x).devGen = s.devGen := rfl
@[simp] theorem State.setEgress_devStep (s : State) (l : Nat) (x : Egress) : (s.setEgress l x).devStep = s.devStep := rfl
@[simp] theorem State.setEgress_devDies (s : State) (l : Nat) (x : Egress) : (s.setEgress l x).devDies = s.devDies := rfl
@[simp] theorem State.setPort_tick (s : State) (p : Nat) (x : EthPort) : (s.setPort p x).tick = s.tick := rfl
@[simp] theorem State.setPort_turn (s : State) (p : Nat) (x : EthPort) : (s.setPort p x).turn = s.turn := rfl
@[simp] theorem State.setPort_fresh (s : State) (p : Nat) (x : EthPort) : (s.setPort p x).fresh = s.fresh := rfl
@[simp] theorem State.setPort_workBase (s : State) (p : Nat) (x : EthPort) : (s.setPort p x).workBase = s.workBase := rfl
@[simp] theorem State.setPort_dies (s : State) (p : Nat) (x : EthPort) : (s.setPort p x).dies = s.dies := rfl
@[simp] theorem State.setPort_vfs (s : State) (p : Nat) (x : EthPort) : (s.setPort p x).vfs = s.vfs := rfl
@[simp] theorem State.setPort_parts (s : State) (p : Nat) (x : EthPort) : (s.setPort p x).parts = s.parts := rfl
@[simp] theorem State.setPort_whorls (s : State) (p : Nat) (x : EthPort) : (s.setPort p x).whorls = s.whorls := rfl
@[simp] theorem State.setPort_links (s : State) (p : Nat) (x : EthPort) : (s.setPort p x).links = s.links := rfl
@[simp] theorem State.setPort_sws (s : State) (p : Nat) (x : EthPort) : (s.setPort p x).sws = s.sws := rfl
@[simp] theorem State.setPort_blocks (s : State) (p : Nat) (x : EthPort) : (s.setPort p x).blocks = s.blocks := rfl
@[simp] theorem State.setPort_frames (s : State) (p : Nat) (x : EthPort) : (s.setPort p x).frames = s.frames := rfl
@[simp] theorem State.setPort_replies (s : State) (p : Nat) (x : EthPort) : (s.setPort p x).replies = s.replies := rfl
@[simp] theorem State.setPort_chunks (s : State) (p : Nat) (x : EthPort) : (s.setPort p x).chunks = s.chunks := rfl
@[simp] theorem State.setPort_posted (s : State) (p : Nat) (x : EthPort) : (s.setPort p x).posted = s.posted := rfl
@[simp] theorem State.setPort_hostReads (s : State) (p : Nat) (x : EthPort) : (s.setPort p x).hostReads = s.hostReads := rfl
@[simp] theorem State.setPort_msix (s : State) (p : Nat) (x : EthPort) : (s.setPort p x).msix = s.msix := rfl
@[simp] theorem State.setPort_invctl (s : State) (p : Nat) (x : EthPort) : (s.setPort p x).invctl = s.invctl := rfl
@[simp] theorem State.setPort_fw (s : State) (p : Nat) (x : EthPort) : (s.setPort p x).fw = s.fw := rfl
@[simp] theorem State.setPort_spdm (s : State) (p : Nat) (x : EthPort) : (s.setPort p x).spdm = s.spdm := rfl
@[simp] theorem State.setPort_keys (s : State) (p : Nat) (x : EthPort) : (s.setPort p x).keys = s.keys := rfl
@[simp] theorem State.setPort_phealth (s : State) (p : Nat) (x : EthPort) : (s.setPort p x).phealth = s.phealth := rfl
@[simp] theorem State.setPort_powered (s : State) (p : Nat) (x : EthPort) : (s.setPort p x).powered = s.powered := rfl
@[simp] theorem State.setPort_panelInc (s : State) (p : Nat) (x : EthPort) : (s.setPort p x).panelInc = s.panelInc := rfl
@[simp] theorem State.setPort_devGen (s : State) (p : Nat) (x : EthPort) : (s.setPort p x).devGen = s.devGen := rfl
@[simp] theorem State.setPort_devStep (s : State) (p : Nat) (x : EthPort) : (s.setPort p x).devStep = s.devStep := rfl
@[simp] theorem State.setPort_devDies (s : State) (p : Nat) (x : EthPort) : (s.setPort p x).devDies = s.devDies := rfl
@[simp] theorem State.setSwitch_tick (s : State) (k : Nat) (x : Switch) : (s.setSwitch k x).tick = s.tick := rfl
@[simp] theorem State.setSwitch_turn (s : State) (k : Nat) (x : Switch) : (s.setSwitch k x).turn = s.turn := rfl
@[simp] theorem State.setSwitch_fresh (s : State) (k : Nat) (x : Switch) : (s.setSwitch k x).fresh = s.fresh := rfl
@[simp] theorem State.setSwitch_workBase (s : State) (k : Nat) (x : Switch) : (s.setSwitch k x).workBase = s.workBase := rfl
@[simp] theorem State.setSwitch_dies (s : State) (k : Nat) (x : Switch) : (s.setSwitch k x).dies = s.dies := rfl
@[simp] theorem State.setSwitch_vfs (s : State) (k : Nat) (x : Switch) : (s.setSwitch k x).vfs = s.vfs := rfl
@[simp] theorem State.setSwitch_parts (s : State) (k : Nat) (x : Switch) : (s.setSwitch k x).parts = s.parts := rfl
@[simp] theorem State.setSwitch_whorls (s : State) (k : Nat) (x : Switch) : (s.setSwitch k x).whorls = s.whorls := rfl
@[simp] theorem State.setSwitch_links (s : State) (k : Nat) (x : Switch) : (s.setSwitch k x).links = s.links := rfl
@[simp] theorem State.setSwitch_ports (s : State) (k : Nat) (x : Switch) : (s.setSwitch k x).ports = s.ports := rfl
@[simp] theorem State.setSwitch_blocks (s : State) (k : Nat) (x : Switch) : (s.setSwitch k x).blocks = s.blocks := rfl
@[simp] theorem State.setSwitch_frames (s : State) (k : Nat) (x : Switch) : (s.setSwitch k x).frames = s.frames := rfl
@[simp] theorem State.setSwitch_replies (s : State) (k : Nat) (x : Switch) : (s.setSwitch k x).replies = s.replies := rfl
@[simp] theorem State.setSwitch_chunks (s : State) (k : Nat) (x : Switch) : (s.setSwitch k x).chunks = s.chunks := rfl
@[simp] theorem State.setSwitch_posted (s : State) (k : Nat) (x : Switch) : (s.setSwitch k x).posted = s.posted := rfl
@[simp] theorem State.setSwitch_hostReads (s : State) (k : Nat) (x : Switch) : (s.setSwitch k x).hostReads = s.hostReads := rfl
@[simp] theorem State.setSwitch_msix (s : State) (k : Nat) (x : Switch) : (s.setSwitch k x).msix = s.msix := rfl
@[simp] theorem State.setSwitch_invctl (s : State) (k : Nat) (x : Switch) : (s.setSwitch k x).invctl = s.invctl := rfl
@[simp] theorem State.setSwitch_fw (s : State) (k : Nat) (x : Switch) : (s.setSwitch k x).fw = s.fw := rfl
@[simp] theorem State.setSwitch_spdm (s : State) (k : Nat) (x : Switch) : (s.setSwitch k x).spdm = s.spdm := rfl
@[simp] theorem State.setSwitch_keys (s : State) (k : Nat) (x : Switch) : (s.setSwitch k x).keys = s.keys := rfl
@[simp] theorem State.setSwitch_phealth (s : State) (k : Nat) (x : Switch) : (s.setSwitch k x).phealth = s.phealth := rfl
@[simp] theorem State.setSwitch_powered (s : State) (k : Nat) (x : Switch) : (s.setSwitch k x).powered = s.powered := rfl
@[simp] theorem State.setSwitch_panelInc (s : State) (k : Nat) (x : Switch) : (s.setSwitch k x).panelInc = s.panelInc := rfl
@[simp] theorem State.setSwitch_devGen (s : State) (k : Nat) (x : Switch) : (s.setSwitch k x).devGen = s.devGen := rfl
@[simp] theorem State.setSwitch_devStep (s : State) (k : Nat) (x : Switch) : (s.setSwitch k x).devStep = s.devStep := rfl
@[simp] theorem State.setSwitch_devDies (s : State) (k : Nat) (x : Switch) : (s.setSwitch k x).devDies = s.devDies := rfl
@[simp] theorem State.setBlock_tick (s : State) (b : Nat) (x : Block) : (s.setBlock b x).tick = s.tick := rfl
@[simp] theorem State.setBlock_turn (s : State) (b : Nat) (x : Block) : (s.setBlock b x).turn = s.turn := rfl
@[simp] theorem State.setBlock_fresh (s : State) (b : Nat) (x : Block) : (s.setBlock b x).fresh = s.fresh := rfl
@[simp] theorem State.setBlock_workBase (s : State) (b : Nat) (x : Block) : (s.setBlock b x).workBase = s.workBase := rfl
@[simp] theorem State.setBlock_dies (s : State) (b : Nat) (x : Block) : (s.setBlock b x).dies = s.dies := rfl
@[simp] theorem State.setBlock_vfs (s : State) (b : Nat) (x : Block) : (s.setBlock b x).vfs = s.vfs := rfl
@[simp] theorem State.setBlock_parts (s : State) (b : Nat) (x : Block) : (s.setBlock b x).parts = s.parts := rfl
@[simp] theorem State.setBlock_whorls (s : State) (b : Nat) (x : Block) : (s.setBlock b x).whorls = s.whorls := rfl
@[simp] theorem State.setBlock_links (s : State) (b : Nat) (x : Block) : (s.setBlock b x).links = s.links := rfl
@[simp] theorem State.setBlock_ports (s : State) (b : Nat) (x : Block) : (s.setBlock b x).ports = s.ports := rfl
@[simp] theorem State.setBlock_sws (s : State) (b : Nat) (x : Block) : (s.setBlock b x).sws = s.sws := rfl
@[simp] theorem State.setBlock_frames (s : State) (b : Nat) (x : Block) : (s.setBlock b x).frames = s.frames := rfl
@[simp] theorem State.setBlock_replies (s : State) (b : Nat) (x : Block) : (s.setBlock b x).replies = s.replies := rfl
@[simp] theorem State.setBlock_chunks (s : State) (b : Nat) (x : Block) : (s.setBlock b x).chunks = s.chunks := rfl
@[simp] theorem State.setBlock_posted (s : State) (b : Nat) (x : Block) : (s.setBlock b x).posted = s.posted := rfl
@[simp] theorem State.setBlock_hostReads (s : State) (b : Nat) (x : Block) : (s.setBlock b x).hostReads = s.hostReads := rfl
@[simp] theorem State.setBlock_msix (s : State) (b : Nat) (x : Block) : (s.setBlock b x).msix = s.msix := rfl
@[simp] theorem State.setBlock_invctl (s : State) (b : Nat) (x : Block) : (s.setBlock b x).invctl = s.invctl := rfl
@[simp] theorem State.setBlock_fw (s : State) (b : Nat) (x : Block) : (s.setBlock b x).fw = s.fw := rfl
@[simp] theorem State.setBlock_spdm (s : State) (b : Nat) (x : Block) : (s.setBlock b x).spdm = s.spdm := rfl
@[simp] theorem State.setBlock_keys (s : State) (b : Nat) (x : Block) : (s.setBlock b x).keys = s.keys := rfl
@[simp] theorem State.setBlock_phealth (s : State) (b : Nat) (x : Block) : (s.setBlock b x).phealth = s.phealth := rfl
@[simp] theorem State.setBlock_powered (s : State) (b : Nat) (x : Block) : (s.setBlock b x).powered = s.powered := rfl
@[simp] theorem State.setBlock_panelInc (s : State) (b : Nat) (x : Block) : (s.setBlock b x).panelInc = s.panelInc := rfl
@[simp] theorem State.setBlock_devGen (s : State) (b : Nat) (x : Block) : (s.setBlock b x).devGen = s.devGen := rfl
@[simp] theorem State.setBlock_devStep (s : State) (b : Nat) (x : Block) : (s.setBlock b x).devStep = s.devStep := rfl
@[simp] theorem State.setBlock_devDies (s : State) (b : Nat) (x : Block) : (s.setBlock b x).devDies = s.devDies := rfl
@[simp] theorem State.tickFresh_tick (s : State)  : (s.tickFresh).tick = s.tick := rfl
@[simp] theorem State.tickFresh_turn (s : State)  : (s.tickFresh).turn = s.turn := rfl
@[simp] theorem State.tickFresh_workBase (s : State)  : (s.tickFresh).workBase = s.workBase := rfl
@[simp] theorem State.tickFresh_dies (s : State)  : (s.tickFresh).dies = s.dies := rfl
@[simp] theorem State.tickFresh_vfs (s : State)  : (s.tickFresh).vfs = s.vfs := rfl
@[simp] theorem State.tickFresh_parts (s : State)  : (s.tickFresh).parts = s.parts := rfl
@[simp] theorem State.tickFresh_whorls (s : State)  : (s.tickFresh).whorls = s.whorls := rfl
@[simp] theorem State.tickFresh_links (s : State)  : (s.tickFresh).links = s.links := rfl
@[simp] theorem State.tickFresh_ports (s : State)  : (s.tickFresh).ports = s.ports := rfl
@[simp] theorem State.tickFresh_sws (s : State)  : (s.tickFresh).sws = s.sws := rfl
@[simp] theorem State.tickFresh_blocks (s : State)  : (s.tickFresh).blocks = s.blocks := rfl
@[simp] theorem State.tickFresh_frames (s : State)  : (s.tickFresh).frames = s.frames := rfl
@[simp] theorem State.tickFresh_replies (s : State)  : (s.tickFresh).replies = s.replies := rfl
@[simp] theorem State.tickFresh_chunks (s : State)  : (s.tickFresh).chunks = s.chunks := rfl
@[simp] theorem State.tickFresh_posted (s : State)  : (s.tickFresh).posted = s.posted := rfl
@[simp] theorem State.tickFresh_hostReads (s : State)  : (s.tickFresh).hostReads = s.hostReads := rfl
@[simp] theorem State.tickFresh_msix (s : State)  : (s.tickFresh).msix = s.msix := rfl
@[simp] theorem State.tickFresh_invctl (s : State)  : (s.tickFresh).invctl = s.invctl := rfl
@[simp] theorem State.tickFresh_fw (s : State)  : (s.tickFresh).fw = s.fw := rfl
@[simp] theorem State.tickFresh_spdm (s : State)  : (s.tickFresh).spdm = s.spdm := rfl
@[simp] theorem State.tickFresh_keys (s : State)  : (s.tickFresh).keys = s.keys := rfl
@[simp] theorem State.tickFresh_phealth (s : State)  : (s.tickFresh).phealth = s.phealth := rfl
@[simp] theorem State.tickFresh_powered (s : State)  : (s.tickFresh).powered = s.powered := rfl
@[simp] theorem State.tickFresh_panelInc (s : State)  : (s.tickFresh).panelInc = s.panelInc := rfl
@[simp] theorem State.tickFresh_devGen (s : State)  : (s.tickFresh).devGen = s.devGen := rfl
@[simp] theorem State.tickFresh_devStep (s : State)  : (s.tickFresh).devStep = s.devStep := rfl
@[simp] theorem State.tickFresh_devDies (s : State)  : (s.tickFresh).devDies = s.devDies := rfl

/-! ## Reading back -/

theorem State.die_setDie (s : State) (d : Nat) (x : Die) (e : Nat) : (s.setDie d x).die e = if e = d then x else s.die e := mget_mput ..
theorem State.vf_setVf (s : State) (v : Nat) (x : VFn) (e : Nat) : (s.setVf v x).vf e = if e = v then x else s.vf e := mget_mput ..
theorem State.part_setPart (s : State) (p : Nat) (x : Part) (e : Nat) : (s.setPart p x).part e = if e = p then x else s.part e := mget_mput ..
theorem State.whorl_setWhorl (s : State) (w : Nat) (x : Whorl) (e : Nat) : (s.setWhorl w x).whorl e = if e = w then x else s.whorl e := mget_mput ..
theorem State.egress_setEgress (s : State) (l : Nat) (x : Egress) (e : Nat) : (s.setEgress l x).egress e = if e = l then x else s.egress e := mget_mput ..
theorem State.port_setPort (s : State) (p : Nat) (x : EthPort) (e : Nat) : (s.setPort p x).port e = if e = p then x else s.port e := mget_mput ..
theorem State.switch_setSwitch (s : State) (k : Nat) (x : Switch) (e : Nat) : (s.setSwitch k x).switch e = if e = k then x else s.switch e := mget_mput ..
theorem State.block_setBlock (s : State) (b : Nat) (x : Block) (e : Nat) : (s.setBlock b x).block e = if e = b then x else s.block e := mget_mput ..
@[simp] theorem State.vf_setDie (s : State) (d : Nat) (x : Die) (e : Nat) : (s.setDie d x).vf e = s.vf e := rfl
@[simp] theorem State.part_setDie (s : State) (d : Nat) (x : Die) (e : Nat) : (s.setDie d x).part e = s.part e := rfl
@[simp] theorem State.whorl_setDie (s : State) (d : Nat) (x : Die) (e : Nat) : (s.setDie d x).whorl e = s.whorl e := rfl
@[simp] theorem State.egress_setDie (s : State) (d : Nat) (x : Die) (e : Nat) : (s.setDie d x).egress e = s.egress e := rfl
@[simp] theorem State.port_setDie (s : State) (d : Nat) (x : Die) (e : Nat) : (s.setDie d x).port e = s.port e := rfl
@[simp] theorem State.switch_setDie (s : State) (d : Nat) (x : Die) (e : Nat) : (s.setDie d x).switch e = s.switch e := rfl
@[simp] theorem State.block_setDie (s : State) (d : Nat) (x : Die) (e : Nat) : (s.setDie d x).block e = s.block e := rfl
@[simp] theorem State.die_setVf (s : State) (v : Nat) (x : VFn) (e : Nat) : (s.setVf v x).die e = s.die e := rfl
@[simp] theorem State.part_setVf (s : State) (v : Nat) (x : VFn) (e : Nat) : (s.setVf v x).part e = s.part e := rfl
@[simp] theorem State.whorl_setVf (s : State) (v : Nat) (x : VFn) (e : Nat) : (s.setVf v x).whorl e = s.whorl e := rfl
@[simp] theorem State.egress_setVf (s : State) (v : Nat) (x : VFn) (e : Nat) : (s.setVf v x).egress e = s.egress e := rfl
@[simp] theorem State.port_setVf (s : State) (v : Nat) (x : VFn) (e : Nat) : (s.setVf v x).port e = s.port e := rfl
@[simp] theorem State.switch_setVf (s : State) (v : Nat) (x : VFn) (e : Nat) : (s.setVf v x).switch e = s.switch e := rfl
@[simp] theorem State.block_setVf (s : State) (v : Nat) (x : VFn) (e : Nat) : (s.setVf v x).block e = s.block e := rfl
@[simp] theorem State.die_setPart (s : State) (p : Nat) (x : Part) (e : Nat) : (s.setPart p x).die e = s.die e := rfl
@[simp] theorem State.vf_setPart (s : State) (p : Nat) (x : Part) (e : Nat) : (s.setPart p x).vf e = s.vf e := rfl
@[simp] theorem State.whorl_setPart (s : State) (p : Nat) (x : Part) (e : Nat) : (s.setPart p x).whorl e = s.whorl e := rfl
@[simp] theorem State.egress_setPart (s : State) (p : Nat) (x : Part) (e : Nat) : (s.setPart p x).egress e = s.egress e := rfl
@[simp] theorem State.port_setPart (s : State) (p : Nat) (x : Part) (e : Nat) : (s.setPart p x).port e = s.port e := rfl
@[simp] theorem State.switch_setPart (s : State) (p : Nat) (x : Part) (e : Nat) : (s.setPart p x).switch e = s.switch e := rfl
@[simp] theorem State.block_setPart (s : State) (p : Nat) (x : Part) (e : Nat) : (s.setPart p x).block e = s.block e := rfl
@[simp] theorem State.die_setWhorl (s : State) (w : Nat) (x : Whorl) (e : Nat) : (s.setWhorl w x).die e = s.die e := rfl
@[simp] theorem State.vf_setWhorl (s : State) (w : Nat) (x : Whorl) (e : Nat) : (s.setWhorl w x).vf e = s.vf e := rfl
@[simp] theorem State.part_setWhorl (s : State) (w : Nat) (x : Whorl) (e : Nat) : (s.setWhorl w x).part e = s.part e := rfl
@[simp] theorem State.egress_setWhorl (s : State) (w : Nat) (x : Whorl) (e : Nat) : (s.setWhorl w x).egress e = s.egress e := rfl
@[simp] theorem State.port_setWhorl (s : State) (w : Nat) (x : Whorl) (e : Nat) : (s.setWhorl w x).port e = s.port e := rfl
@[simp] theorem State.switch_setWhorl (s : State) (w : Nat) (x : Whorl) (e : Nat) : (s.setWhorl w x).switch e = s.switch e := rfl
@[simp] theorem State.block_setWhorl (s : State) (w : Nat) (x : Whorl) (e : Nat) : (s.setWhorl w x).block e = s.block e := rfl
@[simp] theorem State.die_setEgress (s : State) (l : Nat) (x : Egress) (e : Nat) : (s.setEgress l x).die e = s.die e := rfl
@[simp] theorem State.vf_setEgress (s : State) (l : Nat) (x : Egress) (e : Nat) : (s.setEgress l x).vf e = s.vf e := rfl
@[simp] theorem State.part_setEgress (s : State) (l : Nat) (x : Egress) (e : Nat) : (s.setEgress l x).part e = s.part e := rfl
@[simp] theorem State.whorl_setEgress (s : State) (l : Nat) (x : Egress) (e : Nat) : (s.setEgress l x).whorl e = s.whorl e := rfl
@[simp] theorem State.port_setEgress (s : State) (l : Nat) (x : Egress) (e : Nat) : (s.setEgress l x).port e = s.port e := rfl
@[simp] theorem State.switch_setEgress (s : State) (l : Nat) (x : Egress) (e : Nat) : (s.setEgress l x).switch e = s.switch e := rfl
@[simp] theorem State.block_setEgress (s : State) (l : Nat) (x : Egress) (e : Nat) : (s.setEgress l x).block e = s.block e := rfl
@[simp] theorem State.die_setPort (s : State) (p : Nat) (x : EthPort) (e : Nat) : (s.setPort p x).die e = s.die e := rfl
@[simp] theorem State.vf_setPort (s : State) (p : Nat) (x : EthPort) (e : Nat) : (s.setPort p x).vf e = s.vf e := rfl
@[simp] theorem State.part_setPort (s : State) (p : Nat) (x : EthPort) (e : Nat) : (s.setPort p x).part e = s.part e := rfl
@[simp] theorem State.whorl_setPort (s : State) (p : Nat) (x : EthPort) (e : Nat) : (s.setPort p x).whorl e = s.whorl e := rfl
@[simp] theorem State.egress_setPort (s : State) (p : Nat) (x : EthPort) (e : Nat) : (s.setPort p x).egress e = s.egress e := rfl
@[simp] theorem State.switch_setPort (s : State) (p : Nat) (x : EthPort) (e : Nat) : (s.setPort p x).switch e = s.switch e := rfl
@[simp] theorem State.block_setPort (s : State) (p : Nat) (x : EthPort) (e : Nat) : (s.setPort p x).block e = s.block e := rfl
@[simp] theorem State.die_setSwitch (s : State) (k : Nat) (x : Switch) (e : Nat) : (s.setSwitch k x).die e = s.die e := rfl
@[simp] theorem State.vf_setSwitch (s : State) (k : Nat) (x : Switch) (e : Nat) : (s.setSwitch k x).vf e = s.vf e := rfl
@[simp] theorem State.part_setSwitch (s : State) (k : Nat) (x : Switch) (e : Nat) : (s.setSwitch k x).part e = s.part e := rfl
@[simp] theorem State.whorl_setSwitch (s : State) (k : Nat) (x : Switch) (e : Nat) : (s.setSwitch k x).whorl e = s.whorl e := rfl
@[simp] theorem State.egress_setSwitch (s : State) (k : Nat) (x : Switch) (e : Nat) : (s.setSwitch k x).egress e = s.egress e := rfl
@[simp] theorem State.port_setSwitch (s : State) (k : Nat) (x : Switch) (e : Nat) : (s.setSwitch k x).port e = s.port e := rfl
@[simp] theorem State.block_setSwitch (s : State) (k : Nat) (x : Switch) (e : Nat) : (s.setSwitch k x).block e = s.block e := rfl
@[simp] theorem State.die_setBlock (s : State) (b : Nat) (x : Block) (e : Nat) : (s.setBlock b x).die e = s.die e := rfl
@[simp] theorem State.vf_setBlock (s : State) (b : Nat) (x : Block) (e : Nat) : (s.setBlock b x).vf e = s.vf e := rfl
@[simp] theorem State.part_setBlock (s : State) (b : Nat) (x : Block) (e : Nat) : (s.setBlock b x).part e = s.part e := rfl
@[simp] theorem State.whorl_setBlock (s : State) (b : Nat) (x : Block) (e : Nat) : (s.setBlock b x).whorl e = s.whorl e := rfl
@[simp] theorem State.egress_setBlock (s : State) (b : Nat) (x : Block) (e : Nat) : (s.setBlock b x).egress e = s.egress e := rfl
@[simp] theorem State.port_setBlock (s : State) (b : Nat) (x : Block) (e : Nat) : (s.setBlock b x).port e = s.port e := rfl
@[simp] theorem State.switch_setBlock (s : State) (b : Nat) (x : Block) (e : Nat) : (s.setBlock b x).switch e = s.switch e := rfl

/-! ## Updates of a die -/

@[simp] theorem Die.setCore_mem (x : Die) (c : Nat) (y : Core) : (x.setCore c y).mem = x.mem := rfl
@[simp] theorem Die.setCore_part (x : Die) (c : Nat) (y : Core) : (x.setCore c y).part = x.part := rfl
@[simp] theorem Die.setCore_member (x : Die) (c : Nat) (y : Core) : (x.setCore c y).member = x.member := rfl
@[simp] theorem Die.setCore_retired (x : Die) (c : Nat) (y : Core) : (x.setCore c y).retired = x.retired := rfl
@[simp] theorem Die.setCore_moveUntil (x : Die) (c : Nat) (y : Core) : (x.setCore c y).moveUntil = x.moveUntil := rfl
@[simp] theorem Die.setCore_inc (x : Die) (c : Nat) (y : Core) : (x.setCore c y).inc = x.inc := rfl
@[simp] theorem Die.setCore_vclk (x : Die) (c : Nat) (y : Core) : (x.setCore c y).vclk = x.vclk := rfl
@[simp] theorem Die.setCore_futs (x : Die) (c : Nat) (y : Core) : (x.setCore c y).futs = x.futs := rfl
@[simp] theorem Die.setCore_levels (x : Die) (c : Nat) (y : Core) : (x.setCore c y).levels = x.levels := rfl
@[simp] theorem Die.setCore_launches (x : Die) (c : Nat) (y : Core) : (x.setCore c y).launches = x.launches := rfl
@[simp] theorem Die.setCore_units (x : Die) (c : Nat) (y : Core) : (x.setCore c y).units = x.units := rfl
@[simp] theorem Die.setCore_areas (x : Die) (c : Nat) (y : Core) : (x.setCore c y).areas = x.areas := rfl
@[simp] theorem Die.setCore_bars (x : Die) (c : Nat) (y : Core) : (x.setCore c y).bars = x.bars := rfl
@[simp] theorem Die.setCore_lqs (x : Die) (c : Nat) (y : Core) : (x.setCore c y).lqs = x.lqs := rfl
@[simp] theorem Die.setCore_dage (x : Die) (c : Nat) (y : Core) : (x.setCore c y).dage = x.dage := rfl
@[simp] theorem Die.setCore_lastq (x : Die) (c : Nat) (y : Core) : (x.setCore c y).lastq = x.lastq := rfl
@[simp] theorem Die.setCore_chosen (x : Die) (c : Nat) (y : Core) : (x.setCore c y).chosen = x.chosen := rfl
@[simp] theorem Die.setCore_bufs (x : Die) (c : Nat) (y : Core) : (x.setCore c y).bufs = x.bufs := rfl
@[simp] theorem Die.setCore_sched (x : Die) (c : Nat) (y : Core) : (x.setCore c y).sched = x.sched := rfl
@[simp] theorem Die.setCore_plies (x : Die) (c : Nat) (y : Core) : (x.setCore c y).plies = x.plies := rfl
@[simp] theorem Die.setCore_lathes (x : Die) (c : Nat) (y : Core) : (x.setCore c y).lathes = x.lathes := rfl
@[simp] theorem Die.setCore_traps (x : Die) (c : Nat) (y : Core) : (x.setCore c y).traps = x.traps := rfl
@[simp] theorem Die.setCore_cstoreBase (x : Die) (c : Nat) (y : Core) : (x.setCore c y).cstoreBase = x.cstoreBase := rfl
@[simp] theorem Die.setCore_cstoreUnits (x : Die) (c : Nat) (y : Core) : (x.setCore c y).cstoreUnits = x.cstoreUnits := rfl
@[simp] theorem Die.setCore_whorl (x : Die) (c : Nat) (y : Core) : (x.setCore c y).whorl = x.whorl := rfl
@[simp] theorem Die.setCore_holds (x : Die) (c : Nat) (y : Core) : (x.setCore c y).holds = x.holds := rfl
@[simp] theorem Die.setCore_links (x : Die) (c : Nat) (y : Core) : (x.setCore c y).links = x.links := rfl
@[simp] theorem Die.setCore_collSeq (x : Die) (c : Nat) (y : Core) : (x.setCore c y).collSeq = x.collSeq := rfl
@[simp] theorem Die.setCore_tcolls (x : Die) (c : Nat) (y : Core) : (x.setCore c y).tcolls = x.tcolls := rfl
@[simp] theorem Die.setCore_deadSeqs (x : Die) (c : Nat) (y : Core) : (x.setCore c y).deadSeqs = x.deadSeqs := rfl
@[simp] theorem Die.setCore_tenqs (x : Die) (c : Nat) (y : Core) : (x.setCore c y).tenqs = x.tenqs := rfl
@[simp] theorem Die.setPly_mem (x : Die) (c k : Nat) (y : Ply) : (x.setPly c k y).mem = x.mem := rfl
@[simp] theorem Die.setPly_part (x : Die) (c k : Nat) (y : Ply) : (x.setPly c k y).part = x.part := rfl
@[simp] theorem Die.setPly_member (x : Die) (c k : Nat) (y : Ply) : (x.setPly c k y).member = x.member := rfl
@[simp] theorem Die.setPly_retired (x : Die) (c k : Nat) (y : Ply) : (x.setPly c k y).retired = x.retired := rfl
@[simp] theorem Die.setPly_moveUntil (x : Die) (c k : Nat) (y : Ply) : (x.setPly c k y).moveUntil = x.moveUntil := rfl
@[simp] theorem Die.setPly_inc (x : Die) (c k : Nat) (y : Ply) : (x.setPly c k y).inc = x.inc := rfl
@[simp] theorem Die.setPly_vclk (x : Die) (c k : Nat) (y : Ply) : (x.setPly c k y).vclk = x.vclk := rfl
@[simp] theorem Die.setPly_futs (x : Die) (c k : Nat) (y : Ply) : (x.setPly c k y).futs = x.futs := rfl
@[simp] theorem Die.setPly_levels (x : Die) (c k : Nat) (y : Ply) : (x.setPly c k y).levels = x.levels := rfl
@[simp] theorem Die.setPly_launches (x : Die) (c k : Nat) (y : Ply) : (x.setPly c k y).launches = x.launches := rfl
@[simp] theorem Die.setPly_units (x : Die) (c k : Nat) (y : Ply) : (x.setPly c k y).units = x.units := rfl
@[simp] theorem Die.setPly_areas (x : Die) (c k : Nat) (y : Ply) : (x.setPly c k y).areas = x.areas := rfl
@[simp] theorem Die.setPly_bars (x : Die) (c k : Nat) (y : Ply) : (x.setPly c k y).bars = x.bars := rfl
@[simp] theorem Die.setPly_lqs (x : Die) (c k : Nat) (y : Ply) : (x.setPly c k y).lqs = x.lqs := rfl
@[simp] theorem Die.setPly_dage (x : Die) (c k : Nat) (y : Ply) : (x.setPly c k y).dage = x.dage := rfl
@[simp] theorem Die.setPly_lastq (x : Die) (c k : Nat) (y : Ply) : (x.setPly c k y).lastq = x.lastq := rfl
@[simp] theorem Die.setPly_chosen (x : Die) (c k : Nat) (y : Ply) : (x.setPly c k y).chosen = x.chosen := rfl
@[simp] theorem Die.setPly_bufs (x : Die) (c k : Nat) (y : Ply) : (x.setPly c k y).bufs = x.bufs := rfl
@[simp] theorem Die.setPly_sched (x : Die) (c k : Nat) (y : Ply) : (x.setPly c k y).sched = x.sched := rfl
@[simp] theorem Die.setPly_cores (x : Die) (c k : Nat) (y : Ply) : (x.setPly c k y).cores = x.cores := rfl
@[simp] theorem Die.setPly_lathes (x : Die) (c k : Nat) (y : Ply) : (x.setPly c k y).lathes = x.lathes := rfl
@[simp] theorem Die.setPly_traps (x : Die) (c k : Nat) (y : Ply) : (x.setPly c k y).traps = x.traps := rfl
@[simp] theorem Die.setPly_cstoreBase (x : Die) (c k : Nat) (y : Ply) : (x.setPly c k y).cstoreBase = x.cstoreBase := rfl
@[simp] theorem Die.setPly_cstoreUnits (x : Die) (c k : Nat) (y : Ply) : (x.setPly c k y).cstoreUnits = x.cstoreUnits := rfl
@[simp] theorem Die.setPly_whorl (x : Die) (c k : Nat) (y : Ply) : (x.setPly c k y).whorl = x.whorl := rfl
@[simp] theorem Die.setPly_holds (x : Die) (c k : Nat) (y : Ply) : (x.setPly c k y).holds = x.holds := rfl
@[simp] theorem Die.setPly_links (x : Die) (c k : Nat) (y : Ply) : (x.setPly c k y).links = x.links := rfl
@[simp] theorem Die.setPly_collSeq (x : Die) (c k : Nat) (y : Ply) : (x.setPly c k y).collSeq = x.collSeq := rfl
@[simp] theorem Die.setPly_tcolls (x : Die) (c k : Nat) (y : Ply) : (x.setPly c k y).tcolls = x.tcolls := rfl
@[simp] theorem Die.setPly_deadSeqs (x : Die) (c k : Nat) (y : Ply) : (x.setPly c k y).deadSeqs = x.deadSeqs := rfl
@[simp] theorem Die.setPly_tenqs (x : Die) (c k : Nat) (y : Ply) : (x.setPly c k y).tenqs = x.tenqs := rfl
@[simp] theorem Die.setFut_mem (x : Die) (f : Nat) (y : Future) : (x.setFut f y).mem = x.mem := rfl
@[simp] theorem Die.setFut_part (x : Die) (f : Nat) (y : Future) : (x.setFut f y).part = x.part := rfl
@[simp] theorem Die.setFut_member (x : Die) (f : Nat) (y : Future) : (x.setFut f y).member = x.member := rfl
@[simp] theorem Die.setFut_retired (x : Die) (f : Nat) (y : Future) : (x.setFut f y).retired = x.retired := rfl
@[simp] theorem Die.setFut_moveUntil (x : Die) (f : Nat) (y : Future) : (x.setFut f y).moveUntil = x.moveUntil := rfl
@[simp] theorem Die.setFut_inc (x : Die) (f : Nat) (y : Future) : (x.setFut f y).inc = x.inc := rfl
@[simp] theorem Die.setFut_vclk (x : Die) (f : Nat) (y : Future) : (x.setFut f y).vclk = x.vclk := rfl
@[simp] theorem Die.setFut_levels (x : Die) (f : Nat) (y : Future) : (x.setFut f y).levels = x.levels := rfl
@[simp] theorem Die.setFut_launches (x : Die) (f : Nat) (y : Future) : (x.setFut f y).launches = x.launches := rfl
@[simp] theorem Die.setFut_units (x : Die) (f : Nat) (y : Future) : (x.setFut f y).units = x.units := rfl
@[simp] theorem Die.setFut_areas (x : Die) (f : Nat) (y : Future) : (x.setFut f y).areas = x.areas := rfl
@[simp] theorem Die.setFut_bars (x : Die) (f : Nat) (y : Future) : (x.setFut f y).bars = x.bars := rfl
@[simp] theorem Die.setFut_lqs (x : Die) (f : Nat) (y : Future) : (x.setFut f y).lqs = x.lqs := rfl
@[simp] theorem Die.setFut_dage (x : Die) (f : Nat) (y : Future) : (x.setFut f y).dage = x.dage := rfl
@[simp] theorem Die.setFut_lastq (x : Die) (f : Nat) (y : Future) : (x.setFut f y).lastq = x.lastq := rfl
@[simp] theorem Die.setFut_chosen (x : Die) (f : Nat) (y : Future) : (x.setFut f y).chosen = x.chosen := rfl
@[simp] theorem Die.setFut_bufs (x : Die) (f : Nat) (y : Future) : (x.setFut f y).bufs = x.bufs := rfl
@[simp] theorem Die.setFut_sched (x : Die) (f : Nat) (y : Future) : (x.setFut f y).sched = x.sched := rfl
@[simp] theorem Die.setFut_cores (x : Die) (f : Nat) (y : Future) : (x.setFut f y).cores = x.cores := rfl
@[simp] theorem Die.setFut_plies (x : Die) (f : Nat) (y : Future) : (x.setFut f y).plies = x.plies := rfl
@[simp] theorem Die.setFut_lathes (x : Die) (f : Nat) (y : Future) : (x.setFut f y).lathes = x.lathes := rfl
@[simp] theorem Die.setFut_traps (x : Die) (f : Nat) (y : Future) : (x.setFut f y).traps = x.traps := rfl
@[simp] theorem Die.setFut_cstoreBase (x : Die) (f : Nat) (y : Future) : (x.setFut f y).cstoreBase = x.cstoreBase := rfl
@[simp] theorem Die.setFut_cstoreUnits (x : Die) (f : Nat) (y : Future) : (x.setFut f y).cstoreUnits = x.cstoreUnits := rfl
@[simp] theorem Die.setFut_whorl (x : Die) (f : Nat) (y : Future) : (x.setFut f y).whorl = x.whorl := rfl
@[simp] theorem Die.setFut_holds (x : Die) (f : Nat) (y : Future) : (x.setFut f y).holds = x.holds := rfl
@[simp] theorem Die.setFut_links (x : Die) (f : Nat) (y : Future) : (x.setFut f y).links = x.links := rfl
@[simp] theorem Die.setFut_collSeq (x : Die) (f : Nat) (y : Future) : (x.setFut f y).collSeq = x.collSeq := rfl
@[simp] theorem Die.setFut_tcolls (x : Die) (f : Nat) (y : Future) : (x.setFut f y).tcolls = x.tcolls := rfl
@[simp] theorem Die.setFut_deadSeqs (x : Die) (f : Nat) (y : Future) : (x.setFut f y).deadSeqs = x.deadSeqs := rfl
@[simp] theorem Die.setFut_tenqs (x : Die) (f : Nat) (y : Future) : (x.setFut f y).tenqs = x.tenqs := rfl
@[simp] theorem Die.setLevel_mem (x : Die) (i : Nat) (y : Level) : (x.setLevel i y).mem = x.mem := rfl
@[simp] theorem Die.setLevel_part (x : Die) (i : Nat) (y : Level) : (x.setLevel i y).part = x.part := rfl
@[simp] theorem Die.setLevel_member (x : Die) (i : Nat) (y : Level) : (x.setLevel i y).member = x.member := rfl
@[simp] theorem Die.setLevel_retired (x : Die) (i : Nat) (y : Level) : (x.setLevel i y).retired = x.retired := rfl
@[simp] theorem Die.setLevel_moveUntil (x : Die) (i : Nat) (y : Level) : (x.setLevel i y).moveUntil = x.moveUntil := rfl
@[simp] theorem Die.setLevel_inc (x : Die) (i : Nat) (y : Level) : (x.setLevel i y).inc = x.inc := rfl
@[simp] theorem Die.setLevel_vclk (x : Die) (i : Nat) (y : Level) : (x.setLevel i y).vclk = x.vclk := rfl
@[simp] theorem Die.setLevel_futs (x : Die) (i : Nat) (y : Level) : (x.setLevel i y).futs = x.futs := rfl
@[simp] theorem Die.setLevel_launches (x : Die) (i : Nat) (y : Level) : (x.setLevel i y).launches = x.launches := rfl
@[simp] theorem Die.setLevel_units (x : Die) (i : Nat) (y : Level) : (x.setLevel i y).units = x.units := rfl
@[simp] theorem Die.setLevel_areas (x : Die) (i : Nat) (y : Level) : (x.setLevel i y).areas = x.areas := rfl
@[simp] theorem Die.setLevel_bars (x : Die) (i : Nat) (y : Level) : (x.setLevel i y).bars = x.bars := rfl
@[simp] theorem Die.setLevel_lqs (x : Die) (i : Nat) (y : Level) : (x.setLevel i y).lqs = x.lqs := rfl
@[simp] theorem Die.setLevel_dage (x : Die) (i : Nat) (y : Level) : (x.setLevel i y).dage = x.dage := rfl
@[simp] theorem Die.setLevel_lastq (x : Die) (i : Nat) (y : Level) : (x.setLevel i y).lastq = x.lastq := rfl
@[simp] theorem Die.setLevel_chosen (x : Die) (i : Nat) (y : Level) : (x.setLevel i y).chosen = x.chosen := rfl
@[simp] theorem Die.setLevel_bufs (x : Die) (i : Nat) (y : Level) : (x.setLevel i y).bufs = x.bufs := rfl
@[simp] theorem Die.setLevel_sched (x : Die) (i : Nat) (y : Level) : (x.setLevel i y).sched = x.sched := rfl
@[simp] theorem Die.setLevel_cores (x : Die) (i : Nat) (y : Level) : (x.setLevel i y).cores = x.cores := rfl
@[simp] theorem Die.setLevel_plies (x : Die) (i : Nat) (y : Level) : (x.setLevel i y).plies = x.plies := rfl
@[simp] theorem Die.setLevel_lathes (x : Die) (i : Nat) (y : Level) : (x.setLevel i y).lathes = x.lathes := rfl
@[simp] theorem Die.setLevel_traps (x : Die) (i : Nat) (y : Level) : (x.setLevel i y).traps = x.traps := rfl
@[simp] theorem Die.setLevel_cstoreBase (x : Die) (i : Nat) (y : Level) : (x.setLevel i y).cstoreBase = x.cstoreBase := rfl
@[simp] theorem Die.setLevel_cstoreUnits (x : Die) (i : Nat) (y : Level) : (x.setLevel i y).cstoreUnits = x.cstoreUnits := rfl
@[simp] theorem Die.setLevel_whorl (x : Die) (i : Nat) (y : Level) : (x.setLevel i y).whorl = x.whorl := rfl
@[simp] theorem Die.setLevel_holds (x : Die) (i : Nat) (y : Level) : (x.setLevel i y).holds = x.holds := rfl
@[simp] theorem Die.setLevel_links (x : Die) (i : Nat) (y : Level) : (x.setLevel i y).links = x.links := rfl
@[simp] theorem Die.setLevel_collSeq (x : Die) (i : Nat) (y : Level) : (x.setLevel i y).collSeq = x.collSeq := rfl
@[simp] theorem Die.setLevel_tcolls (x : Die) (i : Nat) (y : Level) : (x.setLevel i y).tcolls = x.tcolls := rfl
@[simp] theorem Die.setLevel_deadSeqs (x : Die) (i : Nat) (y : Level) : (x.setLevel i y).deadSeqs = x.deadSeqs := rfl
@[simp] theorem Die.setLevel_tenqs (x : Die) (i : Nat) (y : Level) : (x.setLevel i y).tenqs = x.tenqs := rfl
@[simp] theorem Die.setBar_mem (x : Die) (b : Nat) (y : Barrier) : (x.setBar b y).mem = x.mem := rfl
@[simp] theorem Die.setBar_part (x : Die) (b : Nat) (y : Barrier) : (x.setBar b y).part = x.part := rfl
@[simp] theorem Die.setBar_member (x : Die) (b : Nat) (y : Barrier) : (x.setBar b y).member = x.member := rfl
@[simp] theorem Die.setBar_retired (x : Die) (b : Nat) (y : Barrier) : (x.setBar b y).retired = x.retired := rfl
@[simp] theorem Die.setBar_moveUntil (x : Die) (b : Nat) (y : Barrier) : (x.setBar b y).moveUntil = x.moveUntil := rfl
@[simp] theorem Die.setBar_inc (x : Die) (b : Nat) (y : Barrier) : (x.setBar b y).inc = x.inc := rfl
@[simp] theorem Die.setBar_vclk (x : Die) (b : Nat) (y : Barrier) : (x.setBar b y).vclk = x.vclk := rfl
@[simp] theorem Die.setBar_futs (x : Die) (b : Nat) (y : Barrier) : (x.setBar b y).futs = x.futs := rfl
@[simp] theorem Die.setBar_levels (x : Die) (b : Nat) (y : Barrier) : (x.setBar b y).levels = x.levels := rfl
@[simp] theorem Die.setBar_launches (x : Die) (b : Nat) (y : Barrier) : (x.setBar b y).launches = x.launches := rfl
@[simp] theorem Die.setBar_units (x : Die) (b : Nat) (y : Barrier) : (x.setBar b y).units = x.units := rfl
@[simp] theorem Die.setBar_areas (x : Die) (b : Nat) (y : Barrier) : (x.setBar b y).areas = x.areas := rfl
@[simp] theorem Die.setBar_lqs (x : Die) (b : Nat) (y : Barrier) : (x.setBar b y).lqs = x.lqs := rfl
@[simp] theorem Die.setBar_dage (x : Die) (b : Nat) (y : Barrier) : (x.setBar b y).dage = x.dage := rfl
@[simp] theorem Die.setBar_lastq (x : Die) (b : Nat) (y : Barrier) : (x.setBar b y).lastq = x.lastq := rfl
@[simp] theorem Die.setBar_chosen (x : Die) (b : Nat) (y : Barrier) : (x.setBar b y).chosen = x.chosen := rfl
@[simp] theorem Die.setBar_bufs (x : Die) (b : Nat) (y : Barrier) : (x.setBar b y).bufs = x.bufs := rfl
@[simp] theorem Die.setBar_sched (x : Die) (b : Nat) (y : Barrier) : (x.setBar b y).sched = x.sched := rfl
@[simp] theorem Die.setBar_cores (x : Die) (b : Nat) (y : Barrier) : (x.setBar b y).cores = x.cores := rfl
@[simp] theorem Die.setBar_plies (x : Die) (b : Nat) (y : Barrier) : (x.setBar b y).plies = x.plies := rfl
@[simp] theorem Die.setBar_lathes (x : Die) (b : Nat) (y : Barrier) : (x.setBar b y).lathes = x.lathes := rfl
@[simp] theorem Die.setBar_traps (x : Die) (b : Nat) (y : Barrier) : (x.setBar b y).traps = x.traps := rfl
@[simp] theorem Die.setBar_cstoreBase (x : Die) (b : Nat) (y : Barrier) : (x.setBar b y).cstoreBase = x.cstoreBase := rfl
@[simp] theorem Die.setBar_cstoreUnits (x : Die) (b : Nat) (y : Barrier) : (x.setBar b y).cstoreUnits = x.cstoreUnits := rfl
@[simp] theorem Die.setBar_whorl (x : Die) (b : Nat) (y : Barrier) : (x.setBar b y).whorl = x.whorl := rfl
@[simp] theorem Die.setBar_holds (x : Die) (b : Nat) (y : Barrier) : (x.setBar b y).holds = x.holds := rfl
@[simp] theorem Die.setBar_links (x : Die) (b : Nat) (y : Barrier) : (x.setBar b y).links = x.links := rfl
@[simp] theorem Die.setBar_collSeq (x : Die) (b : Nat) (y : Barrier) : (x.setBar b y).collSeq = x.collSeq := rfl
@[simp] theorem Die.setBar_tcolls (x : Die) (b : Nat) (y : Barrier) : (x.setBar b y).tcolls = x.tcolls := rfl
@[simp] theorem Die.setBar_deadSeqs (x : Die) (b : Nat) (y : Barrier) : (x.setBar b y).deadSeqs = x.deadSeqs := rfl
@[simp] theorem Die.setBar_tenqs (x : Die) (b : Nat) (y : Barrier) : (x.setBar b y).tenqs = x.tenqs := rfl
@[simp] theorem Die.setBuf_mem (x : Die) (b : Nat) (y : Buf) : (x.setBuf b y).mem = x.mem := rfl
@[simp] theorem Die.setBuf_part (x : Die) (b : Nat) (y : Buf) : (x.setBuf b y).part = x.part := rfl
@[simp] theorem Die.setBuf_member (x : Die) (b : Nat) (y : Buf) : (x.setBuf b y).member = x.member := rfl
@[simp] theorem Die.setBuf_retired (x : Die) (b : Nat) (y : Buf) : (x.setBuf b y).retired = x.retired := rfl
@[simp] theorem Die.setBuf_moveUntil (x : Die) (b : Nat) (y : Buf) : (x.setBuf b y).moveUntil = x.moveUntil := rfl
@[simp] theorem Die.setBuf_inc (x : Die) (b : Nat) (y : Buf) : (x.setBuf b y).inc = x.inc := rfl
@[simp] theorem Die.setBuf_vclk (x : Die) (b : Nat) (y : Buf) : (x.setBuf b y).vclk = x.vclk := rfl
@[simp] theorem Die.setBuf_futs (x : Die) (b : Nat) (y : Buf) : (x.setBuf b y).futs = x.futs := rfl
@[simp] theorem Die.setBuf_levels (x : Die) (b : Nat) (y : Buf) : (x.setBuf b y).levels = x.levels := rfl
@[simp] theorem Die.setBuf_launches (x : Die) (b : Nat) (y : Buf) : (x.setBuf b y).launches = x.launches := rfl
@[simp] theorem Die.setBuf_units (x : Die) (b : Nat) (y : Buf) : (x.setBuf b y).units = x.units := rfl
@[simp] theorem Die.setBuf_areas (x : Die) (b : Nat) (y : Buf) : (x.setBuf b y).areas = x.areas := rfl
@[simp] theorem Die.setBuf_bars (x : Die) (b : Nat) (y : Buf) : (x.setBuf b y).bars = x.bars := rfl
@[simp] theorem Die.setBuf_lqs (x : Die) (b : Nat) (y : Buf) : (x.setBuf b y).lqs = x.lqs := rfl
@[simp] theorem Die.setBuf_dage (x : Die) (b : Nat) (y : Buf) : (x.setBuf b y).dage = x.dage := rfl
@[simp] theorem Die.setBuf_lastq (x : Die) (b : Nat) (y : Buf) : (x.setBuf b y).lastq = x.lastq := rfl
@[simp] theorem Die.setBuf_chosen (x : Die) (b : Nat) (y : Buf) : (x.setBuf b y).chosen = x.chosen := rfl
@[simp] theorem Die.setBuf_sched (x : Die) (b : Nat) (y : Buf) : (x.setBuf b y).sched = x.sched := rfl
@[simp] theorem Die.setBuf_cores (x : Die) (b : Nat) (y : Buf) : (x.setBuf b y).cores = x.cores := rfl
@[simp] theorem Die.setBuf_plies (x : Die) (b : Nat) (y : Buf) : (x.setBuf b y).plies = x.plies := rfl
@[simp] theorem Die.setBuf_lathes (x : Die) (b : Nat) (y : Buf) : (x.setBuf b y).lathes = x.lathes := rfl
@[simp] theorem Die.setBuf_traps (x : Die) (b : Nat) (y : Buf) : (x.setBuf b y).traps = x.traps := rfl
@[simp] theorem Die.setBuf_cstoreBase (x : Die) (b : Nat) (y : Buf) : (x.setBuf b y).cstoreBase = x.cstoreBase := rfl
@[simp] theorem Die.setBuf_cstoreUnits (x : Die) (b : Nat) (y : Buf) : (x.setBuf b y).cstoreUnits = x.cstoreUnits := rfl
@[simp] theorem Die.setBuf_whorl (x : Die) (b : Nat) (y : Buf) : (x.setBuf b y).whorl = x.whorl := rfl
@[simp] theorem Die.setBuf_holds (x : Die) (b : Nat) (y : Buf) : (x.setBuf b y).holds = x.holds := rfl
@[simp] theorem Die.setBuf_links (x : Die) (b : Nat) (y : Buf) : (x.setBuf b y).links = x.links := rfl
@[simp] theorem Die.setBuf_collSeq (x : Die) (b : Nat) (y : Buf) : (x.setBuf b y).collSeq = x.collSeq := rfl
@[simp] theorem Die.setBuf_tcolls (x : Die) (b : Nat) (y : Buf) : (x.setBuf b y).tcolls = x.tcolls := rfl
@[simp] theorem Die.setBuf_deadSeqs (x : Die) (b : Nat) (y : Buf) : (x.setBuf b y).deadSeqs = x.deadSeqs := rfl
@[simp] theorem Die.setBuf_tenqs (x : Die) (b : Nat) (y : Buf) : (x.setBuf b y).tenqs = x.tenqs := rfl
@[simp] theorem Die.setLqc_mem (x : Die) (q : Nat) (y : Lqc) : (x.setLqc q y).mem = x.mem := rfl
@[simp] theorem Die.setLqc_part (x : Die) (q : Nat) (y : Lqc) : (x.setLqc q y).part = x.part := rfl
@[simp] theorem Die.setLqc_member (x : Die) (q : Nat) (y : Lqc) : (x.setLqc q y).member = x.member := rfl
@[simp] theorem Die.setLqc_retired (x : Die) (q : Nat) (y : Lqc) : (x.setLqc q y).retired = x.retired := rfl
@[simp] theorem Die.setLqc_moveUntil (x : Die) (q : Nat) (y : Lqc) : (x.setLqc q y).moveUntil = x.moveUntil := rfl
@[simp] theorem Die.setLqc_inc (x : Die) (q : Nat) (y : Lqc) : (x.setLqc q y).inc = x.inc := rfl
@[simp] theorem Die.setLqc_vclk (x : Die) (q : Nat) (y : Lqc) : (x.setLqc q y).vclk = x.vclk := rfl
@[simp] theorem Die.setLqc_futs (x : Die) (q : Nat) (y : Lqc) : (x.setLqc q y).futs = x.futs := rfl
@[simp] theorem Die.setLqc_levels (x : Die) (q : Nat) (y : Lqc) : (x.setLqc q y).levels = x.levels := rfl
@[simp] theorem Die.setLqc_launches (x : Die) (q : Nat) (y : Lqc) : (x.setLqc q y).launches = x.launches := rfl
@[simp] theorem Die.setLqc_units (x : Die) (q : Nat) (y : Lqc) : (x.setLqc q y).units = x.units := rfl
@[simp] theorem Die.setLqc_areas (x : Die) (q : Nat) (y : Lqc) : (x.setLqc q y).areas = x.areas := rfl
@[simp] theorem Die.setLqc_bars (x : Die) (q : Nat) (y : Lqc) : (x.setLqc q y).bars = x.bars := rfl
@[simp] theorem Die.setLqc_dage (x : Die) (q : Nat) (y : Lqc) : (x.setLqc q y).dage = x.dage := rfl
@[simp] theorem Die.setLqc_lastq (x : Die) (q : Nat) (y : Lqc) : (x.setLqc q y).lastq = x.lastq := rfl
@[simp] theorem Die.setLqc_chosen (x : Die) (q : Nat) (y : Lqc) : (x.setLqc q y).chosen = x.chosen := rfl
@[simp] theorem Die.setLqc_bufs (x : Die) (q : Nat) (y : Lqc) : (x.setLqc q y).bufs = x.bufs := rfl
@[simp] theorem Die.setLqc_sched (x : Die) (q : Nat) (y : Lqc) : (x.setLqc q y).sched = x.sched := rfl
@[simp] theorem Die.setLqc_cores (x : Die) (q : Nat) (y : Lqc) : (x.setLqc q y).cores = x.cores := rfl
@[simp] theorem Die.setLqc_plies (x : Die) (q : Nat) (y : Lqc) : (x.setLqc q y).plies = x.plies := rfl
@[simp] theorem Die.setLqc_lathes (x : Die) (q : Nat) (y : Lqc) : (x.setLqc q y).lathes = x.lathes := rfl
@[simp] theorem Die.setLqc_traps (x : Die) (q : Nat) (y : Lqc) : (x.setLqc q y).traps = x.traps := rfl
@[simp] theorem Die.setLqc_cstoreBase (x : Die) (q : Nat) (y : Lqc) : (x.setLqc q y).cstoreBase = x.cstoreBase := rfl
@[simp] theorem Die.setLqc_cstoreUnits (x : Die) (q : Nat) (y : Lqc) : (x.setLqc q y).cstoreUnits = x.cstoreUnits := rfl
@[simp] theorem Die.setLqc_whorl (x : Die) (q : Nat) (y : Lqc) : (x.setLqc q y).whorl = x.whorl := rfl
@[simp] theorem Die.setLqc_holds (x : Die) (q : Nat) (y : Lqc) : (x.setLqc q y).holds = x.holds := rfl
@[simp] theorem Die.setLqc_links (x : Die) (q : Nat) (y : Lqc) : (x.setLqc q y).links = x.links := rfl
@[simp] theorem Die.setLqc_collSeq (x : Die) (q : Nat) (y : Lqc) : (x.setLqc q y).collSeq = x.collSeq := rfl
@[simp] theorem Die.setLqc_tcolls (x : Die) (q : Nat) (y : Lqc) : (x.setLqc q y).tcolls = x.tcolls := rfl
@[simp] theorem Die.setLqc_deadSeqs (x : Die) (q : Nat) (y : Lqc) : (x.setLqc q y).deadSeqs = x.deadSeqs := rfl
@[simp] theorem Die.setLqc_tenqs (x : Die) (q : Nat) (y : Lqc) : (x.setLqc q y).tenqs = x.tenqs := rfl
@[simp] theorem Die.setLathe_mem (x : Die) (n : Nat) (y : Lathe) : (x.setLathe n y).mem = x.mem := rfl
@[simp] theorem Die.setLathe_part (x : Die) (n : Nat) (y : Lathe) : (x.setLathe n y).part = x.part := rfl
@[simp] theorem Die.setLathe_member (x : Die) (n : Nat) (y : Lathe) : (x.setLathe n y).member = x.member := rfl
@[simp] theorem Die.setLathe_retired (x : Die) (n : Nat) (y : Lathe) : (x.setLathe n y).retired = x.retired := rfl
@[simp] theorem Die.setLathe_moveUntil (x : Die) (n : Nat) (y : Lathe) : (x.setLathe n y).moveUntil = x.moveUntil := rfl
@[simp] theorem Die.setLathe_inc (x : Die) (n : Nat) (y : Lathe) : (x.setLathe n y).inc = x.inc := rfl
@[simp] theorem Die.setLathe_vclk (x : Die) (n : Nat) (y : Lathe) : (x.setLathe n y).vclk = x.vclk := rfl
@[simp] theorem Die.setLathe_futs (x : Die) (n : Nat) (y : Lathe) : (x.setLathe n y).futs = x.futs := rfl
@[simp] theorem Die.setLathe_levels (x : Die) (n : Nat) (y : Lathe) : (x.setLathe n y).levels = x.levels := rfl
@[simp] theorem Die.setLathe_launches (x : Die) (n : Nat) (y : Lathe) : (x.setLathe n y).launches = x.launches := rfl
@[simp] theorem Die.setLathe_units (x : Die) (n : Nat) (y : Lathe) : (x.setLathe n y).units = x.units := rfl
@[simp] theorem Die.setLathe_areas (x : Die) (n : Nat) (y : Lathe) : (x.setLathe n y).areas = x.areas := rfl
@[simp] theorem Die.setLathe_bars (x : Die) (n : Nat) (y : Lathe) : (x.setLathe n y).bars = x.bars := rfl
@[simp] theorem Die.setLathe_lqs (x : Die) (n : Nat) (y : Lathe) : (x.setLathe n y).lqs = x.lqs := rfl
@[simp] theorem Die.setLathe_dage (x : Die) (n : Nat) (y : Lathe) : (x.setLathe n y).dage = x.dage := rfl
@[simp] theorem Die.setLathe_lastq (x : Die) (n : Nat) (y : Lathe) : (x.setLathe n y).lastq = x.lastq := rfl
@[simp] theorem Die.setLathe_chosen (x : Die) (n : Nat) (y : Lathe) : (x.setLathe n y).chosen = x.chosen := rfl
@[simp] theorem Die.setLathe_bufs (x : Die) (n : Nat) (y : Lathe) : (x.setLathe n y).bufs = x.bufs := rfl
@[simp] theorem Die.setLathe_sched (x : Die) (n : Nat) (y : Lathe) : (x.setLathe n y).sched = x.sched := rfl
@[simp] theorem Die.setLathe_cores (x : Die) (n : Nat) (y : Lathe) : (x.setLathe n y).cores = x.cores := rfl
@[simp] theorem Die.setLathe_plies (x : Die) (n : Nat) (y : Lathe) : (x.setLathe n y).plies = x.plies := rfl
@[simp] theorem Die.setLathe_traps (x : Die) (n : Nat) (y : Lathe) : (x.setLathe n y).traps = x.traps := rfl
@[simp] theorem Die.setLathe_cstoreBase (x : Die) (n : Nat) (y : Lathe) : (x.setLathe n y).cstoreBase = x.cstoreBase := rfl
@[simp] theorem Die.setLathe_cstoreUnits (x : Die) (n : Nat) (y : Lathe) : (x.setLathe n y).cstoreUnits = x.cstoreUnits := rfl
@[simp] theorem Die.setLathe_whorl (x : Die) (n : Nat) (y : Lathe) : (x.setLathe n y).whorl = x.whorl := rfl
@[simp] theorem Die.setLathe_holds (x : Die) (n : Nat) (y : Lathe) : (x.setLathe n y).holds = x.holds := rfl
@[simp] theorem Die.setLathe_links (x : Die) (n : Nat) (y : Lathe) : (x.setLathe n y).links = x.links := rfl
@[simp] theorem Die.setLathe_collSeq (x : Die) (n : Nat) (y : Lathe) : (x.setLathe n y).collSeq = x.collSeq := rfl
@[simp] theorem Die.setLathe_tcolls (x : Die) (n : Nat) (y : Lathe) : (x.setLathe n y).tcolls = x.tcolls := rfl
@[simp] theorem Die.setLathe_deadSeqs (x : Die) (n : Nat) (y : Lathe) : (x.setLathe n y).deadSeqs = x.deadSeqs := rfl
@[simp] theorem Die.setLathe_tenqs (x : Die) (n : Nat) (y : Lathe) : (x.setLathe n y).tenqs = x.tenqs := rfl
@[simp] theorem Die.setLink_mem (x : Die) (t : Nat) (y : Link) : (x.setLink t y).mem = x.mem := rfl
@[simp] theorem Die.setLink_part (x : Die) (t : Nat) (y : Link) : (x.setLink t y).part = x.part := rfl
@[simp] theorem Die.setLink_member (x : Die) (t : Nat) (y : Link) : (x.setLink t y).member = x.member := rfl
@[simp] theorem Die.setLink_retired (x : Die) (t : Nat) (y : Link) : (x.setLink t y).retired = x.retired := rfl
@[simp] theorem Die.setLink_moveUntil (x : Die) (t : Nat) (y : Link) : (x.setLink t y).moveUntil = x.moveUntil := rfl
@[simp] theorem Die.setLink_inc (x : Die) (t : Nat) (y : Link) : (x.setLink t y).inc = x.inc := rfl
@[simp] theorem Die.setLink_vclk (x : Die) (t : Nat) (y : Link) : (x.setLink t y).vclk = x.vclk := rfl
@[simp] theorem Die.setLink_futs (x : Die) (t : Nat) (y : Link) : (x.setLink t y).futs = x.futs := rfl
@[simp] theorem Die.setLink_levels (x : Die) (t : Nat) (y : Link) : (x.setLink t y).levels = x.levels := rfl
@[simp] theorem Die.setLink_launches (x : Die) (t : Nat) (y : Link) : (x.setLink t y).launches = x.launches := rfl
@[simp] theorem Die.setLink_units (x : Die) (t : Nat) (y : Link) : (x.setLink t y).units = x.units := rfl
@[simp] theorem Die.setLink_areas (x : Die) (t : Nat) (y : Link) : (x.setLink t y).areas = x.areas := rfl
@[simp] theorem Die.setLink_bars (x : Die) (t : Nat) (y : Link) : (x.setLink t y).bars = x.bars := rfl
@[simp] theorem Die.setLink_lqs (x : Die) (t : Nat) (y : Link) : (x.setLink t y).lqs = x.lqs := rfl
@[simp] theorem Die.setLink_dage (x : Die) (t : Nat) (y : Link) : (x.setLink t y).dage = x.dage := rfl
@[simp] theorem Die.setLink_lastq (x : Die) (t : Nat) (y : Link) : (x.setLink t y).lastq = x.lastq := rfl
@[simp] theorem Die.setLink_chosen (x : Die) (t : Nat) (y : Link) : (x.setLink t y).chosen = x.chosen := rfl
@[simp] theorem Die.setLink_bufs (x : Die) (t : Nat) (y : Link) : (x.setLink t y).bufs = x.bufs := rfl
@[simp] theorem Die.setLink_sched (x : Die) (t : Nat) (y : Link) : (x.setLink t y).sched = x.sched := rfl
@[simp] theorem Die.setLink_cores (x : Die) (t : Nat) (y : Link) : (x.setLink t y).cores = x.cores := rfl
@[simp] theorem Die.setLink_plies (x : Die) (t : Nat) (y : Link) : (x.setLink t y).plies = x.plies := rfl
@[simp] theorem Die.setLink_lathes (x : Die) (t : Nat) (y : Link) : (x.setLink t y).lathes = x.lathes := rfl
@[simp] theorem Die.setLink_traps (x : Die) (t : Nat) (y : Link) : (x.setLink t y).traps = x.traps := rfl
@[simp] theorem Die.setLink_cstoreBase (x : Die) (t : Nat) (y : Link) : (x.setLink t y).cstoreBase = x.cstoreBase := rfl
@[simp] theorem Die.setLink_cstoreUnits (x : Die) (t : Nat) (y : Link) : (x.setLink t y).cstoreUnits = x.cstoreUnits := rfl
@[simp] theorem Die.setLink_whorl (x : Die) (t : Nat) (y : Link) : (x.setLink t y).whorl = x.whorl := rfl
@[simp] theorem Die.setLink_holds (x : Die) (t : Nat) (y : Link) : (x.setLink t y).holds = x.holds := rfl
@[simp] theorem Die.setLink_collSeq (x : Die) (t : Nat) (y : Link) : (x.setLink t y).collSeq = x.collSeq := rfl
@[simp] theorem Die.setLink_tcolls (x : Die) (t : Nat) (y : Link) : (x.setLink t y).tcolls = x.tcolls := rfl
@[simp] theorem Die.setLink_deadSeqs (x : Die) (t : Nat) (y : Link) : (x.setLink t y).deadSeqs = x.deadSeqs := rfl
@[simp] theorem Die.setLink_tenqs (x : Die) (t : Nat) (y : Link) : (x.setLink t y).tenqs = x.tenqs := rfl
@[simp] theorem Die.setTrap_mem (x : Die) (t : Nat) (y : TrapSlot) : (x.setTrap t y).mem = x.mem := rfl
@[simp] theorem Die.setTrap_part (x : Die) (t : Nat) (y : TrapSlot) : (x.setTrap t y).part = x.part := rfl
@[simp] theorem Die.setTrap_member (x : Die) (t : Nat) (y : TrapSlot) : (x.setTrap t y).member = x.member := rfl
@[simp] theorem Die.setTrap_retired (x : Die) (t : Nat) (y : TrapSlot) : (x.setTrap t y).retired = x.retired := rfl
@[simp] theorem Die.setTrap_moveUntil (x : Die) (t : Nat) (y : TrapSlot) : (x.setTrap t y).moveUntil = x.moveUntil := rfl
@[simp] theorem Die.setTrap_inc (x : Die) (t : Nat) (y : TrapSlot) : (x.setTrap t y).inc = x.inc := rfl
@[simp] theorem Die.setTrap_vclk (x : Die) (t : Nat) (y : TrapSlot) : (x.setTrap t y).vclk = x.vclk := rfl
@[simp] theorem Die.setTrap_futs (x : Die) (t : Nat) (y : TrapSlot) : (x.setTrap t y).futs = x.futs := rfl
@[simp] theorem Die.setTrap_levels (x : Die) (t : Nat) (y : TrapSlot) : (x.setTrap t y).levels = x.levels := rfl
@[simp] theorem Die.setTrap_launches (x : Die) (t : Nat) (y : TrapSlot) : (x.setTrap t y).launches = x.launches := rfl
@[simp] theorem Die.setTrap_units (x : Die) (t : Nat) (y : TrapSlot) : (x.setTrap t y).units = x.units := rfl
@[simp] theorem Die.setTrap_areas (x : Die) (t : Nat) (y : TrapSlot) : (x.setTrap t y).areas = x.areas := rfl
@[simp] theorem Die.setTrap_bars (x : Die) (t : Nat) (y : TrapSlot) : (x.setTrap t y).bars = x.bars := rfl
@[simp] theorem Die.setTrap_lqs (x : Die) (t : Nat) (y : TrapSlot) : (x.setTrap t y).lqs = x.lqs := rfl
@[simp] theorem Die.setTrap_dage (x : Die) (t : Nat) (y : TrapSlot) : (x.setTrap t y).dage = x.dage := rfl
@[simp] theorem Die.setTrap_lastq (x : Die) (t : Nat) (y : TrapSlot) : (x.setTrap t y).lastq = x.lastq := rfl
@[simp] theorem Die.setTrap_chosen (x : Die) (t : Nat) (y : TrapSlot) : (x.setTrap t y).chosen = x.chosen := rfl
@[simp] theorem Die.setTrap_bufs (x : Die) (t : Nat) (y : TrapSlot) : (x.setTrap t y).bufs = x.bufs := rfl
@[simp] theorem Die.setTrap_sched (x : Die) (t : Nat) (y : TrapSlot) : (x.setTrap t y).sched = x.sched := rfl
@[simp] theorem Die.setTrap_cores (x : Die) (t : Nat) (y : TrapSlot) : (x.setTrap t y).cores = x.cores := rfl
@[simp] theorem Die.setTrap_plies (x : Die) (t : Nat) (y : TrapSlot) : (x.setTrap t y).plies = x.plies := rfl
@[simp] theorem Die.setTrap_lathes (x : Die) (t : Nat) (y : TrapSlot) : (x.setTrap t y).lathes = x.lathes := rfl
@[simp] theorem Die.setTrap_cstoreBase (x : Die) (t : Nat) (y : TrapSlot) : (x.setTrap t y).cstoreBase = x.cstoreBase := rfl
@[simp] theorem Die.setTrap_cstoreUnits (x : Die) (t : Nat) (y : TrapSlot) : (x.setTrap t y).cstoreUnits = x.cstoreUnits := rfl
@[simp] theorem Die.setTrap_whorl (x : Die) (t : Nat) (y : TrapSlot) : (x.setTrap t y).whorl = x.whorl := rfl
@[simp] theorem Die.setTrap_holds (x : Die) (t : Nat) (y : TrapSlot) : (x.setTrap t y).holds = x.holds := rfl
@[simp] theorem Die.setTrap_links (x : Die) (t : Nat) (y : TrapSlot) : (x.setTrap t y).links = x.links := rfl
@[simp] theorem Die.setTrap_collSeq (x : Die) (t : Nat) (y : TrapSlot) : (x.setTrap t y).collSeq = x.collSeq := rfl
@[simp] theorem Die.setTrap_tcolls (x : Die) (t : Nat) (y : TrapSlot) : (x.setTrap t y).tcolls = x.tcolls := rfl
@[simp] theorem Die.setTrap_deadSeqs (x : Die) (t : Nat) (y : TrapSlot) : (x.setTrap t y).deadSeqs = x.deadSeqs := rfl
@[simp] theorem Die.setTrap_tenqs (x : Die) (t : Nat) (y : TrapSlot) : (x.setTrap t y).tenqs = x.tenqs := rfl
@[simp] theorem Die.setUnit_mem (x : Die) (u : Nat) (y : WUnit) : (x.setUnit u y).mem = x.mem := rfl
@[simp] theorem Die.setUnit_part (x : Die) (u : Nat) (y : WUnit) : (x.setUnit u y).part = x.part := rfl
@[simp] theorem Die.setUnit_member (x : Die) (u : Nat) (y : WUnit) : (x.setUnit u y).member = x.member := rfl
@[simp] theorem Die.setUnit_retired (x : Die) (u : Nat) (y : WUnit) : (x.setUnit u y).retired = x.retired := rfl
@[simp] theorem Die.setUnit_moveUntil (x : Die) (u : Nat) (y : WUnit) : (x.setUnit u y).moveUntil = x.moveUntil := rfl
@[simp] theorem Die.setUnit_inc (x : Die) (u : Nat) (y : WUnit) : (x.setUnit u y).inc = x.inc := rfl
@[simp] theorem Die.setUnit_vclk (x : Die) (u : Nat) (y : WUnit) : (x.setUnit u y).vclk = x.vclk := rfl
@[simp] theorem Die.setUnit_futs (x : Die) (u : Nat) (y : WUnit) : (x.setUnit u y).futs = x.futs := rfl
@[simp] theorem Die.setUnit_levels (x : Die) (u : Nat) (y : WUnit) : (x.setUnit u y).levels = x.levels := rfl
@[simp] theorem Die.setUnit_launches (x : Die) (u : Nat) (y : WUnit) : (x.setUnit u y).launches = x.launches := rfl
@[simp] theorem Die.setUnit_areas (x : Die) (u : Nat) (y : WUnit) : (x.setUnit u y).areas = x.areas := rfl
@[simp] theorem Die.setUnit_bars (x : Die) (u : Nat) (y : WUnit) : (x.setUnit u y).bars = x.bars := rfl
@[simp] theorem Die.setUnit_lqs (x : Die) (u : Nat) (y : WUnit) : (x.setUnit u y).lqs = x.lqs := rfl
@[simp] theorem Die.setUnit_dage (x : Die) (u : Nat) (y : WUnit) : (x.setUnit u y).dage = x.dage := rfl
@[simp] theorem Die.setUnit_lastq (x : Die) (u : Nat) (y : WUnit) : (x.setUnit u y).lastq = x.lastq := rfl
@[simp] theorem Die.setUnit_chosen (x : Die) (u : Nat) (y : WUnit) : (x.setUnit u y).chosen = x.chosen := rfl
@[simp] theorem Die.setUnit_bufs (x : Die) (u : Nat) (y : WUnit) : (x.setUnit u y).bufs = x.bufs := rfl
@[simp] theorem Die.setUnit_sched (x : Die) (u : Nat) (y : WUnit) : (x.setUnit u y).sched = x.sched := rfl
@[simp] theorem Die.setUnit_cores (x : Die) (u : Nat) (y : WUnit) : (x.setUnit u y).cores = x.cores := rfl
@[simp] theorem Die.setUnit_plies (x : Die) (u : Nat) (y : WUnit) : (x.setUnit u y).plies = x.plies := rfl
@[simp] theorem Die.setUnit_lathes (x : Die) (u : Nat) (y : WUnit) : (x.setUnit u y).lathes = x.lathes := rfl
@[simp] theorem Die.setUnit_traps (x : Die) (u : Nat) (y : WUnit) : (x.setUnit u y).traps = x.traps := rfl
@[simp] theorem Die.setUnit_cstoreBase (x : Die) (u : Nat) (y : WUnit) : (x.setUnit u y).cstoreBase = x.cstoreBase := rfl
@[simp] theorem Die.setUnit_cstoreUnits (x : Die) (u : Nat) (y : WUnit) : (x.setUnit u y).cstoreUnits = x.cstoreUnits := rfl
@[simp] theorem Die.setUnit_whorl (x : Die) (u : Nat) (y : WUnit) : (x.setUnit u y).whorl = x.whorl := rfl
@[simp] theorem Die.setUnit_holds (x : Die) (u : Nat) (y : WUnit) : (x.setUnit u y).holds = x.holds := rfl
@[simp] theorem Die.setUnit_links (x : Die) (u : Nat) (y : WUnit) : (x.setUnit u y).links = x.links := rfl
@[simp] theorem Die.setUnit_collSeq (x : Die) (u : Nat) (y : WUnit) : (x.setUnit u y).collSeq = x.collSeq := rfl
@[simp] theorem Die.setUnit_tcolls (x : Die) (u : Nat) (y : WUnit) : (x.setUnit u y).tcolls = x.tcolls := rfl
@[simp] theorem Die.setUnit_deadSeqs (x : Die) (u : Nat) (y : WUnit) : (x.setUnit u y).deadSeqs = x.deadSeqs := rfl
@[simp] theorem Die.setUnit_tenqs (x : Die) (u : Nat) (y : WUnit) : (x.setUnit u y).tenqs = x.tenqs := rfl
@[simp] theorem Die.setLaunch_mem (x : Die) (l : Nat) (y : Launch) : (x.setLaunch l y).mem = x.mem := rfl
@[simp] theorem Die.setLaunch_part (x : Die) (l : Nat) (y : Launch) : (x.setLaunch l y).part = x.part := rfl
@[simp] theorem Die.setLaunch_member (x : Die) (l : Nat) (y : Launch) : (x.setLaunch l y).member = x.member := rfl
@[simp] theorem Die.setLaunch_retired (x : Die) (l : Nat) (y : Launch) : (x.setLaunch l y).retired = x.retired := rfl
@[simp] theorem Die.setLaunch_moveUntil (x : Die) (l : Nat) (y : Launch) : (x.setLaunch l y).moveUntil = x.moveUntil := rfl
@[simp] theorem Die.setLaunch_inc (x : Die) (l : Nat) (y : Launch) : (x.setLaunch l y).inc = x.inc := rfl
@[simp] theorem Die.setLaunch_vclk (x : Die) (l : Nat) (y : Launch) : (x.setLaunch l y).vclk = x.vclk := rfl
@[simp] theorem Die.setLaunch_futs (x : Die) (l : Nat) (y : Launch) : (x.setLaunch l y).futs = x.futs := rfl
@[simp] theorem Die.setLaunch_levels (x : Die) (l : Nat) (y : Launch) : (x.setLaunch l y).levels = x.levels := rfl
@[simp] theorem Die.setLaunch_units (x : Die) (l : Nat) (y : Launch) : (x.setLaunch l y).units = x.units := rfl
@[simp] theorem Die.setLaunch_areas (x : Die) (l : Nat) (y : Launch) : (x.setLaunch l y).areas = x.areas := rfl
@[simp] theorem Die.setLaunch_bars (x : Die) (l : Nat) (y : Launch) : (x.setLaunch l y).bars = x.bars := rfl
@[simp] theorem Die.setLaunch_lqs (x : Die) (l : Nat) (y : Launch) : (x.setLaunch l y).lqs = x.lqs := rfl
@[simp] theorem Die.setLaunch_dage (x : Die) (l : Nat) (y : Launch) : (x.setLaunch l y).dage = x.dage := rfl
@[simp] theorem Die.setLaunch_lastq (x : Die) (l : Nat) (y : Launch) : (x.setLaunch l y).lastq = x.lastq := rfl
@[simp] theorem Die.setLaunch_chosen (x : Die) (l : Nat) (y : Launch) : (x.setLaunch l y).chosen = x.chosen := rfl
@[simp] theorem Die.setLaunch_bufs (x : Die) (l : Nat) (y : Launch) : (x.setLaunch l y).bufs = x.bufs := rfl
@[simp] theorem Die.setLaunch_sched (x : Die) (l : Nat) (y : Launch) : (x.setLaunch l y).sched = x.sched := rfl
@[simp] theorem Die.setLaunch_cores (x : Die) (l : Nat) (y : Launch) : (x.setLaunch l y).cores = x.cores := rfl
@[simp] theorem Die.setLaunch_plies (x : Die) (l : Nat) (y : Launch) : (x.setLaunch l y).plies = x.plies := rfl
@[simp] theorem Die.setLaunch_lathes (x : Die) (l : Nat) (y : Launch) : (x.setLaunch l y).lathes = x.lathes := rfl
@[simp] theorem Die.setLaunch_traps (x : Die) (l : Nat) (y : Launch) : (x.setLaunch l y).traps = x.traps := rfl
@[simp] theorem Die.setLaunch_cstoreBase (x : Die) (l : Nat) (y : Launch) : (x.setLaunch l y).cstoreBase = x.cstoreBase := rfl
@[simp] theorem Die.setLaunch_cstoreUnits (x : Die) (l : Nat) (y : Launch) : (x.setLaunch l y).cstoreUnits = x.cstoreUnits := rfl
@[simp] theorem Die.setLaunch_whorl (x : Die) (l : Nat) (y : Launch) : (x.setLaunch l y).whorl = x.whorl := rfl
@[simp] theorem Die.setLaunch_holds (x : Die) (l : Nat) (y : Launch) : (x.setLaunch l y).holds = x.holds := rfl
@[simp] theorem Die.setLaunch_links (x : Die) (l : Nat) (y : Launch) : (x.setLaunch l y).links = x.links := rfl
@[simp] theorem Die.setLaunch_collSeq (x : Die) (l : Nat) (y : Launch) : (x.setLaunch l y).collSeq = x.collSeq := rfl
@[simp] theorem Die.setLaunch_tcolls (x : Die) (l : Nat) (y : Launch) : (x.setLaunch l y).tcolls = x.tcolls := rfl
@[simp] theorem Die.setLaunch_deadSeqs (x : Die) (l : Nat) (y : Launch) : (x.setLaunch l y).deadSeqs = x.deadSeqs := rfl
@[simp] theorem Die.setLaunch_tenqs (x : Die) (l : Nat) (y : Launch) : (x.setLaunch l y).tenqs = x.tenqs := rfl

/-! ## Reading a die back -/

theorem Die.core_setCore (x : Die) (c : Nat) (y : Core) (e : Nat) : (x.setCore c y).core e = if e = c then y else x.core e := mget_mput ..
theorem Die.fut_setFut (x : Die) (f : Nat) (y : Future) (e : Nat) : (x.setFut f y).fut e = if e = f then y else x.fut e := mget_mput ..
theorem Die.level_setLevel (x : Die) (i : Nat) (y : Level) (e : Nat) : (x.setLevel i y).level e = if e = i then y else x.level e := mget_mput ..
theorem Die.bar_setBar (x : Die) (b : Nat) (y : Barrier) (e : Nat) : (x.setBar b y).bar e = if e = b then y else x.bar e := mget_mput ..
theorem Die.buf_setBuf (x : Die) (b : Nat) (y : Buf) (e : Nat) : (x.setBuf b y).buf e = if e = b then y else x.buf e := mget_mput ..
theorem Die.lqc_setLqc (x : Die) (q : Nat) (y : Lqc) (e : Nat) : (x.setLqc q y).lqc e = if e = q then y else x.lqc e := mget_mput ..
theorem Die.lathe_setLathe (x : Die) (n : Nat) (y : Lathe) (e : Nat) : (x.setLathe n y).lathe e = if e = n then y else x.lathe e := mget_mput ..
theorem Die.link_setLink (x : Die) (t : Nat) (y : Link) (e : Nat) : (x.setLink t y).link e = if e = t then y else x.link e := mget_mput ..
theorem Die.trap_setTrap (x : Die) (t : Nat) (y : TrapSlot) (e : Nat) : (x.setTrap t y).trap e = if e = t then y else x.trap e := mget_mput ..
theorem Die.ply_setPly (x : Die) (c k : Nat) (y : Ply) (e f : Nat) :
    (x.setPly c k y).ply e f = if e * 8 + f = c * 8 + k then y else x.ply e f := mget_mput ..
@[simp] theorem Die.core_setPly (x : Die) (c k : Nat) (y : Ply) (e : Nat) : (x.setPly c k y).core e = x.core e := rfl
@[simp] theorem Die.core_setFut (x : Die) (f : Nat) (y : Future) (e : Nat) : (x.setFut f y).core e = x.core e := rfl
@[simp] theorem Die.core_setLevel (x : Die) (i : Nat) (y : Level) (e : Nat) : (x.setLevel i y).core e = x.core e := rfl
@[simp] theorem Die.core_setBar (x : Die) (b : Nat) (y : Barrier) (e : Nat) : (x.setBar b y).core e = x.core e := rfl
@[simp] theorem Die.core_setBuf (x : Die) (b : Nat) (y : Buf) (e : Nat) : (x.setBuf b y).core e = x.core e := rfl
@[simp] theorem Die.core_setLqc (x : Die) (q : Nat) (y : Lqc) (e : Nat) : (x.setLqc q y).core e = x.core e := rfl
@[simp] theorem Die.core_setLathe (x : Die) (n : Nat) (y : Lathe) (e : Nat) : (x.setLathe n y).core e = x.core e := rfl
@[simp] theorem Die.core_setLink (x : Die) (t : Nat) (y : Link) (e : Nat) : (x.setLink t y).core e = x.core e := rfl
@[simp] theorem Die.core_setTrap (x : Die) (t : Nat) (y : TrapSlot) (e : Nat) : (x.setTrap t y).core e = x.core e := rfl
@[simp] theorem Die.core_setUnit (x : Die) (u : Nat) (y : WUnit) (e : Nat) : (x.setUnit u y).core e = x.core e := rfl
@[simp] theorem Die.core_setLaunch (x : Die) (l : Nat) (y : Launch) (e : Nat) : (x.setLaunch l y).core e = x.core e := rfl
@[simp] theorem Die.fut_setCore (x : Die) (c : Nat) (y : Core) (e : Nat) : (x.setCore c y).fut e = x.fut e := rfl
@[simp] theorem Die.fut_setPly (x : Die) (c k : Nat) (y : Ply) (e : Nat) : (x.setPly c k y).fut e = x.fut e := rfl
@[simp] theorem Die.fut_setLevel (x : Die) (i : Nat) (y : Level) (e : Nat) : (x.setLevel i y).fut e = x.fut e := rfl
@[simp] theorem Die.fut_setBar (x : Die) (b : Nat) (y : Barrier) (e : Nat) : (x.setBar b y).fut e = x.fut e := rfl
@[simp] theorem Die.fut_setBuf (x : Die) (b : Nat) (y : Buf) (e : Nat) : (x.setBuf b y).fut e = x.fut e := rfl
@[simp] theorem Die.fut_setLqc (x : Die) (q : Nat) (y : Lqc) (e : Nat) : (x.setLqc q y).fut e = x.fut e := rfl
@[simp] theorem Die.fut_setLathe (x : Die) (n : Nat) (y : Lathe) (e : Nat) : (x.setLathe n y).fut e = x.fut e := rfl
@[simp] theorem Die.fut_setLink (x : Die) (t : Nat) (y : Link) (e : Nat) : (x.setLink t y).fut e = x.fut e := rfl
@[simp] theorem Die.fut_setTrap (x : Die) (t : Nat) (y : TrapSlot) (e : Nat) : (x.setTrap t y).fut e = x.fut e := rfl
@[simp] theorem Die.fut_setUnit (x : Die) (u : Nat) (y : WUnit) (e : Nat) : (x.setUnit u y).fut e = x.fut e := rfl
@[simp] theorem Die.fut_setLaunch (x : Die) (l : Nat) (y : Launch) (e : Nat) : (x.setLaunch l y).fut e = x.fut e := rfl
@[simp] theorem Die.level_setCore (x : Die) (c : Nat) (y : Core) (e : Nat) : (x.setCore c y).level e = x.level e := rfl
@[simp] theorem Die.level_setPly (x : Die) (c k : Nat) (y : Ply) (e : Nat) : (x.setPly c k y).level e = x.level e := rfl
@[simp] theorem Die.level_setFut (x : Die) (f : Nat) (y : Future) (e : Nat) : (x.setFut f y).level e = x.level e := rfl
@[simp] theorem Die.level_setBar (x : Die) (b : Nat) (y : Barrier) (e : Nat) : (x.setBar b y).level e = x.level e := rfl
@[simp] theorem Die.level_setBuf (x : Die) (b : Nat) (y : Buf) (e : Nat) : (x.setBuf b y).level e = x.level e := rfl
@[simp] theorem Die.level_setLqc (x : Die) (q : Nat) (y : Lqc) (e : Nat) : (x.setLqc q y).level e = x.level e := rfl
@[simp] theorem Die.level_setLathe (x : Die) (n : Nat) (y : Lathe) (e : Nat) : (x.setLathe n y).level e = x.level e := rfl
@[simp] theorem Die.level_setLink (x : Die) (t : Nat) (y : Link) (e : Nat) : (x.setLink t y).level e = x.level e := rfl
@[simp] theorem Die.level_setTrap (x : Die) (t : Nat) (y : TrapSlot) (e : Nat) : (x.setTrap t y).level e = x.level e := rfl
@[simp] theorem Die.level_setUnit (x : Die) (u : Nat) (y : WUnit) (e : Nat) : (x.setUnit u y).level e = x.level e := rfl
@[simp] theorem Die.level_setLaunch (x : Die) (l : Nat) (y : Launch) (e : Nat) : (x.setLaunch l y).level e = x.level e := rfl
@[simp] theorem Die.bar_setCore (x : Die) (c : Nat) (y : Core) (e : Nat) : (x.setCore c y).bar e = x.bar e := rfl
@[simp] theorem Die.bar_setPly (x : Die) (c k : Nat) (y : Ply) (e : Nat) : (x.setPly c k y).bar e = x.bar e := rfl
@[simp] theorem Die.bar_setFut (x : Die) (f : Nat) (y : Future) (e : Nat) : (x.setFut f y).bar e = x.bar e := rfl
@[simp] theorem Die.bar_setLevel (x : Die) (i : Nat) (y : Level) (e : Nat) : (x.setLevel i y).bar e = x.bar e := rfl
@[simp] theorem Die.bar_setBuf (x : Die) (b : Nat) (y : Buf) (e : Nat) : (x.setBuf b y).bar e = x.bar e := rfl
@[simp] theorem Die.bar_setLqc (x : Die) (q : Nat) (y : Lqc) (e : Nat) : (x.setLqc q y).bar e = x.bar e := rfl
@[simp] theorem Die.bar_setLathe (x : Die) (n : Nat) (y : Lathe) (e : Nat) : (x.setLathe n y).bar e = x.bar e := rfl
@[simp] theorem Die.bar_setLink (x : Die) (t : Nat) (y : Link) (e : Nat) : (x.setLink t y).bar e = x.bar e := rfl
@[simp] theorem Die.bar_setTrap (x : Die) (t : Nat) (y : TrapSlot) (e : Nat) : (x.setTrap t y).bar e = x.bar e := rfl
@[simp] theorem Die.bar_setUnit (x : Die) (u : Nat) (y : WUnit) (e : Nat) : (x.setUnit u y).bar e = x.bar e := rfl
@[simp] theorem Die.bar_setLaunch (x : Die) (l : Nat) (y : Launch) (e : Nat) : (x.setLaunch l y).bar e = x.bar e := rfl
@[simp] theorem Die.buf_setCore (x : Die) (c : Nat) (y : Core) (e : Nat) : (x.setCore c y).buf e = x.buf e := rfl
@[simp] theorem Die.buf_setPly (x : Die) (c k : Nat) (y : Ply) (e : Nat) : (x.setPly c k y).buf e = x.buf e := rfl
@[simp] theorem Die.buf_setFut (x : Die) (f : Nat) (y : Future) (e : Nat) : (x.setFut f y).buf e = x.buf e := rfl
@[simp] theorem Die.buf_setLevel (x : Die) (i : Nat) (y : Level) (e : Nat) : (x.setLevel i y).buf e = x.buf e := rfl
@[simp] theorem Die.buf_setBar (x : Die) (b : Nat) (y : Barrier) (e : Nat) : (x.setBar b y).buf e = x.buf e := rfl
@[simp] theorem Die.buf_setLqc (x : Die) (q : Nat) (y : Lqc) (e : Nat) : (x.setLqc q y).buf e = x.buf e := rfl
@[simp] theorem Die.buf_setLathe (x : Die) (n : Nat) (y : Lathe) (e : Nat) : (x.setLathe n y).buf e = x.buf e := rfl
@[simp] theorem Die.buf_setLink (x : Die) (t : Nat) (y : Link) (e : Nat) : (x.setLink t y).buf e = x.buf e := rfl
@[simp] theorem Die.buf_setTrap (x : Die) (t : Nat) (y : TrapSlot) (e : Nat) : (x.setTrap t y).buf e = x.buf e := rfl
@[simp] theorem Die.buf_setUnit (x : Die) (u : Nat) (y : WUnit) (e : Nat) : (x.setUnit u y).buf e = x.buf e := rfl
@[simp] theorem Die.buf_setLaunch (x : Die) (l : Nat) (y : Launch) (e : Nat) : (x.setLaunch l y).buf e = x.buf e := rfl
@[simp] theorem Die.lqc_setCore (x : Die) (c : Nat) (y : Core) (e : Nat) : (x.setCore c y).lqc e = x.lqc e := rfl
@[simp] theorem Die.lqc_setPly (x : Die) (c k : Nat) (y : Ply) (e : Nat) : (x.setPly c k y).lqc e = x.lqc e := rfl
@[simp] theorem Die.lqc_setFut (x : Die) (f : Nat) (y : Future) (e : Nat) : (x.setFut f y).lqc e = x.lqc e := rfl
@[simp] theorem Die.lqc_setLevel (x : Die) (i : Nat) (y : Level) (e : Nat) : (x.setLevel i y).lqc e = x.lqc e := rfl
@[simp] theorem Die.lqc_setBar (x : Die) (b : Nat) (y : Barrier) (e : Nat) : (x.setBar b y).lqc e = x.lqc e := rfl
@[simp] theorem Die.lqc_setBuf (x : Die) (b : Nat) (y : Buf) (e : Nat) : (x.setBuf b y).lqc e = x.lqc e := rfl
@[simp] theorem Die.lqc_setLathe (x : Die) (n : Nat) (y : Lathe) (e : Nat) : (x.setLathe n y).lqc e = x.lqc e := rfl
@[simp] theorem Die.lqc_setLink (x : Die) (t : Nat) (y : Link) (e : Nat) : (x.setLink t y).lqc e = x.lqc e := rfl
@[simp] theorem Die.lqc_setTrap (x : Die) (t : Nat) (y : TrapSlot) (e : Nat) : (x.setTrap t y).lqc e = x.lqc e := rfl
@[simp] theorem Die.lqc_setUnit (x : Die) (u : Nat) (y : WUnit) (e : Nat) : (x.setUnit u y).lqc e = x.lqc e := rfl
@[simp] theorem Die.lqc_setLaunch (x : Die) (l : Nat) (y : Launch) (e : Nat) : (x.setLaunch l y).lqc e = x.lqc e := rfl
@[simp] theorem Die.lathe_setCore (x : Die) (c : Nat) (y : Core) (e : Nat) : (x.setCore c y).lathe e = x.lathe e := rfl
@[simp] theorem Die.lathe_setPly (x : Die) (c k : Nat) (y : Ply) (e : Nat) : (x.setPly c k y).lathe e = x.lathe e := rfl
@[simp] theorem Die.lathe_setFut (x : Die) (f : Nat) (y : Future) (e : Nat) : (x.setFut f y).lathe e = x.lathe e := rfl
@[simp] theorem Die.lathe_setLevel (x : Die) (i : Nat) (y : Level) (e : Nat) : (x.setLevel i y).lathe e = x.lathe e := rfl
@[simp] theorem Die.lathe_setBar (x : Die) (b : Nat) (y : Barrier) (e : Nat) : (x.setBar b y).lathe e = x.lathe e := rfl
@[simp] theorem Die.lathe_setBuf (x : Die) (b : Nat) (y : Buf) (e : Nat) : (x.setBuf b y).lathe e = x.lathe e := rfl
@[simp] theorem Die.lathe_setLqc (x : Die) (q : Nat) (y : Lqc) (e : Nat) : (x.setLqc q y).lathe e = x.lathe e := rfl
@[simp] theorem Die.lathe_setLink (x : Die) (t : Nat) (y : Link) (e : Nat) : (x.setLink t y).lathe e = x.lathe e := rfl
@[simp] theorem Die.lathe_setTrap (x : Die) (t : Nat) (y : TrapSlot) (e : Nat) : (x.setTrap t y).lathe e = x.lathe e := rfl
@[simp] theorem Die.lathe_setUnit (x : Die) (u : Nat) (y : WUnit) (e : Nat) : (x.setUnit u y).lathe e = x.lathe e := rfl
@[simp] theorem Die.lathe_setLaunch (x : Die) (l : Nat) (y : Launch) (e : Nat) : (x.setLaunch l y).lathe e = x.lathe e := rfl
@[simp] theorem Die.link_setCore (x : Die) (c : Nat) (y : Core) (e : Nat) : (x.setCore c y).link e = x.link e := rfl
@[simp] theorem Die.link_setPly (x : Die) (c k : Nat) (y : Ply) (e : Nat) : (x.setPly c k y).link e = x.link e := rfl
@[simp] theorem Die.link_setFut (x : Die) (f : Nat) (y : Future) (e : Nat) : (x.setFut f y).link e = x.link e := rfl
@[simp] theorem Die.link_setLevel (x : Die) (i : Nat) (y : Level) (e : Nat) : (x.setLevel i y).link e = x.link e := rfl
@[simp] theorem Die.link_setBar (x : Die) (b : Nat) (y : Barrier) (e : Nat) : (x.setBar b y).link e = x.link e := rfl
@[simp] theorem Die.link_setBuf (x : Die) (b : Nat) (y : Buf) (e : Nat) : (x.setBuf b y).link e = x.link e := rfl
@[simp] theorem Die.link_setLqc (x : Die) (q : Nat) (y : Lqc) (e : Nat) : (x.setLqc q y).link e = x.link e := rfl
@[simp] theorem Die.link_setLathe (x : Die) (n : Nat) (y : Lathe) (e : Nat) : (x.setLathe n y).link e = x.link e := rfl
@[simp] theorem Die.link_setTrap (x : Die) (t : Nat) (y : TrapSlot) (e : Nat) : (x.setTrap t y).link e = x.link e := rfl
@[simp] theorem Die.link_setUnit (x : Die) (u : Nat) (y : WUnit) (e : Nat) : (x.setUnit u y).link e = x.link e := rfl
@[simp] theorem Die.link_setLaunch (x : Die) (l : Nat) (y : Launch) (e : Nat) : (x.setLaunch l y).link e = x.link e := rfl
@[simp] theorem Die.trap_setCore (x : Die) (c : Nat) (y : Core) (e : Nat) : (x.setCore c y).trap e = x.trap e := rfl
@[simp] theorem Die.trap_setPly (x : Die) (c k : Nat) (y : Ply) (e : Nat) : (x.setPly c k y).trap e = x.trap e := rfl
@[simp] theorem Die.trap_setFut (x : Die) (f : Nat) (y : Future) (e : Nat) : (x.setFut f y).trap e = x.trap e := rfl
@[simp] theorem Die.trap_setLevel (x : Die) (i : Nat) (y : Level) (e : Nat) : (x.setLevel i y).trap e = x.trap e := rfl
@[simp] theorem Die.trap_setBar (x : Die) (b : Nat) (y : Barrier) (e : Nat) : (x.setBar b y).trap e = x.trap e := rfl
@[simp] theorem Die.trap_setBuf (x : Die) (b : Nat) (y : Buf) (e : Nat) : (x.setBuf b y).trap e = x.trap e := rfl
@[simp] theorem Die.trap_setLqc (x : Die) (q : Nat) (y : Lqc) (e : Nat) : (x.setLqc q y).trap e = x.trap e := rfl
@[simp] theorem Die.trap_setLathe (x : Die) (n : Nat) (y : Lathe) (e : Nat) : (x.setLathe n y).trap e = x.trap e := rfl
@[simp] theorem Die.trap_setLink (x : Die) (t : Nat) (y : Link) (e : Nat) : (x.setLink t y).trap e = x.trap e := rfl
@[simp] theorem Die.trap_setUnit (x : Die) (u : Nat) (y : WUnit) (e : Nat) : (x.setUnit u y).trap e = x.trap e := rfl
@[simp] theorem Die.trap_setLaunch (x : Die) (l : Nat) (y : Launch) (e : Nat) : (x.setLaunch l y).trap e = x.trap e := rfl
@[simp] theorem Die.ply_setCore (x : Die) (c : Nat) (y : Core) (e f : Nat) : (x.setCore c y).ply e f = x.ply e f := rfl
@[simp] theorem Die.ply_setFut (x : Die) (i : Nat) (y : Future) (e f : Nat) : (x.setFut i y).ply e f = x.ply e f := rfl
@[simp] theorem Die.ply_setLevel (x : Die) (i : Nat) (y : Level) (e f : Nat) : (x.setLevel i y).ply e f = x.ply e f := rfl
@[simp] theorem Die.ply_setBar (x : Die) (b : Nat) (y : Barrier) (e f : Nat) : (x.setBar b y).ply e f = x.ply e f := rfl
@[simp] theorem Die.ply_setBuf (x : Die) (b : Nat) (y : Buf) (e f : Nat) : (x.setBuf b y).ply e f = x.ply e f := rfl
@[simp] theorem Die.ply_setLqc (x : Die) (q : Nat) (y : Lqc) (e f : Nat) : (x.setLqc q y).ply e f = x.ply e f := rfl
@[simp] theorem Die.ply_setLathe (x : Die) (n : Nat) (y : Lathe) (e f : Nat) : (x.setLathe n y).ply e f = x.ply e f := rfl
@[simp] theorem Die.ply_setLink (x : Die) (t : Nat) (y : Link) (e f : Nat) : (x.setLink t y).ply e f = x.ply e f := rfl
@[simp] theorem Die.ply_setTrap (x : Die) (t : Nat) (y : TrapSlot) (e f : Nat) : (x.setTrap t y).ply e f = x.ply e f := rfl
@[simp] theorem Die.ply_setUnit (x : Die) (u : Nat) (y : WUnit) (e f : Nat) : (x.setUnit u y).ply e f = x.ply e f := rfl
@[simp] theorem Die.ply_setLaunch (x : Die) (l : Nat) (y : Launch) (e f : Nat) : (x.setLaunch l y).ply e f = x.ply e f := rfl

/-! ## A ply and its registers -/

@[simp] theorem State.setPly_die (s : State) (h : Here) (p : Ply) : (s.setPly h p).die h.d = (s.die h.d).setPly h.c h.k p := by
  simp [State.setPly, State.mapDie, State.die_setDie]
theorem State.setPly_die_ne (s : State) (h : Here) (p : Ply) (d : Nat) (hd : d ≠ h.d) : (s.setPly h p).die d = s.die d := by
  simp [State.setPly, State.mapDie, State.die_setDie, hd]
@[simp] theorem State.setPly_ply (s : State) (h : Here) (p : Ply) : (s.setPly h p).ply h = p := by
  simp [State.ply, Die.ply_setPly]
@[simp] theorem State.mapPly_ply (s : State) (h : Here) (f : Ply → Ply) : (s.mapPly h f).ply h = f (s.ply h) := by
  simp [State.mapPly]
@[simp] theorem State.mapRegs_regs (s : State) (h : Here) (f : PlyRegs → PlyRegs) : (s.mapRegs h f).regs h = f (s.regs h) := by
  simp [State.mapRegs, State.regs]

/-! ## Rings of a ply -/

@[simp] theorem Ply.ring_setRing (p : Ply) (r : Ring) (q : RingQ) : (p.setRing r q).ring r = q := by cases r <;> rfl
theorem Ply.ring_setRing_ne (p : Ply) (r t : Ring) (q : RingQ) (h : t ≠ r) : (p.setRing r q).ring t = p.ring t := by
  cases r <;> cases t <;> first | rfl | exact absurd rfl h

/-! ## Scalar registers (R145, R146) -/

@[simp] theorem PlyRegs.rdG_zero (r : PlyRegs) : r.rdG 0 = 0 := rfl
theorem PlyRegs.rdG_wrG (r : PlyRegs) (n : Nat) (x : Word) (m : Nat) :
    (r.wrG n x).rdG m = if m = n ∧ n ≠ 0 then x else r.rdG m := by
  by_cases hn : n = 0
  · simp [PlyRegs.wrG, hn]
  · by_cases hm : m = n
    · simp [PlyRegs.wrG, PlyRegs.rdG, hn, hm, mget_mset]
    · simp [PlyRegs.wrG, PlyRegs.rdG, hn, hm, mget_mset]

/-! ## Tokens, flags and what they carry (R40, R41, R93) -/

/-- Learning a view changes nothing else of a ply. -/
theorem Ply.told_eq (p : Ply) (k : Nat) (v : IxView) : ∃ m, p.told k v = { p with knows := m } := by
  unfold Ply.told; split
  · exact ⟨_, rfl⟩
  · exact ⟨p.knows, rfl⟩

@[simp] theorem Ply.told_phase (p : Ply) (k : Nat) (v : IxView) : (p.told k v).phase = p.phase := by
  obtain ⟨m, h⟩ := p.told_eq k v; rw [h]
@[simp] theorem Ply.told_unit (p : Ply) (k : Nat) (v : IxView) : (p.told k v).unit = p.unit := by
  obtain ⟨m, h⟩ := p.told_eq k v; rw [h]
@[simp] theorem Ply.told_vf (p : Ply) (k : Nat) (v : IxView) : (p.told k v).vf = p.vf := by
  obtain ⟨m, h⟩ := p.told_eq k v; rw [h]
@[simp] theorem Ply.told_regs (p : Ply) (k : Nat) (v : IxView) : (p.told k v).regs = p.regs := by
  obtain ⟨m, h⟩ := p.told_eq k v; rw [h]
@[simp] theorem Ply.told_flags (p : Ply) (k : Nat) (v : IxView) : (p.told k v).flags = p.flags := by
  obtain ⟨m, h⟩ := p.told_eq k v; rw [h]
@[simp] theorem Ply.told_toks (p : Ply) (k : Nat) (v : IxView) : (p.told k v).toks = p.toks := by
  obtain ⟨m, h⟩ := p.told_eq k v; rw [h]
@[simp] theorem Ply.told_sq (p : Ply) (k : Nat) (v : IxView) : (p.told k v).sq = p.sq := by
  obtain ⟨m, h⟩ := p.told_eq k v; rw [h]
@[simp] theorem Ply.told_vl (p : Ply) (k : Nat) (v : IxView) : (p.told k v).vl = p.vl := by
  obtain ⟨m, h⟩ := p.told_eq k v; rw [h]
@[simp] theorem Ply.told_va (p : Ply) (k : Nat) (v : IxView) : (p.told k v).va = p.va := by
  obtain ⟨m, h⟩ := p.told_eq k v; rw [h]
@[simp] theorem Ply.told_vs (p : Ply) (k : Nat) (v : IxView) : (p.told k v).vs = p.vs := by
  obtain ⟨m, h⟩ := p.told_eq k v; rw [h]
@[simp] theorem Ply.told_mxq (p : Ply) (k : Nat) (v : IxView) : (p.told k v).mxq = p.mxq := by
  obtain ⟨m, h⟩ := p.told_eq k v; rw [h]
@[simp] theorem Ply.told_trq (p : Ply) (k : Nat) (v : IxView) : (p.told k v).trq = p.trq := by
  obtain ⟨m, h⟩ := p.told_eq k v; rw [h]
@[simp] theorem Ply.told_ft (p : Ply) (k : Nat) (v : IxView) : (p.told k v).ft = p.ft := by
  obtain ⟨m, h⟩ := p.told_eq k v; rw [h]
@[simp] theorem Ply.told_dsrec (p : Ply) (k : Nat) (v : IxView) : (p.told k v).dsrec = p.dsrec := by
  obtain ⟨m, h⟩ := p.told_eq k v; rw [h]
@[simp] theorem Ply.told_mx (p : Ply) (k : Nat) (v : IxView) : (p.told k v).mx = p.mx := by
  obtain ⟨m, h⟩ := p.told_eq k v; rw [h]
@[simp] theorem Ply.told_tr (p : Ply) (k : Nat) (v : IxView) : (p.told k v).tr = p.tr := by
  obtain ⟨m, h⟩ := p.told_eq k v; rw [h]
@[simp] theorem Ply.told_mxBehind (p : Ply) (k : Nat) (v : IxView) : (p.told k v).mxBehind = p.mxBehind := by
  obtain ⟨m, h⟩ := p.told_eq k v; rw [h]
@[simp] theorem Ply.told_holdset (p : Ply) (k : Nat) (v : IxView) : (p.told k v).holdset = p.holdset := by
  obtain ⟨m, h⟩ := p.told_eq k v; rw [h]
@[simp] theorem Ply.told_pend (p : Ply) (k : Nat) (v : IxView) : (p.told k v).pend = p.pend := by
  obtain ⟨m, h⟩ := p.told_eq k v; rw [h]
@[simp] theorem Ply.told_halts (p : Ply) (k : Nat) (v : IxView) : (p.told k v).halts = p.halts := by
  obtain ⟨m, h⟩ := p.told_eq k v; rw [h]
@[simp] theorem Ply.told_wait (p : Ply) (k : Nat) (v : IxView) : (p.told k v).wait = p.wait := by
  obtain ⟨m, h⟩ := p.told_eq k v; rw [h]
@[simp] theorem Ply.told_preempt (p : Ply) (k : Nat) (v : IxView) : (p.told k v).preempt = p.preempt := by
  obtain ⟨m, h⟩ := p.told_eq k v; rw [h]
@[simp] theorem Ply.told_evict (p : Ply) (k : Nat) (v : IxView) : (p.told k v).evict = p.evict := by
  obtain ⟨m, h⟩ := p.told_eq k v; rw [h]
@[simp] theorem Ply.told_stopped (p : Ply) (k : Nat) (v : IxView) : (p.told k v).stopped = p.stopped := by
  obtain ⟨m, h⟩ := p.told_eq k v; rw [h]
@[simp] theorem Ply.told_tok (p : Ply) (k : Nat) (v : IxView) (a b : Nat) : (p.told k v).tok a b = p.tok a b := by simp [Ply.tok]
@[simp] theorem Ply.told_flag (p : Ply) (k : Nat) (v : IxView) (f : Nat) : (p.told k v).flag f = p.flag f := by simp [Ply.flag]
@[simp] theorem Ply.told_ring (p : Ply) (k : Nat) (v : IxView) (r : Ring) : (p.told k v).ring r = p.ring r := by
  obtain ⟨m, h⟩ := p.told_eq k v; rw [h]; cases r <;> rfl

/-- Pushing tokens raises one FIFO's count; of the rest of the ply only what the new tokens carry changes. -/
theorem Ply.pushTok_eq (p : Ply) (a b n : Nat) : ∃ m, p.pushTok a b n = { p.setTok a b (p.tok a b + n) with knows := m } := by
  have go : ∀ n i (q : Ply), ∃ m, iterFrom (fun i q => Ply.told q (tokKey a b i) (p.know a)) i n q = { q with knows := m } := by
    intro n
    induction n with
    | zero => exact fun _ q => ⟨q.knows, rfl⟩
    | succ n ih =>
      intro i q
      obtain ⟨m, h⟩ := q.told_eq (tokKey a b i) (p.know a)
      obtain ⟨m', h'⟩ := ih (i + 1) (q.told (tokKey a b i) (p.know a))
      exact ⟨m', by rw [iterFrom, h', h]⟩
  exact go n _ _

/-- Popping a token lowers one FIFO's count; of the rest of the ply only what is known of the index registers changes. -/
theorem Ply.popTok_eq (p : Ply) (a b : Nat) : ∃ m, p.popTok a b = { p.setTok a b (p.tok a b - 1) with knows := m } := by
  obtain ⟨m, h⟩ := Ply.told_eq { p.setTok a b (p.tok a b - 1) with knows := shiftKnows p.knows (tokKey a b 0) } b
    (mget default p.knows (tokKey a b 0))
  exact ⟨m, h⟩

/-- An agent's raise is the raise of the flag; of the rest of the ply only what the flag carries changes. -/
theorem Ply.raiseBy_eq (p : Ply) (a f n : Nat) : ∃ m, p.raiseBy a f n = { p.raise f n with knows := m } := Ply.told_eq _ _ _

end Sys2Proof.Machine
end

