-- ==== Sys2Proof/Laws/Sq.lean ====
section
/-! SUPPORT. What the shared operations of the sequencer do: sources, results, retirement, traps, and accesses whose bytes
lie in the issuing die's store. -/

namespace Sys2Proof.Machine

open Sys2Proof Sys2Proof.Claims

/-! ## Overwriting -/

theorem mput_mput {α : Type} (m : Map α) (k : Nat) (a b : α) : mput (mput m k a) k b = mput m k b := by
  induction m with
  | nil => simp [mput]
  | cons e t ih =>
    obtain ⟨i, x⟩ := e
    simp only [mput]
    split
    · simp [mput]
    · split
      · simp [mput]
      · simp only [mput]; simp [*]

theorem State.setDie_setDie (s : State) (d : Nat) (x y : Die) : (s.setDie d x).setDie d y = s.setDie d y := by
  simp [State.setDie, mput_mput]

theorem Die.setPly_setPly (x : Die) (c k : Nat) (p q : Ply) : (x.setPly c k p).setPly c k q = x.setPly c k q := by
  simp [Die.setPly, mput_mput]

theorem State.setPly_setPly (s : State) (h : Here) (p q : Ply) : (s.setPly h p).setPly h q = s.setPly h q := by
  simp only [State.setPly, State.mapDie, State.die, State.setDie, mget_mput, if_true, Die.setPly, mput_mput]

theorem State.mapPly_mapPly (s : State) (h : Here) (f g : Ply → Ply) :
    (s.mapPly h f).mapPly h g = s.mapPly h (fun p => g (f p)) := by
  have e : ∀ p, (s.setPly h p).ply h = p := fun p => by
    simp only [State.setPly, State.mapDie, State.ply, State.die, State.setDie, mget_mput, if_true, Die.ply, Die.setPly]
  simp only [State.mapPly, e, State.setPly_setPly]

theorem State.mapDie_mapDie (s : State) (d : Nat) (f g : Die → Die) :
    (s.mapDie d f).mapDie d g = s.mapDie d (fun x => g (f x)) := by
  simp only [State.mapDie, State.die, State.setDie, mget_mput, if_true, mput_mput]

/-! ## The agent and its sources -/

theorem onSq_of {s : State} {h : Here} (f : Here → State) (hs : s.sqHere = some h) : onSq s f = .next (f h) := by
  simp [onSq, hs]

/-- The Running ply of the turn is the one its core's sequencer names. -/
theorem running_of {s : State} {h : Here} (hs : s.sqHere = some h) : ((s.die h.d).core h.c).running = some h.k := by
  unfold State.sqHere at hs
  split at hs
  · split at hs
    · rename_i k hk; cases hs; exact hk
    · simp at hs
  · simp at hs

theorem src_of {r : PlyRegs} {a : BitVec 7} {x : Word} (h : SrcIs r a x) : ¬ 67 < a.toNat ∧ r.src a = some x := by
  unfold PlyRegs.src
  rcases h with ⟨h, e⟩ | ⟨h, e⟩ | ⟨h, e⟩ | ⟨h, e⟩ | ⟨h, e⟩
  · refine ⟨by omega, ?_⟩
    split <;> first | omega | simp_all
  all_goals exact ⟨by omega, by simp [h, e]⟩

theorem State.withA_of {s : State} {h : Here} {a : BitVec 7} {x : Word} (k : Word → State) (hs : SrcIs (s.regs h) a x) :
    s.withA h a k = k x := by
  obtain ⟨h1, h2⟩ := src_of hs
  simp [State.withA, State.withSrc, h1, h2]

theorem State.withAB_of {s : State} {h : Here} {a b : BitVec 7} {x y : Word} (k : Word → Word → State)
    (hs : SrcIs (s.regs h) a x) (ht : SrcIs (s.regs h) b y) : s.withAB h a b k = k x y := by
  obtain ⟨h1, h2⟩ := src_of hs
  obtain ⟨h3, h4⟩ := src_of ht
  simp [State.withAB, State.withSrc, h1, h2, h3, h4]

/-! ## Results, retirement, traps -/

theorem State.result_eq (s : State) (h : Here) (nw : Bool) (dst : Nat) (v : Word) :
    s.result h nw dst v = sqTo s h ((s.regs h).result nw dst v) ((s.ply h).pco + 4) := by
  simp only [State.result, State.mapPly, sqTo, Ply.advance, Ply.setPco, Ply.pco, State.regs]

theorem State.retire_eq (s : State) (h : Here) : s.retire h = sqTo s h (s.regs h) ((s.ply h).pco + 4) := by
  simp only [State.retire, State.mapPly, sqTo, Ply.advance, Ply.setPco, Ply.pco, State.regs]

theorem PlyRegs.result_holds (r : PlyRegs) (nw : Bool) (dst : Nat) (v : Word) :
    Result r (r.result nw dst v) nw dst v 0 := by
  unfold PlyRegs.result
  cases nw
  · simp only [PlyRegs.wrG]
    by_cases h0 : dst = 0
    · subst h0
      constructor <;> simp [PlyRegs.shiftY, PlyRegs.rdG] <;> omega
    · constructor <;> simp [PlyRegs.shiftY, PlyRegs.rdG, h0, mget_mset]
      intro n; split <;> split <;> simp_all
  · constructor <;> simp [PlyRegs.shiftY, PlyRegs.rdG]

/-- A word that ends in `State.result` gives its value. -/
theorem gives_of {i : Instr} {s : State} {h : Here} {nw : Bool} {dst : Nat} {v : Word}
    (e : exec i s = .next (s.result h nw dst v)) : Gives i s h nw dst v 0 :=
  ⟨_, by rw [e, State.result_eq], PlyRegs.result_holds ..⟩

theorem State.mapDie_congr (s : State) {d : Nat} {f g : Die → Die} (e : f (s.die d) = g (s.die d)) :
    s.mapDie d f = s.mapDie d g := by
  simp only [State.mapDie, e]

/-- A Running ply leaves the sequencer after a change of its own (R37, R38). -/
theorem State.leave_mapPly {s : State} {h : Here} (hs : s.sqHere = some h) (f : Ply → Ply) (ph : PlyPhase) :
    (s.mapPly h f).leave h ph = sqLeft s h (f (s.ply h)) ph := by
  have hr := running_of hs
  have e : ∀ x : Die, (x.core h.c).running = some h.k →
      (x.setPly h.c h.k (f (x.ply h.c h.k))).leave h.c h.k ph =
      (x.mapCore h.c (fun y => { y with running := none, last := h.k })).setPly h.c h.k
        { f (x.ply h.c h.k) with phase := ph, regs := (f (x.ply h.c h.k)).regs.dropY } := by
    intro x hx
    have h1 : ((x.setPly h.c h.k (f (x.ply h.c h.k))).core h.c).running = some h.k := hx
    simp only [Die.leave, h1, if_true, Die.mapPly]
    simp only [Die.mapCore, Die.setPly, Die.setCore, Die.ply, Die.core, mget_mput, if_true, mput_mput]
  simp only [State.leave, State.mapPly, State.setPly, State.mapDie_mapDie, sqLeft, State.mapCore]
  exact State.mapDie_congr _ (e (s.die h.d) hr)

/-- Taking a trap at SQ of the Running ply (R350, R352). -/
theorem State.takeTrap_sq {s : State} {h : Here} (hs : s.sqHere = some h) (st : W32) (addr : BitVec 56) (kind : Nat) :
    s.takeTrap h 0 ⟨st, (s.ply h).pco, addr, 0, 0, kind⟩ = sqTrapped s h st addr kind := by
  simp only [State.takeTrap, if_true, State.leave_mapPly hs, sqLeft, sqTrapped, PlyRegs.dropY, List.isEmpty_iff]

theorem State.trapSq_eq {s : State} {h : Here} (hs : s.sqHere = some h) (cls reason field : Nat)
    (hc : cls < 256) (hr : reason < 16) (hf : field < 16) :
    s.trapSq h cls reason field = sqTrapped s h (status cls reason field) 0 0 := by
  have e : statusWord 0 cls reason field = status cls reason field := by
    simp only [statusWord, status, Nat.mod_eq_of_lt hc, Nat.mod_eq_of_lt hr, Nat.mod_eq_of_lt hf, Nat.zero_mod,
      Nat.zero_mul, Nat.zero_add]
  rw [State.trapSq, State.takeTrap_sq hs, e]

/-! ## Accesses in the issuing die's own store -/

theorem locateAll_eq (f : Nat → Loc) (va n : Nat) (hv : va < 2 ^ 64) :
    State.locateAll f va n = (List.range n).map (fun i => ((va + i) % 2 ^ 64, f ((va + i) % 2 ^ 64))) := by
  induction n generalizing va with
  | zero => rfl
  | succ n ih =>
    rw [State.locateAll, ih _ (Nat.mod_lt _ (by decide)), List.range_succ_eq_map]
    simp only [List.map_cons, List.map_map, Nat.add_zero, Nat.mod_eq_of_lt hv]
    congr 1
    apply List.map_congr_left
    intro i _
    simp only [Function.comp, Nat.mod_add_mod, Nat.succ_eq_add_one]
    have e : va + 1 + i = va + (i + 1) := by omega
    rw [e]

/-- Bytes that all lie in frames of the issuing die: no fault, no offence, nothing elsewhere. -/
theorem locs_mem {ls : List (Nat × Loc)} (h : ∀ l ∈ ls, ∃ q, l.2 = .here (.mem q)) :
    firstFault ls = none ∧ firstBad ls = none ∧ ∀ i, runsOf i ls = [] := by
  induction ls with
  | nil => exact ⟨rfl, rfl, fun _ => rfl⟩
  | cons l t ih =>
    obtain ⟨v, l⟩ := l
    obtain ⟨q, hq⟩ := h (v, l) (by simp)
    obtain ⟨h1, h2, h3⟩ := ih (fun l hl => h l (by simp [hl]))
    simp only at hq
    subst hq
    exact ⟨by simp [firstFault, h1], by simp [firstBad, h2], fun i => by simp [runsOf, Loc.away, h3]⟩

/-- The located bytes of an access whose bytes are local. -/
theorem State.sqLocs_of {s : State} {h : Here} {a : SqAcc} {pa : Nat → Nat} (hv : a.va < 2 ^ 64)
    (hl : Local s h a.mode a.va a.len pa) :
    s.sqLocs h a = (List.range a.len).map (fun i => ((a.va + i) % 2 ^ 64, Loc.here (.mem (pa i)))) := by
  rw [State.sqLocs, locateAll_eq _ _ _ hv]
  apply List.map_congr_left
  intro i hi
  rw [hl i (by simpa using hi)]

theorem State.sqHt_of {s : State} {h : Here} {a : SqAcc} {pa : Nat → Nat} (hl : Local s h a.mode a.va a.len pa) :
    s.sqHt h a = false := by
  simp only [State.sqHt, List.any_eq_false, List.mem_range]
  intro i hi
  rw [hl i hi]
  simp

theorem Die.readLocs_mem (x : Die) (va : Nat) (pa : Nat → Nat) (n : Nat) :
    x.readLocs ((List.range n).map (fun i => ((va + i) % 2 ^ 64, Loc.here (.mem (pa i))))) =
      (List.range n).map (fun i => getByte x.mem (pa i)) := by
  simp [Die.readLocs, Die.readPlace, Function.comp_def]

theorem leNat_append (bs : List Byte) (b : Byte) : leNat (bs ++ [b]) = leNat bs + b.toNat * 2 ^ (8 * bs.length) := by
  induction bs with
  | nil => simp [leNat]
  | cons c t ih =>
    have e : (2 : Nat) ^ (8 * (t.length + 1)) = 256 * 2 ^ (8 * t.length) := by
      rw [Nat.mul_succ, Nat.pow_add, Nat.mul_comm]
    rw [List.cons_append, leNat, ih, List.length_cons, e, leNat, Nat.mul_add, Nat.mul_left_comm, Nat.add_assoc]

theorem leNat_range (x : Die) (pa : Nat → Nat) (n : Nat) :
    leNat ((List.range n).map (fun i => getByte x.mem (pa i))) = valueAt x pa n := by
  induction n with
  | zero => rfl
  | succ n ih => rw [List.range_succ, List.map_append, List.map_singleton, leNat_append, ih]; simp [valueAt]

theorem getBytes_putBytes (bs : List Byte) : getBytes (putBytes [] 0 bs) 0 bs.length = bs := by
  apply List.ext_getElem
  · exact getBytes_length ..
  · intro i h1 h2
    have e : ∀ (m : Map Byte) (a n i : Nat) (hi : i < (getBytes m a n).length), (getBytes m a n)[i] = getByte m (a + i) := by
      intro m a n
      induction n generalizing a with
      | zero => intro i hi; simp [getBytes] at hi
      | succ n ih =>
        intro i hi
        cases i with
        | zero => simp [getBytes]
        | succ i => simp only [getBytes, List.getElem_cons_succ, ih]; congr 1; omega
    rw [e, getByte_putBytes, if_pos ⟨by omega, by omega⟩]
    simp [h2]

/-- A local access below panel scope is performed at once, with no frame closed. -/
theorem State.sqAccess_local {s : State} {h : Here} {a : SqAcc} {pa : Nat → Nat} (hv : a.va < 2 ^ 64)
    (hl : Local s h a.mode a.va a.len pa) (acq rel : Bool) (scope : Nat) (hu : (acq = false ∧ rel = false) ∨ scope < 3) (hc : a.close = false) :
    s.sqAccess h a acq rel scope = match a.kind with | 0 => s.sqStore h a | 1 => s.sqLoad h a | _ => s.sqAtomic h a := by
  have hL := State.sqLocs_of hv hl
  have hm := locs_mem (ls := s.sqLocs h a) (by rw [hL]; intro l hl; simp only [List.mem_map] at hl; obtain ⟨i, _, rfl⟩ := hl; exact ⟨_, rfl⟩)
  simp only [State.sqAccess, hm.1, State.sqHt_of hl, Bool.or_false]
  have hcl : closesAfter (decide (a.kind ≠ 0) && acq) (decide (a.kind ≠ 1) && rel) scope = false := by
    unfold closesAfter
    rcases hu with ⟨rfl, rfl⟩ | hs
    · simp
    · simp; omega
  have ha : { a with close := false } = a := by cases a; simp_all
  simp only [if_false, Bool.false_eq_true, hcl, ha, State.orderBefore]
  rcases hu with ⟨rfl, rfl⟩ | hs
  · simp only [Bool.and_false, Bool.or_false, Bool.false_and, Bool.false_eq_true, if_false] <;> rfl
  · have h3 : ¬ scope = 3 := by omega
    have h4 : ¬ scope = 4 := by omega
    simp only [h3, h4, decide_false, Bool.and_false, Bool.false_eq_true, if_false] <;> rfl

/-- A local load retires at once with the little-endian value of its bytes. -/
theorem State.sqLoad_local {s : State} {h : Here} {a : SqAcc} {pa : Nat → Nat} (hv : a.va < 2 ^ 64)
    (hl : Local s h a.mode a.va a.len pa) (hc : a.close = false) :
    s.sqLoad h a = s.result h a.nw a.dst.toNat (extendTo a.signed a.len (valueAt (s.die h.d) pa a.len)) := by
  have hL := State.sqLocs_of hv hl
  have hm := locs_mem (ls := s.sqLocs h a) (by rw [hL]; intro l hl; simp only [List.mem_map] at hl; obtain ⟨i, _, rfl⟩ := hl; exact ⟨_, rfl⟩)
  have hlen : ((List.range a.len).map (fun i => getByte (s.die h.d).mem (pa i))).length = a.len := by simp
  have := getBytes_putBytes ((List.range a.len).map (fun i => getByte (s.die h.d).mem (pa i)))
  rw [hlen] at this
  simp only [State.sqLoad, hm.2.1, hm.2.2, State.offend, List.isEmpty_nil, if_true, State.sqFinish, hc]
  rw [hL, Die.readLocs_mem, this, leNat_range]
  simp

end Sys2Proof.Machine
end

