-- ==== Sys2Proof/Tests/Slice0.lean ====
section
/-! SUPPORT. Tests of the decoder, of well-formedness and of values, and for every obligation a state and operands that meet its
hypotheses. -/

namespace Sys2Proof.Tests
open Sys2Proof Sys2Proof.Machine Sys2Proof.Claims

-- One test at a time: tests that wait for one another would each hold a thread and its stack.
set_option Elab.async false

/-! ## Words written out from the encoding tables (R155 to R160), one for every constructor that has a word -/

def reads (dec : Nat → Except Illegal Instr) (es : List (Nat × Instr)) : Bool :=
  es.all (fun e => decide ((dec e.1).toOption = some e.2) && decide (encode e.2 = [e.1]) && WellFormed e.2)

theorem test_decode_sq0 : reads (fun w => decodeSq w)
    [(0x072C2420, .add true 0x25 0x42 0x21),
     (0x072C2421, .sub true 0x25 0x42 0x21),
     (0x072C2422, .and true 0x25 0x42 0x21),
     (0x072C2423, .or true 0x25 0x42 0x21),
     (0x072C2424, .xor true 0x25 0x42 0x21),
     (0x072C2425, .andn true 0x25 0x42 0x21),
     (0x072C2426, .shl true 0x25 0x42 0x21),
     (0x072C2427, .shr true 0x25 0x42 0x21),
     (0x072C2428, .sar true 0x25 0x42 0x21),
     (0x072C2429, .rol true 0x25 0x42 0x21),
     (0x072C242A, .mul true 0x25 0x42 0x21),
     (0x072C242B, .mulh true 0x25 0x42 0x21)] = true := by decide

theorem test_decode_sq1 : reads (fun w => decodeSq w)
    [(0x072C242C, .mulhu true 0x25 0x42 0x21),
     (0x072C242D, .div true 0x25 0x42 0x21),
     (0x072C242E, .divu true 0x25 0x42 0x21),
     (0x072C242F, .rem true 0x25 0x42 0x21),
     (0x072C2430, .remu true 0x25 0x42 0x21),
     (0x072C2431, .min true 0x25 0x42 0x21),
     (0x072C2432, .max true 0x25 0x42 0x21),
     (0x072C2433, .minu true 0x25 0x42 0x21),
     (0x072C2434, .maxu true 0x25 0x42 0x21),
     (0x072C2015, .clz true 0x25 0x42),
     (0x072C2016, .ctz true 0x25 0x42),
     (0x072C2017, .popc true 0x25 0x42)] = true := by decide

theorem test_decode_sq2 : reads (fun w => decodeSq w)
    [(0x072C2438, .adds true 0x25 0x42 0x21),
     (0x072C2439, .subs true 0x25 0x42 0x21),
     (0x0B2C2420, .seq true 0x25 0x42 0x21),
     (0x0B2C2421, .sne true 0x25 0x42 0x21),
     (0x0B2C2422, .slt true 0x25 0x42 0x21),
     (0x0B2C2423, .sltu true 0x25 0x42 0x21),
     (0x0B2C2424, .sge true 0x25 0x42 0x21),
     (0x0B2C2425, .sgeu true 0x25 0x42 0x21),
     (0x0F2C28A3, .sli true 0x25 0x42 0x8a3),
     (0x132C28A3, .addi true 0x25 0x42 0x8a3),
     (0x172C28A3, .andi true 0x25 0x42 0x8a3),
     (0x1B2C28A3, .ori true 0x25 0x42 0x8a3)] = true := by decide

theorem test_decode_sq3 : reads (fun w => decodeSq w)
    [(0x1F2C28A3, .xori true 0x25 0x42 0x8a3),
     (0x232C2029, .shli true 0x25 0x42 0x29),
     (0x272C2029, .shri true 0x25 0x42 0x29),
     (0x2B2C2029, .sari true 0x25 0x42 0x29),
     (0x2F2C28A3, .slti true 0x25 0x42 0x8a3),
     (0x332C28A3, .sltiu true 0x25 0x42 0x8a3),
     (0x340428A3, .beqz 0x42 0x8a3),
     (0x340C28A3, .bnez 0x42 0x8a3),
     (0x341428A3, .bltz 0x42 0x8a3),
     (0x341C28A3, .bgez 0x42 0x8a3),
     (0x342428A3, .bgtz 0x42 0x8a3),
     (0x342C28A3, .blez 0x42 0x8a3)] = true := by decide

theorem test_decode_sq4 : reads (fun w => decodeSq w)
    [(0x343008A3, .bra 0x8a3),
     (0x3B2DA3C5, .jal true 0x25 0x5a3c5),
     (0x3F2C28A3, .jalr true 0x25 0x42 0x8a3),
     (0x432C28A3, .ldb true 0x25 0x42 0x8a3),
     (0x472C28A3, .ldh true 0x25 0x42 0x8a3),
     (0x4B2C28A3, .ldw true 0x25 0x42 0x8a3),
     (0x4F2C28A3, .ldd true 0x25 0x42 0x8a3),
     (0x532C28A3, .ldbs true 0x25 0x42 0x8a3),
     (0x572C28A3, .ldhs true 0x25 0x42 0x8a3),
     (0x5B2C28A3, .ldws true 0x25 0x42 0x8a3),
     (0x612C28A3, .sb 0x25 0x42 0x8a3),
     (0x652C28A3, .sh 0x25 0x42 0x8a3)] = true := by decide

theorem test_decode_sq5 : reads (fun w => decodeSq w)
    [(0x692C28A3, .sw 0x25 0x42 0x8a3),
     (0x6D2C28A3, .sd 0x25 0x42 0x8a3),
     (0x732C2014, .ldo true 0x25 0x42 true false 4),
     (0x772C2014, .ldow true 0x25 0x42 true false 4),
     (0x78042434, .sto 0x42 0x21 true false 4),
     (0x7C042434, .stow 0x42 0x21 true false 4),
     (0x832C2434, .aadd true 0x25 0x42 0x21 true false 4),
     (0x872C2434, .aand true 0x25 0x42 0x21 true false 4),
     (0x8B2C2434, .aor true 0x25 0x42 0x21 true false 4),
     (0x8F2C2434, .axor true 0x25 0x42 0x21 true false 4),
     (0x932C2434, .amin true 0x25 0x42 0x21 true false 4),
     (0x972C2434, .amax true 0x25 0x42 0x21 true false 4)] = true := by decide

theorem test_decode_sq6 : reads (fun w => decodeSq w)
    [(0x9B2C2434, .aswap true 0x25 0x42 0x21 true false 4),
     (0x9F2C2434, .acas true 0x25 0x42 0x21 true false 4),
     (0xA328017F, .srd true 0x25 0x17f),
     (0xA404211F, .swr 0x42 0x11f),
     (0xA80008A3, .trap 0x8a3),
     (0xAC000000, .nop),
     (0xB000000C, .fence true 4),
     (0xB4000000, .yield),
     (0xB8000000, .endUnit),
     (0xC1480FFF, .fraise 0x29 0xfff),
     (0xC54C2DA3, .fwait 0x29 0x42 true 0x5a3),
     (0xC80000B5, .tokPush 0xb 5)] = true := by decide

theorem test_decode_sq7 : reads (fun w => decodeSq w)
    [(0xC800000D, .tokPop 5),
     (0xCC00008D, .barr 0x8d),
     (0xD004208D, .bwait 0x42 0x8d),
     (0xD4042422, .mwait 0x42 0x21 2),
     (0xD80428A3, .stage 0x42 0x8a3),
     (0xE32C2420, .spawn true 0x25 0x42 0x21),
     (0xE4042000, .ref 0x42),
     (0xE4042001, .drop 0x42),
     (0xE7542002, .get true 0x15 0x42),
     (0xE7542003, .getc true 0x15 0x42),
     (0xE4042424, .put 0x42 0x21),
     (0xE4042425, .puti 0x42 0x21)] = true := by decide

theorem test_decode_sq8 : reads (fun w => decodeSq w)
    [(0xE4000006, .pin),
     (0xE4000007, .unpin),
     (0xE4000008, .rcp),
     (0xE72C2009, .fins true 0x25 0x42),
     (0xE72C200A, .cancel true 0x25 0x42),
     (0xE8042420, .hawait 0x42 0x21),
     (0xEC042420, .harel 0x42 0x21),
     (0xF0042423, .enq 0x42 0x21 3),
     (0xF4000100, .qdep 0x100),
     (0xF8042420, .lbeg 0x42 0x21),
     (0xF8000001, .lnext),
     (0xFB280002, .lcnt true 0x25)] = true := by decide

theorem test_decode_sq9 : reads (fun w => decodeSq w)
    [(0xFF2802A3, .flip true 0x25 0x2a3)] = true := by decide

theorem test_decode_vl0 : reads (fun w => decodeVec .vl w [])
    [(0x0BF4E401, .vld 0xfd 1 true 9 false true),
     (0x0FF42795, .vldg 0xfd 9 0xe5 false true),
     (0x13F4E401, .vldb 0xfd 1 true 9 false true)] = true := by decide

theorem test_decode_va0 : reads (fun w => decodeVec .va w [])
    [(0x23E2BB95, .vadd 0xf8 0xae 0xe5 false true),
     (0x27E2BB95, .vsub 0xf8 0xae 0xe5 false true),
     (0x2BE2BB95, .vmul 0xf8 0xae 0xe5 false true),
     (0x2FE2BB95, .vmulh 0xf8 0xae 0xe5 false true),
     (0x33E2BB95, .vand 0xf8 0xae 0xe5 false true),
     (0x37E2BB95, .vor 0xf8 0xae 0xe5 false true),
     (0x3BE2BB95, .vxor 0xf8 0xae 0xe5 false true),
     (0x3FE2BB95, .vshl 0xf8 0xae 0xe5 false true),
     (0x43E2BB95, .vshr 0xf8 0xae 0xe5 false true),
     (0x47E2BB95, .vsar 0xf8 0xae 0xe5 false true),
     (0x4BE2BB95, .vmin 0xf8 0xae 0xe5 false true),
     (0x4FE2BB95, .vmax 0xf8 0xae 0xe5 false true)] = true := by decide

theorem test_decode_va1 : reads (fun w => decodeVec .va w [])
    [(0x53E2BB95, .vminu 0xf8 0xae 0xe5 false true),
     (0x57E2BB95, .vmaxu 0xf8 0xae 0xe5 false true),
     (0x5BE2BB95, .vadds 0xf8 0xae 0xe5 false true),
     (0x5FE2BB95, .vsubs 0xf8 0xae 0xe5 false true),
     (0x63E2BB95, .vfadd 0xf8 0xae 0xe5 false true),
     (0x67E2BB95, .vfsub 0xf8 0xae 0xe5 false true),
     (0x6BE2BB95, .vfmul 0xf8 0xae 0xe5 false true),
     (0x6FE2BB95, .vfma 0xf8 0xae 0xe5 false true),
     (0x73E2BB95, .vfmin 0xf8 0xae 0xe5 false true),
     (0x77E2BB95, .vfmax 0xf8 0xae 0xe5 false true),
     (0x7BE2B801, .vfneg 0xf8 0xae false true),
     (0x7BE2B805, .vfabs 0xf8 0xae false true)] = true := by decide

theorem test_decode_va2 : reads (fun w => decodeVec .va w [])
    [(0x7BE2B809, .vexp2 0xf8 0xae false true),
     (0x7BE2B80D, .vrcp 0xf8 0xae false true),
     (0x7BE2B811, .vrsqrt 0xf8 0xae false true),
     (0x7BE2B815, .vcvt 0xf8 0xae false true),
     (0x83E2BB95, .vcmpeq 0xf8 0xae 0xe5 false true),
     (0x87E2BB95, .vcmplt 0xf8 0xae 0xe5 false true),
     (0x8BE2BB95, .vcmple 0xf8 0xae 0xe5 false true),
     (0x8FE2BB95, .vfcmpeq 0xf8 0xae 0xe5 false true),
     (0x93E2BB95, .vfcmplt 0xf8 0xae 0xe5 false true),
     (0x97E2BB95, .vfcmple 0xf8 0xae 0xe5 false true),
     (0x9BE2BB95, .vsel 0xf8 0xae 0xe5 false true),
     (0x9FE2B811, .vrsum true 0xf8 0xae false true)] = true := by decide

theorem test_decode_va3 : reads (fun w => decodeVec .va w [])
    [(0x9FE2B815, .vrmax true 0xf8 0xae false true),
     (0x9FE2B819, .vrfsum true 0xf8 0xae false true),
     (0x9FE2B81D, .vrfmax true 0xf8 0xae false true),
     (0xA00AB801, .vixset 2 0xae false true),
     (0xA00AB805, .vixadd 2 0xae false true),
     (0xA00AB809, .vixget 2 0xae false true),
     (0xA6A4D469, .vsh 2 0x29 0x1a35 false true),
     (0xAA640001, .vfmt 9 9 false true),
     (0xAFE2B825, .vperm 0xf8 0xae 9 false true),
     (0xB026B801, .vpset 9 0xae false true),
     (0xB7E2BB95, .vquant 0xf8 0xae 0xe5 false true),
     (0xBFE2B801, .vmov 0xf8 0xae false true)] = true := by decide

theorem test_decode_vs0 : reads (fun w => decodeVec .vs w [])
    [(0xC400E795, .vst 1 true 9 0xe5 false true),
     (0xCBF42795, .vsts 0xfd 9 0xe5 false true),
     (0xF0000001, .vnop false true),
     (0xF5A63401, .vfwait true 0x29 0x8d false true),
     (0xF8A40001, .vfraise 0x29 false true)] = true := by decide

theorem test_decode_mx0 : reads (fun w => decodeMx w)
    [(0x08000013, .mclaim 0x13),
     (0x10000013, .mrel 0x13),
     (0x180009B3, .mfill 0x4d 0x13),
     (0x25A3C5B7, .mah 2 0x1a3c5b7),
     (0x2DA3C5B7, .mal 2 0x1a3c5b7),
     (0x30000653, .mlatch true 9 false 0x13),
     (0x38000009, .mafmt 9),
     (0x45AA3C5B, .mloop 5 2 0x2a3c5b),
     (0x4800003D, .mop 1 true true true 1),
     (0x50000001, .mzero 1),
     (0x580017F3, .mdrain 0xbf 9 1),
     (0x60000000, .mfence)] = true := by decide

theorem test_decode_mx1 : reads (fun w => decodeMx w)
    [(0x68000001, .mwin 1),
     (0xFD337A51, .goMx 0x29 0x4d true true 0x29 2 1)] = true := by decide

theorem test_decode_tr0 : reads (fun w => decodeTr w)
    [(0x0DA3C5B7, .tah 2 0x1a3c5b7),
     (0x15A3C5B7, .tal 2 0x1a3c5b7),
     (0x1C000029, .tlb 2 0x29),
     (0x268D6A35, .tshape 0x1a35 0x2a35),
     (0x2EA3C5B7, .tstride true 0x2a3c5b7),
     (0x30000369, .tcopy true true false true 0x29),
     (0x3800693F, .tenq true 0x29 0x3f),
     (0x40000006, .tsend 6),
     (0x4800A3C5, .tcoll 0xa3c5),
     (0x500002A3, .tflip 0x2a3),
     (0x58000001, .tsinv true),
     (0xFD337A5D, .goTr 0x29 0x4d true true 0x29 3 5)] = true := by decide

/-! ## One ill-formed term for every check of `WellFormed` -/

theorem test_ill_formed_0 : ([
    .add true 0x25 0x44 0x21, .add true 0x25 0x42 0x44, .sub true 0x25 0x44 0x21,
    .sub true 0x25 0x42 0x44, .and true 0x25 0x44 0x21, .and true 0x25 0x42 0x44,
    .or true 0x25 0x44 0x21, .or true 0x25 0x42 0x44, .xor true 0x25 0x44 0x21,
    .xor true 0x25 0x42 0x44, .andn true 0x25 0x44 0x21, .andn true 0x25 0x42 0x44,
    .shl true 0x25 0x44 0x21, .shl true 0x25 0x42 0x44, .shr true 0x25 0x44 0x21,
    .shr true 0x25 0x42 0x44, .sar true 0x25 0x44 0x21, .sar true 0x25 0x42 0x44,
    .rol true 0x25 0x44 0x21, .rol true 0x25 0x42 0x44, .mul true 0x25 0x44 0x21,
    .mul true 0x25 0x42 0x44, .mulh true 0x25 0x44 0x21, .mulh true 0x25 0x42 0x44,
    .mulhu true 0x25 0x44 0x21, .mulhu true 0x25 0x42 0x44, .div true 0x25 0x44 0x21,
    .div true 0x25 0x42 0x44, .divu true 0x25 0x44 0x21, .divu true 0x25 0x42 0x44,
    .rem true 0x25 0x44 0x21, .rem true 0x25 0x42 0x44, .remu true 0x25 0x44 0x21,
    .remu true 0x25 0x42 0x44, .min true 0x25 0x44 0x21, .min true 0x25 0x42 0x44,
    .max true 0x25 0x44 0x21, .max true 0x25 0x42 0x44, .minu true 0x25 0x44 0x21,
    .minu true 0x25 0x42 0x44] : List Instr).all (fun i => !WellFormed i) = true := by decide

theorem test_ill_formed_1 : ([
    .maxu true 0x25 0x44 0x21, .maxu true 0x25 0x42 0x44, .adds true 0x25 0x44 0x21,
    .adds true 0x25 0x42 0x44, .subs true 0x25 0x44 0x21, .subs true 0x25 0x42 0x44,
    .seq true 0x25 0x44 0x21, .seq true 0x25 0x42 0x44, .sne true 0x25 0x44 0x21,
    .sne true 0x25 0x42 0x44, .slt true 0x25 0x44 0x21, .slt true 0x25 0x42 0x44,
    .sltu true 0x25 0x44 0x21, .sltu true 0x25 0x42 0x44, .sge true 0x25 0x44 0x21,
    .sge true 0x25 0x42 0x44, .sgeu true 0x25 0x44 0x21, .sgeu true 0x25 0x42 0x44,
    .spawn true 0x25 0x44 0x21, .spawn true 0x25 0x42 0x44, .clz true 0x25 0x44,
    .ctz true 0x25 0x44, .popc true 0x25 0x44, .fins true 0x25 0x44,
    .cancel true 0x25 0x44, .sli true 0x25 0x44 0x8a3, .addi true 0x25 0x44 0x8a3,
    .andi true 0x25 0x44 0x8a3, .ori true 0x25 0x44 0x8a3, .xori true 0x25 0x44 0x8a3,
    .slti true 0x25 0x44 0x8a3, .sltiu true 0x25 0x44 0x8a3, .jalr true 0x25 0x44 0x8a3,
    .ldb true 0x25 0x44 0x8a3, .ldh true 0x25 0x44 0x8a3, .ldw true 0x25 0x44 0x8a3,
    .ldd true 0x25 0x44 0x8a3, .ldbs true 0x25 0x44 0x8a3, .ldhs true 0x25 0x44 0x8a3,
    .ldws true 0x25 0x44 0x8a3] : List Instr).all (fun i => !WellFormed i) = true := by decide

theorem test_ill_formed_2 : ([
    .shli true 0x25 0x44 0x29, .shri true 0x25 0x44 0x29, .sari true 0x25 0x44 0x29,
    .beqz 0x44 0x8a3, .bnez 0x44 0x8a3, .bltz 0x44 0x8a3,
    .bgez 0x44 0x8a3, .bgtz 0x44 0x8a3, .blez 0x44 0x8a3,
    .stage 0x44 0x8a3, .swr 0x44 0x11f, .sb 0x25 0x44 0x8a3,
    .sh 0x25 0x44 0x8a3, .sw 0x25 0x44 0x8a3, .sd 0x25 0x44 0x8a3,
    .ldo true 0x25 0x44 true false 4, .ldo true 0x25 0x42 true false 5, .ldow true 0x25 0x44 true false 4,
    .ldow true 0x25 0x42 true false 5, .sto 0x44 0x21 true false 4, .sto 0x42 0x44 true false 4,
    .sto 0x42 0x21 true false 5, .stow 0x44 0x21 true false 4, .stow 0x42 0x44 true false 4,
    .stow 0x42 0x21 true false 5, .aadd true 0x25 0x44 0x21 true false 4, .aadd true 0x25 0x42 0x44 true false 4,
    .aadd true 0x25 0x42 0x21 true false 5, .aand true 0x25 0x44 0x21 true false 4, .aand true 0x25 0x42 0x44 true false 4,
    .aand true 0x25 0x42 0x21 true false 5, .aor true 0x25 0x44 0x21 true false 4, .aor true 0x25 0x42 0x44 true false 4,
    .aor true 0x25 0x42 0x21 true false 5, .axor true 0x25 0x44 0x21 true false 4, .axor true 0x25 0x42 0x44 true false 4,
    .axor true 0x25 0x42 0x21 true false 5, .amin true 0x25 0x44 0x21 true false 4, .amin true 0x25 0x42 0x44 true false 4,
    .amin true 0x25 0x42 0x21 true false 5] : List Instr).all (fun i => !WellFormed i) = true := by decide

theorem test_ill_formed_3 : ([
    .amax true 0x25 0x44 0x21 true false 4, .amax true 0x25 0x42 0x44 true false 4, .amax true 0x25 0x42 0x21 true false 5,
    .aswap true 0x25 0x44 0x21 true false 4, .aswap true 0x25 0x42 0x44 true false 4, .aswap true 0x25 0x42 0x21 true false 5,
    .acas true 0x25 0x44 0x21 true false 4, .acas true 0x25 0x42 0x44 true false 4, .acas true 0x25 0x42 0x21 true false 5,
    .fence true 5, .fwait 0x29 0x44 true 0x5a3, .bwait 0x44 0x8d,
    .mwait 0x44 0x21 2, .mwait 0x42 0x44 2, .ref 0x44,
    .drop 0x44, .get true 0x15 0x44, .getc true 0x15 0x44,
    .put 0x44 0x21, .put 0x42 0x44, .puti 0x44 0x21,
    .puti 0x42 0x44, .hawait 0x44 0x21, .hawait 0x42 0x44,
    .harel 0x44 0x21, .harel 0x42 0x44, .enq 0x44 0x21 3,
    .enq 0x42 0x44 3, .lbeg 0x44 0x21, .lbeg 0x42 0x44,
    .vld 0xfb 1 true 9 false true, .vldb 0xfb 1 true 9 false true, .vldg 0xfb 9 0xe5 false true,
    .vldg 0xfd 9 0xfb false true, .vst 1 true 9 0xfb false true, .vsts 0xfb 9 0xe5 false true,
    .vsts 0xfd 9 0xfb false true, .vadd 0xf9 0xae 0xe5 false true, .vsub 0xf9 0xae 0xe5 false true,
    .vmul 0xf9 0xae 0xe5 false true] : List Instr).all (fun i => !WellFormed i) = true := by decide

theorem test_ill_formed_4 : ([
    .vmulh 0xf9 0xae 0xe5 false true, .vand 0xf9 0xae 0xe5 false true, .vor 0xf9 0xae 0xe5 false true,
    .vxor 0xf9 0xae 0xe5 false true, .vshl 0xf9 0xae 0xe5 false true, .vshr 0xf9 0xae 0xe5 false true,
    .vsar 0xf9 0xae 0xe5 false true, .vmin 0xf9 0xae 0xe5 false true, .vmax 0xf9 0xae 0xe5 false true,
    .vminu 0xf9 0xae 0xe5 false true, .vmaxu 0xf9 0xae 0xe5 false true, .vadds 0xf9 0xae 0xe5 false true,
    .vsubs 0xf9 0xae 0xe5 false true, .vfadd 0xf9 0xae 0xe5 false true, .vfsub 0xf9 0xae 0xe5 false true,
    .vfmul 0xf9 0xae 0xe5 false true, .vfma 0xf9 0xae 0xe5 false true, .vfmin 0xf9 0xae 0xe5 false true,
    .vfmax 0xf9 0xae 0xe5 false true, .vcmpeq 0xf9 0xae 0xe5 false true, .vcmplt 0xf9 0xae 0xe5 false true,
    .vcmple 0xf9 0xae 0xe5 false true, .vfcmpeq 0xf9 0xae 0xe5 false true, .vfcmplt 0xf9 0xae 0xe5 false true,
    .vfcmple 0xf9 0xae 0xe5 false true, .vsel 0xf9 0xae 0xe5 false true, .vfneg 0xf9 0xae false true,
    .vfabs 0xf9 0xae false true, .vexp2 0xf9 0xae false true, .vrcp 0xf9 0xae false true,
    .vrsqrt 0xf9 0xae false true, .vcvt 0xf9 0xae false true, .vmov 0xf9 0xae false true,
    .vrsum true 0xf9 0xae false true, .vrmax true 0xf9 0xae false true, .vrfsum true 0xf9 0xae false true,
    .vrfmax true 0xf9 0xae false true, .vperm 0xf9 0xae 9 false true, .vquant 0xf9 0xae 0xe5 false true,
    .vquant 0xf8 0xae 0xfb false true] : List Instr).all (fun i => !WellFormed i) = true := by decide

theorem test_ill_formed_5 : ([
    .swr 0x42 3, .swr 0x42 0x21, .swr 0x42 0x200,
    .srd true 0x25 5, .srd true 0x25 0x22, .srd true 0x25 0x80,
    .srd true 0x25 0x200, .fraise 0x29 0, .tokPush 0xb 1,
    .tokPush 0xb 7, .tokPop 1, .tokPop 7,
    .enq 0x42 0x21 1, .enq 0x42 0x21 7, .qdep 0,
    .qdep 0x101, .vld 0xfd 2 true 9 false true, .vldb 0xfd 2 true 9 false true,
    .vst 2 true 9 0xe5 false true, .mlatch true 9 true 0x13, .mloop 6 2 0x2a3c5b,
    .mop 2 true true true 1, .mop 1 true true true 2, .mdrain 0xc0 9 1,
    .mwin 2, .goMx 0x29 0x4d true true 0x29 7 1, .goMx 0x29 0x4d true true 0x29 5 1,
    .goMx 0x29 0x4d true true 0x29 2 7, .goMx 0x29 0x4d true true 0x29 2 5, .goMx 0x29 0 true true 0x29 2 1,
    .goMx 0x29 0x4d true false 0x29 2 1, .goTr 0x29 0x4d true true 0x29 7 5, .goTr 0x29 0x4d true true 0x29 6 5,
    .goTr 0x29 0x4d true true 0x29 3 7, .goTr 0x29 0x4d true true 0x29 3 6, .goTr 0x29 0 true true 0x29 3 5,
    .goTr 0x29 0x4d true false 0x29 3 5, .tshape 0x1a35 0, .tcopy true false true true 0x29,
    .tcopy true true false false 1] : List Instr).all (fun i => !WellFormed i) = true := by decide

theorem test_ill_formed_6 : ([
    .tcopy true true true false 0, .tenq true 0x29 0x40, .vad 1 0 0x1000000 0 false false,
    .vsad 1 0 0x1000000 0 false false, .vchain 0 0x1000000 [0] false false, .vchain 0 0 [] false false,
    .vchain 0 0 (List.replicate 9 0) false false, .vchain 0 0 [0xD0000000] false false, .vchain 0 0 [0x01E00000] false false,
    .vchain 0 0 [0x001E0000] false false, .vchain 0 0 [0x3001E000] false false, .vchain 0 0 [0x60020000] false false,
    .vchain 0 0 [0x00002000] false false, .vchain 0 0 [0x00000001] false false] : List Instr).all (fun i => !WellFormed i) = true := by decide

/-! ## Words that are no instruction (R161) -/

/-- The reason and the field a decoder gives. -/
def refusal (r : Except Illegal Instr) : Option (Nat × Nat) :=
  match r with
  | .error e => some (e.reason, e.field)
  | .ok _ => none

-- The all-zero word; source 68 in `a`; `b` of clz; `a` of bra; `nw` on a store; a VL word in VA; GO with `sub` and `thr` 0, and with
-- `rf` but not `re`.
theorem test_illegal_words : refusal (decodeSq 0) = some (1, 0) ∧ refusal (decodeSq (0x04000000 + 68 * 2 ^ 12)) = some (4, 3) ∧
    refusal (decodeSq 0x072C2035) = some (3, 4) ∧ refusal (decodeSq 0x343018A3) = some (3, 3) ∧ refusal (decodeSq 0x6F2C28A3) = some (4, 1) ∧
    refusal (decodeVec .va 0x0BF4E401 []) = some (5, 0) ∧ refusal (decodeVec .va 0 []) = some (1, 0) ∧
    refusal (decodeMx 0xF8002000) = some (2, 5) ∧ refusal (decodeMx 0xF8000040) = some (2, 5) ∧ refusal (decodeMx 0) = some (1, 0) ∧
    refusal (decodeTr 0) = some (1, 0) := by decide

/-! ## The small state of the tests

Die 0, core 0, slot 0, with the context 0 whose one page maps the first GiB of addresses onto die 0. -/

/-- Translation tables at 0x100000 and 0x120000: one 1 GiB writable page at home on die 0 (R358). -/
def mem0 : Map Byte := [(0x100000, 0x01), (0x100002, 0x12), (0x120000, 0x07)]
def h0 : Here := ⟨0, 0, 0⟩
def vf0 : VFn := { VFn.reset with en := true, qmask := 1, winLimit := 0x40000000, ptRoot := 0x100000 }
def regs0 : PlyRegs := { PlyRegs.reset with
  g := [(1, 0x8000000000000000), (2, 0x200000), (3, 0xFFFFFFFFFFFFFFFF), (4, 5)], y0 := some 9, slip := 256 }
def sq0 : RingQ := { RingQ.reset with base := 0x10000, wr := 64 }
def ply0 : Ply := { Ply.reset with
  phase := .running, unit := 7, vcount := 32, regs := regs0, sq := sq0,
  vl := { RingQ.reset with base := 0x12000 }, va := { RingQ.reset with base := 0x13000 }, vs := { RingQ.reset with base := 0x14000 },
  mxq := { RingQ.reset with base := 0x15000 }, trq := { RingQ.reset with base := 0x16000 } }
def unit0 : WUnit := { (default : WUnit) with launch := 3, level := 6, fut := 11, gen := 2, phase := .bound }
def fut0 : Future := { Future.reset with state := 0, gen := 2, reach := 1 }
def die0 (p : Ply) : Die := { Die.reset with
  mem := mem0, member := true, cores := [(0, { Core.reset with running := some 0 })],
  plies := [(0, p)], units := [(7, unit0)], futs := [(11, fut0)] }
/-- The state whose turn is SQ of core 0 and whose die 0 is `x`. -/
def onDie (x : Die) : State := { State.reset with turn := .sq 0 0, dies := [(0, x)], vfs := [(0, vf0)] }
def s0 : State := onDie (die0 ply0)
/-- The same with changed registers. -/
def sR (r : PlyRegs) : State := onDie (die0 { ply0 with regs := r })
/-- A state whose context 0 has the one page of `mem0` and whose die 0 registers no buffer and binds the ply of slot 0 only. -/
structure OnePage (s : State) : Prop where
  root : (s.vf 0).ptRoot.toNat = 0x100000
  low : (s.vf 0).winBase.toNat = 0
  high : (s.vf 0).winLimit.toNat = 0x40000000
  table : pte (s.die 0).mem 0x100000 0 = 0x120001
  leaf : pte (s.die 0).mem 0x120000 0 = 7
  member : (s.die 0).member = true ∧ (s.die 0).part = (s.vf 0).part
  bufs : (s.die 0).bufs = []
  plies : (s.die 0).plies.map Prod.fst = [0]
  work : s.workBase = 0x7FDC0000

/-- Nothing of die 0 is registered there but one page, whose walk finds the same address. -/
theorem translate_page {s : State} (root : (s.vf 0).ptRoot.toNat = 0x100000) (low : (s.vf 0).winBase.toNat = 0)
    (high : (s.vf 0).winLimit.toNat = 0x40000000) (table : pte (s.die 0).mem 0x100000 0 = 0x120001)
    (leaf : pte (s.die 0).mem 0x120000 0 = 7) (member : (s.die 0).member = true) (part : (s.die 0).part = (s.vf 0).part)
    (m : Mode) (va : Nat) (h : va < 2 ^ 30) : s.xlate 0 0 m va = .page ⟨0, 0, va, true, false, 1⟩ := by
  have hp : va % 2 ^ 55 = va := Nat.mod_eq_of_lt (by omega)
  have hw : walk (s.die 0).mem 0x100000 va = .page ⟨0, 0, va, true, false, 1⟩ := by
    have h1 : bits va 39 16 = 0 := by unfold bits; rw [Nat.div_eq_of_lt (by omega), Nat.zero_mod]
    have h2 : bits va 30 9 = 0 := by unfold bits; rw [Nat.div_eq_of_lt (by omega), Nat.zero_mod]
    unfold walk
    simp only [h1, h2, table, show bits 0x120001 17 39 * 2 ^ 17 = 0x120000 by decide, leaf]
    simp [leafAt, bits, bitB]
    omega
  have hc : ¬(2 ^ 56 ≤ va ∨ va % 2 ^ 55 < (s.vf 0).winBase.toNat ∨ (s.vf 0).winLimit.toNat ≤ va % 2 ^ 55) := by
    rw [low, high, hp]; omega
  refine (if_neg hc).trans ?_
  rw [hp]
  simp [State.translate, root, hw, member, part]

/-- Its bytes stand where they are, for an accessor for which no ring lies there. -/
theorem placed_bare {s : State} (bufs : (s.die 0).bufs = []) (work : s.workBase = 0x7FDC0000) (own : Option Nat)
    (m : Mode) (sn : Snap) (va : Nat) (h : va < 2 ^ 30) (hr : s.ringAt 0 own va = false)
    (hs : sn = none ∨ sn = some [] := by first | exact .inl rfl | exact .inr rfl) :
    s.placed 0 own m sn va (.page ⟨0, 0, va, true, false, 1⟩) = .here (.mem va) := by
  have hp : va % 2 ^ 55 = va := Nat.mod_eq_of_lt (by omega)
  have hb : bitB va 55 = false := by unfold bitB; rw [Nat.div_eq_of_lt (by omega)]; rfl
  have : ¬Config.storeBytes ≤ va ∧ ¬Config.futBase ≤ va ∧ ¬s.workBase ≤ va := by
    rw [work]; refine ⟨?_, ?_, ?_⟩ <;> simp [Config.storeBytes, Config.futBase] <;> omega
  have hn : (s.die 0).bufAt (if m = .load then sn else none) (va % 2 ^ 55) = none := by
    rcases hs with rfl | rfl <;> cases m <;> simp [Die.bufAt, bufs, findBuf]
  simp only [State.placed, Die.place, hn]
  simp [hb, guardPa, hr, this.1, this.2.1, this.2.2]

theorem xlate_page {s : State} (q : OnePage s) (m : Mode) (va : Nat) (h : va < 2 ^ 30) :
    s.xlate 0 0 m va = .page ⟨0, 0, va, true, false, 1⟩ :=
  translate_page q.root q.low q.high q.table q.leaf q.member.1 q.member.2 m va h

theorem placed_page {s : State} (q : OnePage s) (m : Mode) (sn : Snap) (va : Nat) (h : va < 2 ^ 30)
    (hs : sn = none ∨ sn = some [] := by first | exact .inl rfl | exact .inr rfl) :
    s.placed 0 (some 0) m sn va (.page ⟨0, 0, va, true, false, 1⟩) = .here (.mem va) := by
  refine placed_bare q.bufs q.work _ m sn va h ?_ hs
  obtain ⟨e, he, hk⟩ := List.map_eq_singleton_iff.mp q.plies
  simp [State.ringAt, he, hk]

/-- There, an address below 2^30 names the same byte of die 0's store. -/
theorem locate_page {s : State} (q : OnePage s) (m : Mode) (sn : Snap) (va : Nat) (h : va < 2 ^ 30)
    (hs : sn = none ∨ sn = some [] := by first | exact .inl rfl | exact .inr rfl) :
    s.locate 0 (some 0) 0 m sn va = (.here (.mem va), false) := by
  simp only [State.locate, xlate_page q m va h, placed_page q m sn va h hs, Xlat.ht, Loc.far]

/-- A row of `n` bytes there stands at its own addresses. -/
theorem rowAt_page {s : State} (q : OnePage s) (v : (s.ply h0).vf = 0) (m : Mode) (sn : Snap) (a n : Nat) (h : a + n ≤ 2 ^ 30)
    (hs : sn = none ∨ sn = some [] := by first | exact .inl rfl | exact .inr rfl) :
    RowAt s h0 m sn (a : Int) n (fun j => a + j) := by
  have hx : s.xlateRow h0 m a n = (List.range n).map (fun j => (a + j, .page ⟨0, 0, a + j, true, false, 1⟩)) := by
    refine List.map_congr_left fun j hj => ?_
    have hj := List.mem_range.mp hj
    rw [if_neg (by omega), v, show ((a : Int) + (j : Int)).toNat = a + j by omega, show h0.d = 0 from rfl, xlate_page q m _ (by omega),
      show uNat ((a : Int) + (j : Int)) 56 = a + j by simp [uNat]; omega]
  refine ⟨by simp [State.htRow, hx, Xlat.ht], ?_⟩
  rw [State.locateRow, hx, State.placeRow, List.map_map, List.map_map]
  refine List.map_congr_left fun j hj => ?_
  have hj := List.mem_range.mp hj
  simp only [Function.comp_apply, show h0.d = 0 from rfl, show h0.key = 0 from rfl, placed_page q m sn _ (by omega : a + j < 2 ^ 30) hs, Loc.near]

theorem onePage0 : OnePage s0 := ⟨by decide, by decide, by decide, by decide, by decide, by decide, by decide, by decide, by decide⟩

/-- An entry of `n` words. -/
def entry (n : Nat) : Entry := { (default : Entry) with words := n, shape := ⟨0, 1, 7⟩, fmt := VFmt.reset }
/-- The turn is a ring of the ply, whose entry holds `ws`, with `p` around it. -/
def onRingOf (r : Ring) (base : Nat) (ws : List Nat) (p : Ply) : State :=
  let q := p.ring r
  { onDie { die0 (p.setRing r { q with base := BitVec.ofNat 56 base, entries := [entry ws.length], wr := BitVec.ofNat 21 (4 * ws.length) }) with
      mem := putLE mem0 base (4 * ws.length) (leNat (ws.flatMap (leBytes 4))) } with turn := .ring 0 0 0 r }
/-- A command in progress with `ws` to do. -/
def run0 (ws : List W32) : CmdRun := { (default : CmdRun) with todo := ws, entry := entry 2 }
def sMx (ws : List W32) : State :=
  onRingOf .mx 0x15000 [0x50000000, 0xF8000000] { ply0 with mx := { MxState.reset with cmd := some (run0 ws) } }
def sTr (ws : List W32) : State :=
  onRingOf .tr 0x16000 [0x58000001, 0xF8000000] { ply0 with tr := { TrState.reset with cmd := some (run0 ws) } }


/-- An MX command of mzero m0 and GO, not yet started. -/
def sMxGo : State := onRingOf .mx 0x15000 [0x50000000, 0xF8000000] ply0

/-- A TR command of tsinv.all and GO, not yet started. -/
def sTrGo : State := onRingOf .tr 0x16000 [0x58000001, 0xF8000000] ply0

/-- A launch record of one unit, by its fields (R306). -/
def launchVal : Nat := 0x4C59 + 2 ^ 16 + 2 ^ 32 + 8 * 2 ^ 48 + 2 ^ 64 + 2 ^ 96 + 0x10000 * 2 ^ 128 + 4 * 2 ^ 192 + 0x40000 * 2 ^ 256
def launch0 : Launch := { (default : Launch) with lr := launchOf 0x200000 launchVal, level := 5, resv := 1 }

/-- A chunk of one index at `route`. -/
def chunk0 (route : List W32) : Chunk := { (default : Chunk) with span := 1, body := [(0, 0x3F800000)], route := route }
def sChunks (cs : List Chunk) (qs : List Tcoll) (dead : List (Nat × Nat × Nat)) : State :=
  { onDie { die0 ply0 with tcolls := qs, deadSeqs := dead } with chunks := cs }
def tcoll0 : Tcoll := { (default : Tcoll) with unit := 7, output := 0x200000, nchunks := 1 }

/-- One chunk under way. -/
def sChunks0 : State := sChunks [chunk0 [0, 3]] [tcoll0] []

def sSpawn : State := onDie { die0 { ply0 with holdset := [(31, 0x2000C)] } with
  mem := mem0 ++ [(0x200000, 0x59), (0x200001, 0x4C), (0x200002, 1), (0x200004, 1), (0x200006, 8), (0x200008, 1), (0x20000C, 1),
    (0x200012, 1), (0x200018, 4), (0x200022, 4)],
  launches := [(3, launch0)], levels := [(5, { Level.reset with used := true, parent := 0xFFFF })] }

/-! ## Values

The expected numbers are the spec's own examples (R138, R147, R239, R242, R394) or are worked out by hand from the rule
named. -/

/-- The next state, where there is one. -/
def after (s : State) (i : Instr) : State :=
  match exec i s with
  | .next t => t
  | _ => s

/-- GPR `k` after an instruction of SQ on a state. -/
def gAfter (s : State) (k : Nat) (i : Instr) : Option Word :=
  match exec i s with
  | .next t => some (mget 0 (t.regs h0).g k)
  | _ => none

/-- AFLAGS after an instruction of SQ on a state. -/
def flagsAfter (s : State) (i : Instr) : Option W32 :=
  match exec i s with
  | .next t => some (t.regs h0).aflags
  | _ => none

-- R166: modulo 2^64, products' high halves, shift amounts modulo 64.  g1 is -2^63, g3 is -1, g4 is 5.
theorem test_alu_values : gAfter s0 9 (.add false 9 3 4) = some 4 ∧ gAfter s0 9 (.sub false 9 4 3) = some 6 ∧
    gAfter s0 9 (.andn false 9 3 4) = some 0xFFFFFFFFFFFFFFFA ∧ gAfter s0 9 (.mul false 9 3 4) = some 0xFFFFFFFFFFFFFFFB ∧
    gAfter s0 9 (.mulh false 9 3 4) = some 0xFFFFFFFFFFFFFFFF ∧ gAfter s0 9 (.mulhu false 9 3 4) = some 4 ∧
    gAfter s0 9 (.shl false 9 4 3) = some 0x8000000000000000 ∧ gAfter s0 9 (.shr false 9 1 3) = some 1 ∧
    gAfter s0 9 (.sar false 9 1 4) = some 0xFC00000000000000 ∧ gAfter s0 9 (.rol false 9 1 4) = some 0x10 := by decide

-- R167: division by zero, and the one quotient that does not fit.
theorem test_division : gAfter s0 9 (.div false 9 4 0) = some 0xFFFFFFFFFFFFFFFF ∧ gAfter s0 9 (.rem false 9 4 0) = some 5 ∧
    gAfter s0 9 (.divu false 9 4 0) = some 0xFFFFFFFFFFFFFFFF ∧ gAfter s0 9 (.remu false 9 4 0) = some 5 ∧
    gAfter s0 9 (.div false 9 1 3) = some 0x8000000000000000 ∧ gAfter s0 9 (.rem false 9 1 3) = some 0 ∧
    gAfter s0 9 (.divu false 9 3 4) = some 0x3333333333333333 ∧ flagsAfter s0 (.div false 9 4 0) = some 0 := by decide

-- R166, R168: minima, counts and saturation, which sets `clamp`.
theorem test_saturation : gAfter s0 9 (.adds false 9 1 3) = some 0x8000000000000000 ∧ flagsAfter s0 (.adds false 9 1 3) = some 32 ∧
    gAfter s0 9 (.subs false 9 4 1) = some 0x7FFFFFFFFFFFFFFF ∧ flagsAfter s0 (.adds false 9 4 3) = some 0 ∧
    gAfter s0 9 (.min false 9 1 4) = some 0x8000000000000000 ∧ gAfter s0 9 (.minu false 9 1 4) = some 5 ∧
    gAfter s0 9 (.max false 9 3 4) = some 5 ∧ gAfter s0 9 (.maxu false 9 3 4) = some 0xFFFFFFFFFFFFFFFF ∧
    gAfter s0 9 (.clz false 9 4) = some 61 ∧ gAfter s0 9 (.ctz false 9 1) = some 63 ∧ gAfter s0 9 (.popc false 9 4) = some 2 ∧
    gAfter s0 9 (.clz false 9 0) = some 64 ∧ gAfter s0 9 (.ctz false 9 0) = some 64 := by decide

-- R169: signed and unsigned comparisons differ at -1.
theorem test_compares : gAfter s0 9 (.slt false 9 3 4) = some 1 ∧ gAfter s0 9 (.sltu false 9 3 4) = some 0 ∧
    gAfter s0 9 (.sge false 9 3 4) = some 0 ∧ gAfter s0 9 (.sgeu false 9 3 4) = some 1 ∧ gAfter s0 9 (.seq false 9 4 4) = some 1 ∧
    gAfter s0 9 (.sne false 9 4 4) = some 0 := by decide

/-- The latches after an instruction, with g6 = 3 and g7 = 4 (R147). -/
def latchesAfter (ys : List (Option Word)) (i : Instr) : List (Option Word) :=
  let r := { PlyRegs.reset with g := [(6, 3), (7, 4)], y0 := ys.getD 0 none, y1 := ys.getD 1 none, y2 := ys.getD 2 none }
  let t := (after (sR r) i).regs h0
  [t.y0, t.y1, t.y2, t.y3]

-- The latch example: add, shli, add.nw, and the switch of fwait.
theorem test_latches : latchesAfter [] (.add false 5 6 7) = [some 7, none, none, none] ∧
    latchesAfter [some 7] (.shli false 8 64 2) = [some 28, some 7, none, none] ∧
    latchesAfter [some 28, some 7] (.add true 0 64 65) = [some 35, some 28, some 7, none] ∧
    latchesAfter [some 35, some 28, some 7] (.fwait 2 0 false 0) = [none, none, none, none] := by decide

/-- The status word of SQ's halt after an instruction, if it halted (R161). -/
def haltAfter (s : State) (i : Instr) : Option (Option W32) :=
  match exec i s with
  | .next t => some ((mfind (t.ply h0).halts 0).map Halt.status)
  | _ => none

-- The latch example's last line reads y1, invalid: class 0x12, reason 1, field 3 (R147, R161).
theorem test_lost_latch : haltAfter s0 (.add false 9 65 0) = some (some 0x1213) ∧ haltAfter s0 (.add false 9 0 65) = some (some 0x1214) ∧
    haltAfter s0 (.add false 9 64 0) = some none := by decide

-- R175: little-endian bytes, zero and sign extended.  0x100002 holds 0x12 and 0x100000 holds 1 in `mem0`.
theorem test_loads : gAfter (sR { regs0 with g := [(2, 0x100000)] }) 9 (.ldw false 9 2 0) = some 0x120001 ∧
    gAfter (sR { regs0 with g := [(2, 0x100000)] }) 9 (.ldb false 9 2 2) = some 0x12 ∧
    gAfter (after s0 (.sb 3 2 0)) 9 (.ldbs false 9 2 0) = some 0xFFFFFFFFFFFFFFFF ∧
    gAfter (after s0 (.sb 3 2 0)) 9 (.ldhs false 9 2 0) = some 0xFF := by decide +kernel

-- R181: the lock attempt of chapter 9 finds 0 and takes the lock; a second attempt reads 1.
theorem test_lock : let s := after (sR { regs0 with g := [(4, 0x200000), (5, 1)] }) (.acas false 0 4 5 true false 3)
    (s.regs h0).y0 = some 0 ∧ getByte (s.die 0).mem 0x200000 = 1 ∧
    ((after s (.acas false 0 4 5 true false 3)).regs h0).y0 = some 1 := by decide +kernel

-- R138: the quantiser's example into E2M1; 0x40A00000, 0x3FA00000, 0xBF333333 and 0x40266666 are its four values in FP32.
-- -0.7 lies below the smallest normal of E2M1 and is inexact, so `unf` stands beside `inx` (R134).
theorem test_quantiser : quantBlock 0x00A01128 ([0x40A00000, 0x3FA00000, 0xBF333333, 0x40266666].map fp32.decode ++ List.replicate 28 (.zero false)) =
    (0x7F, [6, 2, 9, 5] ++ List.replicate 28 0, 24) := by decide +kernel

/-- A VA entry of one row of 32 FP32 elements, `v` being v1. -/
def sVaIn (f : VFmt) (v : VReg) : State :=
  let x := die0 { ply0 with va := { ply0.va with entries := [{ entry 1 with shape := ⟨0, 3, 31⟩, fmt := f }], wr := 4 } }
  { onDie { x with cores := [(0, { Core.reset with running := some 0, vregs := [(1, v), (2, [(0, 0xFF), (1, 0x7F)])] })] } with turn := .ring 0 0 0 .va }
/-- Byte `i` of register `v` after a VA instruction. -/
def vByte (s : State) (v i : Nat) (j : Instr) : Option Byte :=
  match exec j s with
  | .next t => some (getByte (t.rdV h0 v) i)
  | _ => none

/-- The four values of the example as bytes. -/
def quantIn : VReg := pasteRange [] 0 (([0x40A00000, 0x3FA00000, 0xBF333333, 0x40266666].flatMap (leBytes 4)).zipIdx.map (fun e => (e.2, e.1)))

-- R242: the codes in v20 with element 0 in the low nibble, the scale in v21.
theorem test_vquant : let s := sVaIn ⟨3, 0x00A01128, 0, 8⟩ quantIn
    vByte s 20 0 (.vquant 20 1 21 false false) = some 0x26 ∧ vByte s 20 1 (.vquant 20 1 21 false false) = some 0x59 ∧
    vByte s 21 0 (.vquant 20 1 21 false false) = some 0x7F := by decide +kernel

-- R218: integers wrap, and the saturating forms clamp (0x7FFFFFFF + 1 and 0x80000000 - 1 at element 0).
theorem test_vector_integers : let s := sVaIn .reset [(0, 0xFF), (1, 0xFF), (2, 0xFF), (3, 0x7F)]
    vByte s 9 3 (.vadd 9 1 1 false false) = some 0xFF ∧ vByte s 9 0 (.vadd 9 1 1 false false) = some 0xFE ∧
    vByte s 9 3 (.vadds 9 1 1 false false) = some 0x7F ∧ vByte s 9 0 (.vadds 9 1 1 false false) = some 0xFF ∧
    vByte s 9 4 (.vadd 9 1 1 false false) = some 0 := by decide +kernel

-- R219: 5.0 + 5.0 = 10.0, code 0x41200000; -0.7 + -0.7 keeps its fraction, code 0xBFB33333.
theorem test_vector_floats : let s := sVaIn .reset quantIn
    vByte s 9 3 (.vfadd 9 1 1 false false) = some 0x41 ∧ vByte s 9 2 (.vfadd 9 1 1 false false) = some 0x20 ∧
    vByte s 9 11 (.vfadd 9 1 1 false false) = some 0xBF ∧ vByte s 9 10 (.vfadd 9 1 1 false false) = some 0xB3 := by decide +kernel

-- R131, R134: a tie to the even mantissa, overflow to infinity, underflow to zero.
theorem test_rounding : roundNE (.ofDy ⟨2 ^ 24 + 1, 0⟩) fp32 = (0x4B800000, 16) ∧ roundNE (.ofDy ⟨2 ^ 24 + 3, 0⟩) fp32 = (0x4B800002, 16) ∧
    roundNE (.ofDy ⟨1, 128⟩) fp32 = (0x7F800000, 20) ∧ roundNE (.ofDy ⟨1, -150⟩) fp32 = (0, 24) ∧
    roundNE (.ofDy ⟨-3, -150⟩) fp32 = (0x80000002, 24) := by decide +kernel

-- The power example: a cap of 450 W on a die that draws 550 W (R394).
theorem test_wfrac : wfracNext 0 550 450 550 = 1 ∧ wfracNext 1 525 450 550 = 2 ∧ wfracNext 2 500 450 550 = 3 ∧
    wfracNext 3 475 450 550 = 4 ∧ wfracNext 4 450 450 550 = 4 ∧ wfracNext 4 439 450 550 = 4 ∧ wfracNext 4 438 450 550 = 3 ∧
    Block.allot 12 = 550 := by decide

/-! ## Witnesses: the words of SQ -/

theorem witness_sq_sources : s0.sqHere = some h0 ∧ SrcIs (s0.regs h0) 1 0x8000000000000000 ∧ SrcIs (s0.regs h0) 3 (-1) ∧
    SrcIs (s0.regs h0) 64 9 ∧ SrcIs (s0.regs h0) 0 0 := by decide

theorem witness_clz : (s0.sqHere = some h0 ∧ SrcIs (s0.regs h0) 0 0 ∧ 64 ≤ 64 ∧ ∀ i < 64, (0 : Word).getLsbD (63 - i) = false) ∧
    (SrcIs (s0.regs h0) 1 0x8000000000000000 ∧ (0x8000000000000000 : Word).getLsbD (63 - 0) = true) ∧
    (SrcIs (s0.regs h0) 4 5 ∧ (∀ i < 61, (5 : Word).getLsbD (63 - i) = false) ∧ (5 : Word).getLsbD (63 - 61) = true) := by decide

theorem witness_branch : s0.sqHere = some h0 ∧ SrcIs (s0.regs h0) 0 0 ∧
    (((s0.ply h0).pco : Int) + 4 * (15 : BitVec 12).toInt = 60 ∧ (60 : Int) < (s0.ply h0).codeLen) ∧
    ¬(((s0.ply h0).pco : Int) + 4 * (16 : BitVec 12).toInt < (s0.ply h0).codeLen) := by decide

theorem witness_jalr : SrcIs (s0.regs h0) 4 5 ∧ ((5 : Word).toNat + 4 * (0 : BitVec 12).toInt) % 4 ≠ 0 ∧
    SrcIs (s0.regs h0) 0 0 ∧ ((0 : Word).toNat : Int) + 4 * (-1 : BitVec 12).toInt < 0 := by decide

theorem witness_off_the_end : let s := onDie (die0 { ply0 with sq := { sq0 with rd := 64 } })
    s.sqHere = some h0 ∧ (s.ply h0).codeLen ≤ (s.ply h0).pco := by decide

theorem witness_local : SrcIs (s0.regs h0) 2 0x200000 ∧
    (∀ m ∈ [Mode.load, .store, .atomic], Local s0 h0 m ((0x200000 : Word) + (-8 : BitVec 12).signExtend 64).toNat 8 (0x1FFFF8 + ·)) := by
  decide

theorem witness_ordered : (0x200000 : Word).toNat % 8 = 0 ∧ Local s0 h0 .load (0x200000 : Word).toNat 8 (0x200000 + ·) ∧
    (s0.ply h0).sqBusy = none ∧ ((s0.closeFrames 0).flushEgress 0 7).unitQuiet 0 7 = true ∧
    (let s := { s0 with posted := [⟨0, 7, 0, 0, 0x1000, [5]⟩] }
     s.sqHere = some h0 ∧ (s.ply h0).sqBusy = none ∧ ((s.closeFrames 0).flushEgress 0 7).unitQuiet 0 7 = false) ∧
    ∀ e ∈ [(true, [(⟨0, 7, 0, 0, 0x1000, [5]⟩ : Posted)]), (false, [])], let p := { ply0 with sqBusy := some { SqBusy.none_ with gate := true } }
      let s := { onDie (die0 p) with posted := e.2 }
      s.sqHere = some h0 ∧ (s.ply h0).sqBusy ≠ none ∧ s.unitQuiet 0 7 = !e.1 := by decide

theorem witness_srd : s0.sqHere = some h0 ∧ h0.d < 64 ∧ h0.c < 32 ∧ h0.k < 8 ∧ SysReads s0 h0 1 0 ∧ SysReads s0 h0 0x20 0 :=
  ⟨by decide, by decide, by decide, by decide, .inr (.inl (by decide)), .inr (.inr (.inr (.inr (.inr (.inr (.inl (by decide)))))))⟩

theorem witness_swr_pace : (s0.die 0).whorl = none ∧ ((onDie { die0 ply0 with whorl := some default }).die 0).whorl = some default := by decide

theorem witness_fence : s0.sqHere = some h0 ∧ (s0.die 0).plyIdle (s0.ply h0) = true ∧
    (let s := onDie (die0 { ply0 with vl := { RingQ.reset with entries := [default] } })
     s.sqHere = some h0 ∧ (s.die 0).plyIdle (s.ply h0) = false) := by decide

theorem witness_unstopped : s0.sqHere = some h0 ∧ Unstopped s0 h0 :=
  ⟨by decide, ⟨by decide, by decide, by decide, by decide⟩⟩

theorem witness_waits : SrcIs (s0.regs h0) 3 (-1) ∧ 2 ^ 32 ≤ (-1 : Word).toNat + (0 : BitVec 11).toNat ∧ SrcIs (s0.regs h0) 0 0 ∧
    (0 : Word).toNat + (1 : BitVec 11).toNat < 2 ^ 32 ∧ SrcIs (s0.regs h0) 2 0x200000 ∧
    Local s0 h0 .load (0x200000 : Word).toNat 8 (0x200000 + ·) := by decide

/-- A copy of a hank with tag 0x200000 that matches under a mask of ones. -/
def slack0 : WhorlDie := { (default : WhorlDie) with slack := [⟨4, 0, 0x200000, 0, 1, 0⟩] }

theorem witness_hank : let s := onDie { die0 ply0 with whorl := some slack0, holds := [⟨7, 4, 0, false⟩] }
    s.sqHere = some h0 ∧ SrcIs (s.regs h0) 2 0x200000 ∧ SrcIs (s.regs h0) 3 (-1) ∧ (s.die 0).youngest 0x200000 (-1) = some ⟨4, 0, 0x200000, 0, 1, 0⟩ ∧
    (s.die 0).holdCount (s.ply h0).unit < 16 ∧ (s.die 0).oldestHeld (s.ply h0).unit 0x200000 (-1) = some ⟨4, 0, 0x200000, 0, 1, 0⟩ ∧
    (s0.die 0).youngest 5 (-1) = none ∧ (s0.die 0).oldestHeld 7 5 (-1) = none := by decide

theorem witness_tokens : s0.sqHere = some h0 ∧ (s0.ply h0).halts = [] ∧
    (s0.ply h0).tok 0 5 + ((15 : BitVec 4).toNat + 1 - (s0.ply h0).tokDone) ≤ 16 ∧ (s0.ply h0).tok 5 0 = 0 ∧
    (let p := { ply0 with toks := [(5, 1), (30, 1)] }
     16 < p.tok 0 5 + ((15 : BitVec 4).toNat + 1 - p.tokDone) ∧ p.tok 0 5 ≤ 16 ∧ p.tok 5 0 ≠ 0) := by decide

theorem witness_barrier : ((s0.die 0).bar 255).participants = 0 ∧
    (let s := onDie { die0 ply0 with bars := [(255, ⟨65535, 1, 0⟩)] }
     s.sqHere = some h0 ∧ ((s.die 0).bar 255).participants ≠ 0) := by decide

theorem witness_loop : let s := sR { regs0 with loop := ⟨2, 1, 4, 60, true, false⟩ }
    s.sqHere = some h0 ∧ (s.regs h0).loop.active = true ∧ ¬((s.regs h0).loop.done + 1 < (s.regs h0).loop.trip ∧ (s.regs h0).loop.stop = false) ∧
    (let t := sR { regs0 with loop := ⟨2, 0, 4, 60, true, false⟩ }
     (t.regs h0).loop.done + 1 < (t.regs h0).loop.trip ∧ (t.regs h0).loop.stop = false) ∧
    (s0.regs h0).loop.active = false ∧ 2 ^ 32 ≤ (-1 : Word).toNat ∧ (0 : Word).toNat < 2 ^ 32 ∧
    ((s0.ply h0).pco : Int) + 4 * (5 : Word).toInt < (s0.ply h0).codeLen ∧ ((s0.ply h0).pco : Int) + 4 * (-1 : Word).toInt < 0 := by
  decide

/-- A ply at a nop whose static copy schedule has the two entries of two words cached at 0x200000; `room` says whether TR can take one. -/
def sSched (stage : Nat) (room : Bool) : State :=
  onDie { die0 { ply0 with regs := { regs0 with stage := BitVec.ofNat 16 stage }, schedPtr := 0x200000, trq := { ply0.trq with
      wr := if room then 0 else 0x100000 } } with
    mem := putLE mem0 0x10000 4 0xAC000000
    sched := [(0x200000, [0x10003, 0x58000001, 0xF8000000])], units := [(7, { unit0 with lr := { launchOf 0x200000 launchVal with schedN := 2 } })] }

theorem witness_schedule : (sSched 0 true).schedCount h0 = 2 ∧ ((sSched 0 true).ply h0).schedAt < 2 ∧
    ((sSched 0 true).die 0).sched.find? (fun e => e.1 == ((sSched 0 true).ply h0).schedPtr) =
      some (((sSched 0 true).ply h0).schedPtr, 0x10003 :: [0x58000001, 0xF8000000]) ∧
    (((sSched 0 true).ply h0).regs.stage - (0x10003 : W32).setWidth 16).toNat ≥ 32768 ∧
    (((sSched 3 true).ply h0).regs.stage - (0x10003 : W32).setWidth 16).toNat < 32768 ∧
    ((sSched 3 true).ply h0).trq.room (((0x10003 : W32).extractLsb' 16 5).toNat + 1) = true ∧
    ((sSched 3 false).ply h0).trq.room (((0x10003 : W32).extractLsb' 16 5).toNat + 1) = false := by decide

theorem witness_schedule_step : (sSched 0 true).turn = .sq 0 0 ∧ (((sSched 0 true).die 0).core 0).running = some 0 ∧ (sSched 0 true).powered = true ∧
    (sSched 0 true).dieOn 0 = true ∧ ((sSched 0 true).ply h0).sqBusy = none ∧ ((sSched 0 true).ply h0).sqEnd = false ∧
    ((sSched 0 true).ply h0).held = false ∧
    (sSched 0 true).releaseSched h0 2 2 = .go (sSched 0 true) ∧ ((sSched 0 true).ply h0).pco < ((sSched 0 true).ply h0).codeLen ∧
    Local (sSched 0 true) h0 .load 0x10000 4 (0x10000 + ·) ∧ valueAt ((sSched 0 true).die 0) (0x10000 + ·) 4 = 0xAC000000 ∧
    (decodeSq 0xAC000000).toOption = some .nop := by
  refine ⟨by decide, by decide, by decide, by decide, by decide, by decide, by decide, rfl, by decide, ?_, by decide, by decide⟩
  decide

/-- A ply that holds the handle of entry 11 in slot 3, with `e` as that entry. -/
def sH (e : Future) : State :=
  onDie { die0 { ply0 with regs := { regs0 with g := [(5, 0x2000B)] }, holdset := [(3, 0x2000B)] } with futs := [(11, e)] }

theorem witness_held : (sH fut0).sqHere = some h0 ∧ SrcIs ((sH fut0).regs h0) 5 0x2000B ∧ Held (sH fut0) h0 0x2000B 11 3 ∧
    ((sH fut0).die 0 |>.fut 11).reach ≠ 0xFFFFFF ∧ freeSlot ((sH fut0).ply h0).holdset = some 0 ∧
    ((sH { fut0 with reach := 0xFFFFFF }).die 0 |>.fut 11).reach = 0xFFFFFF ∧ Held (sH { fut0 with reach := 0xFFFFFF }) h0 0x2000B 11 3 :=
  ⟨by decide, by decide, ⟨by decide, by decide, by decide, by decide⟩, by decide, by decide, by decide,
    ⟨by decide, by decide, by decide, by decide⟩⟩

theorem witness_hold_set_full :
    let s := onDie { die0 { ply0 with regs := { regs0 with g := [(5, 0x2000B)] }, holdset := (List.range 32).map (fun i => (i, 0x2000B)) } with
      futs := [(11, fut0)] }
    freeSlot (s.ply h0).holdset = none ∧ slotOf (s.ply h0).holdset 0x2000B = some 0 := by decide

theorem witness_own_handle : let s := sR { regs0 with g := [(5, 0x2000B)] }
    s.sqHere = some h0 ∧ SrcIs (s.regs h0) 5 0x2000B ∧ (s.die 0).unit? (s.ply h0).unit = some unit0 ∧ unit0.fut < 2 ^ 16 ∧
    (0x2000B : Word) = handle 0 unit0.gen (BitVec.ofNat 16 unit0.fut) := by decide

theorem witness_not_held : Unstopped s0 h0 ∧ s0.sqHere = some h0 ∧ SrcIs (s0.regs h0) 4 5 ∧ s0.holds h0 5 = false :=
  ⟨⟨by decide, by decide, by decide, by decide⟩, by decide⟩

theorem witness_reads : Unstopped (sH { fut0 with state := 1 }) h0 ∧ Held (sH { fut0 with state := 1 }) h0 0x2000B 11 3 ∧
    Unstopped (sH fut0) h0 :=
  ⟨⟨by decide, by decide, by decide, by decide⟩, ⟨by decide, by decide, by decide, by decide⟩, ⟨by decide, by decide, by decide, by decide⟩⟩

theorem witness_fills : s0.sqHere = some h0 ∧ (s0.die 0).unit? (s0.ply h0).unit = some unit0 ∧ ((s0.die 0).fut unit0.fut).state = 0 ∧
    unit0.filled = false ∧
    ((s0.die 0).fut unit0.fut).doomed = false ∧ SrcIs (s0.regs h0) 1 0x8000000000000000 ∧ 2 ^ 56 ≤ (0x8000000000000000 : Word).toNat ∧
    SrcIs (s0.regs h0) 0 0 ∧ (5 : Word).toNat < 2 ^ 32 ∧ 2 ^ 32 ≤ (-1 : Word).toNat := by decide

theorem witness_doomed : let s := sH { fut0 with doomed := true }
    s.sqHere = some h0 ∧ (s.die 0).unit? (s.ply h0).unit = some unit0 ∧ ((s.die 0).fut unit0.fut).doomed = true ∧
    ((s.die 0).fut unit0.fut).pinned = false ∧ unit0.cancelled = false := by decide

theorem witness_cancel : let s := onDie { die0 ply0 with levels := [(5, { Level.reset with used := true, status := 2, parent := 0xFFFF }),
      (6, { Level.reset with used := true, parent := 5 })] }
    s.sqHere = some h0 ∧ SrcIs (s.regs h0) 4 5 ∧ s.sameJob h0 5 = true ∧ ((s.die 0).level 5).status ≠ 0 ∧
    s.sameJob h0 6 = true ∧ ((s.die 0).level 6).status = 0 ∧ s.sameJob h0 7 = false := by decide

theorem witness_flip : let b : Buf := ⟨0x300000, 2, 0, true, false, true, 0x400, 0x500, 0x600, []⟩
    let s := onDie { die0 ply0 with bufs := [(0, b), (1, { b with discarded := true }), (2, { b with written := false })] }
    s.sqHere = some h0 ∧ ((s.die 0).buf 0).written = true ∧ ((s.die 0).buf 1).discarded = true ∧ ((s.die 0).buf 2).written = false ∧
    ((s.die 0).buf 1023).valid = false := by decide

/-! ## Witnesses: the frame, work, the step, decoding -/

theorem witness_frame : scalarDst (.adds false 5 1 1) = some (some 5) ∧ scalarDst (.trap 1) = some none ∧ s0.sqHere = some h0 ∧
    (∃ t, exec (.adds false 5 1 1) s0 = .next t) ∧ (∃ t, exec (.trap 1) s0 = .next t) :=
  ⟨by decide, by decide, by decide, ⟨_, rfl⟩, ⟨_, rfl⟩⟩

theorem witness_spawn_local : Local sSpawn h0 .load (0x200000 : Word).toNat 256 (0x200000 + ·) := fun i hi => by
  have h : (0x200000 : Word).toNat + i < 2 ^ 30 := by simp; omega
  rw [Nat.mod_eq_of_lt (by omega)]
  exact locate_page ⟨by decide, by decide, by decide, by decide, by decide, by decide, by decide, by decide, by decide⟩ .load none _ h

theorem witness_spawn : sSpawn.sqHere = some h0 ∧ SrcIs (sSpawn.regs h0) 2 0x200000 ∧ h0.d < 64 ∧
    (launchOf 0x200000 launchVal).keyed = false ∧ (0x80000000 : Word).toNat < 2 ^ 32 ∧ maskSlots 0x80000000 = [31] ∧
    mfind (sSpawn.ply h0).holdset 31 ≠ none ∧ (sSpawn.die 0).unit? (sSpawn.ply h0).unit = some unit0 ∧
    (sSpawn.die 0).launch? unit0.launch = some launch0 ∧ (sSpawn.die 0).underCancel launch0.level 5 = false ∧
    (sSpawn.die 0).freeAreaOf launch0.vf (launchOf 0x200000 launchVal) = some 0 ∧ ((sSpawn.die 0).level 0).used = false ∧
    ((sSpawn.die 0).fut 0).state = 3 ∧ launch0.resv ≠ 0 ∧ freeSlot (dropSlots (sSpawn.ply h0).holdset [31]) = some 0 := by decide +kernel

theorem witness_spawn_record : parseLaunch 0x200000 ((List.range 256).map (fun i => getByte (sSpawn.die 0).mem (0x200000 + i))) =
    some (launchOf 0x200000 launchVal) := by decide +kernel

/-- The same with the mask of slot 31 in g6, and the launch's record as given. -/
def sSpawnBy (l : Level) : State :=
  (sSpawn.mapRegs h0 (fun r => { r with g := r.g ++ [(6, 0x80000000)] })).mapDie 0 (fun x => { x with levels := [(5, l)] })

theorem onePageSpawn (l : Level) : OnePage (sSpawnBy l) :=
  have hm : ((sSpawnBy l).die 0).mem = (sSpawn.die 0).mem := rfl
  ⟨by rfl, by rfl, by rfl, by rw [hm]; decide +kernel, by rw [hm]; decide +kernel, ⟨rfl, rfl⟩, by rfl, by rfl, by rfl⟩

theorem witness_spawns (l : Level) : ∃ bs, Spawns (sSpawnBy l) h0 2 6 0x200000 0x80000000 bs unit0 launch0 ∧
    parseLaunch 0x200000 bs = some (launchOf 0x200000 launchVal) :=
  ⟨_, ⟨by rfl, .inl ⟨by decide, by rfl⟩, .inl ⟨by decide, by rfl⟩, by decide, ⟨_, fun i hi => by
    have h : (0x200000 : Word).toNat + i < 2 ^ 30 := by simp; omega
    rw [Nat.mod_eq_of_lt (by omega)]
    exact locate_page (onePageSpawn l) .load none _ h, rfl⟩, by rfl, by rfl⟩, witness_spawn_record⟩

theorem witness_spawn_checks : spawnRefused sSpawn h0 launch0 (launchOf 0x200000 launchVal) 0x80000000 = none ∧
    spawnRefused sSpawn h0 launch0 { launchOf 0x200000 launchVal with keyed := true } 0x80000000 = some (0x12, 7, 3) := by
  have all_ : ∀ (f : Nat → Bool) n, 0 < n → f 0 = false → ¬(List.range n).all f = true := fun f n hn h0 h => by
    have := List.all_eq_true.mp h 0 (List.mem_range.mpr hn)
    rw [h0] at this; exact nomatch this
  refine ⟨?_, rfl⟩
  rw [spawnRefused, if_neg (by decide +kernel), if_neg (by decide +kernel), if_neg (by decide +kernel), if_neg (by decide +kernel),
    if_neg (all_ _ _ (by decide) (by decide +kernel)), if_neg ?_, if_neg (by decide +kernel)]
  exact fun h => h.elim (by decide +kernel) (all_ _ _ (by decide) (by decide +kernel))

theorem witness_spawn_cancelled : ∀ e ∈ [(0, false), (2, true)],
    ((sSpawnBy { Level.reset with used := true, status := BitVec.ofNat 3 e.1, parent := 0xFFFF }).die 0).underCancel launch0.level 5 = e.2 := by
  decide +kernel

/-- A vnop word at 0x200000, its address and count in registers. -/
def sEnq : State :=
  onDie { die0 { ply0 with regs := { regs0 with g := [(1, 1), (2, 0x200000)] } } with mem := putLE mem0 0x200000 4 0xF0000000 }

theorem witness_enq : SrcIs (s0.regs h0) 2 0x200000 ∧ (0x200000 : Word).toNat % 4 = 0 ∧ SrcIs (s0.regs h0) 4 5 ∧ (5 : Word).toNat % 4 ≠ 0 ∧
    SrcIs (s0.regs h0) 3 (-1) ∧ 65535 < (-1 : Word).toNat ∧ (s0.regs h0).enqDone = 0 := by decide

theorem witness_enq_word : sEnq.sqHere = some h0 ∧ SrcIs (sEnq.regs h0) 1 1 ∧ ringOfCode 3 = some .va ∧ ringIsVec .va = true ∧
    Local sEnq h0 .load 0x200000 4 (0x200000 + ·) ∧ valueAt (sEnq.die 0) (0x200000 + ·) 4 = 0xF0000000 ∧ vecLits 0xF0000000 = 0 ∧
    ((sEnq.ply h0).ring .va).room 1 = true := by decide

/-- An mzero command and a zero word at 0x200000. -/
def sEnqMx : State :=
  onDie { die0 { ply0 with regs := { regs0 with g := [(1, 2), (2, 0x200000)] } } with mem := putLE mem0 0x200000 8 0xF800000050000000 }

theorem witness_enq_entries : EntriesAt sEnq h0 .va true 0x200000 [[0xF0000000]] ∧
    EntriesAt sEnqMx h0 .mx true 0x200000 [[0x50000000, 0xF8000000], [0]] ∧ EntriesAt sEnqMx h0 .mx false 0x200000 [[0x50000000, 0xF8000000]] := by
  have at1 : ∀ (s : State) a w, Local s h0 .load a 4 (a + ·) ∧ valueAt (s.die 0) (a + ·) 4 = w → WordsAt s h0 a [w] := fun s a w h i v hv => by
    match i with
    | 0 => cases hv; exact ⟨_, h.1, h.2⟩
  have at2 : WordsAt sEnqMx h0 0x200000 [0x50000000, 0xF8000000] := fun i v hv => by
    match i with
    | 0 => cases hv; exact ⟨(0x200000 + ·), by decide, by decide⟩
    | 1 => cases hv; exact ⟨(0x200004 + ·), by decide, by decide⟩
  have go : WholeEntry .mx [0x50000000, 0xF8000000] := .inr ⟨by decide, by decide, by decide, .inl ⟨by decide, by decide⟩⟩
  refine ⟨⟨⟨0xF0000000, [], rfl, by decide⟩, at1 _ _ _ ⟨by decide, by decide⟩, fun _ => by decide, trivial⟩,
    ⟨go, at2, fun _ => by decide, .inl rfl, at1 _ _ _ ⟨?_, ?_⟩, fun _ => by decide, trivial⟩, ⟨go, at2, nofun, trivial⟩⟩ <;> decide

theorem witness_enq_full : (let q := { ply0.va with wr := 0x100000 }; q.room 1 = false) ∧ (sEnq.ply h0).halts = [] := by decide

/-- Whatever is written over the ring's next word, its bytes stand there. -/
theorem witness_append (mem : Map Byte) (hm : ∀ a, (∀ k < 4, 0x13000 + k ≠ a) → getByte mem a = getByte (s0.die h0.d).mem a) :
    Local (s0.mapDie h0.d (fun x => { x with mem := mem })) h0 .store (((s0.ply h0).ring .va).wrAddr (4 * 0)) 4 (fun j => 0x13000 + j) := fun i hi => by
  have hg : ∀ q, 0x100000 ≤ q → getByte mem q = getByte (s0.die h0.d).mem q := fun q hq => hm q fun k hk => by omega
  have hq : OnePage (s0.mapDie h0.d (fun x => { x with mem := mem })) := by
    refine ⟨by rfl, by rfl, by rfl, ?_, ?_, ⟨by rfl, by rfl⟩, by rfl, by rfl, by rfl⟩ <;>
      simp only [pte, getLE, getBytes, show ((s0.mapDie h0.d (fun x => { x with mem := mem })).die 0).mem = mem from rfl] <;>
      simp only [Nat.mul_zero, Nat.add_zero, Nat.reduceAdd] <;> repeat rw [hg _ (by omega)]
    all_goals decide
  rw [show ((s0.ply h0).ring .va).wrAddr (4 * 0) = 0x13000 by decide, Nat.mod_eq_of_lt (by omega)]
  exact locate_page hq .store none _ (by omega)

/-- SQ at a nop word in its ring. -/
def sNop : State := onDie { die0 ply0 with mem := putLE mem0 0x10000 4 0xAC000000 }

theorem witness_step_sq : sNop.turn = .sq 0 0 ∧ (sNop.ply h0).held = false ∧ ((sNop.die 0).core 0).running = some 0 ∧
    sNop.powered = true ∧ sNop.dieOn 0 = true ∧ (sNop.ply h0).sqBusy = none ∧ (sNop.ply h0).sqEnd = false ∧ sNop.schedCount h0 ≤ (sNop.ply h0).schedAt ∧ (sNop.ply h0).pco < (sNop.ply h0).codeLen ∧
    Local sNop h0 .load 0x10000 4 (0x10000 + ·) ∧ valueAt (sNop.die 0) (0x10000 + ·) 4 = 0xAC000000 ∧
    (decodeSq 0xAC000000).toOption = some .nop := by decide

/-- vnop in VA. -/
def sVa : State := onRingOf .va 0x13000 [0xF0000000] ply0

theorem witness_step_vector : (sVa.ply h0).begun .va = false ∧
    (let p := { ply0.mapRing .va (fun q => { q with issued := [0xB8080000, 0, 0, 0] }) with chain := some default }
     p.begun .va = true ∧ (p.ring .va).issued = [0xB8080000, 0, 0, 0]) ∧ sVa.turn = .ring 0 0 0 .va ∧ sVa.engineSlot 0 0 .va = some 0 ∧
    (let s := { sVa with turn := .piece 0 0 0 .va }; s.engineSlot 0 0 .va = some 0) ∧ (sVa.ply h0).ringGoes .va = true ∧ ((sVa.ply h0).ring .va).done = none ∧
    (sVa.ply h0).slipOk ((sVa.ply h0).headE .va) = true ∧ ((sVa.ply h0).ring .va).entries ≠ [] ∧ ((sVa.ply h0).headE .va).words = 1 ∧
    Local sVa h0 .load (((sVa.ply h0).ring .va).addr 0) 4 (0x13000 + ·) ∧ valueAt (sVa.die 0) (0x13000 + ·) 4 = 0xF0000000 ∧
    (decode .va 0xF0000000 []).toOption = some (.vnop false false) := by decide

theorem witness_step_command : sMxGo.turn = .ring 0 0 0 .mx ∧ sMxGo.engineSlot 0 0 .mx = some 0 ∧ sTrGo.engineSlot 0 0 .tr = some 0 ∧
    (sMx [0x50000000]).engineSlot 0 0 .mx = some 0 ∧ (sMxGo.ply h0).mustStop = false ∧ (sMxGo.ply h0).ringGoes .mx = true ∧
    (sMxGo.ply h0).mx.cmd = none ∧ (run0 [0x50000000]).stale = false ∧ ((sMx [0x50000000]).ply h0).mustStop = false ∧
    ((sMxGo.ply h0).headE .mx).words = 2 ∧ ((sMxGo.ply h0).headE .mx).bad = false ∧
    Local sMxGo h0 .load (((sMxGo.ply h0).ring .mx).addr 0) 4 (0x15000 + ·) ∧ valueAt (sMxGo.die 0) (0x15000 + ·) 4 = 0x50000000 ∧
    Local sMxGo h0 .load (((sMxGo.ply h0).ring .mx).addr 4) 4 (0x15004 + ·) ∧ valueAt (sMxGo.die 0) (0x15004 + ·) 4 = 0xF8000000 ∧
    isGo 0x50000000 = false ∧ (decode .mx 0x50000000 []).toOption = some (.mzero 0) ∧ isGo 0xF8000000 = true ∧
    (decode .mx 0xF8000000 []).toOption = some (.goMx 0 0 false false 0 0 0) ∧
    ((sMx [0x50000000]).ply h0).ringGoes .mx = true ∧ ((sMx [0x50000000]).ply h0).mx.cmd = some (run0 [0x50000000]) := by decide

theorem witness_step_event : let s := { s0 with turn := .event .powerLoss }
    s.turn = .event .powerLoss ∧ encode .powerLoss = [] ∧ s.admits .powerLoss = true := by decide

theorem witness_illegal : s0.sqHere = some h0 ∧ (s0.ply h0).pco < (s0.ply h0).codeLen ∧
    Local s0 h0 .load 0x10000 4 (0x10000 + ·) ∧ valueAt (s0.die 0) (0x10000 + ·) 4 = 0 ∧
    (match decodeSq 0 with | .error e => e.reason == 1 | .ok _ => false) = true ∧
    (let s := { s0 with vfs := [(0, { vf0 with ptRoot := 0x300000 })] }
     s.locate 0 (some h0.key) 0 .load none 0x10000 = (.fault 1 0, false)) := by decide

theorem witness_encode : WellFormed (.vad 1 2 3 4 true false) = true ∧ encode (.vad 1 2 3 4 true false) = 0x04040002 :: [2, 3, 4] := by
  decide

theorem witness_decoded : (0xAC000000 : Nat) < 2 ^ 32 ∧ (decodeSq 0xAC000000).toOption = some .nop ∧
    (decodeMx 0x60000000).toOption = some .mfence ∧ (decodeTr 0x58000001).toOption = some (.tsinv true) ∧
    (decodeVec .vl 0x04040002 [2, 3, 4]).toOption = some (.vad 1 2 3 4 true false) ∧ vecLits 0x04040002 = 3 := by decide

theorem witness_canonical : s0.memOk = true ∧ (∃ t, step s0 = .next t) := ⟨by decide, ⟨_, rfl⟩⟩

theorem witness_no_store : mayStore (.add false 9 4 4) = false ∧ mayStore (.ldd false 9 2 0) = false ∧ mayStore (.cmdDoorbell 0 1) = false ∧
    (∃ t, exec (.ldd false 9 2 0) s0 = .next t) ∧ getByte (s0.die 0).mem 0x100000 ≠ 0 :=
  ⟨rfl, rfl, rfl, ⟨_, rfl⟩, by decide⟩

/-! ## Witnesses: the vector rings -/

theorem fieldOk_plain {g : PlyRegs} {count tag : Nat} {v : BitVec 8} {reads : Bool} (h : ¬(248 ≤ v.toNat ∧ v.toNat ≤ 251))
    (hv : g.vnum v < count ∧ g.vnum v < 248) : FieldOk g count tag v reads := by
  unfold FieldOk; rw [if_neg h]; exact hv

/-- The turn is a vector ring of the ply, whose one entry has a shape and formats. -/
def onVecOf (r : Ring) (sh : Shape) (f : VFmt) (p : Ply) : State :=
  let q := p.ring r
  { onDie (die0 (p.setRing r { q with entries := [{ entry 1 with shape := sh, fmt := f }], wr := 4 })) with turn := .ring 0 0 0 r }
/-- 64 by 16 elements of FP32: 4,096 bytes, the largest tile. -/
def sFull : State := onVecOf .va .reset .reset ply0
/-- The same with a token from VL and w0 valid. -/
def sPop : State := onVecOf .va .reset .reset { ply0 with toks := [(8, 1)], regs := { regs0 with w0 := some ⟨[(0, 1)], 0⟩ } }

theorem witness_issues : Issues sFull h0 .va [(31, false), (0, true), (5, true)] false where
  here := by decide
  fresh := by decide
  fields := by simp only [List.forall_mem_cons]; exact ⟨fieldOk_plain (by decide) (by decide), fieldOk_plain (by decide) (by decide),
    fieldOk_plain (by decide) (by decide), fun _ h => nomatch h⟩
  fits := by decide
  token := nofun

theorem witness_issues_pop : Issues sPop h0 .va [(248, true), (0, true), (5, true)] true where
  here := by decide
  fresh := by decide
  fields := by simp only [List.forall_mem_cons]; exact ⟨fun _ => ⟨⟨[(0, 1)], 0⟩, by decide, by decide⟩, fieldOk_plain (by decide) (by decide),
    fieldOk_plain (by decide) (by decide), fun _ h => nomatch h⟩
  fits := by decide
  token := fun _ => .inr (by decide)

theorem witness_records : let e := (sFull.ply h0).headE .va
    RecOk e.fmt.src e.shape.bits ∧ RecOk e.fmt.dst e.shape.bits ∧ (fmtOf e.fmt.src).cls = 3 ∧ (fmtOf e.fmt.dst).cls = 3 ∧
    e.shape.elems * (fmtOf e.fmt.src).cbits ≤ 32768 := by decide

/-- An FP32 operand of exp2, of the reciprocal and of the reciprocal square root: 1. -/
theorem witness_specials : fp32.decode (0x3F800000 : W32).toNat = .fin ⟨2 ^ 23, -23⟩ ∧ (-149 : ℝ) ≤ ((2 ^ 23 : ℤ) : ℝ) * (2 : ℝ) ^ (-23 : ℤ) ∧
    ((2 ^ 23 : ℤ) : ℝ) * (2 : ℝ) ^ (-23 : ℤ) < 128 ∧ 0 < ((2 ^ 23 : ℤ) : ℝ) * (2 : ℝ) ^ (-23 : ℤ) ∧
    |(((2 ^ 23 : ℤ) : ℝ) * (2 : ℝ) ^ (-23 : ℤ))⁻¹| < 2 ^ 128 - 2 ^ 103 := by
  refine ⟨by decide +kernel, by norm_num, by norm_num, by norm_num, by norm_num⟩

theorem witness_issues_one : Issues sFull h0 .va [(31, false), (0, true)] false ∧ Issues sFull h0 .va [] false ∧
    Issues sFull h0 .va [(31, true)] false := by
  refine ⟨⟨by decide, by decide, ?_, by decide, nofun⟩, ⟨by decide, by decide, (fun _ h => nomatch h), by decide, nofun⟩, ⟨by decide, by decide, ?_, by decide, nofun⟩⟩ <;>
    simp only [List.forall_mem_cons]
  · exact ⟨fieldOk_plain (by decide) (by decide), fieldOk_plain (by decide) (by decide), fun _ h => nomatch h⟩
  · exact ⟨fieldOk_plain (by decide) (by decide), fun _ h => nomatch h⟩

theorem witness_vfwait : ((sFull.ply h0).ring .va).granted = false ∧ ((sFull.ply h0).ring .va).await = none ∧
    (0 : BitVec 8).toNat ≤ (sFull.ply h0).flag 63 ∧ (sFull.ply h0).flag 63 < (1 : BitVec 8).toNat ∧
    ((({ ply0 with va := { ply0.va with granted := true } } : Ply).ring .va).granted = true) := by decide

/-- An entry performed and due to push, with room or with none. -/
def sDone (n : Nat) : State :=
  onDie (die0 { ply0 with va := { ply0.va with entries := [entry 1], done := some (true, some 63) }, toks := [(15, n)] })

theorem witness_retire : ringIsVec .va = true ∧ ((sDone 15).ply h0).ringGoes .va = true ∧
    (((sDone 15).ply h0).ring .va).done = some (true, some 63) ∧ ((sDone 15).ply h0).tok Ring.va.code (ringPushTo .va) < 16 ∧
    ((sDone 16).ply h0).ringGoes .va = true ∧ 16 ≤ ((sDone 16).ply h0).tok Ring.va.code (ringPushTo .va) := by decide

/-- A row of 8 bytes in VL, its descriptor at 0x200000. -/
def sVl : State := onVecOf .vl ⟨1, 1, 7⟩ .reset { ply0 with regs := { regs0 with adl := [(15, ⟨0x200000, 16⟩)] } }
def sVs : State := onVecOf .vs ⟨1, 1, 7⟩ .reset { ply0 with regs := { regs0 with ads := [(15, ⟨0x200000, 16⟩)] } }

theorem witness_loads : Issues sVl h0 .vl [(31, false)] false ∧ Issues sVl h0 .vl [(31, false), (0, true)] false ∧
    (sVl.ply h0).vlIss = none ∧ (sVl.ply h0).vlRow = 0 ∧ sVl.inPieces = false ∧ ((sVl.ply h0).headE .vl).shape.bits ≠ 4 := by
  refine ⟨⟨by decide, by decide, ?_, by decide, nofun⟩, ⟨by decide, by decide, ?_, by decide, nofun⟩, by decide, by decide, by decide, by decide⟩ <;>
    simp only [List.forall_mem_cons]
  · exact ⟨fieldOk_plain (by decide) (by decide), fun _ h => nomatch h⟩
  · exact ⟨fieldOk_plain (by decide) (by decide), fieldOk_plain (by decide) (by decide), fun _ h => nomatch h⟩

theorem witness_load_rows : RowsAt sVl h0 .load (rowAt ⟨0x200000, 16⟩ true none 8) 8 2 (fun k => 0x200000 + 16 * (k / 8) + k % 8) ∧
    RowsAt sVl h0 .load (rowAt ⟨0x200000, 16⟩ false (some (sVl.rdRace h0 [(sVl.ply h0).vaOld] 0)) 8) 8 2 (fun k => 0x200000 + k % 8) ∧
    RowsAt sVl h0 .load (rowAt ⟨0x200000, 16⟩ false none 8) 8 1 (0x200000 + ·) := by
  unfold RowsAt RowAt; decide

theorem witness_stores : Issues sVs h0 .vs [(31, true)] false ∧ Issues sVs h0 .vs [(0, true), (31, true)] false ∧
    (sVs.ply h0).vsIss = none ∧ (sVs.ply h0).rowAt = 0 ∧ sVs.inPieces = false := by
  refine ⟨⟨by decide, by decide, ?_, by decide, nofun⟩, ⟨by decide, by decide, ?_, by decide, nofun⟩, by decide, by decide, by decide⟩ <;>
    simp only [List.forall_mem_cons]
  · exact ⟨fieldOk_plain (by decide) (by decide), fun _ h => nomatch h⟩
  · exact ⟨fieldOk_plain (by decide) (by decide), fieldOk_plain (by decide) (by decide), fun _ h => nomatch h⟩

/-- Rows of 8 bytes, 16 apart, for which no write to them moves a byte. -/
theorem rows_stand (at_ : Nat → Int) (pa : Nat → Nat) (f : Nat → Nat) (ha : ∀ i < 2, at_ i = (f i : Int) ∧ 0x200000 ≤ f i ∧ f i + 8 ≤ 2 ^ 30)
    (hp : ∀ i < 2, ∀ j < 8, pa (i * 8 + j) = f i + j) : RowsStand sVs h0 .store at_ 8 2 pa := by
  intro mem hm i hi
  have hlow : ∀ k < 2 * 8, 0x200000 ≤ pa k := fun k hk => by
    have := hp (k / 8) (by omega) (k % 8) (by omega)
    have h2 := (ha (k / 8) (by omega)).2.1
    rw [show k / 8 * 8 + k % 8 = k by omega] at this
    omega
  have hg : ∀ q < 0x200000, getByte mem q = getByte (sVs.die h0.d).mem q := fun q hq => hm q fun k hk => by have := hlow k hk; omega
  have hq : OnePage (sVs.mapDie h0.d (fun x => { x with mem := mem })) := by
    refine ⟨by rfl, by rfl, by rfl, ?_, ?_, ⟨by rfl, by rfl⟩, by rfl, by rfl, by rfl⟩ <;>
      simp only [pte, getLE, getBytes, show ((sVs.mapDie h0.d (fun x => { x with mem := mem })).die 0).mem = mem from rfl] <;>
      simp only [Nat.mul_zero, Nat.add_zero, Nat.reduceAdd] <;> repeat rw [hg _ (by omega)]
    all_goals decide
  have r := rowAt_page hq rfl .store none (f i) 8 (ha i hi).2.2
  rw [(ha i hi).1]
  exact ⟨r.1, r.2.trans (List.map_congr_left fun j hj => by
    simp only [hp i hi j (List.mem_range.mp hj)])⟩

theorem witness_store_rows :
    RowsStand sVs h0 .store (rowAt ⟨0x200000, 16⟩ true none 8) 8 2 (fun k => 0x200000 + 16 * (k / 8) + k % 8) ∧
    RowsStand sVs h0 .store (rowAt ⟨0x200000, 16⟩ false (some (sVs.vsRead h0 0)) 8) 8 2 (fun k => 0x200000 + k % 8) :=
  ⟨rows_stand _ _ (fun i => 0x200000 + 16 * i) (fun i hi => ⟨by simp [rowAt]; omega, by omega, by omega⟩) fun i hi j hj => by omega,
    rows_stand _ _ (fun _ => 0x200000) (by decide) fun i hi j hj => by omega⟩

/-- VA at a quantiser entry of one block into MX FP4 (R242's example). -/
def sQuant : State := onVecOf .va ⟨0, 3, 31⟩ ⟨3, 0x00A01128, 0, 8⟩ ply0

theorem witness_quant : let e := (sQuant.ply h0).headE .va
    e.shape.elems % 32 = 0 ∧ (sQuant.regs h0).vnum 21 ≠ (sQuant.regs h0).vnum 20 ∧ RecOk e.fmt.src e.shape.bits ∧ recordReason e.fmt.dst = none ∧
    e.shape.elems * (fmtOf e.fmt.dst).cbits ≤ 32768 ∧ (fmtOf e.fmt.dst).cls = 0 ∧ (fmtOf e.fmt.dst).scale = 1 := by decide

theorem witness_quant_issues : Issues sQuant h0 .va [(20, false), (1, true), (21, false)] false := by
  refine ⟨by decide, by decide, ?_, by decide, nofun⟩
  simp only [List.forall_mem_cons]
  exact ⟨fieldOk_plain (by decide) (by decide), fieldOk_plain (by decide) (by decide), fieldOk_plain (by decide) (by decide), fun _ h => nomatch h⟩

/-- VA at a chain: not begun; every element written; one element of s0 at 0x200000 and its output at 0x200100. -/
def chainDesc : Nat := 0x200000 + 0x200100 * 2 ^ 192 + 2 ^ 256
def sChain (c : Option ChainRun) : State := onVecOf .va .reset .reset { ply0 with chain := c }
def run1 (v b : Nat) : ChainRun := ⟨BitVec.ofNat 512 v, b, some [], 0⟩

theorem witness_chain_fetch : ((sChain none).ply h0).chain = none ∧ Local (sChain none) h0 .load 0x200000 64 (0x200000 + ·) :=
  ⟨by decide, fun i hi => by
    rw [Nat.mod_eq_of_lt (by omega)]
    exact locate_page ⟨by decide, by decide, by decide, by decide, by decide, by decide, by decide, by decide, by decide⟩ .load none _ (by omega)⟩

theorem witness_chain_zero : valueAt ((sChain none).die 0) (0x200000 + ·) 64 = 0 := by decide +kernel

theorem witness_chain_done : ((sChain (some (run1 chainDesc 1))).ply h0).chain = some (run1 chainDesc 1) ∧
    (run1 chainDesc 1).desc.toNat / 2 ^ 256 % 2 ^ 32 ≤ (run1 chainDesc 1).blocks * 1024 := by decide +kernel

theorem witness_chain_block : ((sChain (some (run1 chainDesc 0))).ply h0).chain = some (run1 chainDesc 0) ∧
    (run1 chainDesc 0).desc.toNat / 2 ^ 256 % 2 ^ 32 = 1 ∧ chainUses [0x61000000] 0 = true ∧ chainUses [0x61000000] 1 = false := by
  decide +kernel

theorem onePageChain : OnePage (sChain (some (run1 chainDesc 0))) :=
  ⟨by decide, by decide, by decide, by decide, by decide, by decide, by decide, by decide, by decide⟩

theorem witness_chain_rows : RowAt (sChain (some (run1 chainDesc 0))) h0 .load (some []) (0x200000 : Nat) 4 (fun j => 0x200000 + j) ∧
    RowAt (sChain (some (run1 chainDesc 0))) h0 .store none (0x200100 : Nat) 4 (fun j => 0x200100 + j) :=
  ⟨rowAt_page onePageChain rfl _ _ _ _ (by decide), rowAt_page onePageChain rfl _ _ _ _ (by decide)⟩

/-! ## Witnesses: the command rings -/

theorem witness_runs : Runs (sMx [0x60000000]) h0 .mx (run0 [0x60000000]) ∧ Runs (sTr [0x58000001]) h0 .tr (run0 [0x58000001]) ∧
    Runs (sMx []) h0 .mx (run0 []) := by
  refine ⟨⟨by decide, by decide⟩, ⟨by decide, by decide⟩, ⟨by decide, by decide⟩⟩

/-- The ply in an MX command whose step-3 checks found the one page, with lathe 0 as given. -/
def runMx : CmdRun := { run0 [0x60000000] with group := [0], entry := { entry 2 with ft := [(3, 3)] }, pages := [(0, .page ⟨0, 0, 0, true, false, 1⟩)] }
def sLathe (l : Lathe) : State :=
  let s := (sMx [0x60000000]).mapPly h0 (fun p => { p with mx := { p.mx with cmd := some runMx } })
  s.mapDie 0 (fun x => { x with lathes := [(0, l)] })
def slot0 : OpSlot := ⟨0, 0, 2, []⟩
def lathe0 : Lathe := { Lathe.reset with slots := [(0, slot0), (31, ⟨1, 0, 3, []⟩)], tiles := [(0, ⟨0, 0, true, false, []⟩)] }

/-- A command in flight that runs an mfill into slot 5. -/
def behind0 : MxState := { MxState.reset with cmd := some (run0 [0x18000005]), late := true }

theorem witness_slots : Runs (sLathe lathe0) h0 .mx runMx ∧
    (let l := ((sLathe lathe0).die 0).lathe h0.lathe
     mfind l.slots 1 = none ∧ mfind l.slots 0 = some slot0 ∧ slot0.core = h0.c ∧ slot0.slot = h0.k ∧ mfind l.slots 31 = some ⟨1, 0, 3, []⟩) ∧
    ((sLathe lathe0).die 0).slotOf h0 0 = some slot0 ∧ runMx.early = [] ∧ runMx.rows = [] ∧ ((sLathe lathe0).ply h0).mxBehind = [] ∧
    behind0.usesSlot 5 = true ∧ behind0.usesSlot 6 = false ∧
    behind0.before ((sLathe lathe0).ply h0).mx = true :=
  ⟨⟨by decide, by decide⟩, by decide, by decide, by decide, by decide, by decide, by decide, by decide, by decide⟩

theorem onePageLathe : OnePage (sLathe lathe0) := ⟨by decide, by decide, by decide, by decide, by decide, by decide, by decide, by decide, by decide⟩

/-- The first 512 bytes of that page, as the command accesses them. -/
theorem mxAt_page (m : Mode) (sn : Snap) (hs : sn = none ∨ sn = some [] := by first | exact .inl rfl | exact .inr rfl) :
    MxAt (sLathe lathe0) h0 runMx m sn 0 512 (fun j => j) := by
  rw [MxAt, State.mxRow, State.placeRow, List.map_map, List.map_map]
  refine List.map_congr_left fun j hj => ?_
  have hj := List.mem_range.mp hj
  have hx : runMx.xlate ((0 : Nat) + (j : Int)) = .page ⟨0, 0, j, true, false, 1⟩ := by
    have h0 : j % 2 ^ 55 / 131072 = 0 := by omega
    simp only [CmdRun.xlate, if_neg (by omega : ¬(((0 : Nat) : Int) + (j : Int) < 0 ∨ ((2 ^ 56 : Nat) : Int) ≤ ((0 : Nat) : Int) + (j : Int))),
      show (((0 : Nat) : Int) + (j : Int)).toNat = j by omega, h0, show mfind runMx.pages 0 = some (.page ⟨0, 0, 0, true, false, 1⟩) from rfl,
      Nat.mod_eq_of_lt (by omega : j < 131072), Nat.zero_add]
  simp only [Function.comp_apply, hx, show uNat (((0 : Nat) : Int) + (j : Int)) 56 = j by simp [uNat]; omega, show h0.d = 0 from rfl,
    show h0.key = 0 from rfl, placed_page onePageLathe m sn j (by omega) hs, Loc.near]

theorem witness_fill_row : ((sLathe lathe0).ply h0).mx.fillAddr.toNat + 512 * runMx.iter = 0 ∧
    MxAt (sLathe lathe0) h0 runMx .load runMx.snap 0 512 (fun j => j) := ⟨by decide, mxAt_page _ _⟩

theorem witness_drain_row : runMx.group = [0] ∧ (fmtOf (mget 0 runMx.entry.ft 3)).cbits = 32 ∧
    ((sLathe lathe0).ply h0).mx.drainAddr.toNat + runMx.iter * 512 = 0 ∧
    MxAt (sLathe lathe0) h0 runMx .engine none 0 512 (fun j => j) := ⟨by decide, by decide, by decide, mxAt_page _ _⟩

/-- In a mop whose A row lies in slot 0, coordinate 0 latched before. -/
def sPass : State :=
  (sLathe lathe0).mapPly h0 (fun p => { p with mx := { p.mx with aAddr := 2 ^ 55, cmd := some { run0 [0x48000000] with prev := some 0 } } })

theorem witness_pass : Runs sPass h0 .mx { run0 [0x48000000] with prev := some 0 } ∧
    (sPass.ply h0).mx.wSlot.toNat + (sPass.ply h0).mx.coord LoopLevel.sstr 0 = 0 ∧
    (∃ bs, sPass.aRow h0 { run0 [0x48000000] with prev := some 0 }
      ((sPass.ply h0).mx.aAddr.toNat + (sPass.ply h0).mx.coord LoopLevel.astr 0) 512 = (bs, sPass)) ∧
    (sPass.die 0).tileOf h0 0 0 ≠ none := by
  refine ⟨⟨by decide, by decide⟩, by decide,
    ⟨(List.range 512).map (fun i => slot0.byte ((2 ^ 55 : Int).toNat % 65536 + i)), ?_⟩, by decide⟩
  rw [show ((sPass.ply h0).mx.aAddr.toNat + (sPass.ply h0).mx.coord LoopLevel.astr 0 : Int) = 2 ^ 55 by decide, State.aRow,
    if_pos (by decide), show (sPass.die h0.d).slotOf h0 (bits (2 ^ 55 : Int).toNat 16 5) = some slot0 by decide]

theorem witness_pass_next : let c := { run0 [0x48000000] with next := some [(0, (default : Plane))] }
    c.prev ≠ some (0 : Int) ∧ (match c.next with
      | some p => Latched.ok p sPass
      | none => sPass.latch h0 c 0 0 [0] []) = Latched.ok [(0, default)] sPass := ⟨by decide, rfl⟩

theorem witness_latch : (sPass.ply h0).mx.wSlack = false ∧ (fmtOf (sPass.ply h0).mx.wRec).scale ≠ 1 ∧ ([0] : List Nat).Nodup ∧
    (sPass.die 0).slotOf h0 ((0 : Int) + ((0 : Nat) : Int)).toNat = some slot0 := by decide

theorem witness_go_mx : sMxGo.ringHere .mx = some h0 ∧ (sMxGo.ply h0).mx.cmd = none ∧ GoPasses (sMxGo.ply h0) .mx 0 0 0 ∧
    ringOfCode 1 = some .sq ∧ (sMxGo.ply h0).tok Ring.sq.code 4 = 0 ∧ ((sMxGo.ply h0).ring .mx).popped = false :=
  ⟨by decide, by decide, ⟨fun q h => by simp [ringOfCode] at h, .inl rfl⟩, by decide, by decide, by decide⟩

/-- mzero m0 starts; mfill into a slot the ply does not hold is ill-formed. -/
def sMxBad : State := onRingOf .mx 0x15000 [0x18000000, 0xF8000000] ply0

theorem witness_go_mx_starts : ∀ e ∈ [(sMxGo, true), (sMxBad, false)], let s := e.1
    let p := goPassed (s.ply h0) .mx 0 0 0 false
    let e1 := p.headE .mx
    let s1 := s.setPly h0 p
    let ws := (s1.entryWords h0 .mx).dropLast
    let m := p.mx.after e1 ws
    let s2 := s1.mapDie h0.d (fun x => ws.foldl (fun x w => match accNamed w with
      | none => x
      | some a => x.bindTile h0 h0.lathe a false) x)
    ((s1.die h0.d).namedTiles h0 ws).any ((s1.die h0.d).tileTaken h0) = false ∧ firstRec (mxRecs m e1 ws) = none ∧
    (s2.mxIll h0 m e1 ws = none ↔ e.2 = true) ∧ p.mxBehind = [] ∧ p.mayOverlap m ws = true ∧
    (e.2 = true → s2.mxFault h0 (s2.mxRanges h0 m e1 ws) = none ∧
      (s2.mxPages h0 (s2.mxRanges h0 m e1 ws)).any (fun e => e.2.ht) = false ∧ mfind p.halts 4 = none) := by decide

theorem witness_go_tr : sTrGo.ringHere .tr = some h0 ∧ (sTrGo.ply h0).tr.cmd = none ∧ GoPasses (sTrGo.ply h0) .tr 0 0 0 ∧
    (sTrGo.entryWords h0 .tr).dropLast = [0x58000001] ∧ (trOps [0x58000001]).any isTcoll = false ∧ (trOps [0x58000001]).length ≤ 1 ∧
    (trOps [0x58000001]).filterMap (fun i => sTrGo.trIll h0 ((sTrGo.ply h0).tr.after [0x58000001]) i 0) = [] ∧
    ((trOps [0x40000005]).filterMap (fun i => sTrGo.trIll h0 ((sTrGo.ply h0).tr.after [0x40000005]) i 0)).head? ≠ none ∧
    ((sTrGo.ply h0).headE .tr).bad = false ∧ ({ entry 2 with bad := true } : Entry).bad = true ∧ (sTrGo.die 0).collsOut (sTrGo.ply h0).unit < 4 :=
  ⟨by decide, by decide, ⟨fun q h => by simp [ringOfCode] at h, .inl rfl⟩, by decide, by decide, by decide, by decide, by decide, by decide,
    by decide, by decide⟩

/-- A TR command of tcoll and GO whose descriptor lies at `a`, beside `q`. -/
def sTrColl (a : BitVec 56) (q : List Tcoll) : State :=
  let s := onRingOf .tr 0x16000 [0x48000000, 0xF8000000] { ply0 with tr := { TrState.reset with saddr := a } }
  { s.mapDie 0 (fun x => { x with tcolls := q }) with vfs := [(0, { vf0 with winLimit := 0x80000000 })] }
/-- Its state once the GO word has passed. -/
def sTrColl1 (a : BitVec 56) : State := (sTrColl a []).setPly h0 (goPassed ((sTrColl a []).ply h0) .tr 0 0 0 false)

theorem witness_go_coll : (sTrColl 0x200000 []).ringHere .tr = some h0 ∧ ((sTrColl 0x200000 []).ply h0).tr.cmd = none ∧
    (trOps [0x48000000]).any isTcoll = true ∧ ((sTrColl1 0x200000).die 0).collsOut 7 < 4 ∧
    (((sTrColl1 0x200000).ply h0).tr.after [0x48000000]).saddr = 0x200000 ∧ ((sTrColl1 0x200000).die 0).sample = [] := by decide

theorem witness_go_coll_words : ((sTrColl1 0x200000).entryWords h0 .tr).dropLast = [0x48000000] ∧
    ((sTrColl1 0x40000000).entryWords h0 .tr).dropLast = [0x48000000] := ⟨by decide, by decide⟩

theorem witness_go_coll_fault : ∃ f, (sTrColl1 0x40000000).trFetch h0 (some []) 0x40000000 64 = .error f := ⟨_, rfl⟩

theorem witness_go_coll_fetch : ∃ e, (sTrColl1 0x200000).trFetch h0 (some []) 0x200000 64 = .ok e := ⟨_, rfl⟩

theorem witness_coll_waits : ((sTrColl 0 (List.replicate 4 tcoll0)).die 0).collsOut 7 = 4 := by decide

theorem witness_go_coll_plain : ∀ i < 64, (sTrColl1 0x200000).trHt h0 0 .load ((0x200000 + i : Nat) : Int) = false := by decide

theorem witness_complete : ((sMx []).ply h0).cmd .mx = some (run0 []) ∧ ((sMx []).ply h0).mxBehind = [] ∧ ((sMx []).ply h0).mx.late = false := by
  decide

theorem witness_complete_room : (run0 []).todo = [] ∧ ((sMx []).ply h0).ringGoes .mx = true ∧ ((sTr []).ply h0).ringGoes .tr = true ∧
    ((sTr []).ply h0).cmd .tr = some (run0 []) ∧ ringOfCode 1 = some .sq ∧ ((sMx []).ply h0).tok 4 0 < 16 ∧
    (let p := { ply0 with toks := [(24, 16)] }; 16 ≤ p.tok 4 0) := by decide

/-- In a copy of one row of `rb` bytes from 0x200000 to 0x210000, no chunk done; it counts at 0x400 and stamps at 0x500. -/
def sCopy (rb : Nat) : State :=
  (sTr [0x30000000]).mapPly h0 (fun p => { p with tr := { p.tr with
    saddr := 0x200000, daddr := 0x210000, rowbytes := BitVec.ofNat 14 rb, ctrAddr := 0x400, stampAddr := 0x500 } })

theorem onePageCopy (rb : Nat) : OnePage (sCopy rb) :=
  have h : OnePage (sTr [0x30000000]) :=
    ⟨by decide, by decide, by decide, by decide, by decide, by decide, by decide, by decide, by decide⟩
  ⟨h.root, h.low, h.high, h.table, h.leaf, h.member, h.bufs, rfl, h.work⟩

/-- A stream of TR within the page stands at its own addresses. -/
theorem stream_page {s : State} (q : OnePage s) (v : (s.ply h0).vf = 0) (m : Mode) (sn : Snap) (keep : Loc → Bool)
    (hk : ∀ a, keep (.here (.mem a)) = true) (at_ : Nat → Int) (n : Nat) (pa : Nat → Nat)
    (ha : ∀ j < n, at_ j = (pa j : Int) ∧ pa j < 2 ^ 30)
    (hs : sn = none ∨ sn = some [] := by first | exact .inl rfl | exact .inr rfl) : StreamAt s h0 m sn keep at_ n pa := fun j hj => by
  obtain ⟨hj, hl⟩ := ha j hj
  rw [hj, State.trByte, State.trHt, v, if_neg (by omega), Int.toNat_natCast, show h0.d = 0 from rfl, show h0.key = 0 from rfl,
    locate_page q m sn _ hl hs, xlate_page q m _ hl]
  simp [hk, Xlat.ht]

theorem copy_stream (rb : Nat) (hr : rb < 2 ^ 14) (j : Nat) (hj : j < rb) : ((sCopy rb).ply h0).tr.source j = ((0x200000 + j : Nat) : Int) ∧
    ((sCopy rb).ply h0).tr.dest j = ((0x210000 + j : Nat) : Int) := by
  have hb : ((sCopy rb).ply h0).tr.rowbytes.toNat = rb := by
    rw [show ((sCopy rb).ply h0).tr.rowbytes = BitVec.ofNat 14 rb from rfl, BitVec.toNat_ofNat, Nat.mod_eq_of_lt hr]
  simp only [TrState.source, TrState.dest, hb, Nat.div_eq_of_lt hj, Nat.mod_eq_of_lt hj,
    show ((sCopy rb).ply h0).tr.saddr.toNat = 0x200000 from rfl, show ((sCopy rb).ply h0).tr.daddr.toNat = 0x210000 from rfl]
  omega

/-- A first chunk of several, and a chunk that is the last. -/
theorem witness_copy : ∀ rb ∈ [5000, 1], ChunkHere (sCopy rb) h0 (run0 [0x30000000]) (fun j => 0x200000 + j) (fun j => 0x210000 + j) := by
  have hb : ∀ rb ∈ [5000, 1], ((sCopy rb).ply h0).tr.bytes = rb ∧ ((sCopy rb).ply h0).tr.doneChunks = 0 ∧ 0 < rb ∧ rb < 2 ^ 14 ∧
      (sCopy rb).copyDown h0 .local_ = false ∧ (sCopy rb).ringHere .tr = some h0 ∧ ((sCopy rb).die 0).collsOut 7 = 0 := by decide
  intro rb hr
  obtain ⟨h1, h2, h3, h4, h5, h6, h7⟩ := hb rb hr
  refine ⟨⟨h6, rfl⟩, h7, h5, by rw [h1, h2]; omega, ?_, ?_, fun i _ j _ h => by simpa using h⟩ <;>
    refine stream_page (onePageCopy rb) rfl _ _ _ (fun _ => rfl) _ _ _ fun j hj => ?_ <;> rw [h1, h2] at hj <;> rw [h2] <;>
    simp only [Nat.mul_zero, Nat.zero_add, Nat.sub_zero] at hj ⊢
  · exact ⟨(copy_stream rb h4 j (by omega)).1, by omega⟩
  · exact ⟨(copy_stream rb h4 j (by omega)).2, by omega⟩

theorem witness_copy_end : ((sCopy 1).ply h0).tr.bytes ≤ 4096 * ((sCopy 1).ply h0).tr.doneChunks + 4096 ∧
    4096 * ((sCopy 5000).ply h0).tr.doneChunks + 4096 < ((sCopy 5000).ply h0).tr.bytes ∧
    StreamAt (sCopy 1) h0 .stamp none Loc.isHere (fun j => (((((sCopy 1).ply h0).tr.ctrAddr.toNat + j : Nat)) : Int)) 8 (fun j => 0x400 + j) ∧
    StreamAt (sCopy 1) h0 .stamp none Loc.isHere (fun j => (((((sCopy 1).ply h0).tr.stampAddr.toNat + j : Nat)) : Int)) 8 (fun j => 0x500 + j) :=
  ⟨by decide, by decide, stream_page (onePageCopy 1) rfl _ _ _ (fun _ => rfl) _ _ _ fun j _ => ⟨rfl, by omega⟩,
    stream_page (onePageCopy 1) rfl _ _ _ (fun _ => rfl) _ _ _ fun j _ => ⟨rfl, by omega⟩⟩

theorem witness_transfer : (run0 [0x30000000]).iter = 0 ∧ ((sCopy 1).die 0).member = true ∧ ((sCopy 1).die 0).part = ((sCopy 1).vf 0).part ∧
    (∀ i < ((sCopy 1).ply h0).tr.rowbytes.toNat, (sCopy 1).trHt h0 0 .load ((((sCopy 1).ply h0).tr.saddr.toNat + i : Nat) : Int) = false ∧
      (sCopy 1).trHt h0 0 .store ((((sCopy 1).ply h0).tr.daddr.toNat + i : Nat) : Int) = false) ∧
    (∀ i < inputBytes (run0 []).desc.toNat, (sCopy 1).trHt h0 0 .load ((bits (run0 []).desc.toNat 0 56 + i : Nat) : Int) = false) ∧
    (∀ i < ((sCopy 1).ply h0).tr.bytes, (sCopy 1).trHt h0 0 .load (((sCopy 1).ply h0).tr.source i) = false) ∧
    (∃ bs t, (sCopy 1).trFetch h0 ((run0 []).map ((sCopy 1).die 0)) ((sCopy 1).ply h0).tr.saddr.toNat
      ((sCopy 1).ply h0).tr.rowbytes.toNat = .ok (bs, t)) ∧
    lowFault ((sCopy 1).message h0 ((run0 []).map ((sCopy 1).die 0)) ((sCopy 1).ply h0).tr) = none ∧
    ((sCopy 1).die 0).collsOut ((sCopy 1).ply h0).unit = 0 ∧
    ((sTr [0x30000000]).ply h0).tr.stampAddr = 0 ∧
    (∃ bs t, (sCopy 1).trFetch h0 ((run0 []).map ((sCopy 1).die 0)) (bits (run0 []).desc.toNat 0 56)
      (inputBytes (run0 []).desc.toNat) = .ok (bs, t)) ∧ ((sCopy 1).die 0).deadSeqs = [] :=
  ⟨by decide, by decide, by decide, by decide, by decide, by decide, ⟨_, _, rfl⟩, by decide, by decide, by decide, ⟨_, _, rfl⟩, by decide⟩

/-! ## Witnesses: the distributor and the collectives -/

theorem pick_some (s : State) (used : Nat → Bool) (n : Nat) (h : ∀ k, used k = false) : s.pick used n = some (Config.choice s.fresh % n) := by
  simp [State.pick, h]

/-- A launch of one unit of core 0, its code at 0x10000. -/
def unitQ (ph : UnitPhase) : WUnit :=
  { unit0 with phase := ph, lr := launchOf 0x200000 launchVal, launch := 3 }
def dieQ (x : Die) : Die := { x with
  launches := [(3, { launch0 with lr := launchOf 0x200000 launchVal, level := 5 })]
  levels := [(5, { Level.reset with used := true, level := 1, parent := 4 }), (6, { Level.reset with used := true, parent := 5 })] }
/-- A queued unit at the head of queue 63. -/
def sChoice : State := onDie { dieQ (die0 ply0) with units := [(7, unitQ .queued)], lqs := [(63, { Lqc.reset with enable := true, items := [.unit 7] })] }

theorem witness_choice : sChoice.dieOn 0 = true ∧ (sChoice.die 0).chosen.length < 4 ∧
    (let s1 := sChoice.mapDie 0 (fun x => { x with lqs := x.lqs.map (fun e => (e.1, e.2.refresh)) })
     (List.range 64).filter (s1.queueReady 0) = [63] ∧ (s1.die 0).headItem ((s1.die 0).lqc 63) = some (.unit 7)) := by decide +kernel

/-- The launch itself at the head of queue 0, its one unit not yet made. -/
def sLaunchQ : State := onDie { dieQ (die0 ply0) with lqs := [(0, { Lqc.reset with enable := true, items := [.launch 3] })], futs := [] }

theorem witness_choice_launch : (sLaunchQ.unitRoom 0 false).isSome = true ∧ (sLaunchQ.die 0).headItem ((sLaunchQ.die 0).lqc 0) = some (.launch 3) ∧
    (sLaunchQ.die 0).eligible { launch0 with lr := launchOf 0x200000 launchVal, level := 5 } = true := by
  refine ⟨?_, by decide +kernel, by decide +kernel⟩
  have h : sLaunchQ.freeFut 0 = some (Config.choice sLaunchQ.fresh % Config.futCount) := pick_some _ _ _ fun k => by
    simp [sLaunchQ, onDie, State.die, Die.fut, mget, mfind, Future.reset]
  have hl : (sLaunchQ.freeLevel 0).isSome = true := by
    unfold State.freeLevel State.pick
    simp only
    split
    · rw [show firstFrom (fun k => !((sLaunchQ.die 0).level k).used) 0 Config.levelCount = some 0 from rfl]; rfl
    · rfl
  obtain ⟨i, hi⟩ := Option.isSome_iff_exists.mp hl
  rw [State.unitRoom, if_neg (by decide +kernel), h, hi]; rfl

/-- The unit chosen, slot 0 of core 0 bound already. -/
def sBind : State := onDie { dieQ (die0 { ply0 with sq := { sq0 with base := 0x50000 } }) with units := [(7, unitQ .chosen)], chosen := [7] }

theorem witness_bind : (((sBind.die 0).fut (unitQ .chosen).fut).pinned = true ∨ (((sBind.die 0).fut (unitQ .chosen).fut).doomed = false ∧
      (sBind.die 0).underCancel (unitQ .chosen).level 5 = false)) ∧ sBind.dieOn 0 = true ∧ (sBind.die 0).chosen = [7] ∧ (sBind.die 0).unit? 7 = some (unitQ .chosen) ∧
    (unitQ .chosen).phase = .chosen ∧ (unitQ .chosen).saved = none ∧
    (sBind.die 0).areaUsed ((sBind.die 0).level 6).vf (unitQ .chosen).lr.addr (unitQ .chosen).k = false ∧
    (sBind.die 0).bindCore (unitQ .chosen) = some 0 ∧ (sBind.die 0).openSlot 0 = some 1 ∧ (sBind.die 0).openRun 0 8 = some 32 ∧
    (unitQ .chosen).lr.vregs = 8 ∧ (sBind.ctxRead 0 0 (unitQ .chosen).lr.code (unitQ .chosen).lr.codeLen).isSome = true := by decide +kernel

theorem witness_forward : let s := sChunks [chunk0 [0, 3]] [] []
    s.chunks[0]? = some (chunk0 [0, 3]) ∧ (chunk0 [0, 3]).deliver = none ∧ (chunk0 [0, 3]).route ≠ [] ∧ hopOp (chunk0 [0, 3]).head = 0 ∧
    hopSw (chunk0 [0, 3]).head = false ∧ s.barred (chunk0 [0, 3]) = false ∧
    s.barred { chunk0 [0, 3] with srcInc := 1 } = true ∧ s.staleChunk { chunk0 [0, 3] with srcInc := 1 } = true ∧ 64 ≤ hopAt 8 := by decide

/-- The group table of the partition with group 0 as given. -/
def withGroup (s : State) (g : Group) : State := s.mapPart 0 (fun p => { p with groups := [(0, g)] })

theorem witness_merge : ∀ op ∈ [1, 2], let c := chunk0 [BitVec.ofNat 32 (op + 1024), 3]
    let s := sChunks [c] [] []
    s.standing op 0 0 0 0 = [c] ∧ s.barred c = false ∧ c.peers [c] = [c] ∧ s.hashDiffers 0 c = false ∧ (s.group c.part c.group).enc = false ∧ c.deferList = [] ∧
    hopFan c.head ≤ [c].length ∧ (sChunks [c, { c with hash := 1, rank := 1 }] [] []).hashDiffers 0 c = true ∧
    (withGroup s { Group.reset with enc := true }).holdsKey 0 0 0 = false := by
  decide

theorem witness_folds : ([0] : List Nat).Nodup ∧ (∀ i, i ∈ [0] ↔ ∃ c ∈ [chunk0 []], i ∈ c.body.map Prod.fst) ∧ [chunk0 []] ≠ [] ∧
    ∀ c ∈ [chunk0 []], c.disorder = false := ⟨by decide, by simp [chunk0], by decide, by decide⟩

/-- Of one index: dense beyond a threshold of 0, sparse with the threshold off, an overflow in INT32, and disorder. -/
theorem witness_folds_cases : let most : Chunk := { chunk0 [] with vtype := 1, body := [(0, 0x7FFFFFFF)] }
    (mergeChunks false [chunk0 []]).dense = true ∧ (mergeChunks false [{ chunk0 [] with denseOff := true }]).dense = false ∧
    (mergeChunks true [{ chunk0 [] with denseOff := true }]).dense = true ∧ ((heldAt [most, most] 0).map BitVec.toInt).sum = 2 ^ 32 - 2 ∧
    ({ chunk0 [] with disorder := true } : Chunk).disorder = true := by decide +kernel

theorem witness_deferred : let c := { chunk0 [3] with deferList := [(1025, 0)], deferred := true }
    let s := sChunks [c] [] []
    (s.receivedAt 0 0 0 0) = [c] ∧ hopFan 1025 ≤ (deferGroup [c] c).length ∧
    ((sChunks [] [] []).receivedAt 0 0 0 0) = [] := by
  decide

theorem witness_deliver : ∀ op ∈ [3, 4], let c := chunk0 [BitVec.ofNat 32 op]
    let s := withGroup (sChunks [c] [tcoll0] []) { Group.reset with members := 1 }
    s.chunks = [] ++ c :: [] ∧ AtHop c op 0 0 0 ∧ c.part = tcoll0.part ∧ c.deferList = [] ∧ c.j = tcoll0.written ∧ s.staleChunk c = false ∧
    0 ∈ s.collMembers c.part c.group ∧ 0 ∉ (sChunks [c] [] []).collMembers c.part c.group ∧ (s.die 0).tcoll? 0 0 = some tcoll0 ∧ tcoll0.complete = false ∧ tcoll0.retired = false ∧
    tcoll0.notice = 0 ∧ tcoll0.mixed = [] ∧ (s.group c.part c.group).enc = false := by
  unfold AtHop; decide

theorem onePageDeliver : OnePage (withGroup (sChunks [chunk0 [3]] [tcoll0] []) { Group.reset with members := 1 }) :=
  ⟨by decide, by decide, by decide, by decide, by decide, by decide, by decide, by decide, by decide⟩

theorem witness_deliver_place : let s := withGroup (sChunks [chunk0 [3]] [tcoll0] []) { Group.reset with members := 1 }
    ∀ i < 32, s.locate 0 ((s.die 0).unitKey tcoll0.unit) tcoll0.vf .engine none ((tcoll0.output + tcoll0.outAt + i) % 2 ^ 64) =
      (.here (.mem (0x200000 + i)), false) := fun i hi => by
  rw [show (tcoll0.output + tcoll0.outAt + i) % 2 ^ 64 = 0x200000 + i by
    rw [show tcoll0.output = 0x200000 from rfl, show tcoll0.outAt = 0 from rfl]; omega]
  exact locate_page onePageDeliver .engine none _ (by omega)

theorem witness_deliver_switch : ∀ op ∈ [3, 4], let c := chunk0 [BitVec.ofNat 32 (op + 8)]
    c.deliver = none ∧ AtHop c op (hopAt c.head) 0 0 ∧ hopAt c.head = 64 ∧ (sChunks [c] [] []).staleChunk c = false := by
  unfold AtHop; decide

theorem witness_notice : let s := sChunks [] [tcoll0] [(0, 0, 2)]
    (s.die 0).tcoll? 0 0 = some tcoll0 ∧ tcoll0.notice = 0 ∧
    (s.die 0).deadSeqs.find? (fun e => decide (e.1 = groupKey (s.die 0).part.toNat 0) && decide (e.2.1 = 0)) = some (0, 0, 2) := by decide

theorem witness_tcoll : let q := { tcoll0 with complete := true }
    let s := sChunks [] [q] []
    (s.die 0).tcoll? 0 0 = some q ∧ q.retired = false ∧ q.complete = true ∧ q.notice = 0 ∧ q.disorderAt = none ∧ q.faultAt = none ∧
    (s.die 0).unit? q.unit = some unit0 ∧ unit0.phase = .bound ∧ (s.ply ⟨0, unit0.core, unit0.slot⟩).phase ≠ .stopping ∧
    (s.ply ⟨0, unit0.core, unit0.slot⟩).pushRoom .tr q.push = true ∧ (s.die 0).tcolls = [q] := by decide

/-! ## Witnesses: fabric and links -/

def frame0 : Frame := { (default : Frame) with src := 1, dst := 0 }
def acc0 : AccRec := { (default : AccRec) with va := 0x200000, pa := 0x200000, len := 1, data := [5] }
/-- Die 1 is a member of partition 0 too. -/
def withDie1 (s : State) : State := s.setDie 1 { Die.reset with member := true }

theorem witness_frame_apply : let f := { frame0 with recs := [acc0] }
    let s := { withDie1 s0 with frames := [f] }
    s.frames.find? (fun f => decide (f.src = 1) && decide (f.dst = 0)) = some f ∧ s.frames.any (fun g => g.precedes f) = false ∧
    s.takes f.src f.dst f.srcInc f.dstInc = true ∧ acc0.kind = 0 ∧ f.ctr = 0 ∧ acc0.data.length = acc0.len ∧ acc0.va + 0 < 2 ^ 56 ∧
    (s.die 0).place s.workBase (s.ringAt 0 none) acc0.mode none acc0.va acc0.pa = .mem 0x200000 ∧
    s.takes f.src f.dst 1 f.dstInc = false := by decide

theorem witness_frame_waits : let g := { frame0 with src := 2, own := 1 }
    let f := { frame0 with clk := [(2, 1)] }
    ({ s0 with frames := [f, g] } : State).frames.find? (fun f => decide (f.src = 1) && decide (f.dst = 0)) = some f ∧
    [f, g].any (fun g => g.precedes f) = true := by decide

/-- A ply whose load of one byte is on its way to `dest`. -/
def busy0 (dest : Nat) : SqBusy := ⟨5, false, 1, false, [], [⟨dest, 0, 1⟩], false, false, 0, none⟩
def sBusy (dest : Nat) : State := onDie (die0 { ply0 with sqBusy := some (busy0 dest) })

theorem witness_reply : let q := { acc0 with kind := 1, unit := 7, die := 0 }
    let r := { (default : Reply) with src := 1, dst := 0, recs := [(q, [5])] }
    let s := { withDie1 (sBusy 1) with replies := [r] }
    s.replies.find? (fun k => decide (k.src = r.src) && decide (k.dst = r.dst) && decide (k.fseq.toNat = r.fseq.toNat)) = some r ∧
    s.takes r.src r.dst r.srcInc r.dstInc = true ∧ s.frames.any (fun g => g.precedesReply r) = false ∧ r.offences = [] ∧ q.kind ≠ 0 ∧
    (s.ply ⟨q.die, q.core, q.slot⟩).sqBusy = some (busy0 1) ∧ (busy0 1).parts = [⟨r.src, q.at_, q.len⟩] ∧
    (s.ply ⟨q.die, q.core, q.slot⟩).unit = q.unit ∧ (s.ply ⟨q.die, q.core, q.slot⟩).phase ≠ .free ∧
    s.takes r.src r.dst 1 r.dstInc = false ∧ (frame0.precedesReply { r with clk := some [(1, 0)] }) = true := by decide

/-- A posted write of the unit of ply h0. -/
def posted0 : Posted := ⟨0, 7, 0, 0, 0x1000, [5]⟩

theorem witness_host_answer : ((sBusy 64).ply h0).sqBusy = some (busy0 64) ∧ (busy0 64).parts = [⟨64, 0, 1⟩] ∧ ((sBusy 64).ply h0).phase ≠ .free ∧
    (let s := { s0 with posted := [posted0] }
     (s.ply h0).sqBusy = none ∧ s.posted.find? (fun w => decide (w.die = h0.d) && (decide (w.unit = (s.ply h0).unit) ||
      !(s.die h0.d).plies.any (fun e => decide (e.2.phase ≠ .free) && decide (e.2.unit = w.unit)))) = some posted0) := by decide

theorem witness_hop : let r := { (default : Reply) with src := 1, dst := 0, hop := 0 }
    let s := { withDie1 s0 with frames := [frame0], replies := [r], chunks := [chunk0 [3]] }
    s.frames[0]? = some frame0 ∧ frame0.hop = 0 ∧ s.stalePkt frame0.src frame0.dst frame0.srcInc frame0.dstInc = false ∧
    s.stalePkt frame0.src frame0.dst 1 0 = true ∧ s.replies[0]? = some r ∧ s.chunks[0]? = some (chunk0 [3]) ∧
    s.staleChunk (chunk0 [3]) = false ∧ s.staleChunk { chunk0 [3] with srcInc := 1 } = true ∧ (chunk0 [3]).hop = 0 ∧
    switchOfNode 63 ≠ switchOfNode ((chunk0 [3]).target.getD (hopAt (chunk0 [3]).head)) ∧ switchOfNode 64 = 0 ∧
    ({ frame0 with src := 63, hop := 1 } : Frame).src / 4 ≠ frame0.dst / 4 := by decide

theorem witness_echo : let l := { Link.reset with owed := [true, false] }
    l.owed = true :: [false] ∧ 16 ≤ l.echoes ∧ ({ l with echoes := 15 } : Link).echoes < 16 ∧ l.quiet ≠ 64 := by decide

theorem witness_egress : let r := { acc0 with kind := 3 }
    let s := { s0 with links := [(15, { Egress.reset with en := true, state := 2, queue := [acc0, r] }), (0, { Egress.reset with en := true }),
      (14, { Egress.reset with en := true, state := 2 })] }
    s.edgeOn (15 / 4) = true ∧ s.edgeOn (0 / 4) = true ∧ (s.egress 14).state ≠ 0 ∧ s.linkUsers 14 = [] ∧ (s.egress 15).state = 2 ∧
    (s.egress 0).en = true ∧ (s.egress 0).state ≠ 2 ∧
    (s.egress 15).queue = [acc0] ++ r :: [] ∧ (∀ q ∈ [acc0], q.kind ≠ 3) ∧ (s.egress 15).use ≠ 2 ∧ s.dieOn 63 = true ∧
    ¬(s.workBase ≤ 0x200000 ∧ 0x200000 < s.workBase + 16 * Config.levelCount) ∧ 0x200000 + 1 ≤ Config.futBase ∧
    packetBad (2 ^ 72) = true ∧ packetBad (2 ^ 56) = false ∧ packetInc (2 ^ 56) ≠ (s.egress 15).peerInc ∧
    packetBad 0x200000 = false ∧ packetInc 0x200000 = (s.egress 15).peerInc ∧ packetAddr 0x200000 = 0x200000 := by decide

theorem witness_egress_answer : let r := { acc0 with kind := 1, unit := 7 }
    let s := { sBusy 80 with links := [(15, { Egress.reset with en := true, state := 2, queue := [acc0, r] })] }
    (s.egress 15).queue.find? (fun r => decide (r.kind = 1) || decide (r.kind = 2)) = some r ∧
    (s.ply ⟨r.die, r.core, r.slot⟩).sqBusy = some (busy0 80) ∧
    (busy0 80).parts = [⟨65 + 15, r.at_, r.len⟩] ∧ (s.ply ⟨r.die, r.core, r.slot⟩).unit = r.unit ∧
    (s.ply ⟨r.die, r.core, r.slot⟩).phase ≠ .free := by decide

def port0 : EthPort := { EthPort.reset with
  en := true, rxbase := 0x200000, keys := [(0, ⟨9, true, 0, 0x300000, 1, false⟩)], sending := [⟨0, 0, 0, 0x400000, 0, [5]⟩] }

theorem witness_port : let s := { s0 with ports := [(7, port0)] }
    s.portOn 7 = true ∧ (s.port 7).sending ≠ [] ∧ (s.port 7).en = true ∧ ([] : List Byte).length ≤ 2 ^ 20 - 64 ∧
    ((s.port 7).rxcount - (s.port 7).rxhead).toNat ≠ 2 ^ (s.port 7).rxslots.toNat ∧ (s.port 7).rxctr = 0 ∧
    (∀ i < 64, (s.die 0).rxPlace s.workBase (0x200000 + i) = .mem (0x200000 + i)) ∧
    (s.port 7).window 9 = some ⟨9, true, 0, 0x300000, 1, false⟩ ∧
    s.keyAllows (s.port 7) ⟨9, true, 0, 0x300000, 1, false⟩ 4095 1 = true ∧ (s.port 7).window 8 = none ∧
    ({ port0 with rxcount := 1 } : EthPort).rxcount - port0.rxhead = 1 := by decide

theorem witness_port_receive : s0.dieOn port0.rxdie.toNat = true ∧ ({ port0 with rxctr := 0x400000 } : EthPort).rxctr.toNat ≠ 0 ∧
    (∀ i < 8, hostPlace s0.workBase true (0x400000 + i) = .mem (0x400000 + i)) ∧
    ({ s0 with blocks := [(0, { Block.reset 0 with off := true })] } : State).dieOn port0.rxdie.toNat = false ∧
    ({ port0 with en := false } : EthPort).en = false := by decide

theorem witness_port_counter : let s := { s0 with ports := [(7, port0)] }
    (0x400000 : Nat) ≠ 0 ∧ 0x400000 + 8 ≤ 2 ^ 56 ∧ ∀ j < 8, (s.locate 0 none 0 .stamp none (0x400000 + j)).1 = .here (.mem (0x400000 + j)) := by
  decide

/-! ## Witnesses: traps, invalidation, pre-emption -/

def halt0 : Halt := ⟨0x1230, 0, 0, 0, 0, 0⟩
/-- A held ply at rest. -/
def sHeld (x : Die → Die) (f : Ply → Ply) : State := onDie (x (die0 (f { ply0 with phase := .waiting, halts := [(0, halt0)] })))

theorem witness_trap_record : let s := sHeld id id
    (s.ply h0).phase ≠ .free ∧ (s.ply h0).phase ≠ .stopping ∧ (s.ply h0).held = true ∧ (s.ply h0).trapSlot = none ∧ s.allQuiet h0 = true ∧
    (s.vf 0).trapFull = false ∧ (s.vf 0).trapHeld = [] ∧ s.hostOn (0 / 48) = true ∧ s.hostOn (191 / 48) = true ∧
    ({ s with blocks := [(144, { Block.reset 144 with off := true })] } : State).hostOn 0 = false := by decide

theorem witness_trap_slot : ∃ n, (sHeld id id).pick (fun t => (((sHeld id id).die h0.d).trap t).used) Config.trapCount = some n :=
  ⟨_, pick_some _ _ _ fun _ => rfl⟩

theorem witness_trapped : Trapped (sHeld (fun x => { x with traps := [(5, ⟨true, 9, 7, 0, false⟩)] }) (fun p => { p with trapSlot := some 5 }))
    h0 0 5 9 0 halt0 :=
  ⟨by decide, by decide, ⟨unit0, by decide, by decide, by decide, by decide, by decide⟩, by decide, by decide⟩

theorem witness_stale_response : ((s0.die 0).trap 5).used = false ∧ ((s0.die 0).trap 5).dropped = false ∧ Config.trapCount ≤ 65535 := by decide

theorem witness_trap_ring : (s0.vf 0).trapHeld = [] ∧
    (let f := { VFn.reset with trapTail := 16, trapHeld := [(1, 2)] }
     f.trapFull = true ∧ ({ f with trapHead := 1 } : VFn).trapFull = false) := by decide

theorem witness_invalidation : s0.invctl.done = true ∧ bitB (0x200 : BitVec 192).toNat 9 = true ∧ bits (0x2BF : BitVec 192).toNat 0 8 < 192 ∧
    ({ Invctl.reset with done := false } : Invctl).done = false := by decide

theorem witness_preempt : s0.dieOn 0 = true ∧ (s0.core h0).prectl.state ≠ 1 ∧ (s0.ply h0).phase = .running ∧ (s0.ply ⟨0, 0, 7⟩).phase = .free ∧
    ((onDie (die0 { ply0 with phase := .ready })).ply h0).phase = .ready := by decide

def sPre (evict acked : Bool) (u : Nat) : State := onDie { die0 { ply0 with
    phase := .ready, preempt := true, evict := evict, stopped := if acked then [.sq] else [] } with
  cores := [(0, { Core.reset with prectl := ⟨0, evict, 0, evict, 1, if acked then 1 else 0, 0⟩ })], cstoreUnits := BitVec.ofNat 24 u }

theorem witness_collect : ∀ a ∈ [true, false], ∀ e ∈ [true, false], let s := sPre e a 64
    ((s.die 0).core 0).prectl.state = 1 ∧ bitB ((s.die 0).core 0).prectl.acks.toNat 0 = a ∧ (s.ply h0).preempt = true ∧
    (s.ply h0).phase ≠ .free ∧ (s.ply h0).phase ≠ .stopping ∧ (Ring.sq ∈ (s.ply h0).stopped ↔ a = true) ∧ ((s.die 0).core 0).prectl.curEvict = e ∧
    Ring.all.any (s.engineRuns h0) = false ∧ (s.ply h0).sqBusy = none ∧ (s.die 0).unit? (s.ply h0).unit = some unit0 ∧ unit0.saved = none := by
  decide

theorem witness_image : (((sPre true true 0).die 0).imageRoom unit0 (((sPre true true 0).die 0).image 0 0)) = none ∧
    (((sPre true true 64).die 0).imageRoom unit0 (((sPre true true 64).die 0).image 0 0)) ≠ none ∧
    (sPre true true 64).unitQuiet 0 7 = true := by
  decide +kernel

/-- A Waiting ply with a request that no sequencer has acknowledged. -/
theorem witness_ack : let p := { ply0 with phase := .waiting, preempt := true }
    let s := onDie (die0 p)
    (s.ply h0).preempt = true ∧ Ring.sq ∉ (s.ply h0).stopped ∧ (s.ply h0).evict = false ∧ (s.ply h0).phase = .waiting ∧
    ({ p with evict := true } : Ply).evict = true ∧ (s.ply h0).halts = [] ∧ (s.die 0).unit? (s.ply h0).unit = some unit0 ∧ unit0.saved = none := by decide

theorem witness_stop : ((onDie (die0 { ply0 with phase := .stopping })).ply h0).phase = .stopping ∧ Ring.tr ∉ ply0.stopped ∧
    (onDie (die0 { ply0 with phase := .stopping })).engineRuns h0 .tr = false := by decide

/-! ## Witnesses: resets, firmware, power, the whorl, the host -/

theorem witness_resets : (31 : Nat) < 32 ∧ s0.members 0 = [0] ∧ s0.usesBlock 0 0 = true ∧ s0.usesBlock 0 64 = true ∧ s0.usesBlock 0 128 = true ∧
    (let s := { s0 with parts := [(0, { Part.reset with wdog := 1 })], invctl := { Invctl.reset with done := false } }
     (s.part 0).wdog ≠ 0 ∧ (s.part 0).wdog.toNat < 2 ∧ s.hangs 0 = true) ∧ (s0.block 127).retired = false ∧
    (s0.block 147).off = false ∧ (let b := { Block.reset 147 with temp := 105 }; b.trip.toNat ≤ b.temp.toNat) ∧
    s0.fw.bootBank = some false ∧ ({ s0.fw with bank0 := none, bank1 := none } : Firmware).bootBank = none := by decide

/-- A firmware image of one body byte, its digest and signature left to the opaque functions (R388). -/
def image0 : Map Byte := [(0, 0x4D), (1, 0x46), (2, 0x57), (4, 1), (8, 1)]

theorem witness_image_ok (h : Config.sigOk (getBytes image0 0 512) (getBytes image0 512 512) = true)
    (hd : imageDigest image0 = Config.sha512 (getBytes image0 4096 1)) : imageOk image0 0 = true := by
  have hs : imageSize image0 = 1 := by decide +kernel
  have hz : zeroBytes image0 80 432 = true ∧ zeroBytes image0 1024 3072 = true := by decide +kernel
  simp only [imageOk, hs, hz.1, hz.2, h, hd]
  decide +kernel

theorem witness_firmware : imageOk [] 0 = false ∧ ({ Firmware.reset with status := 1 } : Firmware).status = 1 ∧
    ({ Spdm.reset with secured := true } : Spdm).secured = true ∧ s0.keyInUse 255 = false ∧ (4 : Nat) ≤ 4 := by decide

theorem witness_measurement : ∀ n < 4, ∃ m, s0.measurement n = some m := fun n hn => by
  match n with
  | 0 => exact ⟨_, rfl⟩
  | 1 => exact ⟨_, rfl⟩
  | 2 => exact ⟨_, rfl⟩
  | 3 => exact ⟨_, rfl⟩
  | n + 4 => omega

theorem witness_power : let k := Block.reset 147
    k.cap.toNat < 141 ∧ 0 ≤ k.cap.toNat ∧ 50 * 0 + Block.allot 147 < 50 * k.cap.toNat ∧ 50 * k.cap.toNat ≤ 50 * 140 + Block.allot 147 ∧
    k.off = false ∧ (s0.die 63).retired = false ∧ 140 ≤ k.cap.toNat ∧ (4095 : Nat) < 2 ^ 12 ∧ Block.allot 147 < 4095 ∧ 0 < 2 * Block.allot 147 / 5 := by decide

/-- A whorl of dies 0 and 1 with one hank each (R72), in a state, and what die 0 holds of it. -/
def rec0 : WhorlRec := ⟨0, 2, 0, false, false, 1, 0, 2, 0, 4, 0, true, 0x10000000, [0, 1], 0, 0⟩
def whorl0 (st : Nat) : Whorl := { Whorl.reset with cfg := rec0, route := [0, 1], state := st }
def wdie (k : Nat) (q : List Hank) : WhorlDie :=
  { (default : WhorlDie) with pos := k, interval := 256, floor := 256, queue := q, credits := 64, run := true }
def hank0 (arrived sent : Nat) : Hank := ⟨0, 0, arrived, sent, 0, [], false⟩
def sWhorl (st : Nat) (a b : WhorlDie) : State :=
  { State.reset with dies := [(0, { Die.reset with member := true, whorl := some a }), (1, { Die.reset with member := true, whorl := some b })],
                     whorls := [(0, whorl0 st)], vfs := [(0, vf0)] }

theorem witness_hank_start : let s := sWhorl 2 (wdie 0 [hank0 256 0]) (wdie 1 [hank0 256 0])
    let x := wdie 0 [hank0 256 0]
    (s.die 0).whorl = some x ∧ (s.whorl x.id).state = 2 ∧ (s.whorl x.id).hstate ≠ 3 ∧ x.sending = false ∧ x.credits ≠ 0 ∧ x.interval ≤ 256 ∧
    (s.whorl x.id).lostPos = [] ∧ x.queue = [hank0 256 0] ∧ (hank0 256 0).sent = 0 ∧ (hank0 256 0).arrived ≠ 0 ∧
    (s.die 0).candidates (hank0 256 0).tag = [] ∧ (s.die 0).awaited (hank0 256 0).tag = false ∧ x.slack = [] ∧
    (s.whorl x.id).cfg.egress = false ∧ nextOn (s.whorl x.id).route 0 = 1 ∧ (hank0 256 0).counted = false := by decide

theorem witness_dwell : let x := { wdie 0 [] with slack := [⟨4, 0, 0, 0, 3, 0⟩] }
    let s := (sWhorl 3 x (wdie 1 [])).mapDie 0 (fun y => { y with holds := [⟨7, 4, 0, false⟩] })
    (s.die 0).whorl = some x ∧ (s.whorl x.id).state = 3 ∧ (∀ c ∈ x.slack, ∃ o ∈ (s.die 0).holds, o.copy = c.serial ∧ o.ended = false) := by
  decide

theorem witness_beat : let y := { wdie 1 [hank0 256 1] with sending := true }
    let x := wdie 0 [hank0 1 0]
    let s := sWhorl 2 x y
    (s.die 0).whorl = some x ∧ prevOn (s.whorl x.id).route 0 = 1 ∧ (s.die 1).whorl = some y ∧ y.id = x.id ∧ nextOn (s.whorl x.id).route 1 = 0 ∧
    (s.whorl x.id).state = 2 ∧ (s.whorl x.id).hstate ≠ 3 ∧ y.sending = true ∧ y.credits ≠ 0 ∧ y.queue = [hank0 256 1] ∧ (hank0 256 1).sent < (hank0 256 1).arrived ∧
    (hank0 256 1).sent ≠ 0 ∧ x.elastic = [] ∧ x.queue.getLast? = some (hank0 1 0) ∧ x.queue.dropLast = [] ∧
    Memory.wf (s.die 1).mem = true ∧ (s.whorl x.id).cfg.egress = false := by decide

theorem witness_credit : let x := { wdie 0 [] with freed := 1 }
    let s := sWhorl 2 x (wdie 1 [])
    (s.die 0).whorl = some x ∧ prevOn (s.whorl x.id).route 0 = 1 ∧ (s.die 1).whorl = some (wdie 1 []) ∧ x.freed ≠ 0 ∧
    (s.whorl x.id).hstate ≠ 3 ∧ (s.whorl x.id).cfg.egress = false := by decide

theorem witness_lost_whorl : let s := { sWhorl 2 (wdie 0 []) (wdie 1 []) with whorls := [(0, { whorl0 2 with hstate := 3 })] }
    (s.die 0).whorl = some (wdie 0 []) ∧ (s.whorl (wdie 0 []).id).hstate = 3 := by decide

theorem witness_drained : ((sWhorl 3 (wdie 0 []) (wdie 1 [])).whorl 0).state = 3 ∧
    (sWhorl 3 (wdie 0 []) (wdie 1 [])).whorlAtRest ((sWhorl 3 (wdie 0 []) (wdie 1 [])).whorl 0) = true := by decide

theorem witness_die_failure : let s := { sWhorl 2 (wdie 0 []) (wdie 1 []) with
      whorls := [(0, { whorl0 2 with cfg := { rec0 with n := 3, hanks := 3, parityOn := true, spare := 1, route := [0, 1, 2] }, route := [0, 1, 2] })] }
    (s.die 0).whorl = some (wdie 0 []) ∧ (s.whorl 0).hstate ≠ 3 ∧ (whorl0 2).cfg.parityOn = false ∧
    ¬((s.whorl 0).cfg.parityOn = false ∨ (s.whorl 0).spliceLost ≠ [] ∨
      ((s.whorl 0).cfg.share + (s.whorl 0).cfg.spare) * ((s.whorl 0).route.filter (fun e => decide (e ≠ 0))).length < (s.whorl 0).cfg.hanks) := by
  decide

/-- The record `rec0` as its 128 bytes stand in memory (R72). -/
def recVal : Nat := 2 * 2 ^ 8 + 1 * 2 ^ 22 + 2 * 2 ^ 32 + 4 * 2 ^ 64 + 2 ^ 96 + 0x10000000 * 2 ^ 128 + 1 * 2 ^ 200 + (2 ^ 496 - 1) * 2 ^ 208
def recBytes : Map Byte := [(0x200001, 0x2), (0x200002, 0x40), (0x200004, 0x2), (0x200008, 0x4), (0x20000C, 0x1), (0x200013, 0x10), (0x200019, 0x1)] ++ (List.range 62).map (fun i => (0x20001A + i, 0xFF))
/-- The whorl command with `sub` naming the record at 0x200000 and a tag table of zeros at 0x300000. -/
def whorlCmd (sub : Nat) : BitVec 256 := BitVec.ofNat 256 (5 + sub * 2 ^ 64 + 0x200000 * 2 ^ 80 + 0x300000 * 2 ^ 144)
/-- Die 0's store of these tests: the record at 0x200000. -/
def recMem : Map Byte := mem0 ++ recBytes
/-- What a die holds of the whorl in a state (0: none). -/
def held (st k : Nat) : Option WhorlDie := if st = 0 then none else some (wdie k [hank0 256 0])
/-- The panel with the whorl in a state (0: none), whose function 0 has command `c` waiting. -/
def sWhorlCmd (st : Nat) : State :=
  { State.reset with
    dies := [(0, { Die.reset with mem := recMem, member := true, whorl := held st 0 }), (1, { Die.reset with member := true, whorl := held st 1 })]
    vfs := [(0, { vf0 with cmdTail := 1 })]
    whorls := if st = 0 then [] else [(0, whorl0 st)] }

theorem witness_whorl_commands : ∀ e ∈ [(0, 0), (1, 1), (2, 2), (3, 4), (4, 4)],
    (sWhorlCmd e.2).cmdReady 0 = true ∧ (whorlCmd e.1).toNat % 2 ^ 4 = 5 ∧ cmdFormed (whorlCmd e.1).toNat = true ∧
    (sWhorlCmd e.2).inPart 0 (bits (whorlCmd e.1).toNat 8 6) = true ∧ bits (whorlCmd e.1).toNat 64 3 = e.1 := by
  decide +kernel

/-- With no ply bound, the device's own reads of an address below 2^30 reach the same byte of die 0's store. -/
theorem locate_bare {s : State} (root : (s.vf 0).ptRoot.toNat = 0x100000) (low : (s.vf 0).winBase.toNat = 0)
    (high : (s.vf 0).winLimit.toNat = 0x40000000) (table : pte (s.die 0).mem 0x100000 0 = 0x120001)
    (leaf : pte (s.die 0).mem 0x120000 0 = 7) (member : (s.die 0).member = true) (part : (s.die 0).part = (s.vf 0).part)
    (bufs : (s.die 0).bufs = []) (plies : (s.die 0).plies = []) (work : s.workBase = 0x7FDC0000) (va : Nat) (h : va < 2 ^ 30) :
    (s.locate 0 none 0 .load none va).1 = .here (.mem va) := by
  simp only [State.locate, translate_page root low high table leaf member part .load va h,
    placed_bare bufs work none .load none va h (by simp [State.ringAt, plies]), Loc.far]

theorem locateAll_bare (f : Nat → Loc) (hf : ∀ a < 2 ^ 30, f a = .here (.mem a)) (n va : Nat) (h : va + n ≤ 2 ^ 30) :
    State.locateAll f va n = (List.range n).map (fun i => (va + i, .here (.mem (va + i)))) := by
  induction n generalizing va with
  | zero => rfl
  | succ n ih =>
    rw [State.locateAll, hf va (by omega), Nat.mod_eq_of_lt (by omega), ih _ (by omega), List.range_succ_eq_map]
    simp [Function.comp_def, Nat.add_assoc, Nat.add_comm 1]

theorem ctxRead_bare {s : State} (hf : ∀ a < 2 ^ 30, (s.locate 0 none 0 .load none a).1 = .here (.mem a)) (va n : Nat) (h : va + n ≤ 2 ^ 30) :
    s.ctxRead 0 0 va n = some ((List.range n).map (fun i => getByte (s.die 0).mem (va + i))) := by
  simp only [State.ctxRead, locateAll_bare _ hf n va h, List.any_map, Function.comp_def, Die.readLocs, List.map_map, Die.readPlace]
  simp

theorem witness_whorl_record : ∀ e ∈ [(0, 0), (1, 1), (2, 2), (3, 4), (4, 4)],
    (consumed (sWhorlCmd e.2) 0).readWhorl 0 (whorlCmd e.1).toNat = some recVal := fun e he => by
  have hc : bits (whorlCmd e.1).toNat 8 6 = 0 ∧ bits (whorlCmd e.1).toNat 80 56 = 0x200000 ∧
      (consumed (sWhorlCmd e.2) 0).workBase = 0x7FDC0000 :=
    (show ∀ e ∈ [(0, 0), (1, 1), (2, 2), (3, 4), (4, 4)], bits (whorlCmd e.1).toNat 8 6 = 0 ∧
      bits (whorlCmd e.1).toNat 80 56 = 0x200000 ∧ (consumed (sWhorlCmd e.2) 0).workBase = 0x7FDC0000 by decide) e he
  have hm : ((consumed (sWhorlCmd e.2) 0).die 0).mem = recMem := rfl
  rw [State.readWhorl, hc.1, hc.2.1, ctxRead_bare (locate_bare rfl rfl rfl (by rw [hm]; decide +kernel) (by rw [hm]; decide +kernel)
    rfl rfl rfl rfl hc.2.2) 0x200000 128 (by decide), hm, Option.map_some]
  exact congrArg some (show leNat ((List.range 128).map (fun i => getByte recMem (0x200000 + i))) = recVal by decide +kernel)

theorem witness_whorl_state : (whorlRecOf recVal).id ≤ 31 ∧ (∀ e ∈ [0, 1, 2, 4], ((sWhorlCmd e).whorl (whorlRecOf recVal).id).state = e) ∧
    0 ∈ (whorlRecOf recVal).route.take (whorlRecOf recVal).n ∧ 0 ∈ ((sWhorlCmd 1).whorl 0).cfg.route := by decide +kernel

theorem witness_whorl_load : (consumed (sWhorlCmd 0) 0).whorlBad 0 recVal (whorlRecOf recVal) = false ∧
    (consumed (sWhorlCmd 0) 0).tagTable 0 0 0x300000 (whorlRecOf recVal) = some [] ∧
    (whorl0 4).route.any (consumed (sWhorlCmd 4) 0).dieBusy = false ∧
    (consumed (sWhorlCmd 4) 0).reconfigureOk 0 recVal (whorlRecOf recVal) (whorl0 4) = true ∧
    (whorl0 4).route.any (sWhorlCmd 4).moving = false := by decide +kernel

/-- A command of kind `k` on die 0 with `parent` or index `n` and `sub`, asking for its entry. -/
def cmdOf (k n sub : Nat) : BitVec 256 := BitVec.ofNat 256 (k + 16 + n * 2 ^ 16 + sub * 2 ^ 64 + (if k = 2 then 0x200000 * 2 ^ 80 + (2 ^ 112 - 1) * 2 ^ 144 else 0))
/-- Function 0 has one command to take; die 0 holds an open job 4, phase 5 and graph 6 of it, and an ended job 7. -/
def sCmd : State :=
  let open_ := { Level.reset with used := true, outstanding := 1, parent := 0xFFFF }
  { onDie { Die.reset with
      mem := (sSpawn.die 0).mem, member := true,
      levels := [(4, { open_ with level := 4 }), (5, { open_ with level := 3, parent := 4 }), (6, { open_ with level := 2, parent := 5 }),
        (7, { open_ with level := 4, status := 1, used := false })] } with vfs := [(0, { vf0 with cmdTail := 1 })] }

theorem witness_takes : ∀ k ∈ [(0, 0), (1, 4), (2, 0), (3, 0), (4, 0)], Takes sCmd 0 (cmdOf k.1 0xFFFF k.2) k.1 := fun k hk => by
  have : ∀ k ∈ [(0, 0), (1, 4), (2, 0), (3, 0), (4, 0)], sCmd.cmdReady 0 = true ∧ (cmdOf k.1 0xFFFF k.2).toNat % 2 ^ 4 = k.1 ∧
    cmdFormed (cmdOf k.1 0xFFFF k.2).toNat = true ∧ sCmd.inPart 0 (bits (cmdOf k.1 0xFFFF k.2).toNat 8 6) = true := by decide
  exact ⟨(this k hk).1, (this k hk).2.1, (this k hk).2.2.1, (this k hk).2.2.2⟩

theorem witness_commands : 6 ≤ (15 : Nat) ∧ sCmd.inPart 0 63 = false ∧ (sCmd.openLevel 0 0 4 4).isSome = true ∧
    bitB (sCmd.vf 0).qmask.toNat 0 = true ∧ sCmd.openLevel 0 0 6 2 = some 6 ∧ (sCmd.cmdDeps 0 0 6 (cmdOf 2 6 0).toNat).isSome = true ∧
    (launchOf 0x200000 launchVal).futResv ≤ (sCmd.die 0).commonFree ∧ sCmd.levelRef 0 0 6 = some 6 ∧
    ((sCmd.die 0).level 6).status = 0 ∧ 2 ≤ ((sCmd.die 0).level 6).level.toNat ∧ ((sCmd.die 0).level 6).vf = 0 ∧
    ((sCmd.die 0).level 6).sealed = false ∧ (sCmd.die 0).units = [] ∧ sCmd.levelRef 0 0 7 = some 7 ∧ ((sCmd.die 0).level 7).status ≠ 0 := by
  decide +kernel

/-- The store of `sSpawn`, named. -/
def spawnMem : Map Byte := (sSpawn.die 0).mem

theorem launch_bytes : (List.range 256).map (fun i => getByte spawnMem (0x200000 + i)) =
    (List.range 256).map (fun i => BitVec.ofNat 8 (launchVal / 256 ^ i)) := by decide +kernel

theorem witness_tenq_record : parseLaunch 0x200000 ((List.range 256).map (fun i => BitVec.ofNat 8 (launchVal / 256 ^ i))) =
    some (launchOf 0x200000 launchVal) := by decide +kernel

theorem witness_command_launch : (consumed sCmd 0).readLaunch 0 0 0x200000 = some (launchOf 0x200000 launchVal) := by
  have hm : ((consumed sCmd 0).die 0).mem = spawnMem := rfl
  rw [State.readLaunch, ctxRead_bare (locate_bare rfl rfl rfl (by rw [hm]; decide +kernel) (by rw [hm]; decide +kernel) rfl rfl rfl rfl
    (by decide)) 0x200000 256 (by decide), hm, launch_bytes]
  exact witness_tenq_record

theorem witness_free_level : (sCmd.freeLevel 0).isSome = true := by
  unfold State.freeLevel State.pick
  simp only
  split
  · rw [show firstFrom (fun k => !((sCmd.die 0).level k).used) 0 Config.levelCount = some 0 from rfl]; rfl
  · rfl

theorem witness_interrupt : (∀ e ∈ [true, false], ({ vf0 with pendWindow := true, intEn := e } : VFn).pendWindow = true ∧
    ({ vf0 with pendWindow := true, intEn := e } : VFn).intEn = e) ∧ (s0.vf 0).held = [] ∧ s0.hostOn (0 / 48) = true ∧ s0.hostOn (191 / 48) = true := by
  decide

/-- A tenq of one launch record that has reached die 0 from its ply. -/
def tenq0 : Tenq := ⟨0, 0, 0, 7, 0, 0, 0, false, 0x200000, (List.range 256).map (fun i => BitVec.ofNat 8 (launchVal / 256 ^ i)),
  0, 0, false, 0⟩
def sTenq (daddr : Nat) : State :=
  (sTr [0x38000000]).mapDie 0 (fun x => { x with
    tenqs := [{ tenq0 with daddr := daddr }],
    plies := x.plies.map (fun e => (e.1, { e.2 with tr := { e.2.tr with cmd := some { run0 [0x38000000] with iter := 1 } } })) })

theorem witness_tenq : let s := sTenq 0x200000
    (s.die 0).tenqs = [tenq0] ∧ (s.ply h0).unit = tenq0.unit ∧ (s.ply h0).phase ≠ .free ∧
    (s.ply h0).tr.cmd = some { run0 [0x38000000] with iter := 1 } ∧ ((run0 [0x38000000]).todo.headD 0).toNat / 2 ^ 27 = 7 ∧
    bitB (s.vf 0).qmask.toNat 0 = true ∧ 256 ≤ tenq0.bytes.length ∧ (s.dieOn 0 && !s.stalePkt 0 0 tenq0.srcInc tenq0.dstInc) = true ∧
    (s.dieOn 0 && !s.stalePkt 0 0 1 tenq0.dstInc) = false ∧ (s.tenqFault 0 { tenq0 with daddr := 2 ^ 55 }).isSome = true ∧
    (launchOf 0x200000 launchVal).futResv ≤ (s.die 0).commonFree := by decide +kernel

theorem witness_tenq_take : tenq0.bytes.take 256 = (List.range 256).map (fun i => BitVec.ofNat 8 (launchVal / 256 ^ i)) :=
  List.take_of_length_le (by simp [tenq0])

theorem onePageTenq : OnePage (sTenq 0x200000) := ⟨by decide, by decide, by decide, by decide, by decide, by decide, by decide, by decide, by decide⟩

theorem witness_tenq_room : (sTenq 0x200000).tenqFault 0 tenq0 = none := by
  have hf : ∀ a < 2 ^ 30, ((sTenq 0x200000).locate 0 (some 0) 0 .store none a).1 = .here (.mem a) := fun a ha =>
    congrArg Prod.fst (locate_page onePageTenq .store none a ha)
  simp only [State.tenqFault, show tenq0.src = 0 from rfl, show tenq0.core * 8 + tenq0.slot = 0 from rfl, show tenq0.vf = 0 from rfl,
    show tenq0.daddr = 0x200000 from rfl, show tenq0.bytes.length = 256 by simp [tenq0], if_true, locateAll_bare _ hf 256 0x200000 (by decide)]
  rw [Option.map_eq_none_iff, List.find?_eq_none]
  intro e he
  obtain ⟨i, hi, rfl⟩ := List.mem_map.mp he
  have hi := List.mem_range.mp hi
  have hb : bitB (0x200000 + i) 55 = false := by unfold bitB; rw [Nat.div_eq_of_lt (by omega)]; rfl
  simp [hb, show ((sTenq 0x200000).die 0).bufs = [] from rfl, findBuf]

theorem firstFrom_some (f : Nat → Bool) (i k n : Nat) (hi : k ≤ i ∧ i < k + n) (h : f i = true) : ∃ j, firstFrom f k n = some j := by
  induction n generalizing k with
  | zero => omega
  | succ n ih =>
    unfold firstFrom
    by_cases hk : f k = true
    · exact ⟨k, if_pos hk⟩
    · rw [if_neg hk]
      exact ih (k + 1) ⟨by rcases Nat.lt_or_ge k i with h' | h'; exact h'; exact absurd (show k = i by omega ▸ h) hk, by omega⟩

theorem witness_four_levels : ((sTenq 0x200000).fourLevels 0).isSome = true := by
  have hu : ∀ i, (((sTenq 0x200000).die 0).level i).used = false := fun i => rfl
  have next : ∀ u : List Nat, (0 ∉ u ∨ 1 ∉ u ∨ 2 ∉ u ∨ 3 ∉ u) →
      ∃ j, firstFrom (fun i => !(((sTenq 0x200000).die 0).level i).used && !u.contains i) 0 Config.levelCount = some j := fun u h => by
    rcases h with h | h | h | h
    · exact firstFrom_some _ 0 _ _ (by decide) (by simp [hu, h])
    · exact firstFrom_some _ 1 _ _ (by decide) (by simp [hu, h])
    · exact firstFrom_some _ 2 _ _ (by decide) (by simp [hu, h])
    · exact firstFrom_some _ 3 _ _ (by decide) (by simp [hu, h])
  rw [State.fourLevels, pick_some _ _ _ hu]
  dsimp only
  obtain ⟨b, hb⟩ := next [Config.choice (sTenq 0x200000).fresh % Config.levelCount] (by simp only [List.mem_singleton]; omega)
  rw [hb]
  dsimp only
  obtain ⟨c, hc⟩ := next [Config.choice (sTenq 0x200000).fresh % Config.levelCount, b] (by simp only [List.mem_cons, List.not_mem_nil, or_false]; omega)
  rw [hc]
  dsimp only
  obtain ⟨e, he⟩ := next [Config.choice (sTenq 0x200000).fresh % Config.levelCount, b, c] (by simp only [List.mem_cons, List.not_mem_nil, or_false]; omega)
  rw [he]
  rfl

theorem witness_host : s0.hostOn 3 = true ∧ s0.dieOn 63 = true ∧ 0x200000 + 4 ≤ Config.futBase ∧
    (∀ i < 4, ¬(s0.workBase ≤ 0x200000 + i ∧ 0x200000 + i < s0.workBase + 16 * Config.levelCount)) ∧ (63 : Nat) < 64 := by decide

theorem witness_buffer : let b := (s0.die 0).buf 1023
    b.valid = false ∧ (bufWritten b 0).valid = false := by decide +kernel

/-- The value of a well-formed valid entry of one chunk, and of one whose base is no multiple of 4,096. -/
def bufVal (base : Nat) : Nat := base + 2 ^ 64 + 2 ^ 128 + 0x400 * 2 ^ 160 + 0x500 * 2 ^ 192 + 0x600 * 2 ^ 224

theorem witness_buffer_good : let w := bufWritten ((s0.die 0).buf 1023) (bufVal 0x300000)
    w.valid = true ∧ (s0.die 0).bufBad 1023 (bufVal 0x300000) w = false ∧ ((s0.die 0).buf 1023).valid = false := by decide +kernel

theorem witness_buffer_bad : let w := bufWritten ((s0.die 0).buf 1023) (bufVal 0x300001)
    w.valid = true ∧ (s0.die 0).bufBad 1023 (bufVal 0x300001) w = true := by decide +kernel

theorem witness_registers : s0.dieOn 63 = true ∧ s0.dieOn (1023 / 16) = true ∧ s0.dieOn (2047 / 32) = true ∧ (s0.block 143).off = false ∧
    s0.portOn 7 = true ∧ s0.portOn (127 / 16) = true ∧ s0.hostOn (191 / 48) = true ∧ s0.fw.status ≠ 1 ∧
    ({ Firmware.reset with status := 1 } : Firmware).status = 1 ∧ (s0.vf 191).trapHeld = [] ∧ (s0.vf 191).held = [] ∧
    ((sWhorl 2 (wdie 0 []) (wdie 1 [])).die 0).whorl = some (wdie 0 []) ∧ bitB (2 ^ 96) 96 = true ∧ bitB 16 4 = true ∧ bitB 16 5 = false ∧
    ∀ e ∈ [(Reg.ccfg, 0), (.dage, 0)], ({ s0 with blocks := [(0, { Block.reset 0 with off := true }), (128, { Block.reset 128 with off := true })] } : State).regOn
      e.1 e.2 = false := by decide

theorem witness_partition : s0.moving 63 = false ∧ ((s0.mapDie 63 (fun x => { x with moveUntil := 1 })).moving 63 = true) ∧
    (s0.die 63).member = false ∧ (s0.die 63).retired = false ∧ s0.dieBusy 63 = false ∧ s0.undrained 63 = false ∧
    s0.dieBusy 0 = true ∧ (s0.die 0).member = true ∧ s0.vfBusy 191 = false ∧
    s0.vfs.any (fun e => decide (e.1 ≠ 191) && e.2.en && decide (e.2.part.toNat = 1) && decide (bits e.2.qmask.toNat 0 64 &&& 1 ≠ 0)) = false ∧
    (s0.members 1).length < 2 ∧ 2 ≤ ((sWhorl 2 default default).members 0).length ∧ s0.members 0 ≠ [] ∧ s0.collOut 0 255 = false ∧
    (sChunks0.collOut 0 0 = true) := by decide

-- The permute example: stages 0 to 5 all set reverse the 64 lanes, stage 5 alone exchanges neighbours (R239 to R241).
theorem test_permute : benesLanes (2 ^ 192 - 1) = (List.range 64).map (63 - ·) ∧
    benesLanes ((2 ^ 32 - 1) * 2 ^ 160) = (List.range 64).map (fun l => l ^^^ 1) := by decide +kernel

end Sys2Proof.Tests
end

section
/-! SUPPORT. The integer words of the sequencer (R166, R167, R169): what the value functions of the alu group compute,
said over the operations of bit vectors; what a word with one or two sources gives; and the two claims about them. -/

namespace Sys2Proof.Machine

open Sys2Proof Sys2Proof.Claims

/-! ## Values: shifts, products, minima and maxima (R166) -/

theorem shiftBy_eq_toNat_and (y : Word) : shiftBy y = (y &&& 63).toNat := by
  rw [BitVec.toNat_and]
  exact (Nat.and_two_pow_sub_one_eq_mod y.toNat 6).symm

theorem shiftBy_lt (y : Word) : shiftBy y < 64 := Nat.mod_lt _ (by decide)

/-- The two parts of a rotated word share no bit, so their sum is their union. -/
theorem rolW_eq_rotateLeft (x : Word) {k : Nat} (hk : k < 64) : rolW x k = x.rotateLeft k := by
  have hpow : 2 ^ 64 = 2 ^ (64 - k) * 2 ^ k := by rw [← Nat.pow_add, Nat.sub_add_cancel (Nat.le_of_lt hk)]
  have hlow : x.toNat / 2 ^ (64 - k) < 2 ^ k := Nat.div_lt_of_lt_mul (hpow ▸ x.isLt)
  have hhigh : x.toNat * 2 ^ k % 2 ^ 64 = (x.toNat % 2 ^ (64 - k)) <<< k := by
    rw [hpow, Nat.mul_mod_mul_right, Nat.shiftLeft_eq]
  have hor : (x.rotateLeft k).toNat = x.toNat * 2 ^ k % 2 ^ 64 + x.toNat / 2 ^ (64 - k) := by
    rw [BitVec.toNat_rotateLeft, Nat.mod_eq_of_lt hk, Nat.shiftLeft_eq, Nat.shiftRight_eq_div_pow, hhigh,
      Nat.shiftLeft_add_eq_or_of_lt hlow]
  rw [rolW, ← hor, BitVec.ofNat_toNat, BitVec.setWidth_eq]

theorem shiftLeft_shiftBy (x y : Word) : x <<< shiftBy y = x <<< (y &&& 63) := by
  rw [shiftBy_eq_toNat_and, BitVec.shiftLeft_eq']

theorem shiftRight_shiftBy (x y : Word) : x >>> shiftBy y = x >>> (y &&& 63) := by
  rw [shiftBy_eq_toNat_and, BitVec.ushiftRight_eq']

theorem sshiftRight_shiftBy (x y : Word) : x.sshiftRight (shiftBy y) = x.sshiftRight' (y &&& 63) := by
  rw [shiftBy_eq_toNat_and, BitVec.sshiftRight_eq']

theorem rolW_shiftBy (x y : Word) : rolW x (shiftBy y) = x.rotateLeft (y &&& 63).toNat := by
  rw [rolW_eq_rotateLeft x (shiftBy_lt y), shiftBy_eq_toNat_and]

theorem intW_eq_ofInt (z : Int) : intW z = BitVec.ofInt 64 z := by
  apply BitVec.eq_of_toNat_eq
  rw [BitVec.toNat_ofInt, intW, BitVec.toNat_ofNat, uNat]
  omega

theorem highW_eq_extractLsb' (p : Int) : highW p = (BitVec.ofInt 128 p).extractLsb' 64 64 := by
  apply BitVec.eq_of_toNat_eq
  rw [BitVec.extractLsb'_toNat, BitVec.toNat_ofInt, Nat.shiftRight_eq_div_pow, highW, BitVec.toNat_ofNat, uNat]
  omega

theorem highW_toInt_mul (x y : Word) :
    highW (x.toInt * y.toInt) = (x.signExtend 128 * y.signExtend 128).extractLsb' 64 64 := by
  rw [highW_eq_extractLsb', BitVec.ofInt_mul, BitVec.signExtend, BitVec.signExtend]

theorem highW_toNat_mul (x y : Word) :
    highW ((x.toNat : Int) * y.toNat) = (x.zeroExtend 128 * y.zeroExtend 128).extractLsb' 64 64 := by
  rw [highW_eq_extractLsb', BitVec.ofInt_mul, BitVec.ofInt_natCast, BitVec.ofInt_natCast, BitVec.ofNat_toNat,
    BitVec.ofNat_toNat]

/-- A choice by `≤` and one by `<` differ only where the keys are equal, and there the chosen values agree. -/
theorem ite_le_eq_ite_lt {α : Type} [LinearOrder α] {m n : α} {lt : Bool} {p q : Word} (hlt : lt = true ↔ m < n)
    (heq : m = n → p = q) : (if m ≤ n then p else q) = if lt then p else q := by
  simp only [hlt]
  rcases lt_trichotomy m n with h | h | h
  · rw [if_pos h, if_pos h.le]
  · rw [heq h, ite_self, ite_self]
  · rw [if_neg h.not_ge, if_neg h.not_gt]

/-! ## Values: saturation (R135) -/

theorem setWidth_eq_intW (t : BitVec 65) : t.setWidth 64 = intW t.toInt := by
  rw [intW_eq_ofInt]
  apply BitVec.eq_of_toNat_eq
  rw [BitVec.toNat_ofInt, BitVec.toNat_setWidth, BitVec.toInt_eq_toNat_cond]
  split <;> omega

theorem sat65_eq_satW (t : BitVec 65) : sat65 t = satW t.toInt := by
  rw [sat65, satW, satTo, setWidth_eq_intW]
  by_cases hlo : t.toInt < -2 ^ 63
  · rw [if_pos hlo, if_pos (by omega)]
    rfl
  · by_cases hhi : 2 ^ 63 ≤ t.toInt
    · rw [if_neg hlo, if_pos hhi, if_neg (by omega), if_pos (by omega)]
      rfl
    · rw [if_neg hlo, if_neg hhi, if_neg (by omega), if_neg (by omega)]

theorem toInt_bounds (x : Word) : -2 ^ 63 ≤ x.toInt ∧ x.toInt < 2 ^ 63 := ⟨x.le_toInt, x.toInt_lt⟩

/-- 65 bits hold the sum of two words. -/
theorem toInt_signExtend_add (x y : Word) : (x.signExtend 65 + y.signExtend 65).toInt = x.toInt + y.toInt := by
  have hx := toInt_bounds x
  have hy := toInt_bounds y
  rw [BitVec.toInt_add, BitVec.toInt_signExtend_of_le (by decide), BitVec.toInt_signExtend_of_le (by decide)]
  exact Int.bmod_eq_of_le (by omega) (by omega)

/-- 65 bits hold the difference of two words. -/
theorem toInt_signExtend_sub (x y : Word) : (x.signExtend 65 - y.signExtend 65).toInt = x.toInt - y.toInt := by
  have hx := toInt_bounds x
  have hy := toInt_bounds y
  rw [BitVec.toInt_sub, BitVec.toInt_signExtend_of_le (by decide), BitVec.toInt_signExtend_of_le (by decide)]
  exact Int.bmod_eq_of_le (by omega) (by omega)

theorem satW_add (x y : Word) : satW (x.toInt + y.toInt) = sat65 (x.signExtend 65 + y.signExtend 65) := by
  rw [sat65_eq_satW, toInt_signExtend_add]

theorem satW_sub (x y : Word) : satW (x.toInt - y.toInt) = sat65 (x.signExtend 65 - y.signExtend 65) := by
  rw [sat65_eq_satW, toInt_signExtend_sub]

/-! ## Values: counts of bits (R166) -/

theorem bitB_eq_testBit (v k : Nat) : bitB v k = v.testBit k := Nat.testBit_eq_decide_div_mod_eq.symm

theorem zerosDown_eq {v k n : Nat} (hn : n ≤ k) (hz : ∀ i < n, v.testBit (k - 1 - i) = false)
    (ho : n < k → v.testBit (k - 1 - n) = true) : zerosDown v k = n := by
  induction k generalizing n with
  | zero => exact (Nat.le_zero.mp hn).symm
  | succ k ih =>
    rw [zerosDown, bitB_eq_testBit]
    cases n with
    | zero => exact if_pos (ho k.succ_pos)
    | succ n =>
      have hk : v.testBit k = false := hz 0 n.succ_pos
      have shift : ∀ i, k + 1 - 1 - (i + 1) = k - 1 - i := by omega
      have hrest : zerosDown v k = n :=
        ih (by omega) (fun i hi => shift i ▸ hz (i + 1) (by omega)) (fun h => shift n ▸ ho (by omega))
      rw [hk, if_neg Bool.false_ne_true, hrest, Nat.add_comm]

theorem zerosUp_eq {v k m n : Nat} (hn : n ≤ m) (hz : ∀ i < n, v.testBit (k + i) = false)
    (ho : n < m → v.testBit (k + n) = true) : zerosUp v k m = n := by
  induction m generalizing k n with
  | zero => exact (Nat.le_zero.mp hn).symm
  | succ m ih =>
    rw [zerosUp, bitB_eq_testBit]
    cases n with
    | zero => exact if_pos (ho m.succ_pos)
    | succ n =>
      have hk : v.testBit k = false := hz 0 n.succ_pos
      have shift : ∀ i, k + (i + 1) = k + 1 + i := by omega
      have hrest : zerosUp v (k + 1) m = n :=
        ih (by omega) (fun i hi => shift i ▸ hz (i + 1) (by omega)) (fun h => shift n ▸ ho (by omega))
      rw [hk, if_neg Bool.false_ne_true, hrest, Nat.add_comm]

theorem onesOf_eq_countP (v n : Nat) : onesOf v n = (List.range n).countP v.testBit := by
  induction n with
  | zero => rfl
  | succ n ih => rw [onesOf, ih, List.range_succ, List.countP_append, List.countP_singleton, bitB_eq_testBit, b2n]

/-! ## Values: division (R167) -/

theorem sdiv_eq_ofInt (x y : Word) : x.sdiv y = BitVec.ofInt 64 (x.toInt.tdiv y.toInt) := by
  rw [← BitVec.toInt_inj, BitVec.toInt_sdiv, BitVec.toInt_ofInt]

theorem srem_eq_ofInt (x y : Word) : x.srem y = BitVec.ofInt 64 (x.toInt.tmod y.toInt) := by
  rw [← BitVec.toInt_srem, BitVec.ofInt_toInt]

/-- The one signed quotient that does not fit wraps to -2^63, which is also what R167 gives it. -/
theorem intW_divS_of_ne_zero (x : Word) {y : Word} (hy : y ≠ 0) :
    intW (divS x y).1 = x.sdiv y ∧ intW (divS x y).2 = x.srem y := by
  have hy0 : y.toInt ≠ 0 := fun h => hy (BitVec.eq_of_toInt_eq h)
  rw [sdiv_eq_ofInt, srem_eq_ofInt, intW_eq_ofInt, intW_eq_ofInt, divS, if_neg hy0]
  by_cases hover : x.toInt = -(2 ^ 63 : Nat) ∧ y.toInt = -1
  · rw [if_pos hover, hover.1, hover.2]
    decide
  · rw [if_neg hover]
    exact ⟨rfl, rfl⟩

theorem intW_divS_zero (x : Word) : intW (divS x 0).1 = -1 ∧ intW (divS x 0).2 = x := by
  rw [divS, if_pos (by decide), intW_eq_ofInt, intW_eq_ofInt]
  exact ⟨rfl, BitVec.ofInt_toInt⟩

theorem intW_divS_fst (x y : Word) : intW (divS x y).1 = if y = 0 then -1 else x.sdiv y := by
  by_cases hy : y = 0
  · rw [if_pos hy, hy, (intW_divS_zero x).1]
  · rw [if_neg hy, (intW_divS_of_ne_zero x hy).1]

theorem intW_divS_snd (x y : Word) : intW (divS x y).2 = if y = 0 then x else x.srem y := by
  by_cases hy : y = 0
  · rw [if_pos hy, hy, (intW_divS_zero x).2]
  · rw [if_neg hy, (intW_divS_of_ne_zero x hy).2]

theorem toNat_eq_zero_iff (y : Word) : y.toNat = 0 ↔ y = 0 := BitVec.toNat_inj (y := 0)

theorem ofNat_divU_fst (x y : Word) : BitVec.ofNat 64 (divU x y).1 = if y = 0 then -1 else x / y := by
  simp only [divU, toNat_eq_zero_iff]
  split
  · rfl
  · exact BitVec.udiv_def.symm

theorem ofNat_divU_snd (x y : Word) : BitVec.ofNat 64 (divU x y).2 = if y = 0 then x else x % y := by
  simp only [divU, toNat_eq_zero_iff]
  split
  · rw [BitVec.ofNat_toNat, BitVec.setWidth_eq]
  · exact BitVec.umod_def.symm

/-! ## Words with a result and flags (R146, R166) -/

theorem State.resultFlags_eq (s : State) (h : Here) (nw : Bool) (dst : Nat) (r : Word × W32) :
    s.resultFlags h nw dst r = sqTo s h (((s.regs h).setFlags r.2).result nw dst r.1) ((s.ply h).pco + 4) := by
  simp only [State.resultFlags, State.result, State.mapRegs, State.mapPly_mapPly]
  simp only [State.mapPly, sqTo, Ply.advance, Ply.setPco, Ply.pco, State.regs]

theorem PlyRegs.setFlags_result_holds (r : PlyRegs) (nw : Bool) (dst : Nat) (v : Word) (m : W32) :
    Result r ((r.setFlags m).result nw dst v) nw dst v m := by
  obtain ⟨newest, shifted, dest, flags, others⟩ := PlyRegs.result_holds (r.setFlags m) nw dst v
  exact ⟨newest, shifted, dest, flags.trans BitVec.or_zero, others⟩

/-- A word that ends in `State.resultFlags` gives its value and sets its flags. -/
theorem gives_of_resultFlags {i : Instr} {s : State} {h : Here} {nw : Bool} {dst : Nat} {r : Word × W32}
    (e : exec i s = .next (s.resultFlags h nw dst r)) : Gives i s h nw dst r.1 r.2 :=
  ⟨_, by rw [e, State.resultFlags_eq], PlyRegs.setFlags_result_holds ..⟩

/-- A form with one source completes, whatever readable source it names, with the value `v` of it and no flag. -/
def GivesOf1 (f : Bool → BitVec 6 → BitVec 7 → Instr) (v : Word → Word) : Prop :=
  ∀ nw dst a s h x, s.sqHere = some h → SrcIs (s.regs h) a x → Gives (f nw dst a) s h nw dst.toNat (v x) 0

/-- A form with two sources completes, whatever readable sources it names, with the value and the flags `v` of them. -/
def GivesOf2 (f : Form2) (v : Word → Word → Word × W32) : Prop :=
  ∀ nw dst a b s h x y, s.sqHere = some h → SrcIs (s.regs h) a x → SrcIs (s.regs h) b y →
    Gives (f nw dst a b) s h nw dst.toNat (v x y).1 (v x y).2

theorem givesOf1_of_exec {f : Bool → BitVec 6 → BitVec 7 → Instr} {v : Word → Word}
    (e : ∀ nw dst a s, exec (f nw dst a) s = onSq s (fun h => s.withA h a (fun x => s.result h nw dst.toNat (v x)))) :
    GivesOf1 f v := fun nw dst a s h x hs hx =>
  gives_of (by rw [e, onSq_of _ hs, State.withA_of _ hx])

/-- A two-source form whose value is `w` in the model gives the value `v` that equals it. -/
theorem givesOf2_of_exec {f : Form2} {v w : Word → Word → Word}
    (e : ∀ nw dst a b s, exec (f nw dst a b) s =
      onSq s (fun h => s.withAB h a b (fun x y => s.result h nw dst.toNat (w x y))))
    (hvw : ∀ x y, w x y = v x y) : GivesOf2 f (fun x y => (v x y, 0)) := fun nw dst a b s h x y hs hx hy =>
  gives_of (by rw [e, onSq_of _ hs, State.withAB_of _ hx hy, hvw])

theorem givesOf2_of_exec_flags {f : Form2} {v w : Word → Word → Word × W32}
    (e : ∀ nw dst a b s, exec (f nw dst a b) s =
      onSq s (fun h => s.withAB h a b (fun x y => s.resultFlags h nw dst.toNat (w x y))))
    (hvw : ∀ x y, w x y = v x y) : GivesOf2 f v := fun nw dst a b s h x y hs hx hy =>
  gives_of_resultFlags (by rw [e, onSq_of _ hs, State.withAB_of _ hx hy, hvw])

/-! ## The groups (R166, R167, R169) -/

theorem aluForms_give : ∀ f ∈ aluForms, GivesOf2 f.1 f.2 := by
  simp only [aluForms, List.forall_mem_cons, List.not_mem_nil, false_imp_iff, implies_true, and_true]
  exact ⟨
    -- add, sub, and, or, xor, andn
    givesOf2_of_exec (fun _ _ _ _ _ => rfl) (fun _ _ => rfl),
    givesOf2_of_exec (fun _ _ _ _ _ => rfl) (fun _ _ => rfl),
    givesOf2_of_exec (fun _ _ _ _ _ => rfl) (fun _ _ => rfl),
    givesOf2_of_exec (fun _ _ _ _ _ => rfl) (fun _ _ => rfl),
    givesOf2_of_exec (fun _ _ _ _ _ => rfl) (fun _ _ => rfl),
    givesOf2_of_exec (fun _ _ _ _ _ => rfl) (fun _ _ => rfl),
    -- shl, shr, sar, rol
    givesOf2_of_exec (fun _ _ _ _ _ => rfl) shiftLeft_shiftBy,
    givesOf2_of_exec (fun _ _ _ _ _ => rfl) shiftRight_shiftBy,
    givesOf2_of_exec (fun _ _ _ _ _ => rfl) sshiftRight_shiftBy,
    givesOf2_of_exec (fun _ _ _ _ _ => rfl) rolW_shiftBy,
    -- mul, mulh, mulhu
    givesOf2_of_exec (fun _ _ _ _ _ => rfl) (fun _ _ => rfl),
    givesOf2_of_exec (fun _ _ _ _ _ => rfl) highW_toInt_mul,
    givesOf2_of_exec (fun _ _ _ _ _ => rfl) highW_toNat_mul,
    -- min, max, minu, maxu
    givesOf2_of_exec (fun _ _ _ _ _ => rfl) (fun _ _ => ite_le_eq_ite_lt BitVec.slt_iff_toInt_lt BitVec.eq_of_toInt_eq),
    givesOf2_of_exec (fun _ _ _ _ _ => rfl)
      (fun _ _ => ite_le_eq_ite_lt BitVec.slt_iff_toInt_lt (fun h => BitVec.eq_of_toInt_eq h.symm)),
    givesOf2_of_exec (fun _ _ _ _ _ => rfl) (fun _ _ => ite_le_eq_ite_lt decide_eq_true_iff BitVec.eq_of_toNat_eq),
    givesOf2_of_exec (fun _ _ _ _ _ => rfl)
      (fun _ _ => ite_le_eq_ite_lt decide_eq_true_iff (fun h => BitVec.eq_of_toNat_eq h.symm)),
    -- adds, subs
    givesOf2_of_exec_flags (fun _ _ _ _ _ => rfl) satW_add,
    givesOf2_of_exec_flags (fun _ _ _ _ _ => rfl) satW_sub⟩

theorem divForms_give : ∀ f ∈ divForms, GivesOf2 f.1 (fun x y => (f.2 x y, 0)) := by
  simp only [divForms, List.forall_mem_cons, List.not_mem_nil, false_imp_iff, implies_true, and_true]
  exact ⟨
    givesOf2_of_exec (fun _ _ _ _ _ => rfl) intW_divS_fst,
    givesOf2_of_exec (fun _ _ _ _ _ => rfl) intW_divS_snd,
    givesOf2_of_exec (fun _ _ _ _ _ => rfl) ofNat_divU_fst,
    givesOf2_of_exec (fun _ _ _ _ _ => rfl) ofNat_divU_snd⟩

theorem cmpForms_give : ∀ f ∈ cmpForms, GivesOf2 f.1 (fun x y => (if f.2 x y then 1 else 0, 0)) := by
  simp only [cmpForms, List.forall_mem_cons, List.not_mem_nil, false_imp_iff, implies_true, and_true]
  exact ⟨
    -- seq, sne
    givesOf2_of_exec (fun _ _ _ _ _ => rfl) (fun _ _ => rfl),
    givesOf2_of_exec (fun _ _ _ _ _ => rfl) (fun x y => congrArg oneIf (decide_not (p := x = y))),
    -- slt, sltu, sge, sgeu
    givesOf2_of_exec (fun _ _ _ _ _ => rfl) (fun _ _ => congrArg oneIf BitVec.slt_eq_decide.symm),
    givesOf2_of_exec (fun _ _ _ _ _ => rfl) (fun _ _ => congrArg oneIf BitVec.ult_eq_decide.symm),
    givesOf2_of_exec (fun _ _ _ _ _ => rfl) (fun _ _ => congrArg oneIf BitVec.sle_eq_decide.symm),
    givesOf2_of_exec (fun _ _ _ _ _ => rfl) (fun _ _ => congrArg oneIf BitVec.ule_eq_decide.symm)⟩

theorem clz_gives : GivesOf1 .clz (fun x => BitVec.ofNat 64 (zerosDown x.toNat 64)) :=
  givesOf1_of_exec (fun _ _ _ _ => rfl)

theorem ctz_gives : GivesOf1 .ctz (fun x => BitVec.ofNat 64 (zerosUp x.toNat 0 64)) :=
  givesOf1_of_exec (fun _ _ _ _ => rfl)

theorem popc_gives : GivesOf1 .popc (fun x => BitVec.ofNat 64 (onesOf x.toNat 64)) :=
  givesOf1_of_exec (fun _ _ _ _ => rfl)

theorem aluWords_give : aluWordsGiveTheirResult := by
  refine ⟨aluForms_give, ?clz, ?ctz, ?popc⟩
  case clz =>
    intro nw dst a s h x n hs hx hn hz ho
    have hcount : zerosDown x.toNat 64 = n := zerosDown_eq hn hz ho
    exact hcount ▸ clz_gives nw dst a s h x hs hx
  case ctz =>
    intro nw dst a s h x n hs hx hn hz ho
    have hcount : zerosUp x.toNat 0 64 = n :=
      zerosUp_eq hn (fun i hi => (Nat.zero_add i).symm ▸ hz i hi) (fun h => (Nat.zero_add n).symm ▸ ho h)
    exact hcount ▸ ctz_gives nw dst a s h x hs hx
  case popc =>
    intro nw dst a s h x hs hx
    exact onesOf_eq_countP x.toNat 64 ▸ popc_gives nw dst a s h x hs hx

end Sys2Proof.Machine

/-- Settles O2: each of the six words ends in `oneIf` of its condition. -/
theorem compareWordsGiveOneOrZero : Obligations.CompareWordsGiveOneOrZero :=
  Sys2Proof.Machine.cmpForms_give

/-- Settles O3: each word ends in the model's value of its sources, which is the value of the table. -/
theorem aluAndDivisionWordsGiveTheirResult : Obligations.AluAndDivisionWordsGiveTheirResult :=
  ⟨Sys2Proof.Machine.aluWords_give, Sys2Proof.Machine.divForms_give⟩
end

section
/-! SUPPORT. Vector entries (R40, R93, R149, R161): an entry that may issue passes its checks and makes its pop, and the
words that write no tile then set the register they name. -/

namespace Sys2Proof.Machine

open Sys2Proof Sys2Proof.Claims

/-! ## The ring of an entry -/

theorem onVec_of {s : State} {h : Here} {r : Ring} (f : Here → Ring → State) (hs : s.vecHere = some (h, r)) :
    onVec s f = .next (f h r) := by
  rw [onVec, hs]

theorem Ply.setRing_setRing (p : Ply) (r : Ring) (q q' : RingQ) : (p.setRing r q).setRing r q' = p.setRing r q' := by
  cases r <;> rfl
@[simp] theorem Ply.setRing_regs (p : Ply) (r : Ring) (q : RingQ) : (p.setRing r q).regs = p.regs := by cases r <;> rfl
@[simp] theorem Ply.setRing_vbase (p : Ply) (r : Ring) (q : RingQ) : (p.setRing r q).vbase = p.vbase := by cases r <;> rfl
@[simp] theorem Ply.setRing_pend (p : Ply) (r : Ring) (q : RingQ) : (p.setRing r q).pend = p.pend := by cases r <;> rfl
@[simp] theorem Ply.setRing_vaOld (p : Ply) (r : Ring) (q : RingQ) : (p.setRing r q).vaOld = p.vaOld := by cases r <;> rfl
@[simp] theorem Ply.setRing_vlOldVa (p : Ply) (r : Ring) (q : RingQ) : (p.setRing r q).vlOldVa = p.vlOldVa := by
  cases r <;> rfl

/-- The registers of a ply stand apart from its rings. -/
theorem Ply.mapRing_withRegs (p : Ply) (r : Ring) (f : RingQ → RingQ) (g : PlyRegs) :
    ({ p with regs := g } : Ply).mapRing r f = { p.mapRing r f with regs := g } := by
  cases r <;> rfl

theorem Ply.mapRing_setIx (p : Ply) (r : Ring) (f : RingQ → RingQ) (n : Nat) (x : Byte) :
    (p.setIx n x).mapRing r f = (p.mapRing r f).setIx n x := by
  cases r <;> rfl

theorem Ply.mapRing_setRing (p : Ply) (r : Ring) (q : RingQ) (f : RingQ → RingQ) :
    (p.setRing r q).mapRing r f = p.setRing r (f q) := by
  rw [Ply.mapRing, Ply.ring_setRing, Ply.setRing_setRing]

/-! ## The pop of an entry (R40, R93) -/

theorem Ply.told_eq_withKnows (p : Ply) (k : Nat) (v : IxView) : p.told k v = { p with knows := (p.told k v).knows } := by
  obtain ⟨m, hm⟩ := p.told_eq k v
  rw [hm]

theorem Ply.popTok_eq_withKnows (p : Ply) (a b : Nat) :
    p.popTok a b = { p.setTok a b (p.tok a b - 1) with knows := (p.popTok a b).knows } := by
  obtain ⟨m, hm⟩ := p.popTok_eq a b
  rw [hm]

/-- Ply `p` once the entry of ring `r` has made its pop, before its effect (R40). -/
def Ply.issued (p : Ply) (r : Ring) (pop : Bool) : Ply :=
  ({ p with
    toks := if (pop && !(p.ring r).popped) = true then
      mset 0 p.toks (ringPopFrom r * 6 + r.code) (p.tok (ringPopFrom r) r.code - 1) else p.toks
    knows := learns p r (if pop then some (ringPopFrom r) else none) }).setRing r
    { p.ring r with popped := (p.ring r).popped || pop }

theorem Ply.performed_eq_mapRing_issued (p : Ply) (r : Ring) (push pop : Bool) (raise : Option Nat) :
    performed p r push pop raise = (p.issued r pop).mapRing r (fun q => { q with done := some (push, raise) }) := by
  rw [Ply.issued, Ply.mapRing_setRing]
  rfl

@[simp] theorem Ply.issued_regs (p : Ply) (r : Ring) (pop : Bool) : (p.issued r pop).regs = p.regs := by simp [Ply.issued]
@[simp] theorem Ply.issued_vbase (p : Ply) (r : Ring) (pop : Bool) : (p.issued r pop).vbase = p.vbase := by simp [Ply.issued]
@[simp] theorem Ply.issued_pend (p : Ply) (r : Ring) (pop : Bool) : (p.issued r pop).pend = p.pend := by simp [Ply.issued]
@[simp] theorem Ply.issued_vaOld (p : Ply) (r : Ring) (pop : Bool) : (p.issued r pop).vaOld = p.vaOld := by simp [Ply.issued]
@[simp] theorem Ply.issued_vlOldVa (p : Ply) (r : Ring) (pop : Bool) : (p.issued r pop).vlOldVa = p.vlOldVa := by
  simp [Ply.issued]

@[simp] theorem Ply.performed_regs (p : Ply) (r : Ring) (push pop : Bool) (raise : Option Nat) :
    (performed p r push pop raise).regs = p.regs := by
  rw [performed, Ply.setRing_regs]

/-- An entry that makes no pop now only learns what SQ saw as it was appended. -/
theorem Ply.entrySees_eq_issued {p : Ply} {r : Ring} {pop : Bool} (hp : pop = true → (p.ring r).popped = true) :
    p.entrySees r = p.issued r pop := by
  have hpopped : ((p.ring r).popped || pop) = (p.ring r).popped := by cases pop <;> simp_all
  have htake : ¬(pop && !(p.ring r).popped) = true := by cases pop <;> simp_all
  have hknows : learns p r (if pop then some (ringPopFrom r) else none) = (p.entrySees r).knows := by
    cases pop
    · rfl
    · simp [learns, hp rfl, Ply.entrySees]
  have hring : ∀ m : Map IxView, ({ p with knows := m } : Ply).setRing r (p.ring r) = { p with knows := m } := by
    intro m; cases r <;> rfl
  rw [Ply.issued, hpopped, if_neg htake, hknows, hring]
  exact p.told_eq_withKnows _ _

/-- An entry whose token is there takes it and learns what it carries. -/
theorem Ply.popTok_entrySees_eq_issued {p : Ply} {r : Ring} (hp : (p.ring r).popped = false) :
    ((p.popTok (ringPopFrom r) r.code).entrySees r).mapRing r (fun q => { q with popped := true }) = p.issued r true := by
  have hhead : (p.popTok (ringPopFrom r) r.code).headE r = p.headE r := by
    rw [Ply.popTok_eq_withKnows]; cases r <;> rfl
  have hknows : learns p r (some (ringPopFrom r)) = ((p.popTok (ringPopFrom r) r.code).entrySees r).knows := by
    simp [learns, hp, Ply.entrySees, hhead]
  rw [Ply.issued, hp, if_pos (by rfl), if_pos rfl, hknows]
  generalize hm : ((p.popTok (ringPopFrom r) r.code).entrySees r).knows = m
  have hsees : (p.popTok (ringPopFrom r) r.code).entrySees r =
      { p.setTok (ringPopFrom r) r.code (p.tok (ringPopFrom r) r.code - 1) with knows := m } := by
    rw [← hm, Ply.entrySees, Ply.told_eq_withKnows, Ply.popTok_eq_withKnows]
  rw [hsees]
  cases r <;> rfl

/-- An entry whose token is there, if it pops one, makes its pop. -/
theorem Ply.entryPop_of {p : Ply} {r : Ring} {pop : Bool}
    (ht : pop = true → (p.ring r).popped = true ∨ p.tok (ringPopFrom r) r.code ≠ 0) :
    p.entryPop r (if pop then some (ringPopFrom r) else none) = some (p.issued r pop) := by
  cases pop
  case false => exact congrArg some (Ply.entrySees_eq_issued (fun h => absurd h Bool.false_ne_true))
  case true =>
    cases hp : (p.ring r).popped
    case true =>
      simp only [if_true, Ply.entryPop, hp]
      exact congrArg some (Ply.entrySees_eq_issued (fun _ => hp))
    case false =>
      have htok : p.tok (ringPopFrom r) r.code ≠ 0 := (ht rfl).resolve_left (by simp [hp])
      simp only [if_true, Ply.entryPop, hp, if_neg htok, Bool.false_eq_true, if_false]
      exact congrArg some (Ply.popTok_entrySees_eq_issued hp)

/-! ## The checks of an entry (R93, R149, R161) -/

theorem isLatch_iff (v : BitVec 8) : isLatch v = true ↔ 248 ≤ v.toNat ∧ v.toNat ≤ 251 := by
  simp [isLatch]

theorem Ply.mem_of_mem_checkable {p : Ply} {r : Ring} {pop : Bool} {fs : List VField} {f : VField}
    (hf : f ∈ p.checkable r pop fs) : f ∈ fs := by
  rw [Ply.checkable] at hf
  split at hf
  · exact List.mem_of_mem_filter hf
  · exact hf

/-- A good field that reads a latch finds it valid. -/
theorem exists_latch_of_fieldOk {g : PlyRegs} {count tag : Nat} {v : BitVec 8} (hok : FieldOk g count tag v true)
    (hv : isLatch v = true) : ∃ w, g.wLatch (v.toNat - 248) = some w ∧ w.tag = tag := by
  rw [FieldOk, if_pos ((isLatch_iff v).1 hv)] at hok
  exact hok rfl

/-- A good field that names a register names a declared one. -/
theorem vnum_lt_of_fieldOk {g : PlyRegs} {count tag : Nat} {v : BitVec 8} {reads : Bool} (hok : FieldOk g count tag v reads)
    (hv : ¬isLatch v = true) : g.vnum v < count ∧ g.vnum v < 248 := by
  rwa [FieldOk, if_neg (mt (isLatch_iff v).2 hv)] at hok

/-- Fields that are all good give no operand trap. -/
theorem PlyRegs.operandTrap_none {g : PlyRegs} {count tag : Nat} {fs : List VField}
    (hok : ∀ f ∈ fs, FieldOk g count tag f.val f.reads) : g.operandTrap count tag fs = none := by
  simp only [PlyRegs.operandTrap, Option.or_eq_none_iff, Option.map_eq_none_iff, List.find?_eq_none, Bool.and_eq_true,
    decide_eq_true_eq, Bool.not_eq_true', not_and]
  refine ⟨fun ⟨v, k, reads⟩ hf hlatch => ?latch, fun f hf hindirect => ?indirect, fun f hf hreg => ?declared⟩
  case latch =>
    obtain ⟨rfl, hv⟩ := hlatch
    obtain ⟨w, hw, htag⟩ := exists_latch_of_fieldOk (hok _ hf) hv
    simp [hw, htag]
  case indirect =>
    have hreg : ¬isLatch f.val = true := fun h => by have := (isLatch_iff _).1 h; omega
    exact Nat.not_le.2 (vnum_lt_of_fieldOk (hok f hf) hreg).2
  case declared =>
    exact Nat.not_le.2 (vnum_lt_of_fieldOk (hok f hf) (by simp [hreg])).1

theorem Shape.over_eq_false {e : Shape} (h : e.elems * e.bits ≤ 32768) : e.over = false :=
  decide_eq_false (Nat.not_lt.2 h)

/-- An entry that may issue, whose records are good, goes on to its effect, its pop made. -/
theorem State.issueVec_of {s : State} {h : Here} {r : Ring} {fs : List (BitVec 8 × Bool)} {pop : Bool} {vfs : List VField}
    {shf : Nat} {recs : List VRec} {body : State → Entry → State} (hi : Issues s h r fs pop)
    (hv : vfs.map (fun f => (f.val, f.reads)) = fs) (hrecs : firstRec recs = none) :
    s.issueVec h r vfs shf [] recs pop body = body (s.setPly h ((s.ply h).issued r pop)) ((s.ply h).headE r) := by
  have hfields : ((s.ply h).regsAt r pop).operandTrap (s.ply h).vcount ((s.ply h).headE r).tag
      ((s.ply h).checkable r pop vfs) = none :=
    PlyRegs.operandTrap_none fun f hf =>
      hi.fields (f.val, f.reads) (hv ▸ List.mem_map_of_mem (Ply.mem_of_mem_checkable hf))
  simp only [State.issueVec, hi.fresh, hfields, Shape.over_eq_false hi.fits, hrecs, Ply.entryPop_of hi.token,
    Bool.false_eq_true, if_false, List.find?_nil]

/-- A word of a vector ring whose entry may issue has its effect. -/
theorem exec_of_issues {i : Instr} {s : State} {h : Here} {r : Ring} {fs : List (BitVec 8 × Bool)} {pop : Bool}
    {vfs : List VField} {shf : Nat} {recs : List VRec} {body : State → Entry → State} {f : Here → Ring → State}
    (hi : Issues s h r fs pop) (e : exec i s = onVec s f) (hf : f h r = s.issueVec h r vfs shf [] recs pop body)
    (hv : vfs.map (fun f => (f.val, f.reads)) = fs) (hrecs : firstRec recs = none) :
    exec i s = .next (body (s.setPly h ((s.ply h).issued r pop)) ((s.ply h).headE r)) := by
  rw [e, onVec_of f hi.here, hf, State.issueVec_of hi hv hrecs]

/-! ## What an entry reads and leaves -/

@[simp] theorem State.setPly_tick (s : State) (h : Here) (p : Ply) : (s.setPly h p).tick = s.tick := rfl
@[simp] theorem State.setPly_core (s : State) (h : Here) (p : Ply) : (s.setPly h p).core h = s.core h := by
  simp [State.core]
@[simp] theorem State.setPly_regs (s : State) (h : Here) (p : Ply) : (s.setPly h p).regs h = p.regs := by
  simp [State.regs]

theorem State.setPly_mapPly (s : State) (h : Here) (p : Ply) (f : Ply → Ply) :
    (s.setPly h p).mapPly h f = s.setPly h (f p) := by
  rw [State.mapPly, State.setPly_ply, State.setPly_setPly]

theorem State.setPly_mapRegs (s : State) (h : Here) (p : Ply) (f : PlyRegs → PlyRegs) :
    (s.setPly h p).mapRegs h f = s.setPly h { p with regs := f p.regs } :=
  State.setPly_mapPly ..

@[simp] theorem State.rdV_issued (s : State) (h : Here) (r : Ring) (pop : Bool) (n : Nat) :
    (s.setPly h ((s.ply h).issued r pop)).rdV h n = s.rdV h n := by
  simp [State.rdV]

/-- The pop of an entry changes nothing that its source fields name. -/
@[simp] theorem State.vsrc_issued (s : State) (h : Here) (r : Ring) (pop : Bool) (a : BitVec 8) :
    (s.setPly h ((s.ply h).issued r pop)).vsrc h a = s.vsrc h a := by
  simp [State.vsrc, State.rdRace, State.regs]

theorem State.finishVec_issued (s : State) (h : Here) (r : Ring) (push pop : Bool) (raise : Option Nat) :
    (s.setPly h ((s.ply h).issued r pop)).finishVec h r push raise = s.setPly h (performed (s.ply h) r push pop raise) := by
  rw [State.finishVec, State.setPly_mapPly, Ply.performed_eq_mapRing_issued]

/-- An entry that has written a register of the ply, and is then performed. -/
theorem State.finishVec_mapRegs_issued (s : State) (h : Here) (r : Ring) (push pop : Bool) (f : PlyRegs → PlyRegs) :
    ((s.setPly h ((s.ply h).issued r pop)).mapRegs h f).finishVec h r push none =
      s.setPly h { performed (s.ply h) r push pop none with regs := f (performed (s.ply h) r push pop none).regs } := by
  rw [State.setPly_mapRegs, State.finishVec, State.setPly_mapPly, Ply.mapRing_withRegs, ← Ply.performed_eq_mapRing_issued,
    Ply.issued_regs, Ply.performed_regs]

/-- An entry that has written an index register, and is then performed (R93, R226). -/
theorem State.finishVec_setIx_issued (s : State) (h : Here) (r : Ring) (push pop : Bool) (n : Nat) (x : PlyRegs → Byte) :
    ((s.setPly h ((s.ply h).issued r pop)).mapPly h (fun p => p.setIx n (x p.regs))).finishVec h r push none =
      s.setPly h ((performed (s.ply h) r push pop none).setIx n (x (performed (s.ply h) r push pop none).regs)) := by
  rw [State.setPly_mapPly, State.finishVec, State.setPly_mapPly, Ply.mapRing_setIx, ← Ply.performed_eq_mapRing_issued,
    Ply.issued_regs, Ply.performed_regs]

end Sys2Proof.Machine
end

section
/-! SUPPORT. Elements (R92, R218): what the values of the integer forms are over the operations of bit vectors, and reading
the elements of a register after some of them have been written. -/

namespace Sys2Proof.Machine

open Sys2Proof Sys2Proof.Claims

/-! ## Signed values of `n` bits -/

theorem sInt_eq_toInt (v n : Nat) : sInt v n = (BitVec.ofNat n v).toInt := by
  rw [sInt, BitVec.toInt_eq_toNat_cond, BitVec.toNat_ofNat]
  cases n with
  | zero => simp [Nat.mod_one]
  | succ n =>
    rw [Nat.add_sub_cancel, Nat.pow_succ]
    congr 1
    exact propext (by omega)

theorem sInt_toNat {n : Nat} (x : BitVec n) : sInt x.toNat n = x.toInt := by
  rw [sInt_eq_toInt, BitVec.ofNat_toNat, BitVec.setWidth_eq]

theorem uNat_eq_toNat_ofInt (z : Int) (n : Nat) : uNat z n = (BitVec.ofInt n z).toNat := (BitVec.toNat_ofInt z).symm

theorem wrapTo_eq (n : Nat) (z : Int) : wrapTo n z = ((BitVec.ofInt n z).toNat, 0) := by
  rw [wrapTo, uNat_eq_toNat_ofInt]

/-! ## The integer forms (R218) -/

/-- What the integer form `F` of the model gives for two elements of `n` bits is `f` of them as bit vectors. -/
def GivesElems (F : Nat → Nat → Nat → Nat × W32) (f : (n : Nat) → BitVec n → BitVec n → BitVec n × W32) : Prop :=
  ∀ n, 0 < n → ∀ x y : BitVec n, F n x.toNat y.toNat = ((f n x y).1.toNat, (f n x y).2)

theorem givesElems_wrap {F : Nat → Int → Int → Int} {f : (n : Nat) → BitVec n → BitVec n → BitVec n}
    (hf : ∀ n (x y : BitVec n), BitVec.ofInt n (F n x.toInt y.toInt) = f n x y) :
    GivesElems (fun n x y => wrapTo n (F n (sInt x n) (sInt y n))) (fun n x y => (f n x y, 0)) := fun n _ x y => by
  simp only [wrapTo_eq, sInt_toNat, hf]

theorem ofInt_toInt_add (n : Nat) (x y : BitVec n) : BitVec.ofInt n (x.toInt + y.toInt) = x + y := by
  rw [BitVec.ofInt_add, BitVec.ofInt_toInt, BitVec.ofInt_toInt]

theorem ofInt_toInt_sub (n : Nat) (x y : BitVec n) : BitVec.ofInt n (x.toInt - y.toInt) = x - y := by
  rw [← BitVec.toInt_inj, BitVec.toInt_ofInt, BitVec.toInt_sub]

theorem ofInt_toInt_mul (n : Nat) (x y : BitVec n) : BitVec.ofInt n (x.toInt * y.toInt) = x * y := by
  rw [BitVec.ofInt_mul, BitVec.ofInt_toInt, BitVec.ofInt_toInt]

/-- Bits `n` to `2n - 1` of a number are those of its quotient by 2^n. -/
theorem ofInt_ediv_eq_extractLsb' (n : Nat) (z : Int) :
    BitVec.ofInt n (z / (2 ^ n : Nat)) = (BitVec.ofInt (2 * n) z).extractLsb' n n := by
  have hpow : 2 ^ (2 * n) = 2 ^ n * 2 ^ n := by rw [Nat.two_mul, Nat.pow_add]
  have hpos : (0 : Int) < (2 ^ n : Nat) := by positivity
  have hdiv : z / (2 ^ n : Nat) % (2 ^ n : Nat) = z % (2 ^ n * 2 ^ n : Nat) / (2 ^ n : Nat) := by
    rw [Nat.cast_mul, Int.emod_def z, Int.emod_def (z / _), Int.ediv_ediv_of_nonneg hpos.le, Int.mul_assoc, Int.sub_eq_add_neg,
      Int.sub_eq_add_neg, ← Int.mul_neg, ← Int.mul_neg, Int.add_mul_ediv_left _ _ hpos.ne', Int.mul_neg]
  obtain ⟨m, hm⟩ := Int.eq_ofNat_of_zero_le (Int.emod_nonneg z (b := (2 ^ n * 2 ^ n : Nat)) (by positivity))
  have hlt : m < 2 ^ n * 2 ^ n := by
    rw [← Int.ofNat_lt, ← hm]
    exact Int.emod_lt_of_pos z (by positivity)
  apply BitVec.eq_of_toNat_eq
  rw [BitVec.extractLsb'_toNat, BitVec.toNat_ofInt, BitVec.toNat_ofInt, Nat.shiftRight_eq_div_pow, hpow, hdiv, hm,
    ← Int.natCast_ediv, Int.toNat_natCast, Int.toNat_natCast, Nat.mod_eq_of_lt (Nat.div_lt_of_lt_mul hlt)]

theorem ofInt_toInt_mulh (n : Nat) (x y : BitVec n) : BitVec.ofInt n (x.toInt * y.toInt / (2 ^ n : Nat)) =
    (x.signExtend (2 * n) * y.signExtend (2 * n)).extractLsb' n n := by
  rw [ofInt_ediv_eq_extractLsb', BitVec.ofInt_mul, BitVec.signExtend, BitVec.signExtend]

theorem givesElems_and : GivesElems (fun _ x y => (x &&& y, 0)) (fun _ x y => (x &&& y, 0)) := fun _ _ x y => by
  rw [BitVec.toNat_and]
theorem givesElems_or : GivesElems (fun _ x y => (x ||| y, 0)) (fun _ x y => (x ||| y, 0)) := fun _ _ x y => by
  rw [BitVec.toNat_or]
theorem givesElems_xor : GivesElems (fun _ x y => (x ^^^ y, 0)) (fun _ x y => (x ^^^ y, 0)) := fun _ _ x y => by
  rw [BitVec.toNat_xor]

theorem givesElems_shl : GivesElems (fun n x y => wrapTo n ((x * 2 ^ (y % n) : Nat) : Int))
    (fun n x y => (x <<< (y.toNat % n), 0)) := fun n _ x y => by
  simp only [wrapTo_eq, BitVec.ofInt_natCast, BitVec.toNat_ofNat, BitVec.toNat_shiftLeft, Nat.shiftLeft_eq]

theorem givesElems_shr : GivesElems (fun n x y => (x / 2 ^ (y % n), 0)) (fun n x y => (x >>> (y.toNat % n), 0)) :=
  fun n _ x y => by rw [BitVec.toNat_ushiftRight, Nat.shiftRight_eq_div_pow]

theorem givesElems_sar : GivesElems (fun n x y => wrapTo n (sInt x n / (2 ^ (y % n) : Nat)))
    (fun n x y => (x.sshiftRight (y.toNat % n), 0)) := fun n _ x y => by
  simp only [wrapTo_eq, sInt_toNat, BitVec.sshiftRight_eq, Int.shiftRight_eq_div_pow]

/-- `ite_le_eq_ite_lt` at every width, for elements that the model holds as numbers. -/
theorem ite_le_eq_toNat_ite {α : Type} [LinearOrder α] {k l : α} {lt : Bool} {n : Nat} {p q : BitVec n}
    (hlt : lt = true ↔ k < l) (heq : k = l → p = q) :
    (if k ≤ l then p.toNat else q.toNat) = (if lt then p else q).toNat := by
  simp only [hlt]
  rcases lt_trichotomy k l with h | h | h
  · rw [if_pos h, if_pos h.le]
  · rw [heq h, ite_self, ite_self]
  · rw [if_neg h.not_ge, if_neg h.not_gt]

theorem givesElems_min : GivesElems (fun n x y => (if sInt x n ≤ sInt y n then x else y, 0))
    (fun _ x y => (if x.slt y then x else y, 0)) := fun n _ x y => by
  simp only [sInt_toNat, ite_le_eq_toNat_ite BitVec.slt_iff_toInt_lt BitVec.eq_of_toInt_eq]

theorem givesElems_max : GivesElems (fun n x y => (if sInt x n ≤ sInt y n then y else x, 0))
    (fun _ x y => (if x.slt y then y else x, 0)) := fun n _ x y => by
  simp only [sInt_toNat, ite_le_eq_toNat_ite BitVec.slt_iff_toInt_lt (fun h => BitVec.eq_of_toInt_eq h.symm)]

theorem givesElems_minu : GivesElems (fun _ x y => (min x y, 0)) (fun _ x y => (if x.ult y then x else y, 0)) :=
  fun n _ x y => by simp only [min_def, ite_le_eq_toNat_ite (BitVec.ult_iff_lt.trans BitVec.lt_def) BitVec.eq_of_toNat_eq]

theorem givesElems_maxu : GivesElems (fun _ x y => (max x y, 0)) (fun _ x y => (if x.ult y then y else x, 0)) :=
  fun n _ x y => by simp only [max_def, ite_le_eq_toNat_ite (BitVec.ult_iff_lt.trans BitVec.lt_def) (fun h => BitVec.eq_of_toNat_eq h.symm)]

/-! ## Saturation (R135) -/

theorem setWidth_eq_ofInt_toInt {m n : Nat} (h : n ≤ m) (t : BitVec m) : t.setWidth n = BitVec.ofInt n t.toInt := by
  have hdvd : ((2 ^ n : Nat) : Int) ∣ (2 ^ m : Nat) := Int.natCast_dvd_natCast.2 (Nat.pow_dvd_pow 2 h)
  apply BitVec.eq_of_toNat_eq
  rw [BitVec.toNat_ofInt, BitVec.toNat_setWidth, BitVec.toInt_eq_toNat_bmod, ← Int.emod_emod_of_dvd _ hdvd,
    Int.bmod_emod, Int.emod_emod_of_dvd _ hdvd]
  rfl

theorem intMin_eq_ofInt {n : Nat} (hn : 0 < n) : BitVec.intMin n = BitVec.ofInt n (-(2 ^ (n - 1) : Nat)) := by
  rw [← BitVec.ofInt_toInt (x := BitVec.intMin n), BitVec.toInt_intMin_of_pos hn, Nat.cast_pow, Nat.cast_ofNat]

theorem intMax_eq_ofInt (n : Nat) : BitVec.intMax n = BitVec.ofInt n ((2 ^ (n - 1) : Nat) - 1) := by
  rw [← BitVec.ofInt_toInt (x := BitVec.intMax n), BitVec.toInt_intMax, Nat.cast_pow, Nat.cast_ofNat]

theorem satElem_toInt {n : Nat} (hn : 0 < n) (t : BitVec (n + 1)) :
    satElem n t.toInt = ((satN t).1.toNat, (satN t).2) := by
  rw [satElem, satTo, satN, setWidth_eq_ofInt_toInt (Nat.le_succ n), intMin_eq_ofInt hn, intMax_eq_ofInt]
  push_cast
  by_cases hlo : t.toInt < -2 ^ (n - 1)
  · simp only [if_pos hlo, uNat_eq_toNat_ofInt]
    rfl
  · by_cases hhi : 2 ^ (n - 1) ≤ t.toInt
    · simp only [if_neg hlo, if_pos hhi, if_pos (show (2 : Int) ^ (n - 1) - 1 < t.toInt by omega), uNat_eq_toNat_ofInt]
      rfl
    · simp only [if_neg hlo, if_neg hhi, if_neg (show ¬(2 : Int) ^ (n - 1) - 1 < t.toInt by omega), uNat_eq_toNat_ofInt]

/-- A number that one bit more than `n` holds. -/
theorem bmod_eq_of_bounds {n : Nat} {z : Int} (hlo : -2 ^ n ≤ z) (hhi : z < 2 ^ n) :
    z.bmod (2 ^ (n + 1)) = z := by
  have hpow : 2 ^ (n + 1) = 2 * 2 ^ n := by rw [Nat.pow_succ, Nat.mul_comm]
  have hcast : ((2 ^ n : Nat) : Int) = 2 ^ n := by push_cast; rfl
  rw [hpow]
  exact Int.bmod_eq_of_le (by omega) (by omega)

theorem two_mul_toInt_bounds {n : Nat} (x : BitVec n) :
    -2 ^ n ≤ 2 * x.toInt ∧ 2 * x.toInt < 2 ^ n := ⟨x.le_two_mul_toInt, x.two_mul_toInt_lt⟩

theorem toInt_signExtend_succ_add {n : Nat} (x y : BitVec n) :
    (x.signExtend (n + 1) + y.signExtend (n + 1)).toInt = x.toInt + y.toInt := by
  have hx := two_mul_toInt_bounds x
  have hy := two_mul_toInt_bounds y
  rw [BitVec.toInt_add, BitVec.toInt_signExtend_of_le (Nat.le_succ n), BitVec.toInt_signExtend_of_le (Nat.le_succ n)]
  exact bmod_eq_of_bounds (by omega) (by omega)

theorem toInt_signExtend_succ_sub {n : Nat} (x y : BitVec n) :
    (x.signExtend (n + 1) - y.signExtend (n + 1)).toInt = x.toInt - y.toInt := by
  have hx := two_mul_toInt_bounds x
  have hy := two_mul_toInt_bounds y
  rw [BitVec.toInt_sub, BitVec.toInt_signExtend_of_le (Nat.le_succ n), BitVec.toInt_signExtend_of_le (Nat.le_succ n)]
  exact bmod_eq_of_bounds (by omega) (by omega)

theorem givesElems_adds : GivesElems (fun n x y => satElem n (sInt x n + sInt y n))
    (fun n x y => satN (x.signExtend (n + 1) + y.signExtend (n + 1))) := fun n hn x y => by
  simp only [sInt_toNat, ← toInt_signExtend_succ_add, satElem_toInt hn]

theorem givesElems_subs : GivesElems (fun n x y => satElem n (sInt x n - sInt y n))
    (fun n x y => satN (x.signExtend (n + 1) - y.signExtend (n + 1))) := fun n hn x y => by
  simp only [sInt_toNat, ← toInt_signExtend_succ_sub, satElem_toInt hn]

/-! ## The masks of a compare (R223) -/

theorem toNat_ite_neg_one (n : Nat) (c : Bool) : (if c then -1 else 0 : BitVec n).toNat = if c then 2 ^ n - 1 else 0 := by
  cases c
  · rfl
  · exact (congrArg BitVec.toNat BitVec.neg_one_eq_allOnes).trans BitVec.toNat_allOnes

theorem givesElems_mask {F : Int → Int → Bool} {f : (n : Nat) → BitVec n → BitVec n → Bool}
    (hf : ∀ n (x y : BitVec n), F x.toInt y.toInt = f n x y) :
    GivesElems (fun n x y => (if F (sInt x n) (sInt y n) then 2 ^ n - 1 else 0, 0))
      (fun n x y => (if f n x y then -1 else 0, 0)) := fun n _ x y => by
  simp only [sInt_toNat, hf, toNat_ite_neg_one]

theorem decide_toInt_eq (n : Nat) (x y : BitVec n) : decide (x.toInt = y.toInt) = (x == y) := by
  rw [Bool.eq_iff_iff, decide_eq_true_eq, beq_iff_eq, BitVec.toInt_inj]

/-! ## Elements of a register (R92) -/

theorem getByte_putLE (m : Map Byte) (a k x q : Nat) :
    getByte (putLE m a k x) q = if a ≤ q ∧ q < a + k then (leBytes k x).getD (q - a) 0 else getByte m q := by
  rw [putLE, getByte_putBytes, leBytes_length]

theorem getBytes_congr {m m' : Map Byte} {a k : Nat} (h : ∀ q, a ≤ q → q < a + k → getByte m q = getByte m' q) :
    getBytes m a k = getBytes m' a k := by
  induction k generalizing a with
  | zero => rfl
  | succ k ih =>
    rw [getBytes, getBytes, h a (Nat.le_refl a) (by omega), ih (fun q h1 h2 => h q (by omega) (by omega))]

theorem getBytes_putBytes_at (m : Map Byte) (a : Nat) (bs : List Byte) :
    getBytes (putBytes m a bs) a bs.length = bs := by
  induction bs generalizing m a with
  | nil => rfl
  | cons b t ih =>
    have hfirst : getByte (putBytes (putByte m a b) (a + 1) t) a = b := by
      rw [getByte_putBytes, if_neg (by omega), getByte_putByte, if_pos rfl]
    rw [putBytes, List.length_cons, getBytes, hfirst, ih]

theorem leNat_lt (bs : List Byte) : leNat bs < 256 ^ bs.length := by
  induction bs with
  | nil => exact Nat.one_pos
  | cons b t ih =>
    have hb := b.isLt
    rw [leNat, List.length_cons, Nat.pow_succ]
    omega

theorem getLE_putLE (m : Map Byte) (a k x : Nat) : getLE (putLE m a k x) a k = x % 256 ^ k := by
  have h := getBytes_putBytes_at m a (leBytes k x)
  rw [leBytes_length] at h
  rw [getLE, putLE, h, leNat_leBytes]

theorem getLE_putLE_apart (m : Map Byte) {a b k : Nat} (x : Nat) (h : a + k ≤ b ∨ b + k ≤ a) :
    getLE (putLE m a k x) b k = getLE m b k := by
  have hsame : getBytes (putLE m a k x) b k = getBytes m b k :=
    getBytes_congr fun q h1 h2 => by rw [getByte_putLE, if_neg (by omega)]
  rw [getLE, hsame, getLE]

/-- An element size: 4 bits, or whole bytes. -/
def ElemSize (n : Nat) : Prop := n = 4 ∨ ∃ k, n = 8 * k ∧ 0 < k

theorem Shape.bits_elemSize (e : Shape) : ElemSize e.bits := by
  rw [Shape.bits]
  split
  · exact .inl rfl
  · exact .inr ⟨1, rfl, Nat.one_pos⟩
  · exact .inr ⟨2, rfl, Nat.two_pos⟩
  · exact .inr ⟨4, rfl, by decide⟩

theorem ElemSize.pos {n : Nat} (hn : ElemSize n) : 0 < n := by
  obtain rfl | ⟨k, rfl, hk⟩ := hn <;> omega

theorem elemAt_bytes (v : VReg) {k : Nat} (i : Nat) : elemAt v (8 * k) i = getLE v (i * k) k := by
  rw [elemAt, if_neg (by omega), Nat.mul_div_cancel_left k (by decide)]

theorem setElem_bytes (v : VReg) {k : Nat} (i x : Nat) : setElem v (8 * k) i x = putLE v (i * k) k x := by
  rw [setElem, if_neg (by omega), Nat.mul_div_cancel_left k (by decide)]

theorem two_pow_eight_mul (k : Nat) : 2 ^ (8 * k) = 256 ^ k := Nat.pow_mul 2 8 k

theorem elemAt_lt {n : Nat} (hn : ElemSize n) (v : VReg) (i : Nat) : elemAt v n i < 2 ^ n := by
  obtain rfl | ⟨k, rfl, -⟩ := hn
  · exact Nat.mod_lt _ (by decide)
  · rw [elemAt_bytes, two_pow_eight_mul]
    exact (leNat_lt _).trans_eq (by rw [getBytes_length])

theorem toNat_ofNat_elemAt {n : Nat} (hn : ElemSize n) (v : VReg) (i : Nat) :
    (BitVec.ofNat n (elemAt v n i)).toNat = elemAt v n i := by
  rw [BitVec.toNat_ofNat, Nat.mod_eq_of_lt (elemAt_lt hn v i)]

/-- Runs of `k` bytes at different indexes lie apart. -/
theorem runs_apart {i j : Nat} (k : Nat) (h : i ≠ j) : i * k + k ≤ j * k ∨ j * k + k ≤ i * k := by
  rw [← Nat.succ_mul, ← Nat.succ_mul]
  exact (Nat.lt_or_gt_of_ne h).imp (Nat.mul_le_mul_right k) (Nat.mul_le_mul_right k)

theorem elemAt_setElem {n : Nat} (hn : ElemSize n) (v : VReg) (i x j : Nat) :
    elemAt (setElem v n i x) n j = if j = i then x % 2 ^ n else elemAt v n j := by
  obtain rfl | ⟨k, rfl, -⟩ := hn
  · have hlt := (getByte v (i / 2)).isLt
    simp only [elemAt, setElem, if_true, getByte_putByte]
    by_cases hj : j = i
    · subst hj
      rw [if_pos rfl, if_pos rfl, BitVec.toNat_ofNat]
      split <;> omega
    · rw [if_neg hj]
      by_cases hb : j / 2 = i / 2
      · rw [if_pos hb, BitVec.toNat_ofNat, hb]
        split <;> split <;> omega
      · rw [if_neg hb]
  · rw [setElem_bytes, elemAt_bytes, elemAt_bytes, two_pow_eight_mul]
    by_cases hj : j = i
    · rw [hj, getLE_putLE, if_pos rfl]
    · rw [if_neg hj, getLE_putLE_apart _ _ (runs_apart k (Ne.symm hj))]

theorem getByte_setElem {n : Nat} (hn : ElemSize n) (v : VReg) (i x : Nat) {q : Nat} (hq : (i + 1) * n ≤ 8 * q) :
    getByte (setElem v n i x) q = getByte v q := by
  obtain rfl | ⟨k, rfl, -⟩ := hn
  · rw [setElem, if_pos rfl, getByte_putByte, if_neg (by omega)]
  · have hle : i * k + k ≤ q := by rw [Nat.mul_left_comm, Nat.add_mul, Nat.one_mul] at hq; omega
    rw [setElem_bytes, getByte_putLE, if_neg (by omega)]

theorem elemAt_writeTile {n : Nat} (hn : ElemSize n) (xs : List Nat) (v : VReg) (i j : Nat) :
    elemAt (writeTile v n i xs) n j =
      if i ≤ j ∧ j < i + xs.length then xs.getD (j - i) 0 % 2 ^ n else elemAt v n j := by
  induction xs generalizing v i with
  | nil => rw [writeTile, List.length_nil, if_neg (by omega)]
  | cons x t ih =>
    rw [writeTile, ih, elemAt_setElem hn, List.length_cons]
    by_cases hj : j = i
    · rw [if_neg (by omega), if_pos hj, if_pos (by omega), hj, Nat.sub_self, List.getD_cons_zero]
    · by_cases hin : i + 1 ≤ j ∧ j < i + 1 + t.length
      · rw [if_pos hin, if_pos (by omega), show j - i = j - (i + 1) + 1 by omega, List.getD_cons_succ]
      · rw [if_neg hin, if_neg hj, if_neg (by omega)]

theorem getByte_writeTile {n : Nat} (hn : ElemSize n) (xs : List Nat) (v : VReg) (i : Nat) {q : Nat}
    (hq : (i + xs.length) * n ≤ 8 * q) : getByte (writeTile v n i xs) q = getByte v q := by
  induction xs generalizing v i with
  | nil => rfl
  | cons x t ih =>
    have hlen : i + (x :: t).length = i + 1 + t.length := by rw [List.length_cons]; omega
    have hfirst : (i + 1) * n ≤ (i + 1 + t.length) * n := Nat.mul_le_mul_right n (Nat.le_add_right ..)
    rw [hlen] at hq
    rw [writeTile, ih _ _ hq, getByte_setElem hn _ _ _ (hfirst.trans hq)]

/-- The elements of a tile that has been written whole. -/
theorem elemAt_writeTile_range {n : Nat} (hn : ElemSize n) (f : Nat → Nat) (v : VReg) {t j : Nat} (hj : j < t) :
    elemAt (writeTile v n 0 ((List.range t).map f)) n j = f j % 2 ^ n := by
  rw [elemAt_writeTile hn, List.length_map, List.length_range, if_pos ⟨Nat.zero_le j, by omega⟩, Nat.sub_zero,
    List.getD_eq_getElem _ _ (by simpa using hj), List.getElem_map, List.getElem_range]

theorem getByte_writeTile_range {n : Nat} (hn : ElemSize n) (f : Nat → Nat) (v : VReg) {t q : Nat} (hq : t * n ≤ 8 * q) :
    getByte (writeTile v n 0 ((List.range t).map f)) q = getByte v q :=
  getByte_writeTile hn _ _ _ (by rwa [List.length_map, List.length_range, Nat.zero_add])

end Sys2Proof.Machine
end

section
/-! SUPPORT. The vector words that write no tile (R213, R214, R226, R228, R231, R240), and the claim about them. -/

namespace Sys2Proof.Machine

open Sys2Proof Sys2Proof.Claims

section
variable {i : Instr} {s : State} {h : Here} {r : Ring} {fs : List (BitVec 8 × Bool)} {push pop : Bool} {vfs : List VField}
  {shf : Nat} {f : Here → Ring → State}

/-- A word whose only effect is to be performed. -/
theorem turns_of_finishVec {raise : Option Nat} (hi : Issues s h r fs pop) (e : exec i s = onVec s f)
    (hf : f h r = s.issueVec h r vfs shf [] [] pop (fun s _ => s.finishVec h r push raise))
    (hv : vfs.map (fun f => (f.val, f.reads)) = fs) : Turns i s h (performed (s.ply h) r push pop raise) := by
  rw [Turns, exec_of_issues hi e hf hv rfl, State.finishVec_issued]

/-- A word that changes registers of the ply by what its entry finds. -/
theorem turns_of_mapRegs {g : State → Entry → PlyRegs → PlyRegs} (hi : Issues s h r fs pop) (e : exec i s = onVec s f)
    (hf : f h r = s.issueVec h r vfs shf [] [] pop (fun s e => (s.mapRegs h (g s e)).finishVec h r push none))
    (hv : vfs.map (fun f => (f.val, f.reads)) = fs) :
    Turns i s h { performed (s.ply h) r push pop none with
      regs := g (s.setPly h ((s.ply h).issued r pop)) ((s.ply h).headE r) (performed (s.ply h) r push pop none).regs } := by
  rw [Turns, exec_of_issues hi e hf hv rfl, State.finishVec_mapRegs_issued]

/-- A word that writes an index register. -/
theorem turns_of_setIx {ix : Nat} {x : State → Entry → PlyRegs → Byte} (hi : Issues s h r fs pop)
    (e : exec i s = onVec s f)
    (hf : f h r = s.issueVec h r vfs shf [] [] pop
      (fun s e => (s.mapPly h (fun p => p.setIx ix (x s e p.regs))).finishVec h r push none))
    (hv : vfs.map (fun f => (f.val, f.reads)) = fs) :
    Turns i s h ((performed (s.ply h) r push pop none).setIx ix
      (x (s.setPly h ((s.ply h).issued r pop)) ((s.ply h).headE r) (performed (s.ply h) r push pop none).regs)) := by
  rw [Turns, exec_of_issues hi e hf hv rfl, State.finishVec_setIx_issued]

end

/-- The low byte of a signed element (R226). -/
theorem ofNat_uNat_sInt (x n m : Nat) : BitVec.ofNat m (uNat (sInt x n) m) = (BitVec.ofNat n x).signExtend m := by
  rw [uNat_eq_toNat_ofInt, BitVec.ofNat_toNat, BitVec.setWidth_eq, sInt_eq_toInt, BitVec.signExtend]

theorem vixget_turns {ix : BitVec 2} {a : BitVec 8} {push pop : Bool} {s : State} {h : Here} {r : Ring}
    (hi : Issues s h r [(a, true)] pop) :
    Turns (.vixget ix a push pop) s h ((performed (s.ply h) r push pop none).setIx ix.toNat
      ((BitVec.ofNat ((s.ply h).headE r).shape.bits (srcElem s h a ((s.ply h).headE r).shape.bits 0)).signExtend 8)) := by
  have hturn := turns_of_setIx (i := .vixget ix a push pop) (push := push) (ix := ix.toNat)
    (x := fun s e _ => BitVec.ofNat 8 (uNat (sInt (elemAt (s.vsrc h a) e.shape.bits 0) e.shape.bits) 8)) hi rfl rfl rfl
  rw [State.vsrc_issued, ofNat_uNat_sInt] at hturn
  exact hturn

theorem vpset_turns {q : BitVec 4} {a : BitVec 8} {push pop : Bool} {s : State} {h : Here} {r : Ring}
    (hi : Issues s h r [(a, true)] pop) :
    Turns (.vpset q a push pop) s h { performed (s.ply h) r push pop none with
      regs := { (performed (s.ply h) r push pop none).regs with
        p := mset 0 (performed (s.ply h) r push pop none).regs.p q.toNat (BitVec.ofNat 352 (getLE (s.vsrc h a) 0 44)) } } := by
  have hturn := turns_of_mapRegs (i := .vpset q a push pop) (push := push)
    (g := fun s _ g => { g with p := mset 0 g.p q.toNat (BitVec.ofNat 352 (getLE (s.vsrc h a) 0 44)) }) hi rfl rfl rfl
  rw [State.vsrc_issued] at hturn
  exact hturn

end Sys2Proof.Machine

open Sys2Proof.Machine in
/-- Settles O35: an entry that may issue passes its checks and makes its pop, and each word then writes its register and is
performed. -/
theorem vectorWordsThatWriteNoTile : Obligations.VectorWordsThatWriteNoTile := by
  intro push pop s h r
  refine ⟨fun hi => ⟨?vnop, fun _ _ _ => ?vsh, fun _ _ => ?vfmt, fun ix a => ?vixset, fun ix a => ?vixadd,
    fun ad x y z => ?vad, fun ad x y z => ?vsad, fun _ => ?vfraise⟩, fun _ _ hi => vixget_turns hi,
    fun _ _ hi => vpset_turns hi⟩
  case vnop => exact turns_of_finishVec hi rfl rfl rfl
  case vsh => exact turns_of_finishVec hi rfl rfl rfl
  case vfmt => exact turns_of_finishVec hi rfl rfl rfl
  case vixset => exact turns_of_setIx (x := fun _ _ _ => a) hi rfl rfl rfl
  case vixadd => exact turns_of_setIx (x := fun _ _ g => mget 0 g.ix ix.toNat + a) hi rfl rfl rfl
  case vad =>
    exact turns_of_mapRegs (g := fun _ _ g => { g with adl := mset .reset g.adl ad.toNat (adOf x y z) }) hi rfl rfl rfl
  case vsad =>
    exact turns_of_mapRegs (g := fun _ _ g => { g with ads := mset .reset g.ads ad.toNat (adOf x y z) }) hi rfl rfl rfl
  case vfraise => exact turns_of_finishVec hi rfl rfl rfl
end

section
/-! SUPPORT. The result of a VA entry (R92, R94, R132, R215, R216): its destination tile, its latches, its flags, and what
it leaves unchanged. -/

namespace Sys2Proof.Machine

open Sys2Proof Sys2Proof.Claims

/-! ## Vector registers of a ply (R92) -/

theorem State.wrV_core (s : State) (h : Here) (n : Nat) (v : VReg) :
    (s.wrV h n v).core h = { s.core h with vregs := mset [] (s.core h).vregs ((s.ply h).vbase + n) v } := by
  simp only [State.wrV, State.mapCore, State.core, State.mapDie, State.die_setDie, if_true, Die.mapCore, Die.core_setCore]

@[simp] theorem State.wrV_ply (s : State) (h : Here) (n : Nat) (v : VReg) : (s.wrV h n v).ply h = s.ply h := by
  simp only [State.wrV, State.mapCore, State.ply, State.mapDie, State.die_setDie, if_true, Die.mapCore, Die.ply_setCore]

theorem State.rdV_wrV (s : State) (h : Here) (n : Nat) (v : VReg) (j : Nat) :
    (s.wrV h n v).rdV h j = if j = n then v else s.rdV h j := by
  simp only [State.rdV, State.wrV_core, State.wrV_ply, mget_mset, Nat.add_left_cancel_iff]

theorem State.rdV_setPly (s : State) (h : Here) {p : Ply} (hp : p.vbase = (s.ply h).vbase) (j : Nat) :
    (s.setPly h p).rdV h j = s.rdV h j := by
  rw [State.rdV, State.setPly_core, State.setPly_ply, hp, State.rdV]

/-- A register and the ply that it belongs to are written in either order. -/
theorem State.wrV_setPly (s : State) (h : Here) {p : Ply} (hp : p.vbase = (s.ply h).vbase) (n : Nat) (v : VReg) :
    (s.setPly h p).wrV h n v = (s.wrV h n v).setPly h p := by
  rw [State.wrV, State.setPly_ply, hp]
  simp only [State.wrV, State.mapCore, State.setPly, State.mapDie_mapDie]
  rfl

/-- VA's write of a register whose ply has gone on to `p` (R34, R216). -/
theorem State.setPly_wrVa (s : State) (h : Here) {p : Ply} (hp : p.vbase = (s.ply h).vbase) (n : Nat) (v : VReg) :
    (s.setPly h p).wrVa h n v = (s.wrV h n v).setPly h { p with
      vaOld := keepOld p.vaOld n (s.rdV h n)
      vlOldVa := if (mfind p.vlOldVa n).isSome then mput p.vlOldVa n v else p.vlOldVa } := by
  rw [State.wrVa, State.setPly_mapPly, State.rdV_setPly s h hp]
  exact State.wrV_setPly s h (by exact hp) n v

/-! ## What a result leaves unchanged -/

/-- Beyond the plies and the cores of die `d`, `t` is `s`. -/
structure SameBeyondPlies (s t : State) (d : Nat) : Prop where
  panel : t = { s with dies := t.dies }
  dies : ∀ e ≠ d, t.die e = s.die e
  die : t.die d = { s.die d with plies := (t.die d).plies, cores := (t.die d).cores }

theorem SameBeyondPlies.refl (s : State) (d : Nat) : SameBeyondPlies s s d := ⟨rfl, fun _ _ => rfl, rfl⟩

theorem SameBeyondPlies.mapDie {s t : State} {d : Nat} (hst : SameBeyondPlies s t d) {f : Die → Die}
    (hf : ∀ x, f x = { x with plies := (f x).plies, cores := (f x).cores }) : SameBeyondPlies s (t.mapDie d f) d where
  panel := by
    rw [State.mapDie, State.setDie]
    exact congrArg (fun u : State => { u with dies := mput t.dies d (f (t.die d)) }) hst.panel
  dies e he := by rw [State.mapDie, State.die_setDie, if_neg he, hst.dies e he]
  die := by rw [State.mapDie, State.die_setDie, if_pos rfl, hf, hst.die]

theorem SameBeyondPlies.setPly {s t : State} {h : Here} (hst : SameBeyondPlies s t h.d) (p : Ply) :
    SameBeyondPlies s (t.setPly h p) h.d := hst.mapDie fun _ => rfl

theorem SameBeyondPlies.wrV {s t : State} {h : Here} (hst : SameBeyondPlies s t h.d) (n : Nat) (v : VReg) :
    SameBeyondPlies s (t.wrV h n v) h.d := by
  rw [State.wrV, State.mapCore]
  exact hst.mapDie fun _ => rfl

/-! ## The parts of a result (R94, R132, R215, R216) -/

/-- The AFLAGS bits that wait for a release once an entry of agent `a` has set `m`. -/
def noted (pend : List (Nat × Nat × W32)) (a : Nat) (m : W32) : List (Nat × Nat × W32) :=
  if m = 0 then pend else (a, pend.foldl (fun n e => max n (e.2.1 + 1)) 0, m) :: pend

theorem Ply.noteFlags_eq (p : Ply) (a : Nat) (m : W32) : p.noteFlags a m = { p with pend := noted p.pend a m } := by
  rw [Ply.noteFlags, noted]
  split <;> rfl

/-- What the bytes beyond the tile of a result are (R215). -/
def vaBase (s : State) (h : Here) (d : BitVec 8) : VReg := if d = 248 then [] else s.rdV h ((s.regs h).vnum d)

/-- `s` with the destination register of a result written, unless the result goes to the latches alone (R215). -/
def State.vaWrote (s : State) (h : Here) (d : BitVec 8) (v : VReg) : State :=
  if d = 248 then s else s.wrV h ((s.regs h).vnum d) v

/-- What is kept of the registers that VA has written, for the rings that nothing orders behind a result (R216). -/
def vaOldAfter (s : State) (h : Here) (d : BitVec 8) : Map VReg :=
  if d = 248 then (s.ply h).vaOld else keepOld (s.ply h).vaOld ((s.regs h).vnum d) (s.rdV h ((s.regs h).vnum d))

/-- What VA may still find of the registers that VL has written, after a result `v` of VA (R34, R215). -/
def vlOldVaAfter (s : State) (h : Here) (d : BitVec 8) (v : VReg) : Map VReg :=
  if d ≠ 248 ∧ (mfind (s.ply h).vlOldVa ((s.regs h).vnum d)).isSome = true
    then mput (s.ply h).vlOldVa ((s.regs h).vnum d) v else (s.ply h).vlOldVa

/-- Ply h of `s` once the entry of ring `r` has been performed with the result `v` and the flags `m`. -/
def vaPly (s : State) (h : Here) (r : Ring) (d : BitVec 8) (push pop : Bool) (v : VReg) (m : W32) : Ply :=
  { performed (s.ply h) r push pop none with
    regs := (s.regs h).shiftW v ((s.ply h).headE r).tag
    pend := noted (s.ply h).pend r.code m
    vaOld := vaOldAfter s h d
    vlOldVa := vlOldVaAfter s h d v }

theorem State.vaWrote_ply (s : State) (h : Here) (d : BitVec 8) (v : VReg) : (s.vaWrote h d v).ply h = s.ply h := by
  rw [State.vaWrote]
  split
  · rfl
  · exact s.wrV_ply ..

theorem State.rdV_vaWrote (s : State) (h : Here) (d : BitVec 8) (v : VReg) (j : Nat) :
    (s.vaWrote h d v).rdV h j = if d ≠ 248 ∧ j = (s.regs h).vnum d then v else s.rdV h j := by
  rw [State.vaWrote]
  by_cases hd : d = 248
  · rw [if_pos hd, if_neg fun h => h.1 hd]
  · rw [if_neg hd, State.rdV_wrV]
    simp only [ne_eq, hd, not_false_eq_true, true_and]

theorem SameBeyondPlies.vaWrote (s : State) (h : Here) (d : BitVec 8) (v : VReg) :
    SameBeyondPlies s (s.vaWrote h d v) h.d := by
  rw [State.vaWrote]
  split
  · exact .refl s h.d
  · exact (SameBeyondPlies.refl s h.d).wrV ..

theorem vaPly_vbase (s : State) (h : Here) (r : Ring) (d : BitVec 8) (push pop : Bool) (v : VReg) (m : W32) :
    (vaPly s h r d push pop v m).vbase = (s.ply h).vbase :=
  Ply.setRing_vbase ..

/-- The rings of a ply stand apart from what a result changes. -/
theorem Ply.mapRing_withResult (p : Ply) (r : Ring) (f : RingQ → RingQ) (g : PlyRegs) (t : List (Nat × Nat × W32))
    (a b : Map VReg) : ({ p with regs := g, pend := t, vaOld := a, vlOldVa := b } : Ply).mapRing r f =
      { p.mapRing r f with regs := g, pend := t, vaOld := a, vlOldVa := b } := by
  cases r <;> rfl

/-- The writes of an entry that has made its pop, before it is performed. -/
theorem State.vaResult_issued (s : State) (h : Here) (r : Ring) (tag : Nat) (d : BitVec 8) (pop : Bool) (f : VReg → VReg)
    {v : VReg} (hv : f (vaBase s h d) = v) :
    (s.setPly h ((s.ply h).issued r pop)).vaResult h tag d f = (s.vaWrote h d v).setPly h { (s.ply h).issued r pop with
      regs := (s.regs h).shiftW v tag, vaOld := vaOldAfter s h d, vlOldVa := vlOldVaAfter s h d v } := by
  have hregs : ((s.ply h).issued r pop).regs = s.regs h := Ply.issued_regs ..
  by_cases hd : d = 248
  case pos =>
    have hva : vaOldAfter s h d = ((s.ply h).issued r pop).vaOld := by rw [vaOldAfter, if_pos hd, Ply.issued_vaOld]
    have hvl : vlOldVaAfter s h d v = ((s.ply h).issued r pop).vlOldVa := by
      rw [vlOldVaAfter, if_neg fun h => h.1 hd, Ply.issued_vlOldVa]
    rw [vaBase, if_pos hd] at hv
    rw [State.vaResult, if_pos (by rw [hd]; rfl), State.setPly_mapRegs, State.vaWrote, if_pos hd, hregs, hv, hva, hvl]
  case neg =>
    have hne : ¬d.toNat = 248 := fun h => hd (BitVec.eq_of_toNat_eq h)
    have hva : keepOld ((s.ply h).issued r pop).vaOld ((s.regs h).vnum d) (s.rdV h ((s.regs h).vnum d)) = vaOldAfter s h d := by
      rw [vaOldAfter, if_neg hd, Ply.issued_vaOld]
    have hvl : (if (mfind ((s.ply h).issued r pop).vlOldVa ((s.regs h).vnum d)).isSome
        then mput ((s.ply h).issued r pop).vlOldVa ((s.regs h).vnum d) v else ((s.ply h).issued r pop).vlOldVa) =
        vlOldVaAfter s h d v := by
      simp only [vlOldVaAfter, Ply.issued_vlOldVa, ne_eq, hd, not_false_eq_true, true_and]
    rw [vaBase, if_neg hd] at hv
    rw [State.vaResult, if_neg hne, State.setPly_regs, hregs]
    simp only [State.rdV_issued, hv]
    rw [State.setPly_wrVa s h (Ply.issued_vbase ..), State.setPly_mapRegs, hva, hvl, State.vaWrote, if_neg hd, ← hregs]

/-- An entry that has written its result, with its flags noted, is performed. -/
theorem State.note_finishVec (u s : State) (h : Here) (r : Ring) (d : BitVec 8) (push pop : Bool) (v : VReg) (m : W32) :
    ((u.setPly h { (s.ply h).issued r pop with
      regs := (s.regs h).shiftW v ((s.ply h).headE r).tag, vaOld := vaOldAfter s h d
      vlOldVa := vlOldVaAfter s h d v }).note h r m).finishVec h r push none =
      u.setPly h (vaPly s h r d push pop v m) := by
  have hring := ((s.ply h).issued r pop).mapRing_withResult r (fun q => { q with done := some (push, none) })
    ((s.regs h).shiftW v ((s.ply h).headE r).tag) (noted (s.ply h).pend r.code m) (vaOldAfter s h d) (vlOldVaAfter s h d v)
  rw [← Ply.performed_eq_mapRing_issued, ← Ply.issued_pend (s.ply h) r pop] at hring
  rw [State.note, State.setPly_mapPly, State.finishVec, State.setPly_mapPly, Ply.noteFlags_eq]
  exact congrArg (u.setPly h) (hring.trans (by rw [Ply.issued_pend]; rfl))

/-- The result of an entry is the claim's, whatever the elements `f` of its tile. -/
theorem vaResult_holds {s : State} {h : Here} {r : Ring} {d : BitVec 8} {push pop : Bool} {n k : Nat} {f : Nat → Nat} {m : W32}
    {v : VReg} (helem : ∀ i < k, elemAt v n i = f i % 2 ^ n)
    (hkeep : ∀ q, k * n ≤ 8 * q → getByte v q = getByte (vaBase s h d) q) :
    VaResult s ((s.vaWrote h d v).setPly h (vaPly s h r d push pop v m)) h r d push pop n k f m := by
  have hrd : ∀ j, ((s.vaWrote h d v).setPly h (vaPly s h r d push pop v m)).rdV h j =
      if d ≠ 248 ∧ j = (s.regs h).vnum d then v else s.rdV h j := fun j => by
    rw [State.rdV_setPly _ _ (by rw [vaPly_vbase, State.vaWrote_ply]), State.rdV_vaWrote]
  have hdest : d ≠ 248 → ((s.vaWrote h d v).setPly h (vaPly s h r d push pop v m)).rdV h ((s.regs h).vnum d) = v :=
    fun hd => by rw [hrd, if_pos ⟨hd, rfl⟩]
  have hbase : ∀ q, getByte (vaBase s h d) q = if d = 248 then 0 else getByte (s.rdV h ((s.regs h).vnum d)) q := fun q => by
    rw [vaBase]
    split <;> rfl
  obtain ⟨hpanel, hdies, hdie⟩ := (SameBeyondPlies.vaWrote s h d v).setPly (vaPly s h r d push pop v m)
  exact {
    tile := ⟨v, helem, fun q hq => (hkeep q hq).trans (hbase q), hdest, by rw [State.setPly_regs]; rfl⟩
    others := fun j hj => by rw [hrd, if_neg fun h => hj.elim h.1 fun hne => hne h.2]
    shifted := by rw [State.setPly_regs]; exact ⟨rfl, rfl, rfl⟩
    flags := by
      rw [State.setPly_ply, vaPly, noted]
      by_cases hm : m = 0
      · exact .inl ⟨hm, if_pos hm⟩
      · exact .inr ⟨hm, _, if_neg hm⟩
    ply := by rw [State.setPly_ply]; rfl
    seen := by
      rw [State.setPly_ply]
      exact ite_congr rfl (fun hd => by rw [hdest hd.1]) (fun _ => rfl)
    old := by rw [State.setPly_ply]; rfl
    regs := by rw [State.setPly_regs]; rfl
    panel := hpanel
    dies := hdies
    die := hdie }

end Sys2Proof.Machine
end

section
/-! SUPPORT. The integer forms, the compares, select, copy and the reductions (R218, R223 to R225, R227), and the two claims
about them. -/

namespace Sys2Proof.Machine

open Sys2Proof Sys2Proof.Claims

/-! ## An entry that ends with a tile -/

/-- `s` once the entry of ring `r` has made its pop and has ended with the elements `g` and their flags. -/
def vaEnd (s : State) (h : Here) (r : Ring) (d : BitVec 8) (push pop : Bool) (g : Nat → Nat × W32) : State :=
  let e := (s.ply h).headE r
  (((s.setPly h ((s.ply h).issued r pop)).vaResult h e.tag d
    (fun v => writeTile v e.shape.bits 0 ((List.range e.shape.elems).map (fun j => (g j).1)))).note h r
      ((List.range e.shape.elems).foldl (fun m j => m ||| (g j).2) 0)).finishVec h r push none

theorem State.finishVec_eq_note_zero (u : State) (h : Here) (r : Ring) (push : Bool) :
    u.finishVec h r push none = (u.note h r 0).finishVec h r push none := by
  rw [State.finishVec, State.finishVec, State.note, State.mapPly_mapPly]
  rfl

/-- An entry that sets no flag. -/
theorem vaEnd_noFlags (s : State) (h : Here) (r : Ring) (d : BitVec 8) (push pop : Bool) (x : Nat → Nat) :
    vaEnd s h r d push pop (fun j => (x j, 0)) =
      ((s.setPly h ((s.ply h).issued r pop)).vaResult h ((s.ply h).headE r).tag d
        (fun v => writeTile v ((s.ply h).headE r).shape.bits 0
          ((List.range ((s.ply h).headE r).shape.elems).map x))).finishVec h r push none := by
  have hflags : ∀ js : List Nat, js.foldl (fun (m : W32) _ => m ||| 0) 0 = 0 := List.foldl_fixed' fun _ => rfl
  rw [State.finishVec_eq_note_zero, vaEnd]
  simp only [hflags]

/-- An entry that ends with the elements and the flags of `f` fills its tile with them. -/
theorem fills_of_vaEnd {i : Instr} {s : State} {h : Here} {r : Ring} {d : BitVec 8} {push pop : Bool}
    {f : Nat → Nat → Nat × W32} (he : exec i s = .next (vaEnd s h r d push pop (f ((s.ply h).headE r).shape.bits))) :
    Fills i s h r d push pop f := by
  have hn := ((s.ply h).headE r).shape.bits_elemSize
  refine ⟨_, he, ?_⟩
  rw [vaEnd, State.vaResult_issued _ _ _ _ _ _ _ rfl, State.note_finishVec]
  exact vaResult_holds (fun i hi => elemAt_writeTile_range hn _ _ hi) (fun q hq => getByte_writeTile_range hn _ _ hq)

theorem zip_readTile (v w : VReg) (n t : Nat) :
    (readTile v n t).zip (readTile w n t) = (List.range t).map (fun j => (elemAt v n j, elemAt w n j)) :=
  List.zip_map'

/-! ## The integer forms (R218) -/

/-- A two-source form fills its tile with the values and flags of `f`, whatever its operands. -/
def FillsElems (c : FormV) (f : (n : Nat) → BitVec n → BitVec n → BitVec n × W32) : Prop :=
  ∀ d a b push pop s h r, Issues s h r [(d, false), (a, true), (b, true)] pop →
    Fills (c d a b push pop) s h r d push pop (fun n j =>
      let x := f n (BitVec.ofNat n (srcElem s h a n j)) (BitVec.ofNat n (srcElem s h b n j))
      (x.1.toNat, x.2))

theorem fillsElems_of_exec {c : FormV} {F : Nat → Nat → Nat → Nat × W32}
    {f : (n : Nat) → BitVec n → BitVec n → BitVec n × W32}
    (e : ∀ d a b push pop s, exec (c d a b push pop) s = onVec s (fun h r => s.vecInt h r d a b push pop F))
    (hf : GivesElems F f) : FillsElems c f := by
  intro d a b push pop s h r hi
  have hn := ((s.ply h).headE r).shape.bits_elemSize
  have hexec := exec_of_issues hi (e d a b push pop s) rfl rfl rfl
  simp only [State.vsrc_issued, zip_readTile, List.map_map, Function.comp_def, List.foldl_map] at hexec
  apply fills_of_vaEnd
  simp only [srcElem, ← hf _ hn.pos, toNat_ofNat_elemAt hn]
  exact hexec

theorem vintForms_fill : ∀ f ∈ vintForms, FillsElems f.1 f.2 := by
  simp only [vintForms, List.forall_mem_cons, List.not_mem_nil, false_imp_iff, implies_true, and_true]
  exact ⟨
    -- vadd, vsub, vmul, vmulh
    fillsElems_of_exec (fun _ _ _ _ _ _ => rfl) (givesElems_wrap (F := fun _ x y => x + y) ofInt_toInt_add),
    fillsElems_of_exec (fun _ _ _ _ _ _ => rfl) (givesElems_wrap (F := fun _ x y => x - y) ofInt_toInt_sub),
    fillsElems_of_exec (fun _ _ _ _ _ _ => rfl) (givesElems_wrap (F := fun _ x y => x * y) ofInt_toInt_mul),
    fillsElems_of_exec (fun _ _ _ _ _ _ => rfl)
      (givesElems_wrap (F := fun n x y => x * y / (2 ^ n : Nat)) ofInt_toInt_mulh),
    -- vand, vor, vxor
    fillsElems_of_exec (fun _ _ _ _ _ _ => rfl) givesElems_and,
    fillsElems_of_exec (fun _ _ _ _ _ _ => rfl) givesElems_or,
    fillsElems_of_exec (fun _ _ _ _ _ _ => rfl) givesElems_xor,
    -- vshl, vshr, vsar
    fillsElems_of_exec (fun _ _ _ _ _ _ => rfl) givesElems_shl,
    fillsElems_of_exec (fun _ _ _ _ _ _ => rfl) givesElems_shr,
    fillsElems_of_exec (fun _ _ _ _ _ _ => rfl) givesElems_sar,
    -- vmin, vmax, vminu, vmaxu
    fillsElems_of_exec (fun _ _ _ _ _ _ => rfl) givesElems_min,
    fillsElems_of_exec (fun _ _ _ _ _ _ => rfl) givesElems_max,
    fillsElems_of_exec (fun _ _ _ _ _ _ => rfl) givesElems_minu,
    fillsElems_of_exec (fun _ _ _ _ _ _ => rfl) givesElems_maxu,
    -- vadds, vsubs
    fillsElems_of_exec (fun _ _ _ _ _ _ => rfl) givesElems_adds,
    fillsElems_of_exec (fun _ _ _ _ _ _ => rfl) givesElems_subs,
    -- vcmpeq, vcmplt, vcmple
    fillsElems_of_exec (fun _ _ _ _ _ _ => rfl) (givesElems_mask (F := fun x y => decide (x = y)) decide_toInt_eq),
    fillsElems_of_exec (fun _ _ _ _ _ _ => rfl)
      (givesElems_mask (F := fun x y => decide (x < y)) fun _ _ _ => BitVec.slt_eq_decide.symm),
    fillsElems_of_exec (fun _ _ _ _ _ _ => rfl)
      (givesElems_mask (F := fun x y => decide (x ≤ y)) fun _ _ _ => BitVec.sle_eq_decide.symm)⟩

/-! ## Floating compares, select and copy (R223, R224, R227) -/

/-- A record that is good in its container meets no reason of R130. -/
theorem vrecOf_reason_of_recOk {c : W32} {ix : BitVec 4} {n : Nat} (hc : RecOk c n) :
    (vrecOf c ix (some n) false).reason = none := by
  obtain ⟨hrec, hbits, hscale⟩ := hc
  simp [vrecOf, hrec, hbits, hscale]

theorem firstRec_source {e : Entry} (hsrc : RecOk e.fmt.src e.shape.bits) :
    firstRec (floatRecs e false (fun _ => false)) = none := by
  simp [floatRecs, firstRec, vrecOf_reason_of_recOk hsrc]

theorem firstRec_both {e : Entry} (hsrc : RecOk e.fmt.src e.shape.bits) (hdst : RecOk e.fmt.dst e.shape.bits) :
    firstRec (floatRecs e true (fun _ => false)) = none := by
  simp [floatRecs, firstRec, vrecOf_reason_of_recOk hsrc, vrecOf_reason_of_recOk hdst]

/-- A floating compare fills its tile with the masks of `f`. -/
theorem fills_of_vecCmpFloat {c : FormV} {f : ExNum → ExNum → Bool}
    (e : ∀ d a b push pop s, exec (c d a b push pop) s = onVec s (fun h r => s.vecCmpFloat h r d a b push pop f))
    {d a b : BitVec 8} {push pop : Bool} {s : State} {h : Here} {r : Ring}
    (hi : Issues s h r [(d, false), (a, true), (b, true)] pop)
    (hsrc : RecOk ((s.ply h).headE r).fmt.src ((s.ply h).headE r).shape.bits) :
    Fills (c d a b push pop) s h r d push pop (fun n j =>
      (if f ((fmtOf ((s.ply h).headE r).fmt.src).decode (srcElem s h a n j))
        ((fmtOf ((s.ply h).headE r).fmt.src).decode (srcElem s h b n j)) then 2 ^ n - 1 else 0, 0)) := by
  have hexec := exec_of_issues hi (e d a b push pop s) (by unfold State.vecCmpFloat; rfl) rfl (firstRec_source hsrc)
  simp only [State.vsrc_issued, readTile, List.map_map, List.zip_map', Function.comp_def] at hexec
  rw [← vaEnd_noFlags] at hexec
  exact fills_of_vaEnd hexec

theorem vfcmpForms_fill : ∀ f ∈ vfcmpForms, ∀ d a b push pop s h r, Issues s h r [(d, false), (a, true), (b, true)] pop →
    RecOk ((s.ply h).headE r).fmt.src ((s.ply h).headE r).shape.bits →
    Fills (f.1 d a b push pop) s h r d push pop (fun n j =>
      (if f.2 ((fmtOf ((s.ply h).headE r).fmt.src).decode (srcElem s h a n j))
        ((fmtOf ((s.ply h).headE r).fmt.src).decode (srcElem s h b n j)) then 2 ^ n - 1 else 0, 0)) := by
  simp only [vfcmpForms, List.forall_mem_cons, List.not_mem_nil, false_imp_iff, implies_true, and_true]
  exact ⟨
    fun _ _ _ _ _ _ _ _ => fills_of_vecCmpFloat (f := fun x y => x.eq y) (fun _ _ _ _ _ _ => rfl),
    fun _ _ _ _ _ _ _ _ => fills_of_vecCmpFloat (f := fun x y => x.lt false y) (fun _ _ _ _ _ _ => rfl),
    fun _ _ _ _ _ _ _ _ =>
      fills_of_vecCmpFloat (f := fun x y => x.lt false y || x.eq y) (fun _ _ _ _ _ _ => rfl)⟩

theorem vsel_fills {d a b : BitVec 8} {push pop : Bool} {s : State} {h : Here} {r : Ring}
    (hi : Issues s h r [(d, true), (a, true), (b, true)] pop) :
    Fills (.vsel d a b push pop) s h r d push pop (fun n j =>
      (if srcElem s h d n j ≠ 0 then srcElem s h a n j else srcElem s h b n j, 0)) := by
  have hexec := exec_of_issues (i := .vsel d a b push pop) hi rfl rfl rfl rfl
  simp only [State.vsrc_issued, readTile, List.map_map, List.zip_map', Function.comp_def] at hexec
  rw [← vaEnd_noFlags] at hexec
  exact fills_of_vaEnd hexec

theorem vmov_fills {d a : BitVec 8} {push pop : Bool} {s : State} {h : Here} {r : Ring}
    (hi : Issues s h r [(d, false), (a, true)] pop) :
    Fills (.vmov d a push pop) s h r d push pop (fun n j => (srcElem s h a n j, 0)) := by
  have hexec := exec_of_issues (i := .vmov d a push pop) hi rfl rfl rfl rfl
  simp only [State.vsrc_issued, readTile] at hexec
  rw [← vaEnd_noFlags] at hexec
  exact fills_of_vaEnd hexec

/-! ## Reductions (R225) -/

/-- A reduction of one source. -/
abbrev FormR := Bool → FormU

/-- An integer reduction fills each row or column with the low bits of `F` of its signed elements. -/
theorem fills_of_vecRedInt {c : FormR} {F : List Int → Int}
    (e : ∀ col d a push pop s, exec (c col d a push pop) s = onVec s (fun h r => s.vecRedInt h r col d a push pop F))
    {col : Bool} {d a : BitVec 8} {push pop : Bool} {s : State} {h : Here} {r : Ring}
    (hi : Issues s h r [(d, false), (a, true)] pop) {f : (n : Nat) → List (BitVec n) → BitVec n}
    (hf : ∀ n (xs : List (BitVec n)), BitVec.ofInt n (F (xs.map BitVec.toInt)) = f n xs) :
    Fills (c col d a push pop) s h r d push pop (fun n j =>
      ((f n ((redGroup ((s.ply h).headE r).shape col j).map (fun i => BitVec.ofNat n (srcElem s h a n i)))).toNat, 0)) := by
  have hexec := exec_of_issues hi (e col d a push pop s) rfl rfl rfl
  simp only [State.vsrc_issued] at hexec
  rw [← vaEnd_noFlags] at hexec
  apply fills_of_vaEnd
  simp only [← hf, List.map_map, Function.comp_def, srcElem, ← uNat_eq_toNat_ofInt, ← sInt_eq_toInt]
  exact hexec

/-- A reduction of values fills each row or column with `F` of its elements, rounded once. -/
theorem fills_of_vecRedFloat {c : FormR} {F : List ExNum → ExNum × W32}
    (e : ∀ col d a push pop s, exec (c col d a push pop) s = onVec s (fun h r => s.vecRedFloat h r col d a push pop F))
    {col : Bool} {d a : BitVec 8} {push pop : Bool} {s : State} {h : Here} {r : Ring}
    (hi : Issues s h r [(d, false), (a, true)] pop)
    (hsrc : RecOk ((s.ply h).headE r).fmt.src ((s.ply h).headE r).shape.bits)
    (hdst : RecOk ((s.ply h).headE r).fmt.dst ((s.ply h).headE r).shape.bits) :
    Fills (c col d a push pop) s h r d push pop (fun n j =>
      let y := F ((redGroup ((s.ply h).headE r).shape col j).map (fun i =>
        (fmtOf ((s.ply h).headE r).fmt.src).decode (srcElem s h a n i)))
      let q := roundNE y.1 (fmtOf ((s.ply h).headE r).fmt.dst)
      (q.1, y.2 ||| q.2)) := by
  have hexec := exec_of_issues hi (e col d a push pop s) (by unfold State.vecRedFloat; rfl) rfl (firstRec_both hsrc hdst)
  simp only [State.vsrc_issued, List.map_map, Function.comp_def, List.foldl_map] at hexec
  exact fills_of_vaEnd hexec

theorem ofInt_foldl_add {n : Nat} (xs : List (BitVec n)) (z : Int) :
    BitVec.ofInt n ((xs.map BitVec.toInt).foldl (· + ·) z) = BitVec.ofInt n z + xs.sum := by
  induction xs generalizing z with
  | nil => exact (BitVec.add_zero _).symm
  | cons x t ih =>
    rw [List.map_cons, List.foldl_cons, ih, BitVec.ofInt_add, BitVec.ofInt_toInt, List.sum_cons, BitVec.add_assoc]

theorem ofInt_sum (n : Nat) (xs : List (BitVec n)) :
    BitVec.ofInt n ((xs.map BitVec.toInt).foldl (· + ·) 0) = xs.sum := by
  rw [ofInt_foldl_add]
  exact BitVec.zero_add _

theorem foldl_max_toInt {n : Nat} (xs : List (BitVec n)) (x : BitVec n) :
    (xs.map BitVec.toInt).foldl (fun m y => if m < y then y else m) x.toInt =
      (xs.foldl (fun m y => if m.slt y then y else m) x).toInt := by
  induction xs generalizing x with
  | nil => rfl
  | cons y t ih =>
    have hstep : (if x.toInt < y.toInt then y.toInt else x.toInt) = (if x.slt y then y else x).toInt := by
      rw [apply_ite BitVec.toInt]
      simp only [BitVec.slt_iff_toInt_lt]
    rw [List.map_cons, List.foldl_cons, List.foldl_cons, hstep, ih]

theorem ofInt_foldl_max (n : Nat) (xs : List (BitVec n)) :
    BitVec.ofInt n ((xs.map BitVec.toInt).foldl (fun m y => if m < y then y else m) ((xs.map BitVec.toInt).headD 0)) =
      xs.foldl (fun m y => if m.slt y then y else m) (xs.headD 0) := by
  have hhead : (xs.map BitVec.toInt).headD 0 = (xs.headD 0).toInt := by
    cases xs with
    | nil => exact BitVec.toInt_zero.symm
    | cons x t => rfl
  rw [hhead, foldl_max_toInt, BitVec.ofInt_toInt]

/-- The four reductions: the two of values need good records. -/
theorem reductions_fill : reductionsFillTheirRowOrColumn := by
  intro col d a push pop s h r hi
  refine ⟨?vrsum, ?vrmax, fun hsrc hdst => ⟨?vrfsum, ?vrfmax⟩⟩
  case vrsum =>
    exact fills_of_vecRedInt (F := fun xs => xs.foldl (· + ·) 0) (f := fun _ xs => xs.sum) (fun _ _ _ _ _ _ => rfl) hi
      ofInt_sum
  case vrmax =>
    exact fills_of_vecRedInt (F := fun xs => xs.foldl (fun m x => if m < x then x else m) (xs.headD 0))
      (f := fun _ xs => xs.foldl (fun m x => if m.slt x then x else m) (xs.headD 0)) (fun _ _ _ _ _ _ => rfl) hi
      ofInt_foldl_max
  case vrfsum => exact fills_of_vecRedFloat (F := sumNums) (fun _ _ _ _ _ _ => rfl) hi hsrc hdst
  case vrfmax =>
    have hfills := fills_of_vecRedFloat (F := fun xs => (xs.foldl ExNum.max (xs.headD .nan), 0)) (c := .vrfmax)
      (col := col) (push := push) (fun _ _ _ _ _ _ => rfl) hi hsrc hdst
    have hflags : ∀ m : W32, 0 ||| m = m := fun _ => BitVec.zero_or
    simp only [hflags] at hfills
    exact hfills

theorem comparesSelectAndCopy_fill : vectorComparesSelectAndCopy :=
  ⟨vfcmpForms_fill, fun _ _ _ _ _ _ _ _ hi => vsel_fills hi, fun _ _ _ _ _ _ _ hi => vmov_fills hi⟩

end Sys2Proof.Machine

/-- Settles O32: each of the nineteen words ends in `State.vecInt`, and its value is the value of the table. -/
theorem vectorIntegersAreElementwise : Obligations.VectorIntegersAreElementwise :=
  Sys2Proof.Machine.vintForms_fill

/-- Settles O34: the compares, select and copy end with their elements and no flag, and each reduction with what its row or
column gives. -/
theorem vectorComparesSelectCopyAndReduce : Obligations.VectorComparesSelectCopyAndReduce :=
  ⟨Sys2Proof.Machine.comparesSelectAndCopy_fill, Sys2Proof.Machine.reductions_fill⟩
end

section
/-! SUPPORT. The permute network (R239, R241): which lane its stages bring to each lane, what the permutation of a register
holds, and what one `vperm` does. -/

namespace Sys2Proof.Machine

open Sys2Proof Sys2Proof.Claims

/-! ## The lanes of the network (R239, R241) -/

theorem iterFrom_succ {β : Type} (f : Nat → β → β) (k n : Nat) (x : β) :
    iterFrom f k (n + 1) x = f (k + n) (iterFrom f k n x) := by
  induction n generalizing k x with
  | zero => rfl
  | succ n ih =>
    rw [iterFrom, ih, iterFrom, Nat.add_right_comm, Nat.add_assoc]

/-- The switch of a lane is that of the lower lane of its pair. -/
theorem benesSwitch_lower : ∀ b < 6, ∀ l < 64,
    benesSwitch (if bitB l b then l - 2 ^ b else l) b = l / 2 ^ (b + 1) * 2 ^ b + l % 2 ^ b := by decide

/-- The other lane of a pair. -/
theorem partner_eq_xor : ∀ b < 6, ∀ l < 64,
    (if bitB l b then (if bitB l b then l - 2 ^ b else l) else (if bitB l b then l - 2 ^ b else l) + 2 ^ b) =
      l ^^^ 2 ^ b := by decide

theorem xor_two_pow_lt {b l : Nat} (hb : b < 6) (hl : l < 64) : l ^^^ 2 ^ b < 64 :=
  Nat.xor_lt_two_pow (n := 6) hl (Nat.pow_lt_pow_right (by decide) hb)

theorem benesBit_lt {s : Nat} (hs : s < 11) : benesBit s < 6 := by
  rw [benesBit]
  split <;> omega

/-- The lane that stage `s` brings to lane `l`. -/
def stageFrom (p s l : Nat) : Nat :=
  if p.testBit (32 * s + (l / 2 ^ (benesBit s + 1) * 2 ^ benesBit s + l % 2 ^ benesBit s)) then l ^^^ 2 ^ benesBit s else l

theorem laneFrom_succ (p s l : Nat) : laneFrom p (s + 1) l = laneFrom p s (stageFrom p s l) := rfl

theorem stageFrom_lt (p : Nat) {s l : Nat} (hs : s < 11) (hl : l < 64) : stageFrom p s l < 64 := by
  rw [stageFrom]
  split
  · exact xor_two_pow_lt (benesBit_lt hs) hl
  · exact hl

theorem getD_benesStage (p : Nat) (xs : List Nat) {s l : Nat} (hs : s < 11) (hl : l < 64) :
    (benesStage p s xs).getD l 0 = xs.getD (stageFrom p s l) 0 := by
  have hb := benesBit_lt hs
  rw [benesStage, List.getD_eq_getElem _ _ (by simpa using hl), List.getElem_map, List.getElem_range]
  simp only [benesSwitch_lower _ hb l hl, partner_eq_xor _ hb l hl]
  rw [bitB_eq_testBit, stageFrom]

theorem getD_iterFrom_benesStage (p : Nat) {n l : Nat} (hn : n ≤ 11) (hl : l < 64) :
    (iterFrom (benesStage p) 0 n (List.range 64)).getD l 0 = laneFrom p n l := by
  induction n generalizing l with
  | zero => rw [iterFrom, List.getD_eq_getElem _ _ (by simpa using hl), List.getElem_range, laneFrom]
  | succ n ih =>
    rw [iterFrom_succ, Nat.zero_add, getD_benesStage p _ hn hl, ih (by omega) (stageFrom_lt p hn hl), laneFrom_succ]

/-- The network of the model brings to lane `l` the lane that the switches of its stages lead back to. -/
theorem getD_benesLanes (p : Nat) {l : Nat} (hl : l < 64) : (benesLanes p).getD l 0 = laneFrom p 11 l :=
  getD_iterFrom_benesStage p (Nat.le_refl 11) hl

theorem length_benesLanes (p : Nat) : (benesLanes p).length = 64 := by
  rw [benesLanes, iterFrom_succ, benesStage, List.length_map, List.length_range]

/-- A word of zeros leads every lane back to itself. -/
theorem laneFrom_zero (n l : Nat) : laneFrom 0 n l = l := by
  induction n with
  | zero => rfl
  | succ n ih =>
    have hstraight : stageFrom 0 n l = l := if_neg (by simp)
    rw [laneFrom_succ, hstraight, ih]

theorem benesLanes_zero : benesLanes 0 = List.range 64 := by
  refine List.ext_getElem (by rw [length_benesLanes, List.length_range]) fun l hl _ => ?_
  have hlane : l < 64 := by rwa [length_benesLanes] at hl
  rw [← List.getD_eq_getElem _ 0 hl, getD_benesLanes 0 hlane, laneFrom_zero, List.getElem_range]

/-! ## The bytes of a lane -/

theorem mfind_eq_none_of_mwfFrom {α : Type} [DecidableEq α] {d : α} {m : Map α} {l k : Nat}
    (hm : mwfFrom d (some l) m = true) (hk : k ≤ l) : mfind m k = none := by
  induction m generalizing l with
  | nil => rfl
  | cons e t ih =>
    obtain ⟨j, x⟩ := e
    obtain ⟨hlow, -, ht⟩ := (mwfFrom_cons d (some l) j x t).1 hm
    have hj := hlow l rfl
    rw [mfind, if_neg (by omega), ih ht (by omega)]

/-- Copying the listed bytes of a run of a memory in canonical form; what it does not list stays. -/
theorem getByte_pasteRange_takeRange {m : Map Byte} {lo : Option Nat} (hm : mwfFrom 0 lo m = true) (acc : Map Byte)
    (a n dst q : Nat) : getByte (pasteRange acc dst (takeRange m a n)) q =
      if dst ≤ q ∧ q < dst + n then (mfind m (a + (q - dst))).getD (getByte acc q) else getByte acc q := by
  induction m generalizing lo acc with
  | nil => exact (ite_self _).symm
  | cons e t ih =>
    obtain ⟨k, x⟩ := e
    obtain ⟨-, -, ht⟩ := (mwfFrom_cons 0 lo k x t).1 hm
    rw [takeRange, mfind]
    by_cases hbelow : k < a
    · rw [if_pos hbelow, ih ht, if_neg (show ¬k = a + (q - dst) by omega)]
    rw [if_neg hbelow]
    by_cases hin : k < a + n
    · have hpaste : pasteRange acc dst ((k - a, x) :: takeRange t a n) =
          pasteRange (putByte acc (dst + (k - a)) x) dst (takeRange t a n) := rfl
      rw [if_pos hin, hpaste, ih ht, getByte_putByte]
      by_cases hq : q = dst + (k - a)
      · have hnone : mfind t (a + (q - dst)) = none := mfind_eq_none_of_mwfFrom ht (by omega)
        rw [if_pos hq, if_pos (by omega), if_pos (by omega), if_pos (by omega), hnone]
        rfl
      · rw [if_neg hq]
        split
        · rw [if_neg (by omega)]
        · rfl
    · have hnone : dst ≤ q ∧ q < dst + n → (if k = a + (q - dst) then some x else mfind t (a + (q - dst))) = none := by
        intro hq
        rw [if_neg (by omega), mfind_eq_none_of_mwfFrom ht (by omega)]
      rw [if_neg hin]
      split
      · rw [hnone ‹_›]; rfl
      · rfl

/-- Pasting the lanes `xs` of a register in canonical form at lanes `k` and up. -/
theorem getByte_pasteLanes {v : VReg} (hv : Memory.wf v = true) (xs : List Nat) (m : VReg) (k i : Nat) {j : Nat} (hj : j < 64) :
    getByte ((xs.zipIdx k).foldl (fun m e => pasteRange m (64 * e.2) (takeRange v (64 * e.1) 64)) m) (64 * i + j) =
      if k ≤ i ∧ i < k + xs.length then (mfind v (64 * xs.getD (i - k) 0 + j)).getD (getByte m (64 * i + j))
      else getByte m (64 * i + j) := by
  induction xs generalizing m k with
  | nil => rw [if_neg (by simp)]; rfl
  | cons x t ih =>
    rw [List.zipIdx_cons, List.foldl_cons, ih, getByte_pasteRange_takeRange hv, List.length_cons]
    by_cases hi : i = k
    · subst hi
      rw [if_neg (by omega), if_pos (by omega), if_pos (by omega), Nat.sub_self, List.getD_cons_zero, Nat.add_sub_cancel_left]
    · rw [if_neg (c := 64 * k ≤ _ ∧ _) (by omega)]
      by_cases hin : k + 1 ≤ i ∧ i < k + 1 + t.length
      · rw [if_pos hin, if_pos (by omega), show i - k = i - (k + 1) + 1 by omega, List.getD_cons_succ]
      · rw [if_neg hin, if_neg (by omega)]

/-- The permutation of a register in canonical form moves whole lanes (R241). -/
theorem getByte_permuteReg {v : VReg} (hv : Memory.wf v = true) (p : Nat) {l j : Nat} (hl : l < 64) (hj : j < 64) :
    getByte (permuteReg v p) (64 * l + j) = getByte v (64 * laneFrom p 11 l + j) := by
  rw [permuteReg, getByte_pasteLanes hv _ _ _ _ hj, length_benesLanes, if_pos (by omega), Nat.sub_zero, getD_benesLanes p hl]
  rfl

/-! ## After a result -/

/-- The latch w0 after a result. -/
theorem w0_vaPly (s u : State) (h : Here) (r : Ring) (d : BitVec 8) (push pop : Bool) (v : VReg) (m : W32) :
    ((u.setPly h (vaPly s h r d push pop v m)).regs h).w0 = some ⟨v, ((s.ply h).headE r).tag⟩ := by
  rw [State.setPly_regs]
  rfl

/-- The registers after a result: the destination, unless it goes to the latches alone, and no other. -/
theorem rdV_vaPly (s : State) (h : Here) (r : Ring) (d : BitVec 8) (push pop : Bool) (v : VReg) (m : W32) (j : Nat) :
    ((s.vaWrote h d v).setPly h (vaPly s h r d push pop v m)).rdV h j =
      if d ≠ 248 ∧ j = (s.regs h).vnum d then v else s.rdV h j := by
  rw [State.rdV_setPly _ _ (by rw [vaPly_vbase, State.vaWrote_ply]), State.rdV_vaWrote]

/-! ## The permute network (R241) -/

/-- The control word that `vperm` finds in its p register (R240). -/
def permWord (s : State) (h : Here) (pc : BitVec 4) : Nat := (mget 0 (s.regs h).p pc.toNat).toNat

/-- `vperm` ends with its source, permuted, as its result, and sets no flag. -/
theorem exec_vperm_of_issues {d a : BitVec 8} {pc : BitVec 4} {push pop : Bool} {s : State} {h : Here} {r : Ring}
    (hi : Issues s h r [(d, false), (a, true)] pop) :
    exec (.vperm d a pc push pop) s =
      .next ((s.vaWrote h d (permuteReg (s.vsrc h a) (permWord s h pc))).setPly h
        (vaPly s h r d push pop (permuteReg (s.vsrc h a) (permWord s h pc)) 0)) := by
  have hexec := exec_of_issues (i := .vperm d a pc push pop) hi rfl rfl rfl rfl
  have hregs : ((s.ply h).issued r pop).regs = s.regs h := Ply.issued_regs ..
  simp only [State.vsrc_issued, State.setPly_regs, hregs] at hexec
  rw [hexec, State.finishVec_eq_note_zero, State.vaResult_issued _ _ _ _ _ _ _ rfl, State.note_finishVec]
  rfl

/-- What the claim says of one `vperm`. -/
def MovesLanes (d a : BitVec 8) (pc : BitVec 4) (push pop : Bool) (s : State) (h : Here) (r : Ring) : Prop :=
  ∃ t v, exec (.vperm d a pc push pop) s = .next t ∧
    (t.regs h).w0 = some ⟨v, ((s.ply h).headE r).tag⟩ ∧ (t.regs h).w1 = (s.regs h).w0 ∧
    (d ≠ 248 → t.rdV h ((s.regs h).vnum d) = v) ∧
    (∀ j, (d = 248 ∨ j ≠ (s.regs h).vnum d) → t.rdV h j = s.rdV h j) ∧
    t.ply h = { performed (s.ply h) r push pop none with
      regs := (t.ply h).regs, vaOld := (t.ply h).vaOld, vlOldVa := (t.ply h).vlOldVa } ∧
    ∀ l < 64, ∀ j < 64, getByte v (64 * l + j) = getByte (s.vsrc h a) (64 * laneFrom (permWord s h pc) 11 l + j)

/-- Of one `vperm` all but the bytes of its result holds without condition. -/
theorem movesLanes_iff {d a : BitVec 8} {pc : BitVec 4} {push pop : Bool} {s : State} {h : Here} {r : Ring}
    (hi : Issues s h r [(d, false), (a, true)] pop) : MovesLanes d a pc push pop s h r ↔
      ∀ l < 64, ∀ j < 64, getByte (permuteReg (s.vsrc h a) (permWord s h pc)) (64 * l + j) =
        getByte (s.vsrc h a) (64 * laneFrom (permWord s h pc) 11 l + j) := by
  constructor
  · rintro ⟨t, v, hnext, hw0, -, -, -, -, hlanes⟩
    rw [exec_vperm_of_issues hi] at hnext
    cases hnext
    rw [w0_vaPly, Option.some_inj, WLatch.mk.injEq] at hw0
    rwa [hw0.1]
  · intro hlanes
    refine ⟨_, _, exec_vperm_of_issues hi, w0_vaPly .., ?w1, fun hd => ?dest, fun j hj => ?others, ?ply, hlanes⟩
    case w1 => rw [State.setPly_regs]; rfl
    case dest => rw [rdV_vaPly, if_pos ⟨hd, rfl⟩]
    case others => rw [rdV_vaPly, if_neg fun h => hj.elim h.1 fun hne => hne h.2]
    case ply =>
      have hpend : (performed (s.ply h) r push pop none).pend = (s.ply h).pend := Ply.setRing_pend ..
      rw [State.setPly_ply, vaPly, noted, if_pos rfl, ← hpend]

/-- With a source in canonical form, as every write keeps it, `vperm` does what the claim says (R239, R241). -/
theorem movesLanes_of_wf {d a : BitVec 8} {pc : BitVec 4} {push pop : Bool} {s : State} {h : Here} {r : Ring}
    (hi : Issues s h r [(d, false), (a, true)] pop) (hv : Memory.wf (s.vsrc h a) = true) :
    MovesLanes d a pc push pop s h r :=
  (movesLanes_iff hi).2 fun _ hl _ hj => getByte_permuteReg hv _ hl hj

end Sys2Proof.Machine
end

section
/-! SUPPORT. The quantiser (R138, R242): the codes and scales of its blocks, VA's write of a second register, and what one
`vquant` does. -/

namespace Sys2Proof.Machine

open Sys2Proof Sys2Proof.Claims

/-! ## The quantiser's blocks (R138, R242) -/

theorem length_quantTry (f : Fmt) (xs : List ExNum) (c : Int) : (quantTry f xs c).1.length = xs.length := by
  rw [quantTry]
  induction xs with
  | nil => rfl
  | cons x t ih => rw [List.foldr_cons, List.length_cons, List.length_cons, ih]

/-- What all the candidates have, the one kept has. -/
theorem foldl_choice {α : Type} {P : α → Prop} (better : α → α → Bool) {a : α} {t : List α} (ha : P a) (ht : ∀ b ∈ t, P b) :
    P (t.foldl (fun a b => if better a b then b else a) a) :=
  List.foldlRecOn t _ ha fun x hx b hb => by
    split
    · exact ht b hb
    · exact hx

/-- The quantiser gives one code for each value of its block. -/
theorem length_quantBlock (r : W32) (xs : List ExNum) : (quantBlock r xs).2.1.length = xs.length := by
  rw [quantBlock]
  split
  · exact List.length_map ..
  split
  · exact List.length_map ..
  dsimp only
  split
  next => exact List.length_map ..
  next a t hcands =>
    have hall : ∀ b ∈ a :: t, b.2.1.length = xs.length := by
      rw [← hcands]
      intro b hb
      obtain ⟨c, -, rfl⟩ := List.mem_map.1 hb
      exact length_quantTry ..
    obtain ⟨ha, ht⟩ := List.forall_mem_cons.1 hall
    exact foldl_choice (P := fun b : Int × List Nat × W32 × Dy => b.2.1.length = xs.length)
      (fun a b => b.2.2.2.lt a.2.2.2) ha ht

theorem blocksOf_map_range (f : Nat → ExNum) {t n : Nat} (ht : 32 * n ≤ t) :
    blocksOf ((List.range t).map f) n = (List.range n).map (fun k => (List.range 32).map (fun j => f (32 * k + j))) := by
  refine List.map_congr_left fun k hk => List.ext_getElem ?_ fun j _ _ => ?_
  · have := List.mem_range.1 hk
    simp only [List.length_take, List.length_drop, List.length_map, List.length_range]
    omega
  · simp

/-- The elements of a run of blocks of `w` codes each. -/
theorem getD_flatten_of_length {α : Type} {w : Nat} (hw : 0 < w) (d : α) (bs : List (List α)) (hbs : ∀ b ∈ bs, b.length = w)
    (i : Nat) : bs.flatten.getD i d = (bs.getD (i / w) []).getD (i % w) d := by
  induction bs generalizing i with
  | nil => rfl
  | cons b t ih =>
    obtain ⟨hb, ht⟩ := List.forall_mem_cons.1 hbs
    rw [List.flatten_cons]
    by_cases hi : i < w
    · rw [List.getD_append _ _ _ _ (by omega), Nat.div_eq_of_lt hi, Nat.mod_eq_of_lt hi, List.getD_cons_zero]
    · obtain ⟨j, rfl⟩ : ∃ j, i = j + w := ⟨i - w, by omega⟩
      rw [List.getD_append_right _ _ _ _ (by omega), hb, Nat.add_sub_cancel, ih ht, Nat.add_div_right j hw,
        List.getD_cons_succ, Nat.add_mod_right]

theorem length_flatten_of_length {α : Type} {w : Nat} (bs : List (List α)) (hbs : ∀ b ∈ bs, b.length = w) :
    bs.flatten.length = bs.length * w := by
  rw [List.length_flatten, List.eq_replicate_of_mem (a := w) (l := bs.map List.length) (by simpa using hbs), List.length_map,
    List.sum_replicate, smul_eq_mul]

theorem elemAt_eight (v : VReg) (k : Nat) : elemAt v 8 k = (getByte v k).toNat := by
  simp [elemAt, getLE, getBytes, leNat]

/-- Writing bytes as elements of 8 bits. -/
theorem getByte_writeTile_eight (v : VReg) (f : Nat → Nat) (t k : Nat) :
    getByte (writeTile v 8 0 ((List.range t).map f)) k = if k < t then BitVec.ofNat 8 (f k) else getByte v k := by
  have hsize : ElemSize 8 := .inr ⟨1, rfl, Nat.one_pos⟩
  split
  · refine BitVec.eq_of_toNat_eq ?_
    rw [← elemAt_eight, elemAt_writeTile_range hsize _ _ ‹_›, BitVec.toNat_ofNat]
  · exact getByte_writeTile_range hsize _ _ (by omega)

/-! ## VA's write of a second register (R34, R216, R242) -/

/-- The old values of registers that a ply keeps, changed (R216). -/
def Ply.withOlds (p : Ply) (a b : Map VReg) : Ply := { p with vaOld := a, vlOldVa := b }

theorem Ply.told_withOlds (p : Ply) (k : Nat) (x : IxView) (a b : Map VReg) :
    (p.withOlds a b).told k x = (p.told k x).withOlds a b := by
  rw [Ply.told, Ply.told, apply_ite (fun q => Ply.withOlds q a b)]
  rfl

theorem Ply.ring_withOlds (p : Ply) (r : Ring) (a b : Map VReg) : (p.withOlds a b).ring r = p.ring r := by cases r <;> rfl

theorem Ply.headE_withOlds (p : Ply) (r : Ring) (a b : Map VReg) : (p.withOlds a b).headE r = p.headE r := by
  rw [Ply.headE, Ply.ring_withOlds, Ply.headE]

theorem Ply.popTok_withOlds (p : Ply) (k j : Nat) (a b : Map VReg) :
    (p.withOlds a b).popTok k j = (p.popTok k j).withOlds a b := by
  rw [Ply.popTok, Ply.popTok, ← Ply.told_withOlds]
  rfl

theorem learns_withOlds (p : Ply) (r : Ring) (k : Option Nat) (a b : Map VReg) :
    learns (p.withOlds a b) r k = learns p r k := by
  cases k with
  | none => simp only [learns, Ply.headE_withOlds, Ply.told_withOlds]; rfl
  | some k =>
    simp only [learns, Ply.headE_withOlds, Ply.ring_withOlds, Ply.popTok_withOlds,
      ← apply_ite (fun q => Ply.withOlds q a b), Ply.told_withOlds]
    rfl

/-- The pop of an entry stands apart from the old values that its ply keeps. -/
theorem Ply.issued_withOlds (p : Ply) (r : Ring) (pop : Bool) (a b : Map VReg) :
    (p.withOlds a b).issued r pop = (p.issued r pop).withOlds a b := by
  rw [Ply.issued, learns_withOlds, Ply.ring_withOlds, Ply.issued]
  cases r <;> rfl

theorem performed_withOlds (p : Ply) (r : Ring) (push pop : Bool) (raise : Option Nat) (a b : Map VReg) :
    performed (p.withOlds a b) r push pop raise = (performed p r push pop raise).withOlds a b := by
  rw [Ply.performed_eq_mapRing_issued, Ply.issued_withOlds, Ply.performed_eq_mapRing_issued]
  cases r <;> rfl

/-- What VA's write of register `n` makes of the old values that ply h keeps (R34, R216). -/
def State.olds (s : State) (h : Here) (n : Nat) (v : VReg) (p : Ply) : Ply :=
  p.withOlds (keepOld p.vaOld n (s.rdV h n)) (if (mfind p.vlOldVa n).isSome then mput p.vlOldVa n v else p.vlOldVa)

theorem State.wrVa_eq (s : State) (h : Here) (n : Nat) (v : VReg) :
    s.wrVa h n v = (s.wrV h n v).setPly h (s.olds h n v (s.ply h)) :=
  s.wrV_setPly h (p := s.olds h n v (s.ply h)) rfl n v

@[simp] theorem State.wrVa_ply (s : State) (h : Here) (n : Nat) (v : VReg) :
    (s.wrVa h n v).ply h = s.olds h n v (s.ply h) := by
  rw [State.wrVa_eq, State.setPly_ply]

@[simp] theorem State.wrVa_regs (s : State) (h : Here) (n : Nat) (v : VReg) : (s.wrVa h n v).regs h = s.regs h := by
  rw [State.regs, State.wrVa_ply]
  rfl

theorem State.rdV_wrVa (s : State) (h : Here) (n : Nat) (v : VReg) (j : Nat) :
    (s.wrVa h n v).rdV h j = if j = n then v else s.rdV h j := by
  rw [State.wrVa_eq, State.rdV_setPly _ _ (by rw [State.wrV_ply]; rfl), State.rdV_wrV]

theorem State.headE_wrVa (s : State) (h : Here) (n : Nat) (v : VReg) (r : Ring) :
    ((s.wrVa h n v).ply h).headE r = (s.ply h).headE r := by
  rw [State.wrVa_ply, State.olds, Ply.headE_withOlds]

/-- VA's write of a register after the pop of its entry is its write before the pop (R34, R40). -/
theorem State.wrVa_issued (s : State) (h : Here) (r : Ring) (pop : Bool) (n : Nat) (v : VReg) :
    (s.setPly h ((s.ply h).issued r pop)).wrVa h n v =
      (s.wrVa h n v).setPly h (((s.wrVa h n v).ply h).issued r pop) := by
  rw [State.setPly_wrVa s h (Ply.issued_vbase ..), State.wrVa_ply, State.wrVa_eq, State.setPly_setPly, State.olds,
    Ply.issued_withOlds, Ply.issued_vaOld, Ply.issued_vlOldVa]
  rfl

/-! ## The quantiser (R242) -/

/-- Word-specific checks that all pass stop no entry. -/
theorem State.issueVec_of_passed (s : State) (h : Here) (r : Ring) (fs : List VField) (shf : Nat) {extra : List (Bool × Nat)}
    (recs : List VRec) (pop : Bool) (body : State → Entry → State) (hx : extra.find? Prod.fst = none) :
    s.issueVec h r fs shf extra recs pop body = s.issueVec h r fs shf [] recs pop body := by
  simp only [State.issueVec, hx, List.find?_nil]


/-- The records of a `vquant` that meets its conditions meet no reason of R130. -/
theorem firstRec_quantRecs {e : Entry} (hsrc : RecOk e.fmt.src e.shape.bits) (hdst : recordReason e.fmt.dst = none)
    (hfits : e.shape.elems * (fmtOf e.fmt.dst).cbits ≤ 32768) (hcls : (fmtOf e.fmt.dst).cls = 0)
    (hscale : (fmtOf e.fmt.dst).scale = 1) : firstRec (quantRecs e) = none := by
  simp [quantRecs, firstRec, vrecOf_reason_of_recOk hsrc, hdst, Nat.not_lt.2 hfits, hcls, hscale]

/-- The block `k` that `vquant` quantises, with its scale, its codes and its flags (R138, R242). -/
def vquantBlock (s : State) (h : Here) (r : Ring) (a : BitVec 8) (k : Nat) : Nat × List Nat × W32 :=
  let e := (s.ply h).headE r
  quantBlock e.fmt.dst ((List.range 32).map (fun j => (fmtOf e.fmt.src).decode (srcElem s h a e.shape.bits (32 * k + j))))

/-- The scales that `vquant` leaves in register `b`, and what stood there beyond them. -/
def vquantScales (s : State) (h : Here) (r : Ring) (a b : BitVec 8) : VReg :=
  writeTile (s.rdV h ((s.regs h).vnum b)) 8 0
    ((List.range (((s.ply h).headE r).shape.elems / 32)).map (fun k => (vquantBlock s h r a k).1))

/-- The codes of all blocks of `vquant`. -/
def vquantCodes (s : State) (h : Here) (r : Ring) (a : BitVec 8) : List Nat :=
  ((List.range (((s.ply h).headE r).shape.elems / 32)).map (fun k => (vquantBlock s h r a k).2.1)).flatten

/-- The flags of all blocks of `vquant`. -/
def vquantFlags (s : State) (h : Here) (r : Ring) (a : BitVec 8) : W32 :=
  (List.range (((s.ply h).headE r).shape.elems / 32)).foldl (fun m k => m ||| (vquantBlock s h r a k).2.2) 0

theorem length_vquantBlock (s : State) (h : Here) (r : Ring) (a : BitVec 8) (k : Nat) :
    (vquantBlock s h r a k).2.1.length = 32 := by
  rw [vquantBlock, length_quantBlock, List.length_map, List.length_range]

theorem vquantCodes_blocks (s : State) (h : Here) (r : Ring) (a : BitVec 8) :
    ∀ b ∈ (List.range (((s.ply h).headE r).shape.elems / 32)).map (fun k => (vquantBlock s h r a k).2.1), b.length = 32 := by
  intro b hb
  obtain ⟨k, -, rfl⟩ := List.mem_map.1 hb
  exact length_vquantBlock ..

theorem length_vquantCodes {s : State} {h : Here} {r : Ring} (a : BitVec 8)
    (ht : ((s.ply h).headE r).shape.elems % 32 = 0) :
    (vquantCodes s h r a).length = ((s.ply h).headE r).shape.elems := by
  rw [vquantCodes, length_flatten_of_length _ (vquantCodes_blocks s h r a), List.length_map, List.length_range,
    Nat.div_mul_cancel (Nat.dvd_of_mod_eq_zero ht)]

theorem getD_vquantCodes {s : State} {h : Here} {r : Ring} (a : BitVec 8) {i : Nat}
    (ht : ((s.ply h).headE r).shape.elems % 32 = 0) (hi : i < ((s.ply h).headE r).shape.elems) :
    (vquantCodes s h r a).getD i 0 = (vquantBlock s h r a (i / 32)).2.1.getD (i % 32) 0 := by
  have hk : i / 32 < ((s.ply h).headE r).shape.elems / 32 := by omega
  rw [vquantCodes, getD_flatten_of_length (by decide) _ _ (vquantCodes_blocks s h r a),
    List.getD_eq_getElem (d := []) _ (by simpa using hk), List.getElem_map, List.getElem_range]

/-- `s` once `vquant` has written its scales. -/
def State.scaled (s : State) (h : Here) (r : Ring) (a b : BitVec 8) : State :=
  s.wrVa h ((s.regs h).vnum b) (vquantScales s h r a b)

/-- The result of `vquant`: its codes, over what the register held. -/
def vquantResult (s : State) (h : Here) (r : Ring) (d a b : BitVec 8) : VReg :=
  writeTile (vaBase (s.scaled h r a b) h d) (fmtOf ((s.ply h).headE r).fmt.dst).cbits 0 (vquantCodes s h r a)

/-- `vquant` writes its scales, and then ends with its codes as its result and with its flags. -/
theorem exec_vquant_of_issues {d a b : BitVec 8} {push pop : Bool} {s : State} {h : Here} {r : Ring}
    (hi : Issues s h r [(d, false), (a, true), (b, false)] pop)
    (ht : ((s.ply h).headE r).shape.elems % 32 = 0) (hne : d = 248 ∨ (s.regs h).vnum b ≠ (s.regs h).vnum d)
    (hrecs : firstRec (quantRecs ((s.ply h).headE r)) = none) :
    exec (.vquant d a b push pop) s =
      .next (((s.scaled h r a b).vaWrote h d (vquantResult s h r d a b)).setPly h
        (vaPly (s.scaled h r a b) h r d push pop (vquantResult s h r d a b) (vquantFlags s h r a))) := by
  have hregs : ((s.ply h).issued r pop).regs = s.regs h := Ply.issued_regs ..
  have hextra : List.find? Prod.fst [(decide (((s.ply h).headE r).shape.elems % 32 ≠ 0), 0),
      (!isLatch d && decide ((s.regs h).vnum b = (s.regs h).vnum d), 4)] = none := by
    have hsame : (!isLatch d && decide ((s.regs h).vnum b = (s.regs h).vnum d)) = false := by
      obtain rfl | hne := hne
      · rfl
      · rw [decide_eq_false hne, Bool.and_false]
    rw [hsame, ht]
    rfl
  have hexec := exec_of_issues (i := .vquant d a b push pop) hi rfl
    (State.issueVec_of_passed s h r _ _ _ pop _ hextra) rfl hrecs
  have hblocks (f : Nat → ExNum) := blocksOf_map_range f (Nat.mul_div_le ((s.ply h).headE r).shape.elems 32)
  simp only [State.vsrc_issued, State.setPly_regs, hregs, State.rdV_issued, readTile, List.map_map, Function.comp_def,
    hblocks, List.foldl_map, List.flatMap_def, State.wrVa_issued] at hexec
  have hresult : exec (.vquant d a b push pop) s = .next
      (((((s.scaled h r a b).setPly h (((s.scaled h r a b).ply h).issued r pop)).vaResult h
        (((s.scaled h r a b).ply h).headE r).tag d (fun v => writeTile v (fmtOf ((s.ply h).headE r).fmt.dst).cbits 0
          (vquantCodes s h r a))).note h r (vquantFlags s h r a)).finishVec h r push none) := by
    rw [State.scaled, State.headE_wrVa]
    exact hexec
  rw [hresult, State.vaResult_issued _ _ _ _ _ _ _ rfl, State.note_finishVec]
  rfl

/-- What the claim says of one `vquant`. -/
def WritesCodesAndScales (d a b : BitVec 8) (push pop : Bool) (s : State) (h : Here) (r : Ring) : Prop :=
  let e := (s.ply h).headE r
  let n := (fmtOf e.fmt.dst).cbits
  let nb := (s.regs h).vnum b
  ∃ t v, exec (.vquant d a b push pop) s = .next t ∧
    (t.regs h).w0 = some ⟨v, e.tag⟩ ∧ (d ≠ 248 → t.rdV h ((s.regs h).vnum d) = v) ∧
    (∀ i < e.shape.elems, elemAt v n i = (vquantBlock s h r a (i / 32)).2.1.getD (i % 32) 0 % 2 ^ n) ∧
    (∀ k, getByte (t.rdV h nb) k =
      if k < e.shape.elems / 32 then BitVec.ofNat 8 (vquantBlock s h r a k).1 else getByte (s.rdV h nb) k) ∧
    (∀ j, j ≠ nb → (d = 248 ∨ j ≠ (s.regs h).vnum d) → t.rdV h j = s.rdV h j) ∧
    t.ply h = { performed (s.ply h) r push pop none with
      regs := (t.ply h).regs, pend := (t.ply h).pend, vaOld := (t.ply h).vaOld, vlOldVa := (t.ply h).vlOldVa }

theorem Fmt.cbits_elemSize (f : Fmt) : ElemSize f.cbits := by
  rw [Fmt.cbits]
  split
  · split
    · exact .inl rfl
    · exact .inr ⟨1, rfl, Nat.one_pos⟩
  · exact .inr ⟨2, rfl, Nat.two_pos⟩
  · exact .inr ⟨2, rfl, Nat.two_pos⟩
  · exact .inr ⟨4, rfl, by decide⟩

theorem writesCodesAndScales_of_issues {d a b : BitVec 8} {push pop : Bool} {s : State} {h : Here} {r : Ring}
    (hi : Issues s h r [(d, false), (a, true), (b, false)] pop)
    (ht : ((s.ply h).headE r).shape.elems % 32 = 0) (hne : d = 248 ∨ (s.regs h).vnum b ≠ (s.regs h).vnum d)
    (hrecs : firstRec (quantRecs ((s.ply h).headE r)) = none) : WritesCodesAndScales d a b push pop s h r := by
  have hregs : (s.scaled h r a b).regs h = s.regs h := State.wrVa_regs ..
  refine ⟨_, vquantResult s h r d a b, exec_vquant_of_issues hi ht hne hrecs, ?w0, fun hd => ?dest,
    fun i hlt => ?codes, fun k => ?scales, fun j hj hd => ?others, ?ply⟩
  case w0 => rw [w0_vaPly, State.scaled, State.headE_wrVa]
  case dest => rw [rdV_vaPly, hregs, if_pos ⟨hd, rfl⟩]
  case codes =>
    rw [vquantResult, elemAt_writeTile (Fmt.cbits_elemSize _), length_vquantCodes a ht, Nat.zero_add,
      if_pos ⟨Nat.zero_le i, hlt⟩, Nat.sub_zero, getD_vquantCodes a ht hlt]
  case scales =>
    rw [rdV_vaPly, hregs, if_neg fun h => hne.elim h.1 fun hne => hne h.2, State.scaled, State.rdV_wrVa, if_pos rfl,
      vquantScales, getByte_writeTile_eight]
  case others =>
    rw [rdV_vaPly, hregs, if_neg fun h => hd.elim h.1 fun hne => hne h.2, State.scaled, State.rdV_wrVa, if_neg hj]
  case ply =>
    rw [State.setPly_ply, vaPly, State.scaled, State.wrVa_ply, State.olds, performed_withOlds]
    rfl

end Sys2Proof.Machine
end

section
/-! SUPPORT. The claim about `vperm` and `vquant` (R241, R242): what of it holds, and the register on which it fails. -/

namespace Sys2Proof.Machine

open Sys2Proof Sys2Proof.Claims

/-! ## What holds -/

/-- The claim says no more than that every `vperm` moves its lanes: what it says of `vquant` holds in every state, and
`movesLanes_of_wf` gives the rest where the source is in canonical form. -/
theorem permuteAndQuantise_iff : Obligations.PermuteAndQuantise ↔
    ∀ d a pc push pop s h r, Issues s h r [(d, false), (a, true)] pop → MovesLanes d a pc push pop s h r := by
  refine ⟨fun hclaim => hclaim.1, fun hmoves => ⟨hmoves, ?vquant⟩⟩
  intro d a b push pop s h r hi _ _ _ _ ht hne hsrc hdst hfits hcls hscale
  exact writesCodesAndScales_of_issues hi ht hne (firstRec_quantRecs hsrc hdst hfits hcls hscale)

/-! ## A register out of order -/

/-- A register whose listed bytes do not stand in the order of their addresses: 5 at byte 64, then 7 at byte 0. -/
def unorderedReg : VReg := [(64, 5), (0, 7)]

/-- An entry of VA is to run in slot 0 of core 0 on die 0, whose ply has 32 vector registers; v1 is `unorderedReg`. -/
def unorderedState : State :=
  { State.reset with
    turn := .ring 0 0 0 .va
    dies := [(0, { Die.reset with
      cores := [(0, { Core.reset with vregs := [(1, unorderedReg)] })]
      plies := [(0, { Ply.reset with
        vcount := 32, va := { RingQ.reset with entries := [{ (default : Entry) with shape := .reset }] } })] })] }

theorem fieldOk_of_register {g : PlyRegs} {count tag : Nat} {v : BitVec 8} {reads : Bool} (hv : v.toNat < 248)
    (hc : v.toNat < count) : FieldOk g count tag v reads := by
  have hnum : g.vnum v = v.toNat := if_neg (by omega)
  rw [FieldOk, if_neg (by omega), hnum]
  exact ⟨hc, hv⟩

/-- `vperm d=v9 a=v1 pc=p0` may issue there. -/
theorem unorderedState_issues : Issues unorderedState ⟨0, 0, 0⟩ .va [(9, false), (1, true)] false where
  here := by decide
  fresh := by decide
  fields := by
    simp only [List.forall_mem_cons, List.not_mem_nil, false_imp_iff, implies_true, and_true]
    exact ⟨fieldOk_of_register (by decide) (by decide), fieldOk_of_register (by decide) (by decide)⟩
  fits := by decide
  token := nofun

theorem vsrc_unorderedState : unorderedState.vsrc ⟨0, 0, 0⟩ 1 = unorderedReg := by decide

theorem permWord_unorderedState : permWord unorderedState ⟨0, 0, 0⟩ 0 = 0 := BitVec.toNat_zero

/-- The straight network loses byte 0, which holds 7: lane 0 is read only up to the first listed byte beyond it. -/
theorem getByte_permuteReg_unorderedReg : getByte (permuteReg unorderedReg 0) 0 = 0 := by
  rw [permuteReg, benesLanes_zero]
  decide

theorem not_movesLanes_unorderedState : ¬ MovesLanes 9 1 0 false false unorderedState ⟨0, 0, 0⟩ .va := by
  intro hmoves
  have hbyte := (movesLanes_iff unorderedState_issues).1 hmoves 0 (by decide) 0 (by decide)
  rw [vsrc_unorderedState, permWord_unorderedState, laneFrom_zero, getByte_permuteReg_unorderedReg] at hbyte
  exact absurd hbyte (by decide)

end Sys2Proof.Machine

open Sys2Proof.Machine in
/-- Refutes O36: it asks nothing of the source register, and where the addresses of its listed bytes do not rise (as they do
after every byte write from a canonical register, `wf_putByte`) `vperm` under the straight control word loses byte 0. -/
theorem not_permuteAndQuantise : ¬ Obligations.PermuteAndQuantise := fun hclaim =>
  not_movesLanes_unorderedState (permuteAndQuantise_iff.1 hclaim _ _ _ _ _ _ _ _ unorderedState_issues)
end
